-- ==== Sys2Proof/Word.lean ====
section
/-! DEFINITION. The word types of the AAS signal block (00_scope.md R9). -/

namespace Sys2Proof

/-- A pixel byte (`u8`, R9). -/
abbrev U8 := BitVec 8

/-- An unsigned 32-bit word (`u32`, R9): command words, control registers, generator words. -/
abbrev U32 := BitVec 32

/-- A signed 32-bit sample (`i32`, R9, R11): two's complement, arithmetic wraps modulo 2^32. -/
abbrev I32 := BitVec 32

/-- An IEEE 754 binary64 value by its bit pattern (`f64`, R9, R15). -/
abbrev F64 := BitVec 64

/-- The value on the host port: wide enough for the widest element (20_memory.md R50). -/
abbrev PortWord := BitVec 64

/-- Names one operation among all those of a run, so that a value the spec leaves open is drawn anew for
each: the operation's place inside its command first, the number of the host step last (log 3). -/
abbrev Path := List Nat

end Sys2Proof
end

