-- ==== Sys2Proof/Machine/Arith.lean ====
section
/-! DEFINITION. The integer laws common to all units (00_scope.md R11 to R14). Addition, subtraction,
negation and multiplication of `i32` are those of `BitVec 32`, which wrap (R11). -/

namespace Sys2Proof.Machine

/-- `a >> n` on an `i32`: arithmetic, rounds toward minus infinity (R12). -/
def asr (a : I32) (n : Nat) : I32 := a.sshiftRight n

/-- `a / b` on `i32`, `b ≠ 0`: truncates toward zero; `tdiv(-2^31, -1)` wraps (R13). -/
def tdiv (a b : I32) : I32 := a.sdiv b

/-- `a mod 4` and `a & 3` on an `i32`: the two low bits, 0..3 (R13). -/
def low2 (a : I32) : Nat := (a &&& 3).toNat

/-- `clamp255`: an `i32` clamped to 0..255, stored as a byte (R14). -/
def clamp255 (v : I32) : U8 :=
  if v.toInt < 0 then 0 else if v.toInt > 255 then 255 else v.setWidth 8

/-- `IsPow2(n)`: `n ≥ 1` and exactly one bit set (42_fft.md R118). -/
def isPow2 (n : Nat) : Bool := n != 0 && n == 2 ^ n.log2

end Sys2Proof.Machine
end

