-- ==== Sys2Proof/Syntax.lean ====
section
/-! DEFINITION. The commands of AAS-CMD v1: one constructor per row of spec/opcode_table.json
(30_encoding.md R75), operands as R73 and R74 read them. -/

namespace Sys2Proof

/-- A context number (30_encoding.md R70; 10_state.md R29): 0, 1 or 2. -/
abbrev CtxId := Fin 3

/-- The number of an `x` or an `f` operand register (R73). -/
abbrev RegId := Fin 8

/-- The number of a line buffer of a context (R73). -/
abbrev LineId := Fin 4

/-- The number of a filter slot (R74). -/
abbrev SlotId := Fin 8

/-- A plane: 0 = Y, 1 = I, 2 = Q (R74). -/
abbrev PlaneId := Fin 3

/-- A field: 0 = even rows, 1 = odd rows (R74). -/
abbrev FieldId := Fin 2

/-- The commands of AAS-CMD v1. Operands stand in assembler order (30_encoding.md R77). -/
inductive Instr where
  /-- `NOP` (47_mem_sys.md R210). -/
  | nop
  /-- `PRNG.SEED c, xS` (40_prng.md R93). -/
  | prngSeed (c : CtxId) (xS : RegId)
  /-- `PRNG.NEXT c, xD` (R94). -/
  | prngNext (c : CtxId) (xD : RegId)
  /-- `PRNG.U01 c, fD` (R95). -/
  | prngU01 (c : CtxId) (fD : RegId)
  /-- `PRNG.URANGE c, fD, fLo, fHi` (R96). -/
  | prngUrange (c : CtxId) (fD fLo fHi : RegId)
  /-- `PRNG.TRI c, fD, fLo, fHi, fMode` (R97). -/
  | prngTri (c : CtxId) (fD fLo fHi fMode : RegId)
  /-- `IIR.INIT c, s, fRate, fCut, fVal` (41_iir.md R104). -/
  | iirInit (c : CtxId) (slot : SlotId) (fRate fCut fVal : RegId)
  /-- `IIR.LP c, s, fD, fS` (R105). -/
  | iirLp (c : CtxId) (slot : SlotId) (fD fS : RegId)
  /-- `IIR.HP c, s, fD, fS` (R106). -/
  | iirHp (c : CtxId) (slot : SlotId) (fD fS : RegId)
  /-- `IIR.LPA c, s, LD, LS` (R107). -/
  | iirLpa (c : CtxId) (slot : SlotId) (lD lS : LineId)
  /-- `IIR.HPA c, s, LD, LS` (R108). -/
  | iirHpa (c : CtxId) (slot : SlotId) (lD lS : LineId)
  /-- `IIR.INIT3 c, s, fRate, fCut, fVal` (R109). -/
  | iirInit3 (c : CtxId) (slot : SlotId) (fRate fCut fVal : RegId)
  /-- `IIR.LP3 c, s, fD, fS` (R110). -/
  | iirLp3 (c : CtxId) (slot : SlotId) (fD fS : RegId)
  /-- `IIR.LPA3 c, s, LD, LS` (R111). -/
  | iirLpa3 (c : CtxId) (slot : SlotId) (lD lS : LineId)
  /-- `FFT.FWD c` (42_fft.md R119). -/
  | fftFwd (c : CtxId)
  /-- `FFT.INV c` (R120). -/
  | fftInv (c : CtxId)
  /-- `FFT.SHIFT c` (R121). -/
  | fftShift (c : CtxId)
  /-- `Z.LDRE c, LS` (R122). -/
  | zLdre (c : CtxId) (lS : LineId)
  /-- `Z.STRE c, LD` (R123). -/
  | zStre (c : CtxId) (lD : LineId)
  /-- `Z.MULR c, LS` (R124). -/
  | zMulr (c : CtxId) (lS : LineId)
  /-- `CSC.RGB2YIQ` (43_csc.md R133). -/
  | cscRgb2yiq
  /-- `CSC.YIQ2RGB fld` (R134). -/
  | cscYiq2rgb (fld : FieldId)
  /-- `MUX.ENC fld, xAmp` (44_mux.md R142). -/
  | muxEnc (fld : FieldId) (xAmp : RegId)
  /-- `MUX.DEC fld, xAmp` (R144). -/
  | muxDec (fld : FieldId) (xAmp : RegId)
  /-- `LD.ROW c, LD, p, xRow` (47_mem_sys.md R211). -/
  | ldRow (c : CtxId) (lD : LineId) (p : PlaneId) (xRow : RegId)
  /-- `ST.ROW c, p, xRow, xShift, LS` (R212). -/
  | stRow (c : CtxId) (p : PlaneId) (xRow xShift : RegId) (lS : LineId)
  /-- `PIPE.PROCESS` (46_dispatcher.md R191). -/
  | pipeProcess
  /-- `PIPE.STAGE fld, k` (R200). -/
  | pipeStage (fld : FieldId) (k : Fin 32)
deriving DecidableEq, Repr

end Sys2Proof
end

