-- ==== Sys2Proof/WellFormed.lean ====
section
/-! DEFINITION. Which instruction terms stand for a command: the value constraints of 30_encoding.md
R75 that the operand types do not already carry. -/

namespace Sys2Proof

/-- The slot of a three-filter command leaves room for `slot + 1` and `slot + 2` (30_encoding.md R74). -/
abbrev SlotId.startsCascade (slot : SlotId) : Prop := slot.val ≤ 5

/-- A stage number names one of the seventeen stages (30_encoding.md R74). -/
abbrev stageNumberLegal (k : Fin 32) : Prop := k.val ≤ 16

/-- The value constraints of R75: `slot ≤ 5` on the three-filter commands, `stage ≤ 16` on
`PIPE.STAGE`. (`ctx ≠ 3`, `plane ≠ 3` and the line-buffer numbers are in the operand types.) -/
def Instr.wellFormed : Instr → Bool
  | .iirInit3 _ slot _ _ _ => decide slot.startsCascade
  | .iirLp3 _ slot _ _ => decide slot.startsCascade
  | .iirLpa3 _ slot _ _ => decide slot.startsCascade
  | .pipeStage _ k => decide (stageNumberLegal k)
  | .nop | .prngSeed .. | .prngNext .. | .prngU01 .. | .prngUrange .. | .prngTri ..
  | .iirInit .. | .iirLp .. | .iirHp .. | .iirLpa .. | .iirHpa ..
  | .fftFwd .. | .fftInv .. | .fftShift .. | .zLdre .. | .zStre .. | .zMulr ..
  | .cscRgb2yiq | .cscYiq2rgb .. | .muxEnc .. | .muxDec .. | .ldRow .. | .stRow ..
  | .pipeProcess => true

end Sys2Proof
end

