-- ==== Sys2Proof/Decode.lean ====
section
/-! DEFINITION. Decoding and encoding of command words (30_encoding.md R70 to R76). The decoder is total:
a word spells exactly one command or is illegal (R76). -/

namespace Sys2Proof

/-- The seven fields of a command word (30_encoding.md R70). -/
structure Fields where
  opc : BitVec 8
  ctx : BitVec 2
  rd : BitVec 3
  rs1 : BitVec 3
  rs2 : BitVec 3
  rs3 : BitVec 3
  imm : BitVec 10
deriving DecidableEq, Repr

/-- Cuts a word into its fields (R70). -/
def fieldsOf (w : U32) : Fields where
  opc := w.extractLsb' 24 8
  ctx := w.extractLsb' 22 2
  rd := w.extractLsb' 19 3
  rs1 := w.extractLsb' 16 3
  rs2 := w.extractLsb' 13 3
  rs3 := w.extractLsb' 10 3
  imm := w.extractLsb' 0 10

/-- Puts the fields together into a word (R70). -/
def assemble (f : Fields) : U32 :=
  f.opc ++ f.ctx ++ f.rd ++ f.rs1 ++ f.rs2 ++ f.rs3 ++ f.imm

/-- The context a `ctx` field names; 3 is illegal (R70). -/
def ctxOf (b : BitVec 2) : Option CtxId :=
  if h : b.toNat < 3 then some ⟨b.toNat, h⟩ else none

/-- The line buffer a register field names; bit 2 of the field must be zero (R73). -/
def lineOf (b : BitVec 3) : Option LineId :=
  if h : b.toNat < 4 then some ⟨b.toNat, h⟩ else none

/-- The `x` or `f` register a register field names (R73). -/
def regOf (b : BitVec 3) : RegId := ⟨b.toNat, b.isLt⟩

/-- `slot = imm[2:0]`, all other bits of `imm` zero (R74). -/
def slotOf (imm : BitVec 10) : Option SlotId :=
  if h : imm.toNat < 8 then some ⟨imm.toNat, h⟩ else none

/-- The slot of a three-filter command: `slot ≤ 5` (R74, R76). -/
def cascadeSlotOf (imm : BitVec 10) : Option SlotId :=
  if h : imm.toNat < 6 then some ⟨imm.toNat, by omega⟩ else none

/-- `plane = imm[1:0]`, 3 illegal, all other bits zero (R74). -/
def planeOf (imm : BitVec 10) : Option PlaneId :=
  if h : imm.toNat < 3 then some ⟨imm.toNat, h⟩ else none

/-- `field = imm[0]`, all other bits zero (R74). -/
def fieldOf (imm : BitVec 10) : Option FieldId :=
  if h : imm.toNat < 2 then some ⟨imm.toNat, h⟩ else none

/-- `field = imm[0]`, `stage = imm[5:1]` with 17..31 illegal, all other bits zero (R74). -/
def stageOf (imm : BitVec 10) : Option (FieldId × Fin 32) :=
  if h : imm.toNat < 34 then some (⟨imm.toNat % 2, by omega⟩, ⟨imm.toNat / 2, by omega⟩) else none

/-- A field the command does not use must be zero (R70, R76). -/
def unused {n : Nat} (b : BitVec n) : Option Unit :=
  if b = 0 then some () else none

/-- The command that the fields spell, row by row of the map R75; `none` is an illegal word (R76). -/
def decodeFields (f : Fields) : Option Instr :=
  match f.opc.toNat with
  | 0x00 => do
    unused f.ctx; unused f.rd; unused f.rs1; unused f.rs2; unused f.rs3; unused f.imm
    some .nop
  | 0x10 => do
    let c ← ctxOf f.ctx
    unused f.rd; unused f.rs2; unused f.rs3; unused f.imm
    some (.prngSeed c (regOf f.rs1))
  | 0x11 => do
    let c ← ctxOf f.ctx
    unused f.rs1; unused f.rs2; unused f.rs3; unused f.imm
    some (.prngNext c (regOf f.rd))
  | 0x12 => do
    let c ← ctxOf f.ctx
    unused f.rs1; unused f.rs2; unused f.rs3; unused f.imm
    some (.prngU01 c (regOf f.rd))
  | 0x13 => do
    let c ← ctxOf f.ctx
    unused f.rs3; unused f.imm
    some (.prngUrange c (regOf f.rd) (regOf f.rs1) (regOf f.rs2))
  | 0x14 => do
    let c ← ctxOf f.ctx
    unused f.imm
    some (.prngTri c (regOf f.rd) (regOf f.rs1) (regOf f.rs2) (regOf f.rs3))
  | 0x20 => do
    let c ← ctxOf f.ctx
    unused f.rd
    let slot ← slotOf f.imm
    some (.iirInit c slot (regOf f.rs1) (regOf f.rs2) (regOf f.rs3))
  | 0x21 => do
    let c ← ctxOf f.ctx
    unused f.rs2; unused f.rs3
    let slot ← slotOf f.imm
    some (.iirLp c slot (regOf f.rd) (regOf f.rs1))
  | 0x22 => do
    let c ← ctxOf f.ctx
    unused f.rs2; unused f.rs3
    let slot ← slotOf f.imm
    some (.iirHp c slot (regOf f.rd) (regOf f.rs1))
  | 0x23 => do
    let c ← ctxOf f.ctx
    let lD ← lineOf f.rd
    let lS ← lineOf f.rs1
    unused f.rs2; unused f.rs3
    let slot ← slotOf f.imm
    some (.iirLpa c slot lD lS)
  | 0x24 => do
    let c ← ctxOf f.ctx
    let lD ← lineOf f.rd
    let lS ← lineOf f.rs1
    unused f.rs2; unused f.rs3
    let slot ← slotOf f.imm
    some (.iirHpa c slot lD lS)
  | 0x25 => do
    let c ← ctxOf f.ctx
    unused f.rd
    let slot ← cascadeSlotOf f.imm
    some (.iirInit3 c slot (regOf f.rs1) (regOf f.rs2) (regOf f.rs3))
  | 0x26 => do
    let c ← ctxOf f.ctx
    unused f.rs2; unused f.rs3
    let slot ← cascadeSlotOf f.imm
    some (.iirLp3 c slot (regOf f.rd) (regOf f.rs1))
  | 0x27 => do
    let c ← ctxOf f.ctx
    let lD ← lineOf f.rd
    let lS ← lineOf f.rs1
    unused f.rs2; unused f.rs3
    let slot ← cascadeSlotOf f.imm
    some (.iirLpa3 c slot lD lS)
  | 0x30 => do
    let c ← ctxOf f.ctx
    unused f.rd; unused f.rs1; unused f.rs2; unused f.rs3; unused f.imm
    some (.fftFwd c)
  | 0x31 => do
    let c ← ctxOf f.ctx
    unused f.rd; unused f.rs1; unused f.rs2; unused f.rs3; unused f.imm
    some (.fftInv c)
  | 0x32 => do
    let c ← ctxOf f.ctx
    unused f.rd; unused f.rs1; unused f.rs2; unused f.rs3; unused f.imm
    some (.fftShift c)
  | 0x33 => do
    let c ← ctxOf f.ctx
    let lS ← lineOf f.rs1
    unused f.rd; unused f.rs2; unused f.rs3; unused f.imm
    some (.zLdre c lS)
  | 0x34 => do
    let c ← ctxOf f.ctx
    let lD ← lineOf f.rd
    unused f.rs1; unused f.rs2; unused f.rs3; unused f.imm
    some (.zStre c lD)
  | 0x35 => do
    let c ← ctxOf f.ctx
    let lS ← lineOf f.rs1
    unused f.rd; unused f.rs2; unused f.rs3; unused f.imm
    some (.zMulr c lS)
  | 0x40 => do
    unused f.ctx; unused f.rd; unused f.rs1; unused f.rs2; unused f.rs3; unused f.imm
    some .cscRgb2yiq
  | 0x41 => do
    unused f.ctx; unused f.rd; unused f.rs1; unused f.rs2; unused f.rs3
    let fld ← fieldOf f.imm
    some (.cscYiq2rgb fld)
  | 0x50 => do
    unused f.ctx; unused f.rd; unused f.rs2; unused f.rs3
    let fld ← fieldOf f.imm
    some (.muxEnc fld (regOf f.rs1))
  | 0x51 => do
    unused f.ctx; unused f.rd; unused f.rs2; unused f.rs3
    let fld ← fieldOf f.imm
    some (.muxDec fld (regOf f.rs1))
  | 0x60 => do
    let c ← ctxOf f.ctx
    let lD ← lineOf f.rd
    unused f.rs2; unused f.rs3
    let p ← planeOf f.imm
    some (.ldRow c lD p (regOf f.rs1))
  | 0x61 => do
    let c ← ctxOf f.ctx
    unused f.rd
    let lS ← lineOf f.rs3
    let p ← planeOf f.imm
    some (.stRow c p (regOf f.rs1) (regOf f.rs2) lS)
  | 0x70 => do
    unused f.ctx; unused f.rd; unused f.rs1; unused f.rs2; unused f.rs3; unused f.imm
    some .pipeProcess
  | 0x71 => do
    unused f.ctx; unused f.rd; unused f.rs1; unused f.rs2; unused f.rs3
    let (fld, k) ← stageOf f.imm
    some (.pipeStage fld k)
  | _ => none

/-- The command a word spells, or `none` for an illegal word (R76). -/
def decode (w : U32) : Option Instr := decodeFields (fieldsOf w)

/-- The decoder on a word numbered as spec/opcode_table.json numbers it. A command is one 32-bit word and
has no byte order (20_memory.md R54); the bits at and above `nbits` are 0. -/
def decodeTableWord (nbits w : Nat) : Option Instr :=
  decode (BitVec.ofNat 32 (w % 2 ^ nbits))

/-- The fields of a command's word, every unused field zero (R70, R75). -/
def encodeFields : Instr → Fields
  | .nop => ⟨0x00, 0, 0, 0, 0, 0, 0⟩
  | .prngSeed c xS => ⟨0x10, .ofNat 2 c, 0, .ofNat 3 xS, 0, 0, 0⟩
  | .prngNext c xD => ⟨0x11, .ofNat 2 c, .ofNat 3 xD, 0, 0, 0, 0⟩
  | .prngU01 c fD => ⟨0x12, .ofNat 2 c, .ofNat 3 fD, 0, 0, 0, 0⟩
  | .prngUrange c fD fLo fHi => ⟨0x13, .ofNat 2 c, .ofNat 3 fD, .ofNat 3 fLo, .ofNat 3 fHi, 0, 0⟩
  | .prngTri c fD fLo fHi fMode =>
    ⟨0x14, .ofNat 2 c, .ofNat 3 fD, .ofNat 3 fLo, .ofNat 3 fHi, .ofNat 3 fMode, 0⟩
  | .iirInit c slot fRate fCut fVal =>
    ⟨0x20, .ofNat 2 c, 0, .ofNat 3 fRate, .ofNat 3 fCut, .ofNat 3 fVal, .ofNat 10 slot⟩
  | .iirLp c slot fD fS => ⟨0x21, .ofNat 2 c, .ofNat 3 fD, .ofNat 3 fS, 0, 0, .ofNat 10 slot⟩
  | .iirHp c slot fD fS => ⟨0x22, .ofNat 2 c, .ofNat 3 fD, .ofNat 3 fS, 0, 0, .ofNat 10 slot⟩
  | .iirLpa c slot lD lS => ⟨0x23, .ofNat 2 c, .ofNat 3 lD, .ofNat 3 lS, 0, 0, .ofNat 10 slot⟩
  | .iirHpa c slot lD lS => ⟨0x24, .ofNat 2 c, .ofNat 3 lD, .ofNat 3 lS, 0, 0, .ofNat 10 slot⟩
  | .iirInit3 c slot fRate fCut fVal =>
    ⟨0x25, .ofNat 2 c, 0, .ofNat 3 fRate, .ofNat 3 fCut, .ofNat 3 fVal, .ofNat 10 slot⟩
  | .iirLp3 c slot fD fS => ⟨0x26, .ofNat 2 c, .ofNat 3 fD, .ofNat 3 fS, 0, 0, .ofNat 10 slot⟩
  | .iirLpa3 c slot lD lS => ⟨0x27, .ofNat 2 c, .ofNat 3 lD, .ofNat 3 lS, 0, 0, .ofNat 10 slot⟩
  | .fftFwd c => ⟨0x30, .ofNat 2 c, 0, 0, 0, 0, 0⟩
  | .fftInv c => ⟨0x31, .ofNat 2 c, 0, 0, 0, 0, 0⟩
  | .fftShift c => ⟨0x32, .ofNat 2 c, 0, 0, 0, 0, 0⟩
  | .zLdre c lS => ⟨0x33, .ofNat 2 c, 0, .ofNat 3 lS, 0, 0, 0⟩
  | .zStre c lD => ⟨0x34, .ofNat 2 c, .ofNat 3 lD, 0, 0, 0, 0⟩
  | .zMulr c lS => ⟨0x35, .ofNat 2 c, 0, .ofNat 3 lS, 0, 0, 0⟩
  | .cscRgb2yiq => ⟨0x40, 0, 0, 0, 0, 0, 0⟩
  | .cscYiq2rgb fld => ⟨0x41, 0, 0, 0, 0, 0, .ofNat 10 fld⟩
  | .muxEnc fld xAmp => ⟨0x50, 0, 0, .ofNat 3 xAmp, 0, 0, .ofNat 10 fld⟩
  | .muxDec fld xAmp => ⟨0x51, 0, 0, .ofNat 3 xAmp, 0, 0, .ofNat 10 fld⟩
  | .ldRow c lD p xRow => ⟨0x60, .ofNat 2 c, .ofNat 3 lD, .ofNat 3 xRow, 0, 0, .ofNat 10 p⟩
  | .stRow c p xRow xShift lS =>
    ⟨0x61, .ofNat 2 c, 0, .ofNat 3 xRow, .ofNat 3 xShift, .ofNat 3 lS, .ofNat 10 p⟩
  | .pipeProcess => ⟨0x70, 0, 0, 0, 0, 0, 0⟩
  | .pipeStage fld k => ⟨0x71, 0, 0, 0, 0, 0, .ofNat 10 (2 * k.val + fld.val)⟩

/-- The word of a command. -/
def encode (i : Instr) : U32 := assemble (encodeFields i)

/-- The value constraints in the last column of the opcode map R75. -/
inductive Constraint where
  /-- `ctx ≠ 3` -/
  | ctx
  /-- `slot ≤ 5` -/
  | slot
  /-- `plane ≠ 3` -/
  | plane
  /-- `stage ≤ 16` -/
  | stage
deriving DecidableEq, Repr

/-- Whether a word meets a value constraint (R74, R75). -/
def Constraint.holds (w : U32) : Constraint → Bool
  | .ctx => decide ((w.extractLsb' 22 2).toNat ≠ 3)
  | .slot => decide ((w.extractLsb' 0 3).toNat ≤ 5)
  | .plane => decide ((w.extractLsb' 0 2).toNat ≠ 3)
  | .stage => decide ((w.extractLsb' 1 5).toNat ≤ 16)

/-- One row of the opcode map R75. -/
structure OpcodeRow where
  mnemonic : String
  pattern : U32
  mask : U32
  constraints : List Constraint
deriving DecidableEq, Repr

/-- A word spells the command of a row iff `W & mask = match` and the value constraints hold (R75). -/
def OpcodeRow.spelledBy (r : OpcodeRow) (w : U32) : Bool :=
  decide (w &&& r.mask = r.pattern) && r.constraints.all (Constraint.holds w)

/-- The row of the opcode map R75 that a command belongs to. -/
def Instr.opcodeRow : Instr → OpcodeRow
  | .nop => ⟨"NOP", 0x00000000, 0xFFFFFFFF, []⟩
  | .prngSeed .. => ⟨"PRNG.SEED", 0x10000000, 0xFF38FFFF, [.ctx]⟩
  | .prngNext .. => ⟨"PRNG.NEXT", 0x11000000, 0xFF07FFFF, [.ctx]⟩
  | .prngU01 .. => ⟨"PRNG.U01", 0x12000000, 0xFF07FFFF, [.ctx]⟩
  | .prngUrange .. => ⟨"PRNG.URANGE", 0x13000000, 0xFF001FFF, [.ctx]⟩
  | .prngTri .. => ⟨"PRNG.TRI", 0x14000000, 0xFF0003FF, [.ctx]⟩
  | .iirInit .. => ⟨"IIR.INIT", 0x20000000, 0xFF3803F8, [.ctx]⟩
  | .iirLp .. => ⟨"IIR.LP", 0x21000000, 0xFF00FFF8, [.ctx]⟩
  | .iirHp .. => ⟨"IIR.HP", 0x22000000, 0xFF00FFF8, [.ctx]⟩
  | .iirLpa .. => ⟨"IIR.LPA", 0x23000000, 0xFF24FFF8, [.ctx]⟩
  | .iirHpa .. => ⟨"IIR.HPA", 0x24000000, 0xFF24FFF8, [.ctx]⟩
  | .iirInit3 .. => ⟨"IIR.INIT3", 0x25000000, 0xFF3803F8, [.ctx, .slot]⟩
  | .iirLp3 .. => ⟨"IIR.LP3", 0x26000000, 0xFF00FFF8, [.ctx, .slot]⟩
  | .iirLpa3 .. => ⟨"IIR.LPA3", 0x27000000, 0xFF24FFF8, [.ctx, .slot]⟩
  | .fftFwd .. => ⟨"FFT.FWD", 0x30000000, 0xFF3FFFFF, [.ctx]⟩
  | .fftInv .. => ⟨"FFT.INV", 0x31000000, 0xFF3FFFFF, [.ctx]⟩
  | .fftShift .. => ⟨"FFT.SHIFT", 0x32000000, 0xFF3FFFFF, [.ctx]⟩
  | .zLdre .. => ⟨"Z.LDRE", 0x33000000, 0xFF3CFFFF, [.ctx]⟩
  | .zStre .. => ⟨"Z.STRE", 0x34000000, 0xFF27FFFF, [.ctx]⟩
  | .zMulr .. => ⟨"Z.MULR", 0x35000000, 0xFF3CFFFF, [.ctx]⟩
  | .cscRgb2yiq => ⟨"CSC.RGB2YIQ", 0x40000000, 0xFFFFFFFF, []⟩
  | .cscYiq2rgb .. => ⟨"CSC.YIQ2RGB", 0x41000000, 0xFFFFFFFE, []⟩
  | .muxEnc .. => ⟨"MUX.ENC", 0x50000000, 0xFFF8FFFE, []⟩
  | .muxDec .. => ⟨"MUX.DEC", 0x51000000, 0xFFF8FFFE, []⟩
  | .ldRow .. => ⟨"LD.ROW", 0x60000000, 0xFF20FFFC, [.ctx, .plane]⟩
  | .stRow .. => ⟨"ST.ROW", 0x61000000, 0xFF3813FC, [.ctx, .plane]⟩
  | .pipeProcess => ⟨"PIPE.PROCESS", 0x70000000, 0xFFFFFFFF, []⟩
  | .pipeStage .. => ⟨"PIPE.STAGE", 0x71000000, 0xFFFFFFC0, [.stage]⟩

end Sys2Proof
end

