-- ==== Sys2Proof/Machine/Data.lean ====
section
/-! DEFINITION. The plain records the machine is made of: the configuration record CFG, a generator, a
filter slot, the rows of one field, and the implementation's fixed parameters. -/

namespace Sys2Proof.Machine

/-- The configuration record `CFG` (10_state.md R33), one field per index 0..36. A bool field holds 0 or 1,
an enum field keeps two bits. -/
structure Cfg where
  blackLineCut : Bool
  colorBleedBefore : Bool
  colorBleedHoriz : I32
  colorBleedVert : I32
  inputChromaLowpass : Bool
  ringing : F64
  enableRinging2 : Bool
  ringingShift : F64
  ringingPower : F64
  compositePreemphasis : F64
  subcarrierAmplitude : I32
  subcarrierAmplitudeBack : I32
  noColorSubcarrier : Bool
  scanlinePhaseShift : BitVec 2
  scanlinePhaseShiftOffset : I32
  videoNoise : I32
  videoChromaNoise : I32
  videoChromaPhaseNoise : I32
  videoChromaLoss : I32
  preciseNoise : Bool
  emulatingVHS : Bool
  vhsTapeSpeed : BitVec 2
  vhsEdgeWave : I32
  vhsHeadSwitching : Bool
  vhsHeadSwitchingPoint : F64
  vhsHeadSwitchingPhase : F64
  vhsHeadSwitchingPhaseNoise : F64
  vhsSharpen : F64
  vhsOutSharpen : F64
  vhsChromaVertBlend : Bool
  vhsSVideoOut : Bool
  outputNTSC : Bool
  outputChromaLowpass : Bool
  outputChromaLowpassTV : Bool
  chromaBlur : Bool
  seed1 : U32
  seed2 : U32
deriving DecidableEq, Repr, Inhabited

/-- Every field of `CFG` at its reset value 0 (10_state.md R42). -/
def Cfg.zero : Cfg where
  blackLineCut := false
  colorBleedBefore := false
  colorBleedHoriz := 0
  colorBleedVert := 0
  inputChromaLowpass := false
  ringing := 0
  enableRinging2 := false
  ringingShift := 0
  ringingPower := 0
  compositePreemphasis := 0
  subcarrierAmplitude := 0
  subcarrierAmplitudeBack := 0
  noColorSubcarrier := false
  scanlinePhaseShift := 0
  scanlinePhaseShiftOffset := 0
  videoNoise := 0
  videoChromaNoise := 0
  videoChromaPhaseNoise := 0
  videoChromaLoss := 0
  preciseNoise := false
  emulatingVHS := false
  vhsTapeSpeed := 0
  vhsEdgeWave := 0
  vhsHeadSwitching := false
  vhsHeadSwitchingPoint := 0
  vhsHeadSwitchingPhase := 0
  vhsHeadSwitchingPhaseNoise := 0
  vhsSharpen := 0
  vhsOutSharpen := 0
  vhsChromaVertBlend := false
  vhsSVideoOut := false
  outputNTSC := false
  outputChromaLowpass := false
  outputChromaLowpassTV := false
  chromaBlur := false
  seed1 := 0
  seed2 := 0

/-- A generator's six words (10_state.md R35): five xorshift words and the additive counter `d`. -/
structure Gen where
  x : U32
  y : U32
  z : U32
  w : U32
  v : U32
  d : U32
deriving DecidableEq, Repr, Inhabited

/-- A filter slot (10_state.md R36): smoothing coefficient and previous output. -/
structure Filter where
  alpha : F64
  prev : F64
deriving DecidableEq, Repr, Inhabited

/-- The samples of one plane on the own rows of a field, row by row (45_stages.md R151): entry `r` is the
frame row `t + 2*r`. -/
abbrev PlaneRows := List (List I32)

/-- The own-field rows of the three planes (45_stages.md R152). -/
structure FieldRows where
  y : PlaneRows
  i : PlaneRows
  q : PlaneRows
deriving DecidableEq, Repr, Inhabited

/-- What an external stage may look at (45_stages.md R152): `CFG`, W, H, the field number, the own-field
rows and the field's generator. -/
structure ExtArgs where
  cfg : Cfg
  width : Nat
  height : Nat
  field : Nat
  rows : FieldRows
  gen : Gen
deriving DecidableEq, Repr, Inhabited

/-- A set of planes (00_scope.md R8, `RING_PLANES`). -/
structure PlaneSet where
  y : Bool
  i : Bool
  q : Bool
deriving DecidableEq, Repr, Inhabited

/-- An order in which the lowpass update is evaluated (41_iir.md R101: the expression order is a configuration
item): an expression over the coefficient, the previous output, the sample and 1.0, each node one operation. -/
inductive LowpassExpr where
  | alpha
  | prev
  | sample
  | one
  | add (a b : LowpassExpr)
  | sub (a b : LowpassExpr)
  | mul (a b : LowpassExpr)
deriving DecidableEq, Repr, Inhabited

/-- The implementation's fixed parameters that are plain data (00_scope.md R8). The first four are the
read-only control registers `ID`, `CAP_WMAX`, `CAP_HMAX`, `CAP_LMAX` (10_state.md R25). No step of the
machine changes them. -/
structure HwParams where
  blockId : U32
  wmax : U32
  hmax : U32
  lmax : U32
  resetSeed0 : U32
  resetSeed1 : U32
  resetSeed2 : U32
  sampleRateHz : F64
  subcarrierNorm : I32
  delayI : Nat
  delayQ : Nat
  delayTV : Nat
  ringPlanes : PlaneSet
  /-- `Xi` is the instance of 44_mux.md R141; otherwise it is `Config.phaseIndex` (log 11). -/
  xiInstance : Bool
  /-- The expression order of the lowpass update (41_iir.md R101; 93_implementation_defined.md U6; log 26). -/
  lowpassOrder : LowpassExpr
deriving DecidableEq, Repr, Inhabited

/-- A tape-speed profile (10_state.md R28): luma cutoff and chroma cutoff in hertz, chroma delay in
samples. -/
structure TapeProfile where
  lumaCutoff : Nat
  chromaCutoff : Nat
  chromaDelay : Nat
deriving DecidableEq, Repr, Inhabited

end Sys2Proof.Machine
end

