-- ==== Sys2Proof/Machine/Generator.lean ====
section
/-! DEFINITION. The generator's step and seeding (40_prng.md R90 to R92; log 10). -/

namespace Sys2Proof.Machine

/-- `Next(G)` (R91): the advanced generator and the draw, the sum of the new counter and the new `v`. -/
def next (g : Gen) : Gen × U32 :=
  let t := g.x ^^^ (g.x >>> 2)
  let v := (g.v ^^^ (g.v <<< 4)) ^^^ (t ^^^ (t <<< 1))
  let d := g.d + 362437
  ({ x := g.y, y := g.z, z := g.w, w := g.v, v := v, d := d }, d + v)

/-- The generator after `n` applications of `Next` (45_stages.md R152). -/
def advance : Nat → Gen → Gen
  | 0, g => g
  | n + 1, g => advance n (next g).1

/-- `SeedExpand(s)` (R92). -/
def seedExpand (s : U32) : Gen where
  x := s
  y := 362436069
  z := 521288629
  w := 88675123
  v := 5783321
  d := 6615241

end Sys2Proof.Machine
end

