-- ==== Sys2Proof/Config.lean ====
section
/-! DEFINITION. What an implementation fixes and the spec leaves open, and the free values: constants
without a body, so that nothing can be proved of their value (92_eei_decisions.md, open parameters;
93_implementation_defined.md). Where the spec constrains one, the constraint is imposed where the constant
is used. -/

namespace Sys2Proof.Config

open Sys2Proof.Machine

/-! ## Free values -/

/-- The NaN an operation gives: sign and payload are a draw (00_scope.md R15; 93 U7; log 3). -/
opaque freeNaN : Path → F64

/-- A word of scratch memory after a run or a `PIPE.STAGE` (10_state.md R40; 93 U10; log 4). -/
opaque freeScratch : (w : Nat) → Path → BitVec w

/-- What a host read of a location that is unspecified in a run returns (10_state.md R45; 70_reset_and_hazards.md
R249; 93 U12; log 5). -/
opaque freeRead : Path → PortWord

/-! ## Open parameters that are plain data (00_scope.md R8; log 1) -/

opaque blockId : U32
opaque wmax : U32
opaque hmax : U32
opaque lmax : U32
opaque resetSeed0 : U32
opaque resetSeed1 : U32
opaque resetSeed2 : U32
opaque sampleRateHz : F64
opaque subcarrierNorm : I32
opaque delayI : Nat
opaque delayQ : Nat
opaque delayTV : Nat
opaque ringPlanes : PlaneSet
/-- Whether the implementation's `Xi` is the instance of 44_mux.md R141 (log 11). -/
opaque xiInstance : Bool
/-- The expression order of the lowpass update (41_iir.md R101; 93 U6; log 26). -/
opaque lowpassOrder : LowpassExpr

/-! ## Open functions -/

/-- `Numerics.cos` away from +0.0 (00_scope.md R16; log 14). -/
opaque cosine : F64 → F64

/-- `Numerics.sin` away from +0.0 (00_scope.md R16; log 14). -/
opaque sine : F64 → F64

/-- `Xi(mode, fieldno, y, offset)`, the phase index of a row, where the implementation's is not the instance
of R141; taken modulo 4 (00_scope.md R8, 44_mux.md R141; log 11). -/
opaque phaseIndex : BitVec 2 → Nat → Nat → I32 → Nat

/-- `RingMask(CFG, N)` at an index (45_stages.md R161; log 18). -/
opaque ringMask : Cfg → Nat → Nat → F64

/-! ## Bodies of the external stages (45_stages.md R152; log 15) -/

/-- Stage 0, black-line border cut: new rows (R153). -/
opaque borderCutRows : ExtArgs → FieldRows
/-- Stage 0: number of draws. -/
opaque borderCutDraws : ExtArgs → Nat

/-- Stage 5, composite preemphasis: new rows (R162). -/
opaque preemphasisRows : ExtArgs → FieldRows
/-- Stage 5: number of draws. -/
opaque preemphasisDraws : ExtArgs → Nat

/-- Stage 6, additive video noise, fast mode: new luma rows (R163). -/
opaque fastNoiseLuma : ExtArgs → PlaneRows
/-- Stage 6, additive video noise, precise mode: new luma rows (R163). -/
opaque preciseNoiseLuma : ExtArgs → PlaneRows

/-- Stage 7, VHS head switching: the first frame row below the switch point (R164). -/
opaque headSwitchRow : ExtArgs → Nat
/-- Stage 7: new luma rows (R164). -/
opaque headSwitchLuma : ExtArgs → PlaneRows
/-- Stage 7: number of draws. -/
opaque headSwitchDraws : ExtArgs → Nat

/-- Stage 9, chroma channel noise, fast mode: new I and Q rows (R165, R163). -/
opaque fastChromaNoise : ExtArgs → PlaneRows × PlaneRows
/-- Stage 9, chroma channel noise, precise mode: new I and Q rows (R165, R163). -/
opaque preciseChromaNoise : ExtArgs → PlaneRows × PlaneRows
/-- Stage 9: number of draws. -/
opaque chromaNoiseDraws : ExtArgs → Nat

/-- Stage 10, chroma phase noise: the rotation angle of the row with the given index in the field (R166). -/
opaque phaseAngle : ExtArgs → Nat → F64
/-- Stage 10: number of draws for the row with the given index in the field (R166). -/
opaque phaseDraws : ExtArgs → Nat → Nat
/-- Stage 10: whether the rotation is the transpose of the one R166 writes (the direction is not given). -/
opaque phaseTransposed : Bool
/-- Stage 10: conversion of a rotated component to a sample (the rounding is not given, R166). -/
opaque phaseRounding : F64 → I32

/-- Stage 11, sub-stage 1, edge wave: new rows (R167). -/
opaque vhsEdgeWave : ExtArgs → FieldRows
/-- Stage 11: number of draws (R167; the table of R150: "yes (edge wave)"). -/
opaque vhsDraws : ExtArgs → Nat
/-- Stage 11, sub-stage 2, luma sharpen pass with the tape-speed profile: new luma rows (R167). -/
opaque vhsLumaSharpen : Option TapeProfile → ExtArgs → PlaneRows
/-- Stage 11, sub-stage 3, chroma lowpass with the tape-speed profile: new I and Q rows (R167). -/
opaque vhsChromaLowpass : Option TapeProfile → ExtArgs → PlaneRows × PlaneRows
/-- Stage 11, sub-stage 4, chroma vertical blending: new I and Q rows (R167: an average with the row two
above, whose rounding and edge rule are not given). -/
opaque vhsChromaBlend : ExtArgs → PlaneRows × PlaneRows
/-- Stage 11, sub-stage 5, final output sharpen: new luma rows (R167). -/
opaque vhsOutSharpen : ExtArgs → PlaneRows
/-- Stage 11, sub-stage 6: the amplitude of the re-encode (R168: not stated). -/
opaque vhsEncodeAmplitude : Cfg → I32
/-- Stage 11, sub-stage 6: the amplitude of the re-decode (R168: not stated). -/
opaque vhsDecodeAmplitude : Cfg → I32

end Sys2Proof.Config
end

