-- ==== Sys2Proof/Machine/Float.lean ====
section
/-! DEFINITION. IEEE 754 binary64 on bit patterns (00_scope.md R15 to R17): one rounding per operation, to
nearest, ties to even, subnormals kept, no exception flags. A finite value is `mantissa * 2^exponent` in
units of 2^-1074, so every exact result is a natural number of (fractions of) units before it is rounded. -/

namespace Sys2Proof.Machine

/-- The sign bit. -/
def fsign (a : F64) : Bool := a.msb

/-- The biased exponent field. -/
def fexpField (a : F64) : Nat := (a.extractLsb' 52 11).toNat

/-- The fraction field. -/
def ffrac (a : F64) : Nat := (a.extractLsb' 0 52).toNat

/-- Exponent field all ones, fraction non-zero. -/
def isNaN (a : F64) : Bool := fexpField a == 2047 && ffrac a != 0

/-- Exponent field all ones, fraction zero. -/
def isInf (a : F64) : Bool := fexpField a == 2047 && ffrac a == 0

/-- A finite binary64 value. -/
def isFinite (a : F64) : Bool := fexpField a != 2047

/-- A zero of either sign. -/
def isZero (a : F64) : Bool := fexpField a == 0 && ffrac a == 0

/-- The integer significand of a finite value, the hidden bit included. -/
def fmant (a : F64) : Nat := if fexpField a = 0 then ffrac a else 2 ^ 52 + ffrac a

/-- The exponent of a finite value: it is `fmant a * 2^(fexp a)` units of 2^-1074. -/
def fexp (a : F64) : Nat := fexpField a - 1

/-- The magnitude of a finite value in units of 2^-1074. -/
def fmag (a : F64) : Nat := fmant a <<< fexp a

/-- A finite value in units of 2^-1074. -/
def funits (a : F64) : Int := if fsign a then -(fmag a : Int) else (fmag a : Int)

/-- The infinities. -/
def finf (neg : Bool) : F64 := if neg then 0xFFF0000000000000 else 0x7FF0000000000000

/-- The zeros. -/
def fzero (neg : Bool) : F64 := if neg then 0x8000000000000000 else 0

/-- A NaN whose sign and payload are a draw (R15): any NaN, never another value. -/
def someNaN (p : Path) : F64 :=
  if isNaN (Config.freeNaN p) then Config.freeNaN p else 0x7FF8000000000000

/-- `m / 2^k` rounded to the nearest integer, ties to even; `sticky` says that the true numerator lies
strictly between `m` and `m + 1`. -/
def roundShift (m k : Nat) (sticky : Bool) : Nat :=
  let hi := m >>> k
  let rem := m % 2 ^ k
  let half := 2 ^ (k - 1)
  if k = 0 then m
  else if rem > half || (rem == half && (sticky || hi % 2 == 1)) then hi + 1 else hi

/-- The binary64 nearest to `± m * 2^e` units (plus something below one part of `m` when `sticky`), ties to
even; too large a magnitude gives an infinity (R15). -/
def roundPack (neg : Bool) (m : Nat) (e : Int) (sticky : Bool) : F64 :=
  if m = 0 then fzero neg
  else
    let ulp : Int := max (e + (m.log2 + 1) - 53) 0
    let sig : Nat :=
      if ulp ≤ e then m <<< (e - ulp).toNat else roundShift m (ulp - e).toNat sticky
    let bits : Nat := ulp.toNat * 2 ^ 52 + sig
    if bits ≥ 0x7FF0000000000000 then finf neg
    else BitVec.ofNat 64 (bits + if neg then 2 ^ 63 else 0)

/-- The binary64 nearest to an integer number of units; an exact zero is `+0`. -/
def roundUnits (u : Int) : F64 := roundPack (decide (u < 0)) u.natAbs 0 false

/-- Negation: the sign bit flipped. -/
def fneg (a : F64) : F64 := a ^^^ 0x8000000000000000

/-- `a + b` (R15). -/
def fadd (p : Path) (a b : F64) : F64 :=
  if isNaN a || isNaN b then someNaN p
  else if isInf a then (if isInf b && fsign a != fsign b then someNaN p else a)
  else if isInf b then b
  else if isZero a && isZero b then fzero (fsign a && fsign b)
  else roundUnits (funits a + funits b)

/-- `a - b` (R15). -/
def fsub (p : Path) (a b : F64) : F64 := fadd p a (fneg b)

/-- `a * b` (R15). -/
def fmul (p : Path) (a b : F64) : F64 :=
  let neg := fsign a != fsign b
  if isNaN a || isNaN b then someNaN p
  else if isInf a || isInf b then (if isZero a || isZero b then someNaN p else finf neg)
  else roundPack neg (fmant a * fmant b) ((fexp a : Int) + fexp b - 1074) false

/-- `a / b` (R15): division by zero gives an infinity, `0/0` a NaN. -/
def fdiv (p : Path) (a b : F64) : F64 :=
  let neg := fsign a != fsign b
  if isNaN a || isNaN b then someNaN p
  else if isInf a then (if isInf b then someNaN p else finf neg)
  else if isInf b then fzero neg
  else if isZero b then (if isZero a then someNaN p else finf neg)
  else
    let num := fmant a <<< 108
    roundPack neg (num / fmant b) ((fexp a : Int) - fexp b + 1074 - 108) (num % fmant b != 0)

/-- The integer square root, bit by bit from bit `n` down. -/
def isqrtFrom (m : Nat) : Nat → Nat → Nat
  | 0, r => r
  | n + 1, r => isqrtFrom m n (if (r + 2 ^ n) * (r + 2 ^ n) ≤ m then r + 2 ^ n else r)

/-- `floor(sqrt(m))`. -/
def isqrt (m : Nat) : Nat := isqrtFrom m (m.log2 / 2 + 1) 0

/-- `sqrt(a)` (R15): a negative operand gives a NaN, a zero itself. -/
def fsqrt (p : Path) (a : F64) : F64 :=
  if isNaN a then someNaN p
  else if isZero a then a
  else if fsign a then someNaN p
  else if isInf a then a
  else
    let k := if fexp a % 2 = 0 then 110 else 111
    let m := fmant a <<< k
    let r := isqrt m
    roundPack false r (((fexp a : Int) - 1074 - k) / 2 + 1074) (r * r != m)

/-- `a < b`: false when either side is a NaN (R15). -/
def flt (a b : F64) : Bool :=
  !isNaN a && !isNaN b &&
    decide ((if fsign a then -((a.toNat % 2 ^ 63 : Nat) : Int) else ((a.toNat % 2 ^ 63 : Nat) : Int))
      < (if fsign b then -((b.toNat % 2 ^ 63 : Nat) : Int) else ((b.toNat % 2 ^ 63 : Nat) : Int)))

/-- `a = b` as numbers: the zeros are equal, a NaN equals nothing (R15). -/
def feq (a b : F64) : Bool :=
  !isNaN a && !isNaN b && ((isZero a && isZero b) || a == b)

/-- `a ≠ b` as numbers; true when either side is a NaN (46_dispatcher.md R196). -/
def fne (a b : F64) : Bool := !feq a b

/-- An integer as a binary64, rounded where it is not representable (00_scope.md R17: 32-bit integers are). -/
def fofInt (n : Int) : F64 := roundPack (decide (n < 0)) n.natAbs 1074 false

/-- `tof64` of a `u32` (R17). -/
def fofU32 (w : U32) : F64 := fofInt w.toNat

/-- `tof64` of an `i32` (R17). -/
def fofI32 (w : I32) : F64 := fofInt w.toInt

/-- `toi32`: truncation toward zero, saturating, NaN gives 0 (R17). -/
def ftoI32 (a : F64) : I32 :=
  if isNaN a then 0
  else
    let t : Nat := if isInf a then 2 ^ 31 else fmag a >>> 1074
    if fsign a then (if t ≥ 2 ^ 31 then BitVec.intMin 32 else BitVec.ofInt 32 (-(t : Int)))
    else (if t ≥ 2 ^ 31 then BitVec.intMax 32 else BitVec.ofNat 32 t)

/-! ## Constants -/

/-- `PI`, the binary64 nearest to π (R16). -/
def fpi : F64 := 0x400921FB54442D18

/-- 1.0 -/
def fone : F64 := 0x3FF0000000000000

/-- 2.0 -/
def ftwo : F64 := 0x4000000000000000

/-- 0.1, the binary64 nearest to one tenth (45_stages.md R159). -/
def ftenth : F64 := 0x3FB999999999999A

/-- `Numerics.cos`: `cos(0.0) = 1.0`, otherwise the implementation's (00_scope.md R16). -/
def fcos (a : F64) : F64 := if a = 0 then fone else Config.cosine a

/-- `Numerics.sin`: `sin(0.0) = 0.0`, otherwise the implementation's (R16). -/
def fsin (a : F64) : F64 := if a = 0 then 0 else Config.sine a

end Sys2Proof.Machine
end

