-- ==== Sys2Proof/Machine/Lowpass.lean ====
section
/-! DEFINITION. The lowpass update as an expression (41_iir.md R101): its order is a configuration item
(93_implementation_defined.md U6; log 26). An order is any expression that multiplies out to the terms of R101's
formula, each once; the machine evaluates it with one rounding per operation (00_scope.md R15). The corner cases that
R104 and R105 state hold in every order. -/

namespace Sys2Proof.Machine

/-- The order R101 writes: `s*alpha + (prev - prev*alpha)`. -/
def lowpassAsWritten : LowpassExpr := .add (.mul .sample .alpha) (.sub .prev (.mul .prev .alpha))

/-- The value of an order on binary64 operands, one rounding per operation (00_scope.md R15). -/
def LowpassExpr.eval (p : Path) (alpha prev v : F64) : LowpassExpr → F64
  | .alpha => alpha
  | .prev => prev
  | .sample => v
  | .one => fone
  | .add a b => fadd (0 :: p) (a.eval (1 :: p) alpha prev v) (b.eval (2 :: p) alpha prev v)
  | .sub a b => fsub (0 :: p) (a.eval (1 :: p) alpha prev v) (b.eval (2 :: p) alpha prev v)
  | .mul a b => fmul (0 :: p) (a.eval (1 :: p) alpha prev v) (b.eval (2 :: p) alpha prev v)

/-- The powers of the coefficient, the previous output and the sample in a term. -/
abbrev Monomial := Nat × Nat × Nat

/-- Signed terms, each with its coefficient; nothing is combined or cancelled. -/
abbrev Terms := List (Monomial × Int)

/-- The product of two terms. -/
def mulTerm (t u : Monomial × Int) : Monomial × Int := (t.1 + u.1, t.2 * u.2)

/-- The terms an order multiplies out to. -/
def LowpassExpr.terms : LowpassExpr → Terms
  | .alpha => [((1, 0, 0), 1)]
  | .prev => [((0, 1, 0), 1)]
  | .sample => [((0, 0, 1), 1)]
  | .one => [((0, 0, 0), 1)]
  | .add a b => a.terms ++ b.terms
  | .sub a b => a.terms ++ b.terms.map (mulTerm (0, -1))
  | .mul a b => a.terms.flatMap fun t => b.terms.map (mulTerm t)

/-- The terms of the lowpass formula (R101): `s*alpha`, `prev` and `-(prev*alpha)`. -/
def lowpassTerms : Terms := [((1, 0, 1), 1), ((0, 1, 0), 1), ((1, 1, 0), -1)]

/-- The expression is an order of the lowpass formula (R101): it multiplies out to the formula's three terms, each
once, in some sequence. -/
def LowpassExpr.isLowpass (e : LowpassExpr) : Bool := e.terms.isPerm lowpassTerms

/-- The operands for which the rules state the outcome whatever the order (R104, R105): an infinity or a NaN among
them, a coefficient of zero (a slot never initialised has it), a coefficient of 1.0. -/
def lowpassCorner (alpha prev v : F64) : Bool :=
  !(isFinite alpha && isFinite prev && isFinite v) || isZero alpha || alpha == fone

/-- The lowpass update (R101) in the configured order; in the corner cases of R104 and R105 its outcome is that of the
order R101 writes. -/
def lowpassUpdate (order : LowpassExpr) (p : Path) (alpha prev v : F64) : F64 :=
  (if lowpassCorner alpha prev v then lowpassAsWritten else order).eval p alpha prev v

end Sys2Proof.Machine
end

