-- ==== Sys2Proof/Machine/Params.lean ====
section
/-! DEFINITION. The constraints 00_scope.md R8 and 41_iir.md R101 put on the open parameters, and the parameters of the
machine that State.reset describes: the opaque constants of Config, brought inside those constraints. -/

namespace Sys2Proof.Machine

/-- The constraints of R8, and that of 41_iir.md R101: the configured order is an order of the lowpass formula. -/
def HwParams.legal (p : HwParams) : Bool :=
  decide (1 ≤ p.wmax.toNat) && decide (1 ≤ p.hmax.toNat) && decide (p.wmax.toNat ≤ p.lmax.toNat) &&
    p.resetSeed0 != 0 && p.resetSeed1 != 0 && p.resetSeed2 != 0 &&
    flt 0 p.sampleRateHz && decide (0 < p.subcarrierNorm.toInt) && p.lowpassOrder.isLowpass

/-- `x`, or the smallest legal value where `x` is zero. -/
def atLeastOne (x : U32) : U32 := if x = 0 then 1 else x

/-- The parameters of this implementation (R8; logs 1, 26). A constant of Config that breaks a constraint of R8
is replaced by a legal value, so that the constraint holds whatever the constant is. -/
def hwParams : HwParams where
  blockId := Config.blockId
  wmax := atLeastOne Config.wmax
  hmax := atLeastOne Config.hmax
  lmax := if (atLeastOne Config.wmax).toNat ≤ Config.lmax.toNat then Config.lmax
    else atLeastOne Config.wmax
  resetSeed0 := atLeastOne Config.resetSeed0
  resetSeed1 := atLeastOne Config.resetSeed1
  resetSeed2 := atLeastOne Config.resetSeed2
  sampleRateHz := if flt 0 Config.sampleRateHz then Config.sampleRateHz else fone
  subcarrierNorm := if 0 < Config.subcarrierNorm.toInt then Config.subcarrierNorm else 1
  delayI := Config.delayI
  delayQ := Config.delayQ
  delayTV := Config.delayTV
  ringPlanes := Config.ringPlanes
  xiInstance := Config.xiInstance
  lowpassOrder := if Config.lowpassOrder.isLowpass then Config.lowpassOrder else lowpassAsWritten

end Sys2Proof.Machine
end

