-- ==== Sys2Proof/Machine/State.lean ====
section
/-! DEFINITION. The architectural state of the AAS signal block (10_state.md), the model's own fields beside
it, and the state after reset. State is plain data. -/

namespace Sys2Proof.Machine

/-! ## Element memory -/

/-- What an element that nothing has written reads as. -/
inductive Fill where
  /-- Zero: the contents after reset, which the spec leaves unspecified (10_state.md R42; log 2). -/
  | zero
  /-- Unspecified: free values named by the path (10_state.md R40; log 4). -/
  | free (p : Path)
deriving DecidableEq, Repr, Inhabited

/-- A memory of `w`-bit elements (20_memory.md R50): the listed elements, by rising index, over a fill. -/
structure Memory (w : Nat) where
  fill : Fill
  cells : List (Nat × BitVec w)
deriving DecidableEq, Repr, Inhabited

/-- A memory with nothing listed. -/
def Memory.empty {w : Nat} : Memory w := ⟨.zero, []⟩

/-! ## Parts of the state -/

/-- The `STATUS` register's fields (10_state.md R26); bits 31:8 hold nothing. -/
structure Status where
  busy : Bool
  done : Bool
  err : Bool
  ovr : Bool
  errcode : BitVec 4
deriving DecidableEq, Repr, Inhabited

/-- A context (10_state.md R29): one generator, eight filter slots, four line buffers and one complex
buffer. The complex buffer holds the real part of element `n` at `2*n` and the imaginary part at `2*n + 1`
(R38). -/
structure Context where
  gen : Gen
  flt : Vector Filter 8
  lb : Vector (Memory 64) 4
  z : Memory 64
deriving DecidableEq, Repr

/-- The host port's spaces (20_memory.md R50). -/
inductive Space where
  | ctl | xreg | freg | cfg | flt | lbuf | zbuf | rgbin | rgbout | yiq
deriving DecidableEq, Repr

/-- An event at the host's side (10_state.md R20; 70_reset_and_hazards.md R240; log 7). -/
inductive HostOp where
  /-- A host-port read (20_memory.md R50). -/
  | read (sp : Space) (index : Nat)
  /-- A host-port write of the low bits of `v` (20_memory.md R50); a write of `CTL.CMD` issues a command. -/
  | write (sp : Space) (index : Nat) (v : PortWord)
  /-- The platform's reset (70_reset_and_hazards.md R240). -/
  | reset
deriving DecidableEq, Repr

/-- Who takes a step while `BUSY = 1` (10_state.md R20, 46_dispatcher.md R197; log 8). -/
inductive Agent where
  | host
  | task (t : Fin 2)
  | join
deriving DecidableEq, Repr

/-! ## The state -/

/-- The whole state. The fields up to `hw` are the spec's; `inputs`, `turns`, `tick` and `hostData` are the
model's own (logs 6 to 9). -/
structure State where
  /-- Integer operand registers (10_state.md R21). -/
  x : Vector U32 8
  /-- Floating-point operand registers (R22). -/
  f : Vector F64 8
  /-- `CTL.STATUS` (R26). -/
  status : Status
  /-- `CTL.ERRINFO` (R25). -/
  errinfo : U32
  /-- `CTL.WIDTH` (R27). -/
  width : U32
  /-- `CTL.HEIGHT` (R27). -/
  height : U32
  /-- `CTL.VL` (R27). -/
  vl : U32
  /-- Stage counters `sc[0]`, `sc[1]`, 0..17 (R24). -/
  sc : Vector Nat 2
  /-- The configuration record (R33). -/
  cfg : Cfg
  /-- The three contexts (R29). -/
  ctx : Vector Context 3
  /-- The input pixel buffer (R39). -/
  rgbin : Memory 8
  /-- The output pixel buffer (R39). -/
  rgbout : Memory 8
  /-- The planar buffer (R39). -/
  yiq : Memory 32
  /-- The implementation's fixed parameters, among them `ID` and `CAP_*` (R25, 00_scope.md R8). -/
  hw : HwParams
  /-- Model: the host's accesses and the resets still to come, oldest first (log 7). -/
  inputs : List HostOp
  /-- Model: the schedule still to come while `BUSY = 1` (log 8). -/
  turns : List Agent
  /-- Model: counts the host's steps; indexes the free values (log 6). -/
  tick : Nat
  /-- Model: what the last host read returned (log 9). -/
  hostData : PortWord
deriving DecidableEq, Repr

/-- Why the machine stops. No step of this machine stops: every command error is recorded in `STATUS` and
`ERRINFO` and the block goes on (60_exceptions.md R220 to R222), an access outside a space reads 0 or is
ignored (20_memory.md R50), and no stage fails (60_exceptions.md R227). So there is no reason to list, which
is safe: nothing the spec gives an effect is stopped. -/
inductive Fault where
deriving DecidableEq, Repr

/-- Why an instruction has no meaning. -/
inductive Refusal where
  /-- The instruction is not modelled yet; raised by `exec` alone. Safe: nothing can be proved of its
  effect. -/
  | notModelled (mnemonic : String)
deriving DecidableEq, Repr

/-! ## Reset -/

/-- A context after reset: the generator seeded, filter slots +0.0, buffers with nothing written
(10_state.md R42). -/
def Context.afterReset (seed : U32) : Context where
  gen := seedExpand seed
  flt := Vector.replicate 8 ⟨0, 0⟩
  lb := Vector.replicate 4 Memory.empty
  z := Memory.empty

/-- The state after reset of an implementation with the parameters `p` (10_state.md R42). -/
def State.resetWith (p : HwParams) : State where
  x := Vector.replicate 8 0
  f := Vector.replicate 8 0
  status := ⟨false, false, false, false, 0⟩
  errinfo := 0
  width := 0
  height := 0
  vl := 0
  sc := Vector.replicate 2 17
  cfg := Cfg.zero
  ctx := #v[Context.afterReset p.resetSeed0, Context.afterReset p.resetSeed1,
    Context.afterReset p.resetSeed2]
  rgbin := Memory.empty
  rgbout := Memory.empty
  yiq := Memory.empty
  hw := p
  inputs := []
  turns := []
  tick := 0
  hostData := 0

/-- The machine right after reset (10_state.md R42), with the implementation's open parameters (log 1). -/
def State.reset : State := State.resetWith hwParams

end Sys2Proof.Machine
end

