-- ==== Sys2Proof/Machine/Ops.lean ====
section
/-! DEFINITION. The named operations over memory and registers: element memory (20_memory.md R50), the frame
buffers' layouts (R51, R52), registers and contexts (10_state.md), raising an error and clearing it
(60_exceptions.md R222, R224), and the loss of scratch contents (10_state.md R40). -/

namespace Sys2Proof.Machine

/-! ## Element memory (20_memory.md R50) -/

/-- What an element that is not listed reads as. -/
def Memory.fillAt {w : Nat} (m : Memory w) (i : Nat) : BitVec w :=
  match m.fill with
  | .zero => 0
  | .free p => Config.freeScratch w (i :: p)

/-- The value listed for an index. -/
def lookupCell {w : Nat} : List (Nat × BitVec w) → Nat → Option (BitVec w)
  | [], _ => none
  | (k, v) :: rest, i => if k = i then some v else lookupCell rest i

/-- Lists a value for an index, keeping the indices rising. -/
def insertCell {w : Nat} : List (Nat × BitVec w) → Nat → BitVec w → List (Nat × BitVec w)
  | [], i, v => [(i, v)]
  | (k, u) :: rest, i, v =>
    if i < k then (i, v) :: (k, u) :: rest
    else if i = k then (i, v) :: rest
    else (k, u) :: insertCell rest i v

/-- Takes an index off the list. -/
def eraseCell {w : Nat} : List (Nat × BitVec w) → Nat → List (Nat × BitVec w)
  | [], _ => []
  | (k, u) :: rest, i => if k = i then rest else (k, u) :: eraseCell rest i

/-- The element at an index. -/
def Memory.read {w : Nat} (m : Memory w) (i : Nat) : BitVec w :=
  match lookupCell m.cells i with
  | some v => v
  | none => m.fillAt i

/-- Replaces the element at an index. Writing the zero that a zero fill already reads as removes the entry;
over a free fill every written element stays listed (log 4). -/
def Memory.write {w : Nat} (m : Memory w) (i : Nat) (v : BitVec w) : Memory w :=
  match m.fill with
  | .zero => if v = 0 then { m with cells := eraseCell m.cells i }
             else { m with cells := insertCell m.cells i v }
  | .free _ => { m with cells := insertCell m.cells i v }

/-- The canonical form: indices strictly rising, and over a zero fill no entry equal to zero. -/
abbrev Memory.wf {w : Nat} (m : Memory w) : Prop :=
  m.cells.Pairwise (fun a b => a.1 < b.1) ∧ (m.fill = .zero → ∀ c ∈ m.cells, c.2 ≠ 0)

/-- `MemRead` on a space of `size` elements: an index at or beyond the size reads 0 (R50). -/
def Memory.readIn {w : Nat} (size : Nat) (m : Memory w) (i : Nat) : BitVec w :=
  if i < size then m.read i else 0

/-- `MemWrite` on a space of `size` elements: an index at or beyond the size is ignored (R50). -/
def Memory.writeIn {w : Nat} (size : Nat) (m : Memory w) (i : Nat) (v : BitVec w) : Memory w :=
  if i < size then m.write i v else m

/-- Writes of consecutive elements, the first at index `i`. -/
def Memory.writeFrom {w : Nat} (size : Nat) (m : Memory w) (i : Nat) : List (BitVec w) → Memory w
  | [] => m
  | v :: vs => Memory.writeFrom size (m.writeIn size i v) (i + 1) vs

/-- The elements `i`, `i+1`, .., `i+n-1`. -/
def Memory.readFrom {w : Nat} (size : Nat) (m : Memory w) (i n : Nat) : List (BitVec w) :=
  (List.range n).map fun k => m.readIn size (i + k)

/-! ## Sizes and layouts -/

/-- W = `CTL.WIDTH` (10_state.md R27). -/
def State.frameW (s : State) : Nat := s.width.toNat

/-- H = `CTL.HEIGHT` (R27). -/
def State.frameH (s : State) : Nat := s.height.toNat

/-- The array length `CTL.VL` (R25). -/
def State.vlen (s : State) : Nat := s.vl.toNat

/-- Elements of each frame buffer: `3·WMAX·HMAX` (10_state.md R39). -/
def State.frameSize (s : State) : Nat := 3 * s.hw.wmax.toNat * s.hw.hmax.toNat

/-- Elements of a line buffer: `LMAX` (10_state.md R37). -/
def State.lineSize (s : State) : Nat := s.hw.lmax.toNat

/-- 64-bit elements of a complex buffer: two for each of `LMAX` (10_state.md R38). -/
def State.zSize (s : State) : Nat := 2 * s.hw.lmax.toNat

/-- The index of a planar sample (20_memory.md R52). -/
def State.yiqIndex (s : State) (p y x : Nat) : Nat :=
  p * s.frameW * s.frameH + y * s.frameW + x

/-- The index of a pixel byte (20_memory.md R51). -/
def State.pixelIndex (s : State) (y x ch : Nat) : Nat := 3 * (y * s.frameW + x) + ch

/-- `YIQ(p, y, x)` (20_memory.md R52). -/
def State.yiqAt (s : State) (p y x : Nat) : I32 := s.yiq.readIn s.frameSize (s.yiqIndex p y x)

/-- `RGBIN(y, x, ch)` (20_memory.md R51). -/
def State.rgbinAt (s : State) (y x ch : Nat) : U8 := s.rgbin.readIn s.frameSize (s.pixelIndex y x ch)

/-- A byte of `RGBOUT` (20_memory.md R51). -/
def State.rgboutAt (s : State) (y x ch : Nat) : U8 := s.rgbout.readIn s.frameSize (s.pixelIndex y x ch)

/-! ## Register and buffer updates -/

/-- `x[i] <- v` (00_scope.md R10). -/
def State.setX (s : State) (i : Fin 8) (v : U32) : State := { s with x := s.x.set i v }

/-- `f[i] <- v` (R10). -/
def State.setF (s : State) (i : Fin 8) (v : F64) : State := { s with f := s.f.set i v }

/-- Replaces a context. -/
def State.setCtx (s : State) (c : Fin 3) (k : Context) : State := { s with ctx := s.ctx.set c k }

/-- `G[c] <- g` (R10). -/
def State.setGen (s : State) (c : Fin 3) (g : Gen) : State := s.setCtx c { s.ctx[c] with gen := g }

/-- `FLT[c][i] <- v` (R10). -/
def State.setFlt (s : State) (c : Fin 3) (i : Fin 8) (v : Filter) : State :=
  s.setCtx c { s.ctx[c] with flt := s.ctx[c].flt.set i v }

/-- Replaces the line buffer `L[c][b]`. -/
def State.setLine (s : State) (c : Fin 3) (b : Fin 4) (m : Memory 64) : State :=
  s.setCtx c { s.ctx[c] with lb := s.ctx[c].lb.set b m }

/-- Replaces the complex buffer `Z[c]`. -/
def State.setZ (s : State) (c : Fin 3) (m : Memory 64) : State := s.setCtx c { s.ctx[c] with z := m }

/-- Replaces the planar buffer. -/
def State.setYiq (s : State) (m : Memory 32) : State := { s with yiq := m }

/-- Replaces the output pixel buffer. -/
def State.setRgbout (s : State) (m : Memory 8) : State := { s with rgbout := m }

/-- Replaces the status fields. -/
def State.setStatus (s : State) (st : Status) : State := { s with status := st }

/-- `sc[t] <- k` (R10). -/
def State.setSc (s : State) (t : Fin 2) (k : Nat) : State := { s with sc := s.sc.set t k }

/-! ## Errors: the block's exceptions (60_exceptions.md) -/

/-- The block's synchronous errors (60_exceptions.md R221). -/
inductive CommandError where
  | illegal | range | fftLen | seed0
deriving DecidableEq, Repr

/-- The code recorded in `STATUS.ERRCODE` (R221). -/
def CommandError.code : CommandError → BitVec 4
  | .illegal => 1
  | .range => 2
  | .fftLen => 3
  | .seed0 => 4

/-- `raise E(word)` (R222): the first error sticks; nothing else changes. -/
def State.raise (s : State) (e : CommandError) (word : U32) : State :=
  if s.status.err then s
  else { s with status := { s.status with err := true, errcode := e.code }, errinfo := word }

/-- The host's write of 1 to `STATUS.ERR` (R224, R232; 10_state.md R26): the only return from an error. It
is ignored while `BUSY = 1`. -/
def State.clearError (s : State) : State :=
  if s.status.busy then s
  else { s with status := { s.status with err := false, errcode := 0 }, errinfo := 0 }

/-! ## Loss of scratch contents (10_state.md R40) -/

/-- The filter slots of a context after its scratch was used: free values. -/
def lostFilters (p : Path) : Vector Filter 8 :=
  Vector.ofFn fun i : Fin 8 =>
    ⟨Config.freeScratch 64 (0 :: 0 :: i.val :: p), Config.freeScratch 64 (1 :: 0 :: i.val :: p)⟩

/-- A context whose filter slots, line buffers and complex buffer are unspecified; its generator stays. -/
def Context.loseScratch (k : Context) (p : Path) : Context where
  gen := k.gen
  flt := lostFilters p
  lb := Vector.ofFn fun b : Fin 4 => ⟨.free (1 :: b.val :: p), []⟩
  z := ⟨.free (2 :: p), []⟩

/-- The scratch of context `c` becomes unspecified (R40; log 4). -/
def State.loseScratch (s : State) (c : Fin 3) : State :=
  s.setCtx c (s.ctx[c].loseScratch [c.val, s.tick])

end Sys2Proof.Machine
end

