-- ==== Sys2Proof/Machine/Operands.lean ====
section
/-! DEFINITION. The operand forms of the commands (30_encoding.md R73, R74): registers, slices of line
buffers and complex buffers, planar rows, and the own-field rows of a field. -/

namespace Sys2Proof.Machine

/-- A complex value (00_scope.md R9). -/
abbrev C64 := F64 × F64

/-! ## Line buffers and complex buffers -/

/-- The first `n` elements of `L[c][b]`. -/
def State.lineSlice (s : State) (c : Fin 3) (b : Fin 4) (n : Nat) : List F64 :=
  s.ctx[c].lb[b].readFrom s.lineSize 0 n

/-- Stores a list into the first elements of `L[c][b]`; the others are untouched. -/
def State.storeLine (s : State) (c : Fin 3) (b : Fin 4) (vs : List F64) : State :=
  s.setLine c b (s.ctx[c].lb[b].writeFrom s.lineSize 0 vs)

/-- The first `n` elements of `Z[c]`. -/
def State.zSlice (s : State) (c : Fin 3) (n : Nat) : List C64 :=
  (List.range n).map fun k =>
    (s.ctx[c].z.readIn s.zSize (2 * k), s.ctx[c].z.readIn s.zSize (2 * k + 1))

/-- Stores a list into the first elements of `Z[c]`; the others are untouched. -/
def State.storeZ (s : State) (c : Fin 3) (vs : List C64) : State :=
  s.setZ c (s.ctx[c].z.writeFrom s.zSize 0 (vs.flatMap fun v => [v.1, v.2]))

/-! ## Planar rows -/

/-- Row `y` of plane `p` (20_memory.md R52). -/
def State.planeRow (s : State) (p y : Nat) : List I32 :=
  (List.range s.frameW).map fun x => s.yiqAt p y x

/-- Stores a list into the first columns of row `y` of plane `p`. -/
def State.storePlaneRow (s : State) (p y : Nat) (vs : List I32) : State :=
  s.setYiq (s.yiq.writeFrom s.frameSize (s.yiqIndex p y 0) vs)

/-! ## Own-field rows (00_scope.md R19: rows `y` with `y mod 2 = t`) -/

/-- The number of own-field rows below `h`. -/
def ownRowCount (h t : Nat) : Nat := (h + 1 - t) / 2

/-- The own-field rows `t, t+2, ..` below `h`, in increasing order. -/
def ownRows (h t : Nat) : List Nat := (List.range (ownRowCount h t)).map fun r => t + 2 * r

/-- The samples of plane `p` on the own rows of field `t`. -/
def State.loadPlane (s : State) (t p : Nat) : PlaneRows := (ownRows s.frameH t).map (s.planeRow p)

/-- The own-field rows of the three planes (45_stages.md R151, R152). -/
def State.loadField (s : State) (t : Nat) : FieldRows :=
  ⟨s.loadPlane t 0, s.loadPlane t 1, s.loadPlane t 2⟩

/-- A sample of own-field rows by row index in the field and column; 0 outside. -/
def PlaneRows.at (rows : PlaneRows) (r x : Nat) : I32 := (rows.getD r []).getD x 0

/-- Rows cut or filled to `n` rows of `w` samples. -/
def PlaneRows.fit (rows : PlaneRows) (n w : Nat) : PlaneRows :=
  (List.range n).map fun r => (List.range w).map fun x => rows.at r x

/-- Stores own-field rows of plane `p`, row by row, every column of each. -/
def State.storePlane (s : State) (t p : Nat) (rows : PlaneRows) : State :=
  (List.range (ownRowCount s.frameH t)).foldl
    (fun acc r => acc.storePlaneRow p (t + 2 * r) ((List.range s.frameW).map fun x => rows.at r x)) s

/-- Stores the own-field rows of the three planes. -/
def State.storeField (s : State) (t : Nat) (f : FieldRows) : State :=
  ((s.storePlane t 0 f.y).storePlane t 1 f.i).storePlane t 2 f.q

end Sys2Proof.Machine
end

