-- ==== Sys2Proof/Machine/Csc.lean ====
section
/-! DEFINITION. The colour-space transcoder (43_csc.md R130 to R134). -/

namespace Sys2Proof.Machine

open Host (Outcome)

/-- A byte taken as an `i32` in 0..255 (R131). -/
def byteI32 (b : U8) : I32 := b.setWidth 32

/-- `RgbToYiq(r, g, b)` (R131). -/
def rgbToYiq (r g b : U8) : I32 × I32 × I32 :=
  let y := asr (77 * byteI32 r + 151 * byteI32 g + 28 * byteI32 b) 8
  let i := asr (189 * (byteI32 r - y) - 69 * (byteI32 b - y)) 8
  let q := asr (123 * (byteI32 r - y) + 105 * (byteI32 b - y)) 8
  (y, i, q)

/-- `YiqToRgb(Y, I, Q)` (R132). -/
def yiqToRgb (y i q : I32) : U8 × U8 × U8 :=
  (clamp255 (y + asr (245 * i + 159 * q) 8),
   clamp255 (y - asr (70 * i + 166 * q) 8),
   clamp255 (y + asr (-283 * i + 436 * q) 8))

/-- The converted samples of row `y` of the input frame. -/
def State.inputRow (s : State) (y : Nat) : List (I32 × I32 × I32) :=
  (List.range s.frameW).map fun x => rgbToYiq (s.rgbinAt y x 0) (s.rgbinAt y x 1) (s.rgbinAt y x 2)

/-- `CSC.RGB2YIQ` as a state change (R133): whole frame, both fields. -/
def State.rgb2yiq (s : State) : State :=
  (List.range s.frameH).foldl
    (fun acc y =>
      ((acc.storePlaneRow 0 y ((s.inputRow y).map fun v => v.1)).storePlaneRow 1 y
        ((s.inputRow y).map fun v => v.2.1)).storePlaneRow 2 y ((s.inputRow y).map fun v => v.2.2)) s

/-- The output bytes of row `y`: R, G, B of each pixel in turn (R134). -/
def State.outputRow (s : State) (y : Nat) : List U8 :=
  (List.range s.frameW).flatMap fun x =>
    let rgb := yiqToRgb (s.yiqAt 0 y x) (s.yiqAt 1 y x) (s.yiqAt 2 y x)
    [rgb.1, rgb.2.1, rgb.2.2]

/-- `CSC.YIQ2RGB t` as a state change (R134): the rows of one field. -/
def State.yiq2rgb (s : State) (t : Nat) : State :=
  (ownRows s.frameH t).foldl
    (fun acc y => acc.setRgbout (acc.rgbout.writeFrom s.frameSize (s.pixelIndex y 0 0) (s.outputRow y))) s

/-- `CSC.RGB2YIQ` (R133). -/
def execCscRgb2yiq (s : State) : Outcome State Fault Refusal := .next s.rgb2yiq

/-- `CSC.YIQ2RGB fld` (R134). -/
def execCscYiq2rgb (fld : FieldId) (s : State) : Outcome State Fault Refusal := .next (s.yiq2rgb fld)

end Sys2Proof.Machine
end

