-- ==== Sys2Proof/Machine/Fft.lean ====
section
/-! DEFINITION. The FFT unit and the complex buffer (42_fft.md R115 to R124). -/

namespace Sys2Proof.Machine

open Host (Outcome)

/-- `a[0], a[2], ..` -/
def evens {α : Type} : List α → List α
  | [] => []
  | [a] => [a]
  | a :: _ :: rest => a :: evens rest

/-- `a[1], a[3], ..` -/
def odds {α : Type} : List α → List α
  | [] => []
  | [_] => []
  | _ :: b :: rest => b :: odds rest

/-- The twiddle factor `w` of index `k` at length `n` (R116); `inverse` selects `sgn = +1.0`. -/
def twiddle (p : Path) (inverse : Bool) (n k : Nat) : C64 :=
  let th := fdiv (0 :: p) (fmul (1 :: p) (fmul (2 :: p) ftwo fpi) (fofInt k)) (fofInt n)
  let sgn := if inverse then fone else fneg fone
  (fcos th, fmul (3 :: p) sgn (fsin th))

/-- `t = w * O[k]` (R116). -/
def twiddled (p : Path) (w o : C64) : C64 :=
  (fsub (4 :: p) (fmul (5 :: p) w.1 o.1) (fmul (6 :: p) w.2 o.2),
   fadd (7 :: p) (fmul (8 :: p) w.1 o.2) (fmul (9 :: p) w.2 o.1))

/-- `Fft(a, 2^levels, sgn)` (R116), the recursive radix-2 decimation-in-time transform. -/
def fft (p : Path) (inverse : Bool) : Nat → List C64 → List C64
  | 0, a => a
  | levels + 1, a =>
    let n := 2 ^ (levels + 1)
    let e := fft (0 :: p) inverse levels (evens a)
    let o := fft (1 :: p) inverse levels (odds a)
    let t := fun k => twiddled (k :: 2 :: p) (twiddle (k :: 2 :: p) inverse n k) (o.getD k (0, 0))
    let sums := (List.range (n / 2)).map fun k =>
      (fadd (10 :: k :: 2 :: p) (e.getD k (0, 0)).1 (t k).1,
       fadd (11 :: k :: 2 :: p) (e.getD k (0, 0)).2 (t k).2)
    let differences := (List.range (n / 2)).map fun k =>
      (fsub (12 :: k :: 2 :: p) (e.getD k (0, 0)).1 (t k).1,
       fsub (13 :: k :: 2 :: p) (e.getD k (0, 0)).2 (t k).2)
    sums ++ differences

/-- The forward transform of a sequence whose length is a power of two (R119). -/
def forwardTransform (p : Path) (a : List C64) : List C64 := fft p false a.length.log2 a

/-- The inverse transform of a sequence whose length is a power of two, with the whole `1/N` (R120). -/
def inverseTransform (p : Path) (a : List C64) : List C64 :=
  (fft (0 :: p) true a.length.log2 a).mapIdx fun n r =>
    (fdiv (0 :: n :: 1 :: p) r.1 (fofInt a.length), fdiv (1 :: n :: 1 :: p) r.2 (fofInt a.length))

/-- `spectrumShift` (R121): rotation by half the length, `new[i] = old[(i + N/2) mod N]`. -/
def spectrumShift (a : List C64) : List C64 :=
  (List.range a.length).map fun i => a.getD ((i + a.length / 2) % a.length) (0, 0)

/-- Product of a spectrum with a real mask (R124). -/
def maskSpectrum (p : Path) (a : List C64) (m : List F64) : List C64 :=
  a.mapIdx fun n v => (fmul (0 :: n :: p) v.1 (m.getD n 0), fmul (1 :: n :: p) v.2 (m.getD n 0))

/-- `FFT.FWD c` (R119): a length that is not a power of two raises `ERR_FFTLEN` (R118). -/
def execFftFwd (c : CtxId) (s : State) : Outcome State Fault Refusal :=
  if isPow2 s.vlen then .next (s.storeZ c (forwardTransform [s.tick] (s.zSlice c s.vlen)))
  else .next (s.raise .fftLen (encode (.fftFwd c)))

/-- `FFT.INV c` (R120). -/
def execFftInv (c : CtxId) (s : State) : Outcome State Fault Refusal :=
  if isPow2 s.vlen then .next (s.storeZ c (inverseTransform [s.tick] (s.zSlice c s.vlen)))
  else .next (s.raise .fftLen (encode (.fftInv c)))

/-- `FFT.SHIFT c` (R121): every length is accepted. -/
def execFftShift (c : CtxId) (s : State) : Outcome State Fault Refusal :=
  .next (s.storeZ c (spectrumShift (s.zSlice c s.vlen)))

/-- `Z.LDRE c, LS` (R122). -/
def execZLdre (c : CtxId) (lS : LineId) (s : State) : Outcome State Fault Refusal :=
  .next (s.storeZ c ((s.lineSlice c lS s.vlen).map fun v => (v, 0)))

/-- `Z.STRE c, LD` (R123). -/
def execZStre (c : CtxId) (lD : LineId) (s : State) : Outcome State Fault Refusal :=
  .next (s.storeLine c lD ((s.zSlice c s.vlen).map fun v => v.1))

/-- `Z.MULR c, LS` (R124). -/
def execZMulr (c : CtxId) (lS : LineId) (s : State) : Outcome State Fault Refusal :=
  .next (s.storeZ c (maskSpectrum [s.tick] (s.zSlice c s.vlen) (s.lineSlice c lS s.vlen)))

end Sys2Proof.Machine
end

