-- ==== Sys2Proof/Machine/Iir.lean ====
section
/-! DEFINITION. The IIR unit (41_iir.md R100 to R111): single-pole filters and the cascade of three. -/

namespace Sys2Proof.Machine

open Host (Outcome)

/-- The smoothing coefficient `dt/(tau+dt)`, `dt = 1/rate`, `tau = 1/((2·PI)·cutoff)` (R100). -/
def coeff (p : Path) (rate cutoff : F64) : F64 :=
  let dt := fdiv (0 :: p) fone rate
  let tau := fdiv (1 :: p) fone (fmul (2 :: p) (fmul (3 :: p) ftwo fpi) cutoff)
  fdiv (4 :: p) dt (fadd (5 :: p) tau dt)

/-- `Lowpass(F, s)` (R101) in the configured expression order: the filter with its new `prev`, which is also the
value returned. -/
def lowpass (order : LowpassExpr) (p : Path) (flt : Filter) (v : F64) : Filter × F64 :=
  let out := lowpassUpdate order p flt.alpha flt.prev v
  ({ flt with prev := out }, out)

/-- `Highpass(F, s) = s - Lowpass(F, s)` (R102). -/
def highpass (order : LowpassExpr) (p : Path) (flt : Filter) (v : F64) : Filter × F64 :=
  let (flt', l) := lowpass order (0 :: p) flt v
  (flt', fsub (1 :: p) v l)

/-- Three filters, in cascade order (R103). -/
abbrev Cascade := Filter × Filter × Filter

/-- `Lowpass3(F0, F1, F2, s)` (R103). -/
def lowpass3 (order : LowpassExpr) (p : Path) (k : Cascade) (v : F64) : Cascade × F64 :=
  let (f0, v0) := lowpass order (0 :: p) k.1 v
  let (f1, v1) := lowpass order (1 :: p) k.2.1 v0
  let (f2, v2) := lowpass order (2 :: p) k.2.2 v1
  ((f0, f1, f2), v2)

/-- Runs a filter over a list sample by sample with carried state (R107); `n` is the index of the first
sample. -/
def runFilter {σ : Type} (f : Path → σ → F64 → σ × F64) (p : Path) : Nat → σ → List F64 → σ × List F64
  | _, st, [] => (st, [])
  | n, st, v :: vs =>
    let (st₁, out) := f (n :: p) st v
    let (st₂, outs) := runFilter f p (n + 1) st₁ vs
    (st₂, out :: outs)

/-- The cascade that starts at a slot: slots `slot`, `slot+1`, `slot+2` of context `c` (R109). -/
def State.cascade (s : State) (c : CtxId) (slot : SlotId) : Cascade :=
  (s.ctx[c].flt[slot], s.ctx[c].flt[slot + 1], s.ctx[c].flt[slot + 2])

/-- Puts a cascade back into its slots (R109). -/
def State.setCascade (s : State) (c : CtxId) (slot : SlotId) (k : Cascade) : State :=
  ((s.setFlt c slot k.1).setFlt c (slot + 1) k.2.1).setFlt c (slot + 2) k.2.2

/-- `IIR.INIT c, s, fRate, fCut, fVal` (R104). -/
def execIirInit (c : CtxId) (slot : SlotId) (fRate fCut fVal : RegId) (s : State) :
    Outcome State Fault Refusal :=
  .next (s.setFlt c slot ⟨coeff [s.tick] s.f[fRate] s.f[fCut], s.f[fVal]⟩)

/-- `IIR.LP c, s, fD, fS` (R105). -/
def execIirLp (c : CtxId) (slot : SlotId) (fD fS : RegId) (s : State) : Outcome State Fault Refusal :=
  let r := lowpass s.hw.lowpassOrder [s.tick] s.ctx[c].flt[slot] s.f[fS]
  .next ((s.setFlt c slot r.1).setF fD r.2)

/-- `IIR.HP c, s, fD, fS` (R106). -/
def execIirHp (c : CtxId) (slot : SlotId) (fD fS : RegId) (s : State) : Outcome State Fault Refusal :=
  let r := highpass s.hw.lowpassOrder [s.tick] s.ctx[c].flt[slot] s.f[fS]
  .next ((s.setFlt c slot r.1).setF fD r.2)

/-- `IIR.LPA c, s, LD, LS` (R107). Each element is read before it is written, so the whole source slice can
be read first, `LD = LS` included. -/
def execIirLpa (c : CtxId) (slot : SlotId) (lD lS : LineId) (s : State) : Outcome State Fault Refusal :=
  let r := runFilter (lowpass s.hw.lowpassOrder) [s.tick] 0 s.ctx[c].flt[slot]
    (s.lineSlice c lS s.vlen)
  .next ((s.setFlt c slot r.1).storeLine c lD r.2)

/-- `IIR.HPA c, s, LD, LS` (R108). -/
def execIirHpa (c : CtxId) (slot : SlotId) (lD lS : LineId) (s : State) : Outcome State Fault Refusal :=
  let r := runFilter (highpass s.hw.lowpassOrder) [s.tick] 0 s.ctx[c].flt[slot]
    (s.lineSlice c lS s.vlen)
  .next ((s.setFlt c slot r.1).storeLine c lD r.2)

/-- `IIR.INIT3 c, s, fRate, fCut, fVal` (R109); a slot above 5 is illegal (30_encoding.md R76). -/
def execIirInit3 (c : CtxId) (slot : SlotId) (fRate fCut fVal : RegId) (s : State) :
    Outcome State Fault Refusal :=
  if slot.startsCascade then
    let flt : Filter := ⟨coeff [s.tick] s.f[fRate] s.f[fCut], s.f[fVal]⟩
    .next (s.setCascade c slot (flt, flt, flt))
  else .next (s.raise .illegal (encode (.iirInit3 c slot fRate fCut fVal)))

/-- `IIR.LP3 c, s, fD, fS` (R110); a slot above 5 is illegal (30_encoding.md R76). -/
def execIirLp3 (c : CtxId) (slot : SlotId) (fD fS : RegId) (s : State) : Outcome State Fault Refusal :=
  if slot.startsCascade then
    let r := lowpass3 s.hw.lowpassOrder [s.tick] (s.cascade c slot) s.f[fS]
    .next ((s.setCascade c slot r.1).setF fD r.2)
  else .next (s.raise .illegal (encode (.iirLp3 c slot fD fS)))

/-- `IIR.LPA3 c, s, LD, LS` (R111); a slot above 5 is illegal (30_encoding.md R76). -/
def execIirLpa3 (c : CtxId) (slot : SlotId) (lD lS : LineId) (s : State) : Outcome State Fault Refusal :=
  if slot.startsCascade then
    let r := runFilter (lowpass3 s.hw.lowpassOrder) [s.tick] 0 (s.cascade c slot)
      (s.lineSlice c lS s.vlen)
    .next ((s.setCascade c slot r.1).storeLine c lD r.2)
  else .next (s.raise .illegal (encode (.iirLpa3 c slot lD lS)))

end Sys2Proof.Machine
end

