-- ==== Sys2Proof/Machine/MemSys.lean ====
section
/-! DEFINITION. System and row-transfer commands (47_mem_sys.md R210 to R212). -/

namespace Sys2Proof.Machine

open Host (Outcome)

/-- `NOP` (R210): no state changes. -/
def execNop (s : State) : Outcome State Fault Refusal := .next s

/-- `LD.ROW c, LD, p, xRow` (R211). -/
def execLdRow (c : CtxId) (lD : LineId) (p : PlaneId) (xRow : RegId) (s : State) :
    Outcome State Fault Refusal :=
  let y := s.x[xRow].toNat
  if s.frameH ≤ y ∨ s.lineSize < s.frameW then .next (s.raise .range (encode (.ldRow c lD p xRow)))
  else .next (s.storeLine c lD ((s.planeRow p y).map fofI32))

/-- `ST.ROW c, p, xRow, xShift, LS` (R212): samples `d`, `d+1`, .. of the buffer go to columns 0, 1, .. -/
def execStRow (c : CtxId) (p : PlaneId) (xRow xShift : RegId) (lS : LineId) (s : State) :
    Outcome State Fault Refusal :=
  let y := s.x[xRow].toNat
  let d := s.x[xShift].toNat
  if s.frameH ≤ y ∨ s.lineSize < s.frameW ∨ s.frameW < d then
    .next (s.raise .range (encode (.stRow c p xRow xShift lS)))
  else .next (s.storePlaneRow p y (((s.lineSlice c lS s.frameW).drop d).map ftoI32))

end Sys2Proof.Machine
end

