-- ==== Sys2Proof/Machine/Mux.lean ====
section
/-! DEFINITION. Composite multiplex and demultiplex (44_mux.md R140 to R144; logs 11, 12). -/

namespace Sys2Proof.Machine

open Host (Outcome)

/-- The multiplier of I at a phase (R140). -/
def phaseU (p : Nat) : I32 := if p % 4 = 0 then 1 else if p % 4 = 2 then -1 else 0

/-- The multiplier of Q at a phase (R140). -/
def phaseV (p : Nat) : I32 := if p % 4 = 1 then 1 else if p % 4 = 3 then -1 else 0

/-- The instance of `Xi(mode, fieldno, y, offset)` that R141 gives, 0..3. -/
def xi (mode : BitVec 2) (fieldno y : Nat) (offset : I32) : Nat :=
  let f : I32 := BitVec.ofNat 32 fieldno
  let row : I32 := BitVec.ofNat 32 y
  if mode = 1 then low2 (f + offset + asr row 1)
  else if mode = 2 then low2 (((f + row) &&& 2) + offset)
  else if mode = 3 then low2 (f + offset)
  else low2 offset

/-- The phase index of row `y` of field `t` under a configuration, 0..3 (R141): the implementation's `Xi`, of
which R141 gives one instance and 00_scope.md R8 the range. -/
def rowPhase (hw : HwParams) (cfg : Cfg) (t y : Nat) : Nat :=
  if hw.xiInstance then xi cfg.scanlinePhaseShift t y cfg.scanlinePhaseShiftOffset
  else Config.phaseIndex cfg.scanlinePhaseShift t y cfg.scanlinePhaseShiftOffset % 4

/-- The luma row after the encode of one row (R142): `norm` is `SUBCARRIER_NORM`, `ph` the phase index. -/
def encodeRow (norm amp : I32) (ph w : Nat) (ys is qs : List I32) : List I32 :=
  (List.range w).map fun x =>
    let p := (ph + x) % 4
    let chroma := is.getD x 0 * amp * phaseU p + qs.getD x 0 * amp * phaseV p
    ys.getD x 0 + tdiv chroma norm

/-- A row of zeros. -/
def zeroRow (w : Nat) : List I32 := List.replicate w 0

/-- `chromaIntoLuma` on the own rows of field `t` (R142). -/
def encodeField (hw : HwParams) (cfg : Cfg) (amp : I32) (w t : Nat) (n : Nat) (f : FieldRows) : FieldRows where
  y := (List.range n).map fun r =>
    encodeRow hw.subcarrierNorm amp (rowPhase hw cfg t (t + 2 * r)) w (f.y.getD r []) (f.i.getD r [])
      (f.q.getD r [])
  i := (List.range n).map fun _ => zeroRow w
  q := (List.range n).map fun _ => zeroRow w

/-- A sample of a row, 0 outside it (R144). -/
def tap (row : List I32) (x : Int) : I32 := if 0 ≤ x then row.getD x.toNat 0 else 0

/-- The moving average at column `x` (R144, step 1). -/
def combLuma (yo : List I32) (x : Nat) : I32 :=
  tdiv (tap yo (x - 1) + tap yo x + tap yo (x + 1) + tap yo (x + 2)) 4

/-- The residue row (R144, step 2). -/
def combResidue (w : Nat) (yo : List I32) : List I32 :=
  (List.range w).map fun (x : Nat) => tap yo (x + 2) - combLuma yo x

/-- Negates one sample of a row. -/
def negateAt (c : List I32) (x : Nat) : List I32 := c.set x (-(c.getD x 0))

/-- Negates the runs of two from column `x` on (R144, step 3); the first argument bounds the loop. -/
def negateRuns (w : Nat) : Nat → Nat → List I32 → List I32
  | 0, _, c => c
  | n + 1, x, c =>
    if x + 3 < w then negateRuns w n (x + 4) (negateAt (negateAt c (x + 2)) (x + 3)) else c

/-- Scales a residue sample by the inverse gain; an amplitude of zero gives zero (R144, step 4). -/
def unscale (norm amp c : I32) : I32 := if amp = 0 then 0 else tdiv (c * norm) amp

/-- The scaled residue row of steps 1 to 4 of R144. -/
def decodeResidue (norm amp : I32) (ph w : Nat) (yo : List I32) : List I32 :=
  (negateRuns w w ((4 - ph) % 4) (combResidue w yo)).map (unscale norm amp)

/-- An even chroma column (R144, step 5); `off` is 0 for I and 1 for Q. -/
def decodeEven (ph w off : Nat) (c : List I32) (x : Nat) : I32 :=
  if x + ph + 1 < w then -(c.getD (x + ph + off) 0) else 0

/-- The first column of the zeroed tail (R144, step 6): the last even column with no even column to its
right. -/
def decodeTail (w : Nat) : Nat := 2 * ((w - 1) / 2)

/-- A chroma column after the decode (R144, steps 5 and 6). -/
def decodeChroma (ph w off : Nat) (c : List I32) (x : Nat) : I32 :=
  if decodeTail w ≤ x then 0
  else if x % 2 = 0 then decodeEven ph w off c x
  else asr (decodeEven ph w off c (x - 1) + decodeEven ph w off c (x + 1)) 1

/-- `chromaFromLuma` on the own rows of field `t` (R144). -/
def decodeField (hw : HwParams) (cfg : Cfg) (amp : I32) (w t : Nat) (n : Nat) (f : FieldRows) : FieldRows where
  y := (List.range n).map fun r => (List.range w).map (combLuma (f.y.getD r []))
  i := (List.range n).map fun r =>
    (List.range w).map (decodeChroma (rowPhase hw cfg t (t + 2 * r)) w 0
      (decodeResidue hw.subcarrierNorm amp (rowPhase hw cfg t (t + 2 * r)) w (f.y.getD r [])))
  q := (List.range n).map fun r =>
    (List.range w).map (decodeChroma (rowPhase hw cfg t (t + 2 * r)) w 1
      (decodeResidue hw.subcarrierNorm amp (rowPhase hw cfg t (t + 2 * r)) w (f.y.getD r [])))

/-- `MUX.ENC` for field `t` with amplitude `amp` as a state change (R142). -/
def State.muxEncode (s : State) (t : Nat) (amp : I32) : State :=
  s.storeField t
    (encodeField s.hw s.cfg amp s.frameW t (ownRowCount s.frameH t) (s.loadField t))

/-- `MUX.DEC` for field `t` with amplitude `amp` as a state change (R144). -/
def State.muxDecode (s : State) (t : Nat) (amp : I32) : State :=
  s.storeField t
    (decodeField s.hw s.cfg amp s.frameW t (ownRowCount s.frameH t) (s.loadField t))

/-- `MUX.ENC fld, xAmp` (R142). -/
def execMuxEnc (fld : FieldId) (xAmp : RegId) (s : State) : Outcome State Fault Refusal :=
  .next (s.muxEncode fld s.x[xAmp])

/-- `MUX.DEC fld, xAmp` (R144). -/
def execMuxDec (fld : FieldId) (xAmp : RegId) (s : State) : Outcome State Fault Refusal :=
  .next (s.muxDecode fld s.x[xAmp])

end Sys2Proof.Machine
end

