-- ==== Sys2Proof/Machine/Flags.lean ====
section
/-! DEFINITION. The status bits. The block has no arithmetic flags (10_state.md R23); the only flags are the
fields of `CTL.STATUS` (R26), computed here as the host sees them and as commands and host writes change
them. -/

namespace Sys2Proof.Machine

/-- A flag as a bit at a position. -/
def flagBit (b : Bool) (pos : Nat) : U32 := if b then BitVec.ofNat 32 (2 ^ pos) else 0

/-- The `STATUS` word (R26): BUSY 0, DONE 1, ERR 2, OVR 3, ERRCODE 7:4, the rest 0. -/
def Status.word (st : Status) : U32 :=
  flagBit st.busy 0 ||| flagBit st.done 1 ||| flagBit st.err 2 ||| flagBit st.ovr 3 |||
    (st.errcode.setWidth 32 <<< 4)

/-- `STATUS.OVR <- 1`: a command written while `BUSY = 1` (60_exceptions.md R225). -/
def State.setOverrun (s : State) : State := s.setStatus { s.status with ovr := true }

/-- `STATUS.DONE <- 1` (46_dispatcher.md R192). -/
def State.setDone (s : State) : State := s.setStatus { s.status with done := true }

/-- `DONE <- 0 ; BUSY <- 1` (46_dispatcher.md R193). -/
def State.markForked (s : State) : State := s.setStatus { s.status with done := false, busy := true }

/-- `BUSY <- 0 ; DONE <- 1` (46_dispatcher.md R198). -/
def State.markJoined (s : State) : State := s.setStatus { s.status with busy := false, done := true }

/-- Write 1 to `STATUS.DONE`: clears it, busy or not (R26). -/
def State.clearDone (s : State) : State := s.setStatus { s.status with done := false }

/-- Write 1 to `STATUS.OVR`: clears it, ignored while `BUSY = 1` (R26, 60_exceptions.md R225). -/
def State.clearOverrun (s : State) : State :=
  if s.status.busy then s else s.setStatus { s.status with ovr := false }

/-- A host write of `STATUS` (R26): each of bits 1 to 3 that is 1 clears its flag; the other bits are
ignored. -/
def State.writeStatus (s : State) (v : U32) : State :=
  let s₁ := if v.getLsbD 1 then s.clearDone else s
  let s₂ := if v.getLsbD 2 then s₁.clearError else s₁
  if v.getLsbD 3 then s₂.clearOverrun else s₂

end Sys2Proof.Machine
end

