-- ==== Sys2Proof/Machine/Stages.lean ====
section
/-! DEFINITION. The seventeen effect stages (45_stages.md R150 to R172) and their predicates
(46_dispatcher.md R196). A stage is a function of the configuration, the frame size, the own-field rows and
the field's generator (R151, R152), so it can touch no row of the other field. -/

namespace Sys2Proof.Machine

/-- The stages in their fixed order (R150). -/
inductive Stage where
  | borderCut | bleedBefore | inputLowpass | ringing | encode | preemphasis | videoNoise | headSwitching
  | decode | chromaNoise | phaseNoise | vhsBundle | dropout | outputLowpass | bleedAfter | chromaBlur
  | toRgb
deriving DecidableEq, Repr

/-- The fixed list of stages, k = 0..16 (46_dispatcher.md R190). -/
def stageList : List Stage :=
  [.borderCut, .bleedBefore, .inputLowpass, .ringing, .encode, .preemphasis, .videoNoise, .headSwitching,
   .decode, .chromaNoise, .phaseNoise, .vhsBundle, .dropout, .outputLowpass, .bleedAfter, .chromaBlur,
   .toRgb]

/-- `pred_k`: whether the stage runs, a function of `CFG` alone (46_dispatcher.md R196). -/
def stagePred (cfg : Cfg) : Stage → Bool
  | .borderCut => cfg.blackLineCut
  | .bleedBefore => cfg.colorBleedBefore && (cfg.colorBleedHoriz != 0 || cfg.colorBleedVert != 0)
  | .inputLowpass => cfg.inputChromaLowpass
  | .ringing => fne cfg.ringing fone
  | .encode => !cfg.noColorSubcarrier
  | .preemphasis => fne cfg.compositePreemphasis 0
  | .videoNoise => cfg.videoNoise != 0
  | .headSwitching => cfg.emulatingVHS && cfg.vhsHeadSwitching
  | .decode => !cfg.noColorSubcarrier
  | .chromaNoise => cfg.videoChromaNoise != 0
  | .phaseNoise => cfg.videoChromaPhaseNoise != 0
  | .vhsBundle => cfg.emulatingVHS
  | .dropout => cfg.videoChromaLoss != 0
  | .outputLowpass => cfg.outputChromaLowpass
  | .bleedAfter => !cfg.colorBleedBefore && (cfg.colorBleedHoriz != 0 || cfg.colorBleedVert != 0)
  | .chromaBlur => cfg.chromaBlur
  | .toRgb => true

/-- What a stage run works with besides the rows and the generator: `CFG`, the fixed parameters, W, H, the
field `t`, and the name of the run for free values. -/
structure StageEnv where
  cfg : Cfg
  hw : HwParams
  w : Nat
  h : Nat
  t : Nat
  path : Path
deriving DecidableEq, Repr

/-- The number of own-field rows. -/
def StageEnv.rowCount (e : StageEnv) : Nat := ownRowCount e.h e.t

/-- Applies a row operation to each own-field row of a plane; the operation also gets the row's index. -/
def StageEnv.mapRows (e : StageEnv) (op : Nat → List I32 → List I32) (rows : PlaneRows) : PlaneRows :=
  (List.range e.rowCount).map fun r => op r (rows.getD r [])

/-- What an external stage may look at (R152). -/
def StageEnv.extArgs (e : StageEnv) (f : FieldRows) (g : Gen) : ExtArgs :=
  ⟨e.cfg, e.w, e.h, e.t, f, g⟩

/-- Rows of an external stage, brought to the field's size (R152: new own-field rows). -/
def StageEnv.fitRows (e : StageEnv) (rows : PlaneRows) : PlaneRows := rows.fit e.rowCount e.w

/-- Field rows of an external stage, brought to the field's size. -/
def StageEnv.fitField (e : StageEnv) (f : FieldRows) : FieldRows :=
  ⟨e.fitRows f.y, e.fitRows f.i, e.fitRows f.q⟩

/-! ## Colour bleed, stages 1 and 14 (R154) -/

/-- A sample after the bleed: row index `r` in the field, column `x`; offsets without wrap-around. -/
def bleedSample (e : StageEnv) (rows : PlaneRows) (r x : Nat) : I32 :=
  let sy : Int := ((e.t + 2 * r : Nat) : Int) - 2 * e.cfg.colorBleedVert.toInt
  let sx : Int := (x : Int) - e.cfg.colorBleedHoriz.toInt
  if 0 ≤ sy ∧ sy < e.h ∧ 0 ≤ sx ∧ sx < e.w then rows.at ((sy.toNat - e.t) / 2) sx.toNat
  else rows.at r x

/-- `ColorBleed(t)` on one plane (R154). -/
def bleedPlane (e : StageEnv) (rows : PlaneRows) : PlaneRows :=
  (List.range e.rowCount).map fun r => (List.range e.w).map fun x => bleedSample e rows r x

/-- `ColorBleed(t)` (R154): both chroma planes. -/
def colorBleed (e : StageEnv) (f : FieldRows) : FieldRows :=
  { f with i := bleedPlane e f.i, q := bleedPlane e f.q }

/-! ## Composite lowpass, stages 2 and 13 (R155 to R157) -/

/-- One row through the cascade and shifted left by `delay`; the last columns keep their values (R156). -/
def compositeRow (order : LowpassExpr) (p : Path) (alpha : F64) (delay w : Nat) (row : List I32) : List I32 :=
  let start : Filter := ⟨alpha, 0⟩
  let filtered := (runFilter (lowpass3 order) p 0 (start, start, start)
    ((List.range w).map fun x => fofI32 (row.getD x 0))).2
  (List.range w).map fun x =>
    if x + delay < w then ftoI32 (filtered.getD (x + delay) 0) else row.getD x 0

/-- `CompositeLowpass(t, p, cutoff, delay)` on one plane (R156); `cutoff` in hertz. -/
def compositePlane (e : StageEnv) (p : Path) (cutoff delay : Nat) (rows : PlaneRows) : PlaneRows :=
  let alpha := coeff (0 :: p) e.hw.sampleRateHz (fofInt cutoff)
  e.mapRows (fun r row => compositeRow e.hw.lowpassOrder (r :: 1 :: p) alpha delay e.w row) rows

/-- The standard profile (R155): 1.3 MHz on I, 600 kHz on Q. -/
def lowpassStandard (e : StageEnv) (f : FieldRows) : FieldRows :=
  { f with i := compositePlane e (1 :: e.path) 1300000 e.hw.delayI f.i,
           q := compositePlane e (2 :: e.path) 600000 e.hw.delayQ f.q }

/-- The TV profile (R155): 2.6 MHz on both chroma planes. -/
def lowpassTV (e : StageEnv) (f : FieldRows) : FieldRows :=
  { f with i := compositePlane e (1 :: e.path) 2600000 e.hw.delayTV f.i,
           q := compositePlane e (2 :: e.path) 2600000 e.hw.delayTV f.q }

/-! ## Ringing, stage 3 (R158 to R161) -/

/-- Simple variant on one row (R159); columns 0 and W-1 are unchanged. -/
def ringSimpleRow (p : Path) (gain : F64) (w : Nat) (row : List I32) : List I32 :=
  (List.range w).map fun x =>
    if 1 ≤ x ∧ x + 2 ≤ w then
      let d := fmul (0 :: x :: p)
        (fmul (1 :: x :: p) (fofI32 (row.getD (x + 1) 0 - row.getD (x - 1) 0))
          (fsub (2 :: x :: p) gain fone)) ftenth
      row.getD x 0 + ftoI32 d
    else row.getD x 0

/-- Power-law variant on one row (R160): transform, shift, mask, shift, inverse, real part, truncate. -/
def ringPowerRow (p : Path) (mask : List F64) (w : Nat) (row : List I32) : List I32 :=
  let z : List C64 := (List.range w).map fun x => (fofI32 (row.getD x 0), 0)
  let shaped := maskSpectrum (1 :: p) (spectrumShift (forwardTransform (0 :: p) z)) mask
  (inverseTransform (2 :: p) (spectrumShift shaped)).map fun v => ftoI32 v.1

/-- `RingMask(CFG, N)` as a list (R161). -/
def ringMaskRow (cfg : Cfg) (n : Nat) : List F64 := (List.range n).map (Config.ringMask cfg n)

/-- Ringing on one plane: exactly one of the two variants (R158). -/
def ringPlane (e : StageEnv) (p : Path) (rows : PlaneRows) : PlaneRows :=
  if e.cfg.enableRinging2 then
    e.mapRows (fun r row => ringPowerRow (r :: p) (ringMaskRow e.cfg e.w) e.w row) rows
  else e.mapRows (fun r row => ringSimpleRow (r :: p) e.cfg.ringing e.w row) rows

/-- Stage 3 on the planes of `RING_PLANES` (R158). -/
def ringField (e : StageEnv) (f : FieldRows) : FieldRows where
  y := if e.hw.ringPlanes.y then ringPlane e (0 :: e.path) f.y else f.y
  i := if e.hw.ringPlanes.i then ringPlane e (1 :: e.path) f.i else f.i
  q := if e.hw.ringPlanes.q then ringPlane e (2 :: e.path) f.q else f.q

/-! ## Chroma dropout, stage 12 (R170) -/

/-- Whether a row with this draw is dropped (R170). -/
def dropped (loss : I32) (n : U32) : Bool := flt (fofInt ((n.toNat % 100000 : Nat) : Int)) (fofI32 loss)

/-- One draw per row, rows in increasing order: the decisions for `n` rows and the advanced generator. -/
def dropDecisions (loss : I32) : Nat → Gen → Gen × List Bool
  | 0, g => (g, [])
  | n + 1, g =>
    let d := dropDecisions loss n (next g).1
    (d.1, dropped loss (next g).2 :: d.2)

/-- One chroma plane after the dropout (R170). -/
def dropPlane (e : StageEnv) (decisions : List Bool) (rows : PlaneRows) : PlaneRows :=
  e.mapRows (fun r row => if decisions.getD r false then zeroRow e.w else row) rows

/-- Stage 12 (R170). -/
def dropoutField (e : StageEnv) (f : FieldRows) (g : Gen) : FieldRows × Gen :=
  let d := dropDecisions e.cfg.videoChromaLoss e.rowCount g
  ({ f with i := dropPlane e d.2 f.i, q := dropPlane e d.2 f.q }, d.1)

/-! ## Chroma blur, stage 15 (R171) -/

/-- The 3-tap box filter on one row; a missing neighbour is 0 (R171). -/
def blurRow (w : Nat) (row : List I32) : List I32 :=
  (List.range w).map fun (x : Nat) => tdiv (tap row (x - 1) + 2 * tap row x + tap row (x + 1)) 4

/-- Stage 15 (R171): both chroma planes. -/
def blurField (e : StageEnv) (f : FieldRows) : FieldRows :=
  { f with i := e.mapRows (fun _ row => blurRow e.w row) f.i,
           q := e.mapRows (fun _ row => blurRow e.w row) f.q }

/-! ## External stages (R152, R153, R162 to R168; logs 15 to 17): opaque bodies under the stated contracts -/

/-- Stage 0 (R153). -/
def borderCut (e : StageEnv) (f : FieldRows) (g : Gen) : FieldRows × Gen :=
  (e.fitField (Config.borderCutRows (e.extArgs f g)), advance (Config.borderCutDraws (e.extArgs f g)) g)

/-- Stage 5 (R162). -/
def preemphasis (e : StageEnv) (f : FieldRows) (g : Gen) : FieldRows × Gen :=
  (e.fitField (Config.preemphasisRows (e.extArgs f g)),
   advance (Config.preemphasisDraws (e.extArgs f g)) g)

/-- Stage 6 (R163): plane 0 only, exactly one draw per pixel of the field's rows, the mode from
`CFG.PreciseNoise`. -/
def videoNoise (e : StageEnv) (f : FieldRows) (g : Gen) : FieldRows × Gen :=
  let luma := if e.cfg.preciseNoise then Config.preciseNoiseLuma (e.extArgs f g)
    else Config.fastNoiseLuma (e.extArgs f g)
  ({ f with y := e.fitRows luma }, advance (e.rowCount * e.w) g)

/-- Stage 7 (R164): plane 0 only; rows above the switch point unchanged. -/
def headSwitching (e : StageEnv) (f : FieldRows) (g : Gen) : FieldRows × Gen :=
  let a := e.extArgs f g
  let new := e.fitRows (Config.headSwitchLuma a)
  let luma := e.mapRows
    (fun r row => if e.t + 2 * r < Config.headSwitchRow a then row else new.getD r []) f.y
  ({ f with y := luma }, advance (Config.headSwitchDraws a) g)

/-- Stage 9 (R165): planes 1 and 2 only, the mode from `CFG.PreciseNoise` (R163). -/
def chromaNoise (e : StageEnv) (f : FieldRows) (g : Gen) : FieldRows × Gen :=
  let a := e.extArgs f g
  let chroma := if e.cfg.preciseNoise then Config.preciseChromaNoise a else Config.fastChromaNoise a
  ({ f with i := e.fitRows chroma.1, q := e.fitRows chroma.2 }, advance (Config.chromaNoiseDraws a) g)

/-- A rotated component as a sample (R166). The payload of a NaN stays invisible in the planes (93 U7). -/
def phaseSampleOf (v : F64) : I32 :=
  if isNaN v then Config.phaseRounding 0x7FF8000000000000 else Config.phaseRounding v

/-- The rotation of an (I, Q) vector by an angle (R166), in the direction the implementation fixes. -/
def rotateChroma (p : Path) (angle : F64) (i q : I32) : I32 × I32 :=
  let c := fcos angle
  let s := if Config.phaseTransposed then fneg (fsin angle) else fsin angle
  (phaseSampleOf (fsub (0 :: p) (fmul (1 :: p) (fofI32 i) c) (fmul (2 :: p) (fofI32 q) s)),
   phaseSampleOf (fadd (3 :: p) (fmul (4 :: p) (fofI32 i) s) (fmul (5 :: p) (fofI32 q) c)))

/-- The rotated sample at row index `r`, column `x`: one angle for the whole row (R166). -/
def phaseSample (e : StageEnv) (f : FieldRows) (g : Gen) (r x : Nat) : I32 × I32 :=
  rotateChroma (x :: r :: e.path) (Config.phaseAngle (e.extArgs f g) r) (f.i.at r x) (f.q.at r x)

/-- The draws of stage 10, row by row (R166). -/
def phaseDrawCount (e : StageEnv) (f : FieldRows) (g : Gen) : Nat :=
  ((List.range e.rowCount).map (Config.phaseDraws (e.extArgs f g))).sum

/-- Stage 10 (R166): planes 1 and 2 only. -/
def phaseNoise (e : StageEnv) (f : FieldRows) (g : Gen) : FieldRows × Gen :=
  ({ f with
      i := (List.range e.rowCount).map fun r => (List.range e.w).map fun x => (phaseSample e f g r x).1,
      q := (List.range e.rowCount).map fun r => (List.range e.w).map fun x => (phaseSample e f g r x).2 },
   advance (phaseDrawCount e f g) g)

/-- The tape-speed profiles SP, LP, EP (10_state.md R28; log 19); `VHSTapeSpeed = 3` names none (R33). -/
def tapeProfile (speed : BitVec 2) : Option TapeProfile :=
  if speed = 0 then some ⟨2400000, 320000, 9⟩
  else if speed = 1 then some ⟨1900000, 300000, 12⟩
  else if speed = 2 then some ⟨1400000, 280000, 14⟩
  else none

/-- Sub-stages 1 to 3 of the VHS bundle (R167): edge wave, luma sharpen, chroma lowpass. -/
def vhsTape (e : StageEnv) (f : FieldRows) (g : Gen) : FieldRows :=
  let profile := tapeProfile e.cfg.vhsTapeSpeed
  let f₁ := e.fitField (Config.vhsEdgeWave (e.extArgs f g))
  let f₂ := { f₁ with y := e.fitRows (Config.vhsLumaSharpen profile (e.extArgs f₁ g)) }
  let chroma := Config.vhsChromaLowpass profile (e.extArgs f₂ g)
  { f₂ with i := e.fitRows chroma.1, q := e.fitRows chroma.2 }

/-- Sub-stages 4 and 5 (R167): the vertical blend when enabled and the output mode is NTSC, then the output
sharpen. -/
def vhsOutput (e : StageEnv) (f : FieldRows) (g : Gen) : FieldRows :=
  let blend := Config.vhsChromaBlend (e.extArgs f g)
  let f₁ := if e.cfg.vhsChromaVertBlend && e.cfg.outputNTSC then
      { f with i := e.fitRows blend.1, q := e.fitRows blend.2 }
    else f
  { f₁ with y := e.fitRows (Config.vhsOutSharpen (e.extArgs f₁ g)) }

/-- Sub-stage 6 (R167, R168): re-encode and re-decode through the MUX unit unless S-Video is configured. -/
def vhsRecode (e : StageEnv) (f : FieldRows) : FieldRows :=
  if e.cfg.vhsSVideoOut then f
  else decodeField e.hw e.cfg (Config.vhsDecodeAmplitude e.cfg) e.w e.t e.rowCount
    (encodeField e.hw e.cfg (Config.vhsEncodeAmplitude e.cfg) e.w e.t e.rowCount f)

/-- Stage 11 (R167). -/
def vhsBundle (e : StageEnv) (f : FieldRows) (g : Gen) : FieldRows × Gen :=
  (vhsRecode e (vhsOutput e (vhsTape e f g) g), advance (Config.vhsDraws (e.extArgs f g)) g)

/-! ## Running a stage -/

/-- The effect of a stage on the own-field rows and the generator (R150). Stage 16 changes neither: it
writes `RGBOUT`. -/
def stageBody (e : StageEnv) (f : FieldRows) (g : Gen) : Stage → FieldRows × Gen
  | .borderCut => borderCut e f g
  | .bleedBefore => (colorBleed e f, g)
  | .inputLowpass => (lowpassStandard e f, g)
  | .ringing => (ringField e f, g)
  | .encode =>
    (encodeField e.hw e.cfg e.cfg.subcarrierAmplitude e.w e.t e.rowCount f, g)
  | .preemphasis => preemphasis e f g
  | .videoNoise => videoNoise e f g
  | .headSwitching => headSwitching e f g
  | .decode =>
    (decodeField e.hw e.cfg e.cfg.subcarrierAmplitudeBack e.w e.t e.rowCount f, g)
  | .chromaNoise => chromaNoise e f g
  | .phaseNoise => phaseNoise e f g
  | .vhsBundle => vhsBundle e f g
  | .dropout => dropoutField e f g
  | .outputLowpass => (if e.cfg.outputChromaLowpassTV then lowpassTV e f else lowpassStandard e f, g)
  | .bleedAfter => (colorBleed e f, g)
  | .chromaBlur => (blurField e f, g)
  | .toRgb => (f, g)

/-- The environment of a run of stage number `k` for field `t`. -/
def State.stageEnv (s : State) (t : Fin 2) (k : Nat) : StageEnv :=
  ⟨s.cfg, s.hw, s.frameW, s.frameH, t, [t.val, k, s.tick]⟩

/-- Runs a stage for field `t` (R151): own rows and `G[t]`, or `RGBOUT` for stage 16 (R172). -/
def State.runStage (s : State) (t : Fin 2) (k : Nat) (st : Stage) : State :=
  if st = .toRgb then s.yiq2rgb t
  else
    let r := stageBody (s.stageEnv t k) (s.loadField t) s.ctx[t.castSucc].gen st
    (s.storeField t r.1).setGen t.castSucc r.2

/-- `if pred_k(CFG) then stage_k(t)` (46_dispatcher.md R194, R200); `k` above 16 names no stage. -/
def State.stageStep (s : State) (t : Fin 2) (k : Nat) : State :=
  match stageList[k]? with
  | some st => if stagePred s.cfg st then s.runStage t k st else s
  | none => s

end Sys2Proof.Machine
end

