-- ==== Sys2Proof/Machine/Pipe.lean ====
section
/-! DEFINITION. The dispatcher (46_dispatcher.md R190 to R200): the commands `PIPE.PROCESS` and
`PIPE.STAGE`, a field task's step and the join. -/

namespace Sys2Proof.Machine

open Host (Outcome)

/-- The frame has no pixels (R192). -/
def State.frameEmpty (s : State) : Bool := s.frameW == 0 || s.frameH == 0

/-- `RING_PLANES` is not empty. -/
def PlaneSet.nonempty (r : PlaneSet) : Bool := r.y || r.i || r.q

/-- The ringing stage would transform rows whose length is not a power of two (R192, R200). -/
def State.badRingLength (s : State) : Bool :=
  stagePred s.cfg .ringing && s.cfg.enableRinging2 && s.hw.ringPlanes.nonempty && !isPow2 s.frameW

/-- Start and fork (R193): whole-frame conversion, `BUSY`, counters at 0; the scratch of contexts 0 and 1
becomes unspecified (10_state.md R40). -/
def State.fork (s : State) : State :=
  ((((s.rgb2yiq.markForked).setSc 0 0).setSc 1 0).loseScratch 0).loseScratch 1

/-- `PIPE.PROCESS` (R191, R192). -/
def execPipeProcess (s : State) : Outcome State Fault Refusal :=
  if s.frameEmpty then .next s.setDone
  else if s.badRingLength then .next (s.raise .fftLen (encode .pipeProcess))
  else .next s.fork

/-- `PIPE.STAGE fld, k` (R200); a stage above 16 is illegal (30_encoding.md R76). -/
def execPipeStage (fld : FieldId) (k : Fin 32) (s : State) : Outcome State Fault Refusal :=
  if ¬ stageNumberLegal k then .next (s.raise .illegal (encode (.pipeStage fld k)))
  else if s.frameEmpty then .next s
  else if k.val = 3 ∧ s.badRingLength then .next (s.raise .fftLen (encode (.pipeStage fld k)))
  else .next ((s.stageStep fld k).loseScratch fld.castSucc)

/-- A step of field task `t` (R194): enabled iff `sc[t] ≤ 16` (and `BUSY = 1`). -/
def State.taskStep (s : State) (t : Fin 2) : State :=
  if s.sc[t] ≤ 16 then (s.stageStep t s.sc[t]).setSc t (s.sc[t] + 1) else s

/-- Both tasks have finished (R198). -/
def State.joinReady (s : State) : Bool := s.sc[0] == 17 && s.sc[1] == 17

/-- The join (R198). -/
def State.joinStep (s : State) : State := if s.joinReady then s.markJoined else s

end Sys2Proof.Machine
end

