-- ==== Sys2Proof/Machine/Prng.lean ====
section
/-! DEFINITION. The PRNG unit's commands (40_prng.md R93 to R97). -/

namespace Sys2Proof.Machine

open Host (Outcome)

/-- 4294967295.0, the divisor of the uniforms (R95). -/
def uniformDivisor : F64 := fofInt 4294967295

/-- A draw as a uniform in [0, 1] (R95). -/
def uniform01 (p : Path) (n : U32) : F64 := fdiv p (fofU32 n) uniformDivisor

/-- `lo + ((hi - lo) * u)` (R96). -/
def uniformRange (p : Path) (u lo hi : F64) : F64 :=
  fadd (0 :: p) lo (fmul (1 :: p) (fsub (2 :: p) hi lo) u)

/-- Inverse-CDF sampling of the triangular distribution (R97). -/
def triangular (p : Path) (u lo hi mode : F64) : F64 :=
  let frac := fdiv (0 :: p) (fsub (1 :: p) mode lo) (fsub (2 :: p) hi lo)
  if flt u frac then
    fadd (3 :: p) lo
      (fsqrt (4 :: p) (fmul (5 :: p) (fmul (6 :: p) u (fsub (7 :: p) hi lo)) (fsub (8 :: p) mode lo)))
  else
    fsub (9 :: p) hi
      (fsqrt (10 :: p)
        (fmul (11 :: p) (fmul (12 :: p) (fsub (13 :: p) fone u) (fsub (14 :: p) hi lo))
          (fsub (15 :: p) hi mode)))

/-- The state after one draw from `G[c]`, and the draw (R98). -/
def State.draw (s : State) (c : CtxId) : State × U32 :=
  (s.setGen c (next s.ctx[c].gen).1, (next s.ctx[c].gen).2)

/-- `PRNG.SEED c, xS` (R93). -/
def execPrngSeed (c : CtxId) (xS : RegId) (s : State) : Outcome State Fault Refusal :=
  if s.x[xS] = 0 then .next (s.raise .seed0 (encode (.prngSeed c xS)))
  else .next (s.setGen c (seedExpand s.x[xS]))

/-- `PRNG.NEXT c, xD` (R94). -/
def execPrngNext (c : CtxId) (xD : RegId) (s : State) : Outcome State Fault Refusal :=
  .next ((s.draw c).1.setX xD (s.draw c).2)

/-- `PRNG.U01 c, fD` (R95). -/
def execPrngU01 (c : CtxId) (fD : RegId) (s : State) : Outcome State Fault Refusal :=
  .next ((s.draw c).1.setF fD (uniform01 [s.tick] (s.draw c).2))

/-- `PRNG.URANGE c, fD, fLo, fHi` (R96). -/
def execPrngUrange (c : CtxId) (fD fLo fHi : RegId) (s : State) : Outcome State Fault Refusal :=
  .next ((s.draw c).1.setF fD
    (uniformRange [1, s.tick] (uniform01 [0, s.tick] (s.draw c).2) s.f[fLo] s.f[fHi]))

/-- `PRNG.TRI c, fD, fLo, fHi, fMode` (R97). -/
def execPrngTri (c : CtxId) (fD fLo fHi fMode : RegId) (s : State) : Outcome State Fault Refusal :=
  .next ((s.draw c).1.setF fD
    (triangular [1, s.tick] (uniform01 [0, s.tick] (s.draw c).2) s.f[fLo] s.f[fHi] s.f[fMode]))

end Sys2Proof.Machine
end

