-- ==== Sys2Proof/Machine/Dispatch.lean ====
section
/-! DEFINITION. The meaning of each command: one arm per constructor. -/

namespace Sys2Proof.Machine

def exec (i : Instr) (s : State) : Host.Outcome State Fault Refusal :=
  match i with
  | .nop => Sys2Proof.Machine.execNop s
  | .prngSeed c xS => Sys2Proof.Machine.execPrngSeed c xS s
  | .prngNext c xD => Sys2Proof.Machine.execPrngNext c xD s
  | .prngU01 c fD => Sys2Proof.Machine.execPrngU01 c fD s
  | .prngUrange c fD fLo fHi => Sys2Proof.Machine.execPrngUrange c fD fLo fHi s
  | .prngTri c fD fLo fHi fMode => Sys2Proof.Machine.execPrngTri c fD fLo fHi fMode s
  | .iirInit c slot fRate fCut fVal => Sys2Proof.Machine.execIirInit c slot fRate fCut fVal s
  | .iirLp c slot fD fS => Sys2Proof.Machine.execIirLp c slot fD fS s
  | .iirHp c slot fD fS => Sys2Proof.Machine.execIirHp c slot fD fS s
  | .iirLpa c slot lD lS => Sys2Proof.Machine.execIirLpa c slot lD lS s
  | .iirHpa c slot lD lS => Sys2Proof.Machine.execIirHpa c slot lD lS s
  | .iirInit3 c slot fRate fCut fVal => Sys2Proof.Machine.execIirInit3 c slot fRate fCut fVal s
  | .iirLp3 c slot fD fS => Sys2Proof.Machine.execIirLp3 c slot fD fS s
  | .iirLpa3 c slot lD lS => Sys2Proof.Machine.execIirLpa3 c slot lD lS s
  | .fftFwd c => Sys2Proof.Machine.execFftFwd c s
  | .fftInv c => Sys2Proof.Machine.execFftInv c s
  | .fftShift c => Sys2Proof.Machine.execFftShift c s
  | .zLdre c lS => Sys2Proof.Machine.execZLdre c lS s
  | .zStre c lD => Sys2Proof.Machine.execZStre c lD s
  | .zMulr c lS => Sys2Proof.Machine.execZMulr c lS s
  | .cscRgb2yiq => Sys2Proof.Machine.execCscRgb2yiq s
  | .cscYiq2rgb fld => Sys2Proof.Machine.execCscYiq2rgb fld s
  | .muxEnc fld xAmp => Sys2Proof.Machine.execMuxEnc fld xAmp s
  | .muxDec fld xAmp => Sys2Proof.Machine.execMuxDec fld xAmp s
  | .ldRow c lD p xRow => Sys2Proof.Machine.execLdRow c lD p xRow s
  | .stRow c p xRow xShift lS => Sys2Proof.Machine.execStRow c p xRow xShift lS s
  | .pipeProcess => Sys2Proof.Machine.execPipeProcess s
  | .pipeStage fld k => Sys2Proof.Machine.execPipeStage fld k s

end Sys2Proof.Machine
end

