-- ==== Sys2Proof/Machine/HostPort.lean ====
section
/-! DEFINITION. The host port (20_memory.md R50, R56; 10_state.md R25 to R27, R33, R45): reads and writes of
every location but `CTL.CMD`, and the platform's reset. -/

namespace Sys2Proof.Machine

/-! ## The configuration record (10_state.md R33) -/

/-- A bool field as a port word. -/
def boolWord (b : Bool) : PortWord := if b then 1 else 0

/-- The field of `CFG` at an index; reserved indices read 0 (R33). -/
def Cfg.readField (c : Cfg) (index : Nat) : PortWord :=
  match index with
  | 0 => boolWord c.blackLineCut
  | 1 => boolWord c.colorBleedBefore
  | 2 => c.colorBleedHoriz.setWidth 64
  | 3 => c.colorBleedVert.setWidth 64
  | 4 => boolWord c.inputChromaLowpass
  | 5 => c.ringing
  | 6 => boolWord c.enableRinging2
  | 7 => c.ringingShift
  | 8 => c.ringingPower
  | 9 => c.compositePreemphasis
  | 10 => c.subcarrierAmplitude.setWidth 64
  | 11 => c.subcarrierAmplitudeBack.setWidth 64
  | 12 => boolWord c.noColorSubcarrier
  | 13 => c.scanlinePhaseShift.setWidth 64
  | 14 => c.scanlinePhaseShiftOffset.setWidth 64
  | 15 => c.videoNoise.setWidth 64
  | 16 => c.videoChromaNoise.setWidth 64
  | 17 => c.videoChromaPhaseNoise.setWidth 64
  | 18 => c.videoChromaLoss.setWidth 64
  | 19 => boolWord c.preciseNoise
  | 20 => boolWord c.emulatingVHS
  | 21 => c.vhsTapeSpeed.setWidth 64
  | 22 => c.vhsEdgeWave.setWidth 64
  | 23 => boolWord c.vhsHeadSwitching
  | 24 => c.vhsHeadSwitchingPoint
  | 25 => c.vhsHeadSwitchingPhase
  | 26 => c.vhsHeadSwitchingPhaseNoise
  | 27 => c.vhsSharpen
  | 28 => c.vhsOutSharpen
  | 29 => boolWord c.vhsChromaVertBlend
  | 30 => boolWord c.vhsSVideoOut
  | 31 => boolWord c.outputNTSC
  | 32 => boolWord c.outputChromaLowpass
  | 33 => boolWord c.outputChromaLowpassTV
  | 34 => boolWord c.chromaBlur
  | 35 => c.seed1.setWidth 64
  | 36 => c.seed2.setWidth 64
  | _ => 0

/-- A written value as a bool: any non-zero value stores 1 (R33). Bool fields are 4-byte elements, so the
low 32 bits count. -/
def wordBool (v : PortWord) : Bool := v.setWidth 32 != (0 : U32)

/-- `CFG` with the field at an index written; an enum keeps its two low bits, reserved indices ignore
writes (R33). -/
def Cfg.writeField (c : Cfg) (index : Nat) (v : PortWord) : Cfg :=
  match index with
  | 0 => { c with blackLineCut := wordBool v }
  | 1 => { c with colorBleedBefore := wordBool v }
  | 2 => { c with colorBleedHoriz := v.setWidth 32 }
  | 3 => { c with colorBleedVert := v.setWidth 32 }
  | 4 => { c with inputChromaLowpass := wordBool v }
  | 5 => { c with ringing := v }
  | 6 => { c with enableRinging2 := wordBool v }
  | 7 => { c with ringingShift := v }
  | 8 => { c with ringingPower := v }
  | 9 => { c with compositePreemphasis := v }
  | 10 => { c with subcarrierAmplitude := v.setWidth 32 }
  | 11 => { c with subcarrierAmplitudeBack := v.setWidth 32 }
  | 12 => { c with noColorSubcarrier := wordBool v }
  | 13 => { c with scanlinePhaseShift := v.setWidth 2 }
  | 14 => { c with scanlinePhaseShiftOffset := v.setWidth 32 }
  | 15 => { c with videoNoise := v.setWidth 32 }
  | 16 => { c with videoChromaNoise := v.setWidth 32 }
  | 17 => { c with videoChromaPhaseNoise := v.setWidth 32 }
  | 18 => { c with videoChromaLoss := v.setWidth 32 }
  | 19 => { c with preciseNoise := wordBool v }
  | 20 => { c with emulatingVHS := wordBool v }
  | 21 => { c with vhsTapeSpeed := v.setWidth 2 }
  | 22 => { c with vhsEdgeWave := v.setWidth 32 }
  | 23 => { c with vhsHeadSwitching := wordBool v }
  | 24 => { c with vhsHeadSwitchingPoint := v }
  | 25 => { c with vhsHeadSwitchingPhase := v }
  | 26 => { c with vhsHeadSwitchingPhaseNoise := v }
  | 27 => { c with vhsSharpen := v }
  | 28 => { c with vhsOutSharpen := v }
  | 29 => { c with vhsChromaVertBlend := wordBool v }
  | 30 => { c with vhsSVideoOut := wordBool v }
  | 31 => { c with outputNTSC := wordBool v }
  | 32 => { c with outputChromaLowpass := wordBool v }
  | 33 => { c with outputChromaLowpassTV := wordBool v }
  | 34 => { c with chromaBlur := wordBool v }
  | 35 => { c with seed1 := v.setWidth 32 }
  | 36 => { c with seed2 := v.setWidth 32 }
  | _ => c

/-! ## Generator words (10_state.md R25) -/

/-- Word `i` of a generator: 0 = x, 1 = y, 2 = z, 3 = w, 4 = v, 5 = d (R25). -/
def Gen.word (g : Gen) (i : Nat) : U32 :=
  match i with
  | 0 => g.x
  | 1 => g.y
  | 2 => g.z
  | 3 => g.w
  | 4 => g.v
  | _ => g.d

/-- Replaces word `i` of a generator. -/
def Gen.setWord (g : Gen) (i : Nat) (v : U32) : Gen :=
  match i with
  | 0 => { g with x := v }
  | 1 => { g with y := v }
  | 2 => { g with z := v }
  | 3 => { g with w := v }
  | 4 => { g with v := v }
  | _ => { g with d := v }

/-! ## Contexts by number -/

/-- Context number `c`, taken modulo 3; every caller passes `c < 3`. -/
def ctxIndex (c : Nat) : Fin 3 := ⟨c % 3, by omega⟩

/-- Line buffer number `b`, taken modulo 4; every caller passes `b < 4`. -/
def lineIndex (b : Nat) : Fin 4 := ⟨b % 4, by omega⟩

/-- Register or slot number `i`, taken modulo 8; every caller passes `i < 8`. -/
def regIndex (i : Nat) : Fin 8 := ⟨i % 8, by omega⟩

/-! ## Sizes of the spaces (20_memory.md R50) -/

/-- The size of a space in elements. -/
def State.spaceSize (s : State) : Space → Nat
  | .ctl => 256
  | .xreg => 8
  | .freg => 8
  | .cfg => 64
  | .flt => 48
  | .lbuf => 12 * s.lineSize
  | .zbuf => 3 * s.zSize
  | .rgbin => s.frameSize
  | .rgbout => s.frameSize
  | .yiq => s.frameSize

/-! ## Reads -/

/-- A control register as the host reads it (10_state.md R25); reserved indices and `CMD` read 0. -/
def State.readCtl (s : State) (index : Nat) : U32 :=
  match index with
  | 0 => s.hw.blockId
  | 1 => s.status.word
  | 2 => s.errinfo
  | 4 => s.width
  | 5 => s.height
  | 6 => s.vl
  | 7 => BitVec.ofNat 32 (s.sc[0] % 32)
  | 8 => BitVec.ofNat 32 (s.sc[1] % 32)
  | 9 => s.hw.wmax
  | 10 => s.hw.hmax
  | 11 => s.hw.lmax
  | n => if 16 ≤ n ∧ n < 34 then s.ctx[ctxIndex ((n - 16) / 6)].gen.word ((n - 16) % 6) else 0

/-- The element at an index inside a space, zero-extended to the port (20_memory.md R50). -/
def State.readElement (s : State) (sp : Space) (index : Nat) : PortWord :=
  match sp with
  | .ctl => (s.readCtl index).setWidth 64
  | .xreg => s.x[regIndex index].setWidth 64
  | .freg => s.f[regIndex index]
  | .cfg => s.cfg.readField index
  | .flt =>
    let slot := s.ctx[ctxIndex (index / 16)].flt[regIndex (index % 16 / 2)]
    if index % 2 = 0 then slot.alpha else slot.prev
  | .lbuf =>
    s.ctx[ctxIndex (index / s.lineSize / 4)].lb[lineIndex (index / s.lineSize % 4)].read
      (index % s.lineSize)
  | .zbuf => s.ctx[ctxIndex (index / s.zSize)].z.read (index % s.zSize)
  | .rgbin => (s.rgbin.read index).setWidth 64
  | .rgbout => (s.rgbout.read index).setWidth 64
  | .yiq => (s.yiq.read index).setWidth 64

/-- The locations whose reads are unspecified while `BUSY = 1` (10_state.md R45, 70_reset_and_hazards.md R249,
93 U12; log 5): `YIQ`, `RGBOUT`, the scratch spaces, and the generator words of contexts 0 and 1. -/
def openInRun (sp : Space) (index : Nat) : Bool :=
  match sp with
  | .yiq | .rgbout | .flt | .lbuf | .zbuf => true
  | .ctl => decide (16 ≤ index ∧ index < 28)
  | .xreg | .freg | .cfg | .rgbin => false

/-- The number of bits of an element at a location (20_memory.md R50; `CFG` by field, 10_state.md R33). -/
def elementBits (sp : Space) (index : Nat) : Nat :=
  match sp with
  | .ctl | .xreg | .yiq => 32
  | .freg | .flt | .lbuf | .zbuf => 64
  | .rgbin | .rgbout => 8
  | .cfg => if index = 5 ∨ (7 ≤ index ∧ index ≤ 9) ∨ (24 ≤ index ∧ index ≤ 28) then 64 else 32

/-- What a host read returns (20_memory.md R50, 10_state.md R45, 70_reset_and_hazards.md R249): 0 outside the
space, any value of the element's width at an unspecified location while `BUSY = 1`, else the element. -/
def State.hostRead (s : State) (sp : Space) (index : Nat) : PortWord :=
  if s.spaceSize sp ≤ index then 0
  else if s.status.busy && openInRun sp index then
    BitVec.ofNat 64 ((Config.freeRead [index, s.tick]).toNat % 2 ^ elementBits sp index)
  else s.readElement sp index

/-! ## Writes -/

/-- A write of a control register other than `STATUS` and `CMD`, the block idle (10_state.md R25, R27):
a size above the capacity leaves the register unchanged; read-only and reserved indices ignore writes. -/
def State.writeCtl (s : State) (index : Nat) (v : U32) : State :=
  match index with
  | 4 => if v.toNat ≤ s.hw.wmax.toNat then { s with width := v } else s
  | 5 => if v.toNat ≤ s.hw.hmax.toNat then { s with height := v } else s
  | 6 => if v.toNat ≤ s.hw.lmax.toNat then { s with vl := v } else s
  | n =>
    if 16 ≤ n ∧ n < 34 then
      let c := ctxIndex ((n - 16) / 6)
      s.setGen c (s.ctx[c].gen.setWord ((n - 16) % 6) v)
    else s

/-- A write of an element inside a space other than `CTL`, the block idle (20_memory.md R50; `RGBOUT` is
read-only, 10_state.md R45). -/
def State.writeElement (s : State) (sp : Space) (index : Nat) (v : PortWord) : State :=
  match sp with
  | .ctl => s.writeCtl index (v.setWidth 32)
  | .xreg => s.setX (regIndex index) (v.setWidth 32)
  | .freg => s.setF (regIndex index) v
  | .cfg => { s with cfg := s.cfg.writeField index v }
  | .flt =>
    let c := ctxIndex (index / 16)
    let i := regIndex (index % 16 / 2)
    s.setFlt c i (if index % 2 = 0 then { s.ctx[c].flt[i] with alpha := v }
      else { s.ctx[c].flt[i] with prev := v })
  | .lbuf =>
    let c := ctxIndex (index / s.lineSize / 4)
    let b := lineIndex (index / s.lineSize % 4)
    s.setLine c b (s.ctx[c].lb[b].write (index % s.lineSize) v)
  | .zbuf =>
    let c := ctxIndex (index / s.zSize)
    s.setZ c (s.ctx[c].z.write (index % s.zSize) v)
  | .rgbin => { s with rgbin := s.rgbin.write index (v.setWidth 8) }
  | .rgbout => s
  | .yiq => s.setYiq (s.yiq.write index (v.setWidth 32))

/-- A host write of any location but `CTL.CMD` (20_memory.md R50, 10_state.md R26, R45): ignored outside
the space; `STATUS` by its own rule; everything else ignored while `BUSY = 1`. -/
def State.hostWrite (s : State) (sp : Space) (index : Nat) (v : PortWord) : State :=
  if s.spaceSize sp ≤ index then s
  else if sp = .ctl ∧ index = 1 then s.writeStatus (v.setWidth 32)
  else if s.status.busy then s
  else s.writeElement sp index v

/-- The platform's reset (70_reset_and_hazards.md R240): all state takes the reset values, a run is
abandoned; the host's further events, the schedule, the counter of host steps and the last read value are
the model's own and stay (log 22). -/
def State.platformReset (s : State) : State :=
  { State.resetWith s.hw with
      inputs := s.inputs, turns := s.turns, tick := s.tick, hostData := s.hostData }

end Sys2Proof.Machine
end

