-- ==== Sys2Proof/Machine/Command.lean ====
section
/-! DEFINITION. Issuing a command and the steps of the agents (30_encoding.md R78; 46_dispatcher.md R194,
R197, R198; logs 7, 8). -/

namespace Sys2Proof.Machine

open Host (Outcome)

/-- The command register's index in `CTL` (10_state.md R25). -/
def cmdIndex : Nat := 3

/-- A word written to `CTL.CMD`: the checks of R78 in their order, then the command's effect. -/
def State.issue (s : State) (word : U32) : Outcome State Fault Refusal :=
  if s.status.busy then .next s.setOverrun
  else if s.status.err ∧ decode word ≠ some .nop then .next s
  else
    match decode word with
    | none => .next (s.raise .illegal word)
    | some i => exec i s

/-- One host event, the event already taken off `inputs` (20_memory.md R50, R56). -/
def State.perform (s : State) (op : HostOp) : Outcome State Fault Refusal :=
  match op with
  | .read sp index => .next { s with hostData := s.hostRead sp index }
  | .write sp index v =>
    if sp = .ctl ∧ index = cmdIndex then s.issue (v.setWidth 32) else .next (s.hostWrite sp index v)
  | .reset => .next s.platformReset

/-- The host's step: the next event, if there is one (log 7). -/
def State.hostStep (s : State) : Outcome State Fault Refusal :=
  match s.inputs with
  | [] => .next s
  | op :: rest => State.perform { s with inputs := rest, tick := s.tick + 1 } op

/-- The step of an agent while `BUSY = 1`; an agent that is not enabled leaves the state as it is
(R194, R198). -/
def State.agentStep (s : State) (a : Agent) : Outcome State Fault Refusal :=
  match a with
  | .host => s.hostStep
  | .task t => .next (s.taskStep t)
  | .join => .next s.joinStep

/-- Who moves when the schedule is exhausted: task 0, then task 1, then the join, so that every run reaches
its join (R195, R252; log 8). -/
def State.defaultAgent (s : State) : Agent :=
  if s.sc[0] ≤ 16 then .task 0 else if s.sc[1] ≤ 16 then .task 1 else .join

/-- A step while `BUSY = 1`: the next agent of the schedule moves (R197). -/
def State.busyStep (s : State) : Outcome State Fault Refusal :=
  match s.turns with
  | [] => s.agentStep s.defaultAgent
  | a :: rest => State.agentStep { s with turns := rest } a

/-- The event that writes a word to `CTL.CMD`. -/
def commandWrite (word : U32) : HostOp := .write .ctl cmdIndex (word.setWidth 64)

/-- The word of a table row presented as the host's very next event; while `BUSY = 1` the host also gets
the next turn. -/
def State.presentWord (s : State) (nbits w : Nat) : State :=
  { s with
      inputs := commandWrite (BitVec.ofNat 32 (w % 2 ^ nbits)) :: s.inputs,
      turns := if s.status.busy then .host :: s.turns else s.turns }

end Sys2Proof.Machine
end

