-- ==== Sys2Proof/Machine/Step.lean ====
section
/-! DEFINITION. One step of the machine. -/

namespace Sys2Proof.Machine

/-- One step: the host's next event while idle, the next agent of the schedule while a run is active
(10_state.md R20, 46_dispatcher.md R197). -/
def step (s : State) : Host.Outcome State Fault Refusal :=
  if s.status.busy then s.busyStep else s.hostStep

/-- `s` with a command word as the host's very next write to `CTL.CMD` (log 7). -/
def State.withFetchWord (s : State) (nbits w : Nat) : State := s.presentWord nbits w

end Sys2Proof.Machine
end

