-- ==== Sys2Proof/Safety.lean ====
section
/-! DEFINITION. The terms that statements about the machine use: the invariant of every reachable state, what
a command may change (its footprint), what the host port shows, when a command raises which error, and the
relations the spec's floating-point pseudocode defines. -/

namespace Sys2Proof.Machine

/-! ## The invariant -/

/-- Every buffer of a context is in canonical form and lists only elements that exist. -/
structure Context.Ok (k : Context) (lineSize zSize : Nat) : Prop where
  lines : ∀ b : Fin 4, k.lb[b].wf ∧ ∀ c ∈ k.lb[b].cells, c.1 < lineSize
  complex : k.z.wf ∧ ∀ c ∈ k.z.cells, c.1 < zSize

/-- A frame buffer in canonical form over a zero fill, listing only elements that exist. -/
structure Memory.FrameOk {w : Nat} (m : Memory w) (size : Nat) : Prop where
  wf : m.wf
  zeroFill : m.fill = .zero
  inside : ∀ c ∈ m.cells, c.1 < size

/-- What holds of every state that the machine can be in: legal parameters (00_scope.md R8), sizes within the
capacities (10_state.md R27), counters 0..17 and 17 while idle (R24, R42, 46_dispatcher.md R198), an error
code exactly while an error is recorded (10_state.md R26, 60_exceptions.md R221), a run only with a frame it
accepts and no error (R227, 46_dispatcher.md R192), and memory in its canonical form. -/
structure State.Inv (s : State) : Prop where
  params : s.hw.legal = true
  width : s.frameW ≤ s.hw.wmax.toNat
  height : s.frameH ≤ s.hw.hmax.toNat
  vl : s.vlen ≤ s.hw.lmax.toNat
  counters : ∀ t : Fin 2, s.sc[t] ≤ 17
  idle : s.status.busy = false → s.sc[0] = 17 ∧ s.sc[1] = 17
  noError : s.status.err = false → s.status.errcode = 0 ∧ s.errinfo = 0
  errorCode : s.status.err = true → 1 ≤ s.status.errcode.toNat ∧ s.status.errcode.toNat ≤ 4
  run : s.status.busy = true →
    s.status.err = false ∧ s.frameEmpty = false ∧ s.badRingLength = false
  contexts : ∀ c : Fin 3, s.ctx[c].Ok s.lineSize s.zSize
  rgbin : s.rgbin.FrameOk s.frameSize
  rgbout : s.rgbout.FrameOk s.frameSize
  yiq : s.yiq.FrameOk s.frameSize

/-! ## Elements -/

/-- `L[c][b][n]` (10_state.md R37). -/
def State.lineAt (s : State) (c : Fin 3) (b : Fin 4) (n : Nat) : F64 :=
  s.ctx[c].lb[b].readIn s.lineSize n

/-- `Z[c][n]` (10_state.md R38). -/
def State.zAt (s : State) (c : Fin 3) (n : Nat) : C64 :=
  (s.ctx[c].z.readIn s.zSize (2 * n), s.ctx[c].z.readIn s.zSize (2 * n + 1))

/-- The index of an own-field sample: row `y` below H with `y mod 2 = t`, column below W, in some plane. -/
def State.ownSample (s : State) (t i : Nat) : Prop :=
  ∃ p y x, p < 3 ∧ y < s.frameH ∧ y % 2 = t ∧ x < s.frameW ∧ i = s.yiqIndex p y x

/-- The index of an own-field pixel byte. -/
def State.ownByte (s : State) (t i : Nat) : Prop :=
  ∃ y x ch, y < s.frameH ∧ y % 2 = t ∧ x < s.frameW ∧ ch < 3 ∧ i = s.pixelIndex y x ch

/-! ## Footprints -/

/-- The locations a command may change. Everything not named here it leaves alone. -/
structure Footprint where
  x : Fin 8 → Prop := fun _ => False
  f : Fin 8 → Prop := fun _ => False
  gen : Fin 3 → Prop := fun _ => False
  flt : Fin 3 → Fin 8 → Prop := fun _ _ => False
  line : Fin 3 → Fin 4 → Nat → Prop := fun _ _ _ => False
  z : Fin 3 → Nat → Prop := fun _ _ => False
  rgbout : Nat → Prop := fun _ => False
  yiq : Nat → Prop := fun _ => False

/-- `t` differs from `s` only inside the footprint: the status, control and error registers, the stage
counters, the configuration, the parameters and the model's own fields are equal, and every register, generator,
filter slot and memory element outside the footprint reads as before. -/
structure ChangesOnly (fp : Footprint) (s t : State) : Prop where
  status : t.status = s.status
  errinfo : t.errinfo = s.errinfo
  width : t.width = s.width
  height : t.height = s.height
  vl : t.vl = s.vl
  sc : t.sc = s.sc
  cfg : t.cfg = s.cfg
  hw : t.hw = s.hw
  inputs : t.inputs = s.inputs
  turns : t.turns = s.turns
  tick : t.tick = s.tick
  hostData : t.hostData = s.hostData
  x : ∀ i, ¬ fp.x i → t.x[i] = s.x[i]
  f : ∀ i, ¬ fp.f i → t.f[i] = s.f[i]
  gen : ∀ c, ¬ fp.gen c → t.ctx[c].gen = s.ctx[c].gen
  flt : ∀ c i, ¬ fp.flt c i → t.ctx[c].flt[i] = s.ctx[c].flt[i]
  line : ∀ c b n, ¬ fp.line c b n → t.ctx[c].lb[b].read n = s.ctx[c].lb[b].read n
  z : ∀ c n, ¬ fp.z c n → t.ctx[c].z.read n = s.ctx[c].z.read n
  rgbin : ∀ n, t.rgbin.read n = s.rgbin.read n
  rgbout : ∀ n, ¬ fp.rgbout n → t.rgbout.read n = s.rgbout.read n
  yiq : ∀ n, ¬ fp.yiq n → t.yiq.read n = s.yiq.read n

/-- The footprint of a stage of field `t` run alone: its own rows, its generator, and the scratch of its
context, which the stage leaves unspecified (10_state.md R40). -/
def State.stageFootprint (s : State) (t : Fin 2) : Footprint where
  gen c := c = t.castSucc
  flt c _ := c = t.castSucc
  line c _ _ := c = t.castSucc
  z c _ := c = t.castSucc
  rgbout := s.ownByte t
  yiq := s.ownSample t

/-! ## What the host port shows (20_memory.md R50 to R52, 10_state.md R25, R33, R36 to R39) -/

/-- The locations whose reads are specified in a run too (10_state.md R45, 70_reset_and_hazards.md R249; log 5) read
their contents. -/
structure State.SharedReads (s : State) : Prop where
  id : s.hostRead .ctl 0 = s.hw.blockId.setWidth 64
  status : s.hostRead .ctl 1 = s.status.word.setWidth 64
  errinfo : s.hostRead .ctl 2 = s.errinfo.setWidth 64
  cmd : s.hostRead .ctl 3 = 0
  width : s.hostRead .ctl 4 = s.width.setWidth 64
  height : s.hostRead .ctl 5 = s.height.setWidth 64
  vl : s.hostRead .ctl 6 = s.vl.setWidth 64
  sc : ∀ t : Fin 2, s.hostRead .ctl (7 + t) = BitVec.ofNat 64 s.sc[t]
  wmax : s.hostRead .ctl 9 = s.hw.wmax.setWidth 64
  hmax : s.hostRead .ctl 10 = s.hw.hmax.setWidth 64
  lmax : s.hostRead .ctl 11 = s.hw.lmax.setWidth 64
  hostGen : (List.range 6).map (fun i => s.hostRead .ctl (28 + i)) =
    let g := s.ctx[2].gen
    [g.x, g.y, g.z, g.w, g.v, g.d].map (BitVec.setWidth 64)
  x : ∀ i : Fin 8, s.hostRead .xreg i = s.x[i].setWidth 64
  f : ∀ i : Fin 8, s.hostRead .freg i = s.f[i]
  cfg : (List.range 37).map (s.hostRead .cfg) =
    let c := s.cfg
    [boolWord c.blackLineCut, boolWord c.colorBleedBefore, c.colorBleedHoriz.setWidth 64,
     c.colorBleedVert.setWidth 64, boolWord c.inputChromaLowpass, c.ringing, boolWord c.enableRinging2,
     c.ringingShift, c.ringingPower, c.compositePreemphasis, c.subcarrierAmplitude.setWidth 64,
     c.subcarrierAmplitudeBack.setWidth 64, boolWord c.noColorSubcarrier, c.scanlinePhaseShift.setWidth 64,
     c.scanlinePhaseShiftOffset.setWidth 64, c.videoNoise.setWidth 64, c.videoChromaNoise.setWidth 64,
     c.videoChromaPhaseNoise.setWidth 64, c.videoChromaLoss.setWidth 64, boolWord c.preciseNoise,
     boolWord c.emulatingVHS, c.vhsTapeSpeed.setWidth 64, c.vhsEdgeWave.setWidth 64,
     boolWord c.vhsHeadSwitching, c.vhsHeadSwitchingPoint, c.vhsHeadSwitchingPhase,
     c.vhsHeadSwitchingPhaseNoise, c.vhsSharpen, c.vhsOutSharpen, boolWord c.vhsChromaVertBlend,
     boolWord c.vhsSVideoOut, boolWord c.outputNTSC, boolWord c.outputChromaLowpass,
     boolWord c.outputChromaLowpassTV, boolWord c.chromaBlur, c.seed1.setWidth 64, c.seed2.setWidth 64]
  rgbin : ∀ n < s.frameSize, s.hostRead .rgbin n = (s.rgbin.read n).setWidth 64
  rgbinPixel : ∀ y < s.frameH, ∀ x < s.frameW, ∀ ch < 3,
    s.hostRead .rgbin (3 * (y * s.frameW + x) + ch) = (s.rgbinAt y x ch).setWidth 64

/-- The locations of a context read their contents: generator words, filter slots, line and complex buffers. -/
structure State.ContextReads (s : State) (c : Fin 3) : Prop where
  gen : (List.range 6).map (fun i => s.hostRead .ctl (16 + 6 * c + i)) =
    let g := s.ctx[c].gen
    [g.x, g.y, g.z, g.w, g.v, g.d].map (BitVec.setWidth 64)
  alpha : ∀ i : Fin 8, s.hostRead .flt (16 * c + 2 * i) = s.ctx[c].flt[i].alpha
  prev : ∀ i : Fin 8, s.hostRead .flt (16 * c + 2 * i + 1) = s.ctx[c].flt[i].prev
  line : ∀ b : Fin 4, ∀ n < s.hw.lmax.toNat,
    s.hostRead .lbuf ((4 * c + b) * s.hw.lmax.toNat + n) = s.lineAt c b n
  re : ∀ n < s.hw.lmax.toNat, s.hostRead .zbuf (2 * (c * s.hw.lmax.toNat + n)) = (s.zAt c n).1
  im : ∀ n < s.hw.lmax.toNat, s.hostRead .zbuf (2 * (c * s.hw.lmax.toNat + n) + 1) = (s.zAt c n).2

/-- The output and the planar buffer read their contents. -/
structure State.FrameReads (s : State) : Prop where
  rgbout : ∀ n < s.frameSize, s.hostRead .rgbout n = (s.rgbout.read n).setWidth 64
  yiq : ∀ n < s.frameSize, s.hostRead .yiq n = (s.yiq.read n).setWidth 64
  rgboutPixel : ∀ y < s.frameH, ∀ x < s.frameW, ∀ ch < 3,
    s.hostRead .rgbout (3 * (y * s.frameW + x) + ch) = (s.rgboutAt y x ch).setWidth 64
  yiqSample : ∀ p < 3, ∀ y < s.frameH, ∀ x < s.frameW,
    s.hostRead .yiq (p * s.frameW * s.frameH + y * s.frameW + x) = (s.yiqAt p y x).setWidth 64

/-! ## Errors -/

/-- The state after `raise e(word)` from a state with no error recorded (60_exceptions.md R222). -/
def State.recorded (s : State) (e : CommandError) (word : U32) : State :=
  { s with status := { s.status with err := true, errcode := e.code }, errinfo := word }

/-- The causes of the errors, command by command (60_exceptions.md R221). The operand types leave only the
slot of a three-filter command and the stage number to be illegal in a term. -/
def CommandError.cause (e : CommandError) (i : Instr) (s : State) : Prop :=
  match i with
  | .prngSeed _ xS => e = .seed0 ∧ s.x[xS] = 0
  | .iirInit3 _ slot _ _ _ => e = .illegal ∧ 5 < slot.val
  | .iirLp3 _ slot _ _ => e = .illegal ∧ 5 < slot.val
  | .iirLpa3 _ slot _ _ => e = .illegal ∧ 5 < slot.val
  | .fftFwd _ => e = .fftLen ∧ ¬ ∃ k, s.vlen = 2 ^ k
  | .fftInv _ => e = .fftLen ∧ ¬ ∃ k, s.vlen = 2 ^ k
  | .ldRow _ _ _ xRow => e = .range ∧ (s.frameH ≤ s.x[xRow].toNat ∨ s.lineSize < s.frameW)
  | .stRow _ _ xRow xShift _ =>
    e = .range ∧ (s.frameH ≤ s.x[xRow].toNat ∨ s.lineSize < s.frameW ∨ s.frameW < s.x[xShift].toNat)
  | .pipeProcess => e = .fftLen ∧ s.frameEmpty = false ∧ s.badRingLength = true
  | .pipeStage _ k =>
    (e = .illegal ∧ 16 < k.val) ∨
      (e = .fftLen ∧ k.val = 3 ∧ s.frameEmpty = false ∧ s.badRingLength = true)
  | .nop | .prngNext .. | .prngU01 .. | .prngUrange .. | .prngTri .. | .iirInit .. | .iirLp ..
  | .iirHp .. | .iirLpa .. | .iirHpa .. | .fftShift .. | .zLdre .. | .zStre .. | .zMulr ..
  | .cscRgb2yiq | .cscYiq2rgb .. | .muxEnc .. | .muxDec .. => False

/-! ## Floating-point relations. The paths only name the NaN an invalid operation gives (00_scope.md R15). -/

/-- The value of an order of the lowpass update in exact arithmetic. -/
def LowpassExpr.exact (alpha prev v : ℝ) : LowpassExpr → ℝ
  | .alpha => alpha
  | .prev => prev
  | .sample => v
  | .one => 1
  | .add a b => a.exact alpha prev v + b.exact alpha prev v
  | .sub a b => a.exact alpha prev v - b.exact alpha prev v
  | .mul a b => a.exact alpha prev v * b.exact alpha prev v

/-- `out` is `Lowpass` of input `v` from the output `prev` (41_iir.md R101): `s*alpha + (prev - prev*alpha)` if that
is the configured order or the operands are a corner case of R104 or R105, else the configured order, one rounding per
operation. -/
def LowpassOut (hw : HwParams) (alpha prev v out : F64) : Prop :=
  if hw.lowpassOrder = lowpassAsWritten ∨ lowpassCorner alpha prev v = true then
    ∃ p₁ p₂ p₃ p₄, out = fadd p₁ (fmul p₂ v alpha) (fsub p₃ prev (fmul p₄ prev alpha))
  else ∃ p, out = hw.lowpassOrder.eval p alpha prev v

/-- The corner cases of one lowpass update (41_iir.md R104, R105). A negative coefficient gives what the formula
gives (R104). -/
structure LowpassCorners (alpha prev v out : F64) : Prop where
  /-- A slot never initialised since reset returns 0.0 for finite input (R105). -/
  neverInitialised : alpha = 0 → prev = 0 → isFinite v = true → out = 0
  /-- An infinite or NaN input propagates into `prev` (R105). -/
  enters : isFinite v = false → isFinite out = false
  /-- A NaN input gives a NaN (R105). -/
  entersNaN : isNaN v = true → isNaN out = true
  /-- Once `prev` is infinite or a NaN every later output is a NaN (R105). -/
  stays : isFinite prev = false → flt alpha 0 = false → isNaN out = true
  /-- A coefficient of 0.0 holds `prev` (R104). -/
  holds : isZero alpha = true → isFinite prev = true → isFinite v = true → feq out prev = true
  /-- A coefficient of 1.0 passes the input (R104). -/
  passes : alpha = fone → isFinite prev = true → isFinite v = true → feq out v = true

/-- `alpha = Coeff(rate, cutoff)` (41_iir.md R100). -/
def CoeffOut (rate cutoff alpha : F64) : Prop :=
  ∃ p₁ p₂ p₃ p₄ p₅ p₆, ∃ dt tau, dt = fdiv p₁ fone rate ∧
    tau = fdiv p₂ fone (fmul p₃ (fmul p₄ ftwo fpi) cutoff) ∧ alpha = fdiv p₅ dt (fadd p₆ tau dt)

/-- `(sum, difference)` is the butterfly of `e` and `o` with index `k` at length `n` (42_fft.md R116);
`sgn` is -1.0 or +1.0. -/
def ButterflyOut (sgn : F64) (n k : Nat) (e o sum difference : C64) : Prop :=
  ∃ p : Nat → Path, ∃ th w t,
    th = fdiv (p 0) (fmul (p 1) (fmul (p 2) ftwo fpi) (fofInt k)) (fofInt n) ∧
    w = (fcos th, fmul (p 3) sgn (fsin th)) ∧
    t = (fsub (p 4) (fmul (p 5) w.1 o.1) (fmul (p 6) w.2 o.2),
         fadd (p 7) (fmul (p 8) w.1 o.2) (fmul (p 9) w.2 o.1)) ∧
    sum = (fadd (p 10) e.1 t.1, fadd (p 11) e.2 t.2) ∧
    difference = (fsub (p 12) e.1 t.1, fsub (p 13) e.2 t.2)

/-- `out = Fft(a, 2^levels, sgn)` as 42_fft.md R116 writes it; sequences are functions of the index, read
below `2^levels`. -/
def FftOut (sgn : F64) : Nat → (Nat → C64) → (Nat → C64) → Prop
  | 0, a, out => out 0 = a 0
  | levels + 1, a, out =>
    ∃ e o : Nat → C64, FftOut sgn levels (fun k => a (2 * k)) e ∧
      FftOut sgn levels (fun k => a (2 * k + 1)) o ∧
      ∀ k < 2 ^ levels,
        ButterflyOut sgn (2 ^ (levels + 1)) k (e k) (o k) (out k) (out (k + 2 ^ levels))

/-- `out` is the real number `x`, counted in units of 2^-1074, rounded as 00_scope.md R15 says: to a nearest
binary64, of two nearest to the one whose last significand bit is 0, and from half a step above the largest
finite value on to an infinity; the sign is that of `x`. -/
def RoundsTo (x : ℝ) (out : F64) : Prop :=
  (x ≠ 0 → (out.msb = true ↔ x < 0)) ∧
  (|x| < 2 ^ 2098 - 2 ^ 2044 → isFinite out = true ∧ ∀ r : F64, isFinite r = true →
    |(funits out : ℝ) - x| ≤ |(funits r : ℝ) - x| ∧
    (|(funits out : ℝ) - x| = |(funits r : ℝ) - x| → funits r ≠ funits out → out.getLsbD 0 = false)) ∧
  (2 ^ 2098 - 2 ^ 2044 ≤ |x| → isInf out = true)

/-- The round-trip property that 42_fft.md R117 has a model assume of `Numerics.cos` and `Numerics.sin`: at
lengths 4, 16 and 256 the inverse transform of the forward transform differs from its input by at most one
part in 10^9 of the largest input magnitude `bound`, for magnitudes (in units of 2^-1074) that neither overflow
nor vanish on the way. The model assumes it nowhere and cannot prove it: both functions are open (log 25). -/
def NumericsRoundTrip : Prop :=
  ∀ (a : List C64) (bound : Int) (p q : Path), a.length ∈ [4, 16, 256] →
    2 ^ 574 ≤ bound → bound ≤ 2 ^ 1574 →
    (∀ v ∈ a, isFinite v.1 = true ∧ |funits v.1| ≤ bound ∧ isFinite v.2 = true ∧ |funits v.2| ≤ bound) →
    ∀ n < a.length,
      let input := a.getD n (0, 0)
      let output := (inverseTransform q (forwardTransform p a)).getD n (0, 0)
      isFinite output.1 = true ∧ 10 ^ 9 * |funits output.1 - funits input.1| ≤ bound ∧
      isFinite output.2 = true ∧ 10 ^ 9 * |funits output.2 - funits input.2| ≤ bound

/-! ## Runs -/

/-- Field-task steps in a given order (46_dispatcher.md R197). -/
def State.runTasks (s : State) (order : List (Fin 2)) : State := order.foldl State.taskStep s

/-- Commands executed one after the other. -/
def execAll : List Instr → State → Host.Outcome State Fault Refusal
  | [], s => .next s
  | i :: rest, s =>
    match exec i s with
    | .next t => execAll rest t
    | stop => stop

/-- The whole-frame conversion and then every stage of field 0, then of field 1 (46_dispatcher.md R200). -/
def stageByStage : List Instr :=
  .cscRgb2yiq :: ((List.finRange 17).map fun k => Instr.pipeStage 0 (k.castLE (by decide))) ++
    (List.finRange 17).map fun k => Instr.pipeStage 1 (k.castLE (by decide))

end Sys2Proof.Machine
end

