-- ==== Sys2Proof/Certificates/Slice0/Obligations.lean ====
section
/-! DEFINITION. The statements for the provers, in the order of OBLIGATIONS.json. `ChangesOnly` (Safety) is the
frame of a command: every location outside its footprint reads as before. A statement that assumes `s.Inv` holds
of every state the invariant allows, reachable or not. -/

open Sys2Proof Sys2Proof.Machine
open Host (Outcome)

/-! ## Encoding (30_encoding.md) -/

/-- Decoding the word of a well-formed command gives the command back (R70, R73, R74, R75). -/
def Obligations.DecodeInvertsEncode : Prop :=
  ∀ i : Instr, i.wellFormed = true → decode (encode i) = some i

/-- A word that decodes is the word of the command it decodes to, so no bit of a word is ignored (R70, R76). -/
def Obligations.EncodeInvertsDecode : Prop :=
  ∀ (w : U32) (i : Instr), decode w = some i → i.wellFormed = true ∧ encode i = w

/-- R75: a word spells the command of a row of the opcode map iff it matches the row's mask and meets the row's
value constraints. -/
def Obligations.DecodeFollowsOpcodeMap : Prop :=
  ∀ (w : U32) (j : Instr),
    (∃ i, decode w = some i ∧ i.opcodeRow = j.opcodeRow) ↔ j.opcodeRow.spelledBy w = true

/-- R76: a word is illegal exactly when no row of the opcode map matches it, no two rows match one word, and an
illegal word raises `ERR_ILLEGAL` with the word and changes nothing else. -/
def Obligations.IllegalWords : Prop :=
  ∀ w : U32,
    (decode w = none ↔ ∀ j : Instr, j.opcodeRow.spelledBy w = false) ∧
    (∀ j k : Instr, j.opcodeRow.spelledBy w = true → k.opcodeRow.spelledBy w = true →
      j.opcodeRow = k.opcodeRow) ∧
    ∀ s : State, s.status.busy = false → s.status.err = false → decode w = none →
      s.issue w = .next (s.recorded .illegal w)

/-- Words written out in the spec decode to the commands they stand for (R75, R93, R191, R211, R212). -/
def Obligations.WordsOfTheSpecDecode : Prop :=
  decode 0x00000000 = some .nop ∧
  decode 0x10810000 = some (.prngSeed 2 1) ∧
  decode 0x11980000 = some (.prngNext 2 3) ∧
  decode 0x27880000 = some (.iirLpa3 2 0 1 0) ∧
  decode 0x60820001 = some (.ldRow 2 0 1 2) ∧
  decode 0x61802401 = some (.stRow 2 1 0 1 1) ∧
  decode 0x70000000 = some .pipeProcess ∧
  decode 0x7100001F = some (.pipeStage 1 15)

/-! ## Issuing a command and errors (30_encoding.md R78, 60_exceptions.md) -/

/-- A step with the write of a legal word to `CTL.CMD` as the next host event runs the decoded command on the
state in which the event is consumed and the host step is counted (20_memory.md R56, R63; logs 6, 7). -/
def Obligations.StepRunsTheDecodedCommand : Prop :=
  ∀ (s : State) (v : PortWord) (rest : List HostOp) (i : Instr),
    s.status.busy = false → s.inputs = .write .ctl 3 v :: rest → decode (v.setWidth 32) = some i →
    (s.status.err = false ∨ i = .nop) →
    step s = exec i { s with inputs := rest, tick := s.tick + 1 }

/-- Placing the word of a well-formed command with `withFetchWord` makes the next step run that command
(log 7). -/
def Obligations.FetchedWordRuns : Prop :=
  ∀ (s : State) (i : Instr), i.wellFormed = true → s.status.busy = false →
    (s.status.err = false ∨ i = .nop) →
    decodeTableWord 32 (encode i).toNat = some i ∧
    step (s.withFetchWord 32 (encode i).toNat) = exec i { s with tick := s.tick + 1 }

/-- R78: the checks on a written word, in their order. -/
def Obligations.OrderOfChecks : Prop :=
  ∀ (s : State) (w : U32),
    (s.status.busy = true → s.issue w = .next { s with status := { s.status with ovr := true } }) ∧
    (s.status.busy = false → s.status.err = true → decode w ≠ some .nop → s.issue w = .next s) ∧
    (s.status.busy = false → s.status.err = false → decode w = none →
      s.issue w = .next (s.recorded .illegal w)) ∧
    (s.status.busy = false → ∀ i, decode w = some i → (s.status.err = false ∨ i = .nop) →
      s.issue w = exec i s ∧ ∀ e : CommandError, e.cause i s → s.issue w = .next (s.recorded e w))

/-- R222: raising records the first error, its code and the word, and changes nothing else; while an error is
recorded it changes nothing. -/
def Obligations.RaiseRecordsTheFirstError : Prop :=
  ∀ (s : State) (e : CommandError) (word : U32),
    (s.status.err = false → s.raise e word =
      { s with status := { s.status with err := true, errcode := e.code }, errinfo := word }) ∧
    (s.status.err = true → s.raise e word = s)

/-- R221, R222: every command ends in a next state; it records an error exactly when one of the listed causes holds,
and then the state is that before the command with the error's code and the command's word recorded. The statement
takes in terms that no word decodes to (a cascade slot above 5, a stage above 16): that running one raises
`ERR_ILLEGAL` with `encode i` is the model's (log 20, DEDUCED). -/
def Obligations.ErrorsArePrecise : Prop :=
  (CommandError.illegal.code = 1 ∧ CommandError.range.code = 2 ∧ CommandError.fftLen.code = 3 ∧
    CommandError.seed0.code = 4) ∧
  ∀ (i : Instr) (s : State), s.status.err = false →
    ∃ t, exec i s = .next t ∧
      (t.status.err = true ↔ ∃ e : CommandError, e.cause i s) ∧
      ∀ e : CommandError, e.cause i s → t = s.recorded e (encode i)

/-- R224 and R210: while an error is recorded every word but `NOP` is dropped, `NOP` changes nothing, and the
host's write of 1 to `STATUS.ERR` clears the error, its code and its word, after which commands run again. -/
def Obligations.StickyErrorAndRecovery : Prop :=
  (∀ s : State, exec .nop s = .next s) ∧
  ∀ s : State, s.status.busy = false → s.status.err = true →
    (∀ w, s.issue w = .next s) ∧
    ∀ v : PortWord, v.getLsbD 2 = true →
      let t := s.hostWrite .ctl 1 v
      t.status.err = false ∧ t.status.errcode = 0 ∧ t.errinfo = 0 ∧
        ∀ w i, decode w = some i → t.issue w = exec i t

/-! ## The host port (10_state.md, 20_memory.md) -/

/-- 10_state.md R26: the bits of the `STATUS` word, and what a host write to it clears, busy or idle; nothing
but the status fields and `ERRINFO` changes. -/
def Obligations.StatusRegister : Prop :=
  (∀ (s : State) (n : Nat), (s.hostRead .ctl 1).getLsbD n =
    if n = 0 then s.status.busy else if n = 1 then s.status.done else if n = 2 then s.status.err
    else if n = 3 then s.status.ovr else if n < 8 then s.status.errcode.getLsbD (n - 4) else false) ∧
  ∀ (s : State) (v : PortWord), s.hostWrite .ctl 1 v =
    { s with
      status :=
        { busy := s.status.busy
          done := s.status.done && !v.getLsbD 1
          err := s.status.err && (s.status.busy || !v.getLsbD 2)
          ovr := s.status.ovr && (s.status.busy || !v.getLsbD 3)
          errcode := if v.getLsbD 2 && !s.status.busy then 0 else s.status.errcode }
      errinfo := if v.getLsbD 2 && !s.status.busy then 0 else s.errinfo }

/-- 10_state.md R27: `WIDTH`, `HEIGHT` and `VL` take a value up to the capacity while idle; a larger value, or
any write while busy, leaves everything as it is; no buffer changes. -/
def Obligations.SizeRegisters : Prop :=
  ∀ (s : State) (v : PortWord),
    let n := (v.setWidth 32 : U32)
    s.hostWrite .ctl 4 v =
      (if s.status.busy = false ∧ n.toNat ≤ s.hw.wmax.toNat then { s with width := n } else s) ∧
    s.hostWrite .ctl 5 v =
      (if s.status.busy = false ∧ n.toNat ≤ s.hw.hmax.toNat then { s with height := n } else s) ∧
    s.hostWrite .ctl 6 v =
      (if s.status.busy = false ∧ n.toNat ≤ s.hw.lmax.toNat then { s with vl := n } else s)

/-- 10_state.md R45, 30_encoding.md R78: while busy a write to `CTL.CMD` sets `OVR` and every other host write but
one to `STATUS` is ignored; `STATUS`, `SC0`, `SC1`, every other register of `CTL` but the generator words of contexts
0 and 1, `x[]`, `f[]`, `CFG` and `RGBIN` read their current values; a write to `RGBOUT` is always ignored. What `YIQ`,
`RGBOUT`, the scratch spaces of every context and the generator words of contexts 0 and 1 read is open
(70_reset_and_hazards.md R249, 93 U12; log 5). -/
def Obligations.BusyWindow : Prop :=
  ∀ s : State,
    (∀ i v, s.hostWrite .rgbout i v = s) ∧
    (s.status.busy = true →
      (∀ v, s.perform (.write .ctl 3 v) = .next { s with status := { s.status with ovr := true } }) ∧
      (∀ sp i v, ¬ (sp = .ctl ∧ (i = 1 ∨ i = 3)) → s.hostWrite sp i v = s) ∧
      s.hostRead .ctl 1 = s.status.word.setWidth 64 ∧
      (s.sc[0] < 32 → s.hostRead .ctl 7 = BitVec.ofNat 64 s.sc[0]) ∧
      (s.sc[1] < 32 → s.hostRead .ctl 8 = BitVec.ofNat 64 s.sc[1]) ∧
      (∀ sp i, sp ∈ [Space.xreg, .freg, .cfg, .rgbin] ∨ sp = .ctl ∧ ¬ (16 ≤ i ∧ i < 28) ∨ s.spaceSize sp ≤ i →
        s.hostRead sp i = { s with status := { s.status with busy := false } }.hostRead sp i ∨
          (sp = .ctl ∧ i = 1)) ∧
      (s.Inv → s.SharedReads))

/-- 20_memory.md R50 to R52, R56, 10_state.md R25, R33, R36 to R39: the host's next event is performed at a step while
idle, or at the host's turn of a run (logs 7, 8); a read returns `hostRead` and changes nothing but the model's
`hostData` (log 9), a write to `CTL.CMD` issues the word, and any other write is `hostWrite`. While idle every
location of every space reads its contents (`SharedReads`, `ContextReads`, `FrameReads`). An index at or beyond a
space's size, a reserved index and the command register read 0; a write to an absent or reserved index, to `ID`,
`ERRINFO`, the stage counters or the capacities is ignored. -/
def Obligations.HostAccessesAndAbsentLocations : Prop :=
  ∀ s : State,
    ((∀ sp i, s.perform (.read sp i) = .next { s with hostData := s.hostRead sp i }) ∧
      (∀ v, s.perform (.write .ctl 3 v) = s.issue (v.setWidth 32)) ∧
      ∀ sp i v, ¬ (sp = .ctl ∧ i = 3) → s.perform (.write sp i v) = .next (s.hostWrite sp i v)) ∧
    (s.status.busy = false →
      (s.inputs = [] → step s = .next s) ∧
      ∀ op rest, s.inputs = op :: rest →
        step s = { s with inputs := rest, tick := s.tick + 1 }.perform op) ∧
    (∀ turns, s.status.busy = true → s.turns = .host :: turns →
      (s.inputs = [] → step s = .next { s with turns := turns }) ∧
      ∀ op rest, s.inputs = op :: rest →
        step s = { s with turns := turns, inputs := rest, tick := s.tick + 1 }.perform op) ∧
    (s.Inv → s.status.busy = false → s.SharedReads ∧ (∀ c, s.ContextReads c) ∧ s.FrameReads) ∧
    (∀ sp i v, s.spaceSize sp ≤ i → s.hostRead sp i = 0 ∧ s.hostWrite sp i v = s) ∧
    s.hostRead .ctl 3 = 0 ∧
    (∀ i v, ((12 ≤ i ∧ i < 16) ∨ 34 ≤ i) → s.hostRead .ctl i = 0 ∧ s.hostWrite .ctl i v = s) ∧
    (∀ i v, (i = 0 ∨ i = 2 ∨ (7 ≤ i ∧ i ≤ 11)) → s.hostWrite .ctl i v = s) ∧
    ∀ i v, 37 ≤ i → s.hostRead .cfg i = 0 ∧ s.hostWrite .cfg i v = s

/-- 20_memory.md R50, R56: while idle a write to an element of a register or buffer space is read back, cut to
the element's width, and every other location of every space reads as before. -/
def Obligations.WrittenElementsReadBack : Prop :=
  ∀ (s : State) (sp : Space) (i : Nat) (v : PortWord), s.Inv → s.status.busy = false →
    sp ∈ [Space.xreg, .freg, .flt, .lbuf, .zbuf, .rgbin, .yiq] → i < s.spaceSize sp →
    (s.hostWrite sp i v).hostRead sp i = BitVec.ofNat 64 (v.toNat % 2 ^ elementBits sp i) ∧
    ∀ sp' i', (sp', i') ≠ (sp, i) → (s.hostWrite sp i v).hostRead sp' i' = s.hostRead sp' i'

/-- 10_state.md R33, R25: while idle a configuration field keeps what its type keeps of a written value (a bool
any non-zero value as 1, read from the low 32 bits: log 21; an enum its two low bits) and no other field changes; a
generator word takes the written word and nothing else changes. -/
def Obligations.ConfigurationAndGeneratorWords : Prop :=
  ∀ (s : State) (v : PortWord), s.status.busy = false →
    (∀ i < 37,
      (s.hostWrite .cfg i v).hostRead .cfg i =
        (if i ∈ [0, 1, 4, 6, 12, 19, 20, 23, 29, 30, 31, 32, 33, 34] then
          if (v.setWidth 32 : U32) = 0 then 0 else 1
        else if i ∈ [5, 7, 8, 9, 24, 25, 26, 27, 28] then v
        else if i ∈ [13, 21] then BitVec.ofNat 64 (v.toNat % 4)
        else BitVec.ofNat 64 (v.toNat % 2 ^ 32)) ∧
      (∀ j, j ≠ i → (s.hostWrite .cfg i v).hostRead .cfg j = s.hostRead .cfg j) ∧
      ChangesOnly {} s { s.hostWrite .cfg i v with cfg := s.cfg }) ∧
    ∀ (c : Fin 3) (i : Nat), i < 6 →
      let t := s.hostWrite .ctl (16 + 6 * c.val + i) v
      t.hostRead .ctl (16 + 6 * c.val + i) = BitVec.ofNat 64 (v.toNat % 2 ^ 32) ∧
      (∀ j < 6, j ≠ i → t.ctx[c].gen.word j = s.ctx[c].gen.word j) ∧
      ChangesOnly { gen := (· = c) } s t

/-! ## Reset (10_state.md R42, 70_reset_and_hazards.md R240) -/

/-- R42: the values after reset that the spec gives, for every choice of the open parameters; and a platform
reset at any time, a run included, gives these values (R240). -/
def Obligations.ResetValues : Prop :=
  (∀ (p : HwParams) (s : State),
    (s = State.resetWith p ∨ ∃ u : State, u.hw = p ∧ u.perform .reset = .next s) →
    (∀ i : Fin 8, s.x[i] = 0 ∧ s.f[i] = 0) ∧
    s.status = ⟨false, false, false, false, 0⟩ ∧ s.hostRead .ctl 1 = 0 ∧ s.errinfo = 0 ∧
    s.width = 0 ∧ s.height = 0 ∧ s.vl = 0 ∧ s.sc[0] = 17 ∧ s.sc[1] = 17 ∧
    s.ctx[0].gen = seedExpand p.resetSeed0 ∧ s.ctx[1].gen = seedExpand p.resetSeed1 ∧
    s.ctx[2].gen = seedExpand p.resetSeed2 ∧
    (∀ (c : Fin 3) (i : Fin 8), s.ctx[c].flt[i] = ⟨0, 0⟩) ∧
    (∀ i, s.hostRead .cfg i = 0) ∧ s.hw = p) ∧
  ∃ p : HwParams, p.legal = true ∧ State.reset = State.resetWith p

/-- The state after reset meets the invariant. -/
def Obligations.ResetMeetsTheInvariant : Prop := State.reset.Inv

/-- Every step from a state that meets the invariant ends in a next state that meets it: sizes stay within the
capacities, counters within 0..17 and at 17 while idle, the error code legal, a run error-free, memory
canonical. -/
def Obligations.EveryStepKeepsTheInvariant : Prop :=
  ∀ s : State, s.Inv → ∃ t, step s = .next t ∧ t.Inv

/-! ## PRNG (40_prng.md) -/

/-- R93: a non-zero seed sets the generator to its expansion and changes nothing else; a zero seed raises
`ERR_SEED0` and writes nothing. -/
def Obligations.PrngSeed : Prop :=
  ∀ (c : CtxId) (xS : RegId) (s : State),
    (s.x[xS] ≠ 0 → ∃ t, exec (.prngSeed c xS) s = .next t ∧ t.ctx[c].gen = seedExpand s.x[xS] ∧
      ChangesOnly { gen := (· = c) } s t) ∧
    (s.x[xS] = 0 → s.status.err = false →
      exec (.prngSeed c xS) s = .next (s.recorded .seed0 (encode (.prngSeed c xS))))

/-- R94: the draw goes to the register, the generator advances by one step, nothing else changes; for every
generator state. -/
def Obligations.PrngNext : Prop :=
  ∀ (c : CtxId) (xD : RegId) (s : State),
    ∃ t, exec (.prngNext c xD) s = .next t ∧ t.x[xD] = (Machine.next s.ctx[c].gen).2 ∧
      t.ctx[c].gen = (Machine.next s.ctx[c].gen).1 ∧ ChangesOnly { x := (· = xD), gen := (· = c) } s t

/-- The generator's step and seeding are the xorwow instance that R91 and R92 give from general knowledge (log
10); after n draws the counter has risen by n times 362437, and with all five xorshift words zero the draws are
the counter alone. -/
def Obligations.XorwowInstance : Prop :=
  (∀ g : Gen,
    let t := g.x ^^^ (g.x >>> 2)
    let v := (g.v ^^^ (g.v <<< 4)) ^^^ (t ^^^ (t <<< 1))
    (Machine.next g).1 = ⟨g.y, g.z, g.w, g.v, v, g.d + 362437⟩ ∧
    (Machine.next g).2 = g.d + 362437 + v) ∧
  (∀ s : U32, seedExpand s = ⟨s, 362436069, 521288629, 88675123, 5783321, 6615241⟩) ∧
  (∀ (g : Gen) (n : Nat), (advance n g).d = g.d + BitVec.ofNat 32 (362437 * n)) ∧
  ∀ (d : U32) (n : Nat),
    Machine.next (advance n ⟨0, 0, 0, 0, 0, d⟩) =
      (⟨0, 0, 0, 0, 0, d + BitVec.ofNat 32 (362437 * (n + 1))⟩, d + BitVec.ofNat 32 (362437 * (n + 1)))

/-- R95: one draw, divided by 4294967295.0; the result is a number in [0.0, 1.0] and both ends are reached. -/
def Obligations.PrngU01 : Prop :=
  ∀ (c : CtxId) (fD : RegId) (s : State),
    ∃ t p, exec (.prngU01 c fD) s = .next t ∧
      t.f[fD] = fdiv p (fofU32 (Machine.next s.ctx[c].gen).2) (fofInt 4294967295) ∧
      t.ctx[c].gen = (Machine.next s.ctx[c].gen).1 ∧
      ChangesOnly { f := (· = fD), gen := (· = c) } s t ∧
      isNaN t.f[fD] = false ∧ flt t.f[fD] 0 = false ∧ flt fone t.f[fD] = false ∧
      ((Machine.next s.ctx[c].gen).2 = 0 → t.f[fD] = 0) ∧
      ((Machine.next s.ctx[c].gen).2 = 0xFFFFFFFF → t.f[fD] = fone)

/-- R96, R97: the uniform in a range and the triangular draw, each by its formula on the operands read before
the write, one draw on either branch, nothing else changed. The algebra of R97 is from general knowledge
(log 24), and the order in which the formulas are evaluated is the model's choice (log 13). -/
def Obligations.PrngRangeAndTriangular : Prop :=
  ∀ (c : CtxId) (fD fLo fHi fMode : RegId) (s : State),
    (∃ t, ∃ p : Nat → Path, exec (.prngUrange c fD fLo fHi) s = .next t ∧
      (let u := fdiv (p 0) (fofU32 (Machine.next s.ctx[c].gen).2) (fofInt 4294967295)
       t.f[fD] = fadd (p 1) s.f[fLo] (fmul (p 2) (fsub (p 3) s.f[fHi] s.f[fLo]) u)) ∧
      t.ctx[c].gen = (Machine.next s.ctx[c].gen).1 ∧
      ChangesOnly { f := (· = fD), gen := (· = c) } s t) ∧
    ∃ t, ∃ p : Nat → Path, exec (.prngTri c fD fLo fHi fMode) s = .next t ∧
      (let u := fdiv (p 0) (fofU32 (Machine.next s.ctx[c].gen).2) (fofInt 4294967295)
       let frac := fdiv (p 1) (fsub (p 2) s.f[fMode] s.f[fLo]) (fsub (p 3) s.f[fHi] s.f[fLo])
       if flt u frac = true then
         t.f[fD] = fadd (p 4) s.f[fLo] (fsqrt (p 5)
           (fmul (p 6) (fmul (p 7) u (fsub (p 8) s.f[fHi] s.f[fLo])) (fsub (p 9) s.f[fMode] s.f[fLo])))
       else
         t.f[fD] = fsub (p 4) s.f[fHi] (fsqrt (p 5)
           (fmul (p 6) (fmul (p 7) (fsub (p 8) fone u) (fsub (p 9) s.f[fHi] s.f[fLo]))
             (fsub (p 10) s.f[fHi] s.f[fMode])))) ∧
      t.ctx[c].gen = (Machine.next s.ctx[c].gen).1 ∧
      ChangesOnly { f := (· = fD), gen := (· = c) } s t

/-- R98: no command changes a generator but the five PRNG commands, on the context they name, and `PIPE.STAGE`,
on the generator of its field, by steps of the generator. -/
def Obligations.GeneratorOwnership : Prop :=
  ∀ (i : Instr) (s t : State) (c : Fin 3), exec i s = .next t →
    t.ctx[c].gen = s.ctx[c].gen ∨
    (∃ xS, i = .prngSeed c xS ∧ t.ctx[c].gen = seedExpand s.x[xS]) ∨
    (((∃ xD, i = .prngNext c xD) ∨ (∃ fD, i = .prngU01 c fD) ∨
      (∃ fD fLo fHi, i = .prngUrange c fD fLo fHi) ∨
      ∃ fD fLo fHi fMode, i = .prngTri c fD fLo fHi fMode) ∧
      t.ctx[c].gen = (Machine.next s.ctx[c].gen).1) ∨
    ∃ fld k n, i = .pipeStage fld k ∧ c = fld.castSucc ∧ t.ctx[c].gen = advance n s.ctx[c].gen

/-! ## IIR (41_iir.md) -/

/-- R104, R109: the slot, or the three slots of a cascade, take the coefficient of the rate and cutoff and the
starting value. The order in which R100's formula is evaluated is the model's choice (log 13). -/
def Obligations.FilterInit : Prop :=
  ∀ (c : CtxId) (slot : SlotId) (fRate fCut fVal : RegId) (s : State),
    (∃ t alpha, exec (.iirInit c slot fRate fCut fVal) s = .next t ∧
      CoeffOut s.f[fRate] s.f[fCut] alpha ∧ t.ctx[c].flt[slot] = ⟨alpha, s.f[fVal]⟩ ∧
      ChangesOnly { flt := fun d i => d = c ∧ i = slot } s t) ∧
    (slot.val ≤ 5 → ∃ t alpha, exec (.iirInit3 c slot fRate fCut fVal) s = .next t ∧
      CoeffOut s.f[fRate] s.f[fCut] alpha ∧
      (∀ i : Fin 8, slot.val ≤ i.val → i.val ≤ slot.val + 2 → t.ctx[c].flt[i] = ⟨alpha, s.f[fVal]⟩) ∧
      ChangesOnly { flt := fun d i => d = c ∧ slot.val ≤ i.val ∧ i.val ≤ slot.val + 2 } s t)

/-- R105, R106, R110: one sample through a lowpass, a highpass or a cascade of three in slot order; the source
register is read before the destination is written. The update is evaluated in the configured expression order
(R101, 93 U6; log 26), which in exact arithmetic is `prev + alpha*(s - prev)`; where it is the order R101 writes, from
general knowledge, the output is `s*alpha + (prev - prev*alpha)` to the last bit. In every order the corner cases of
R104 and R105 hold: a slot never initialised returns 0.0, an infinity or NaN enters `prev` and every later output is a
NaN, a coefficient of 0.0 holds `prev`, one of 1.0 passes the input. -/
def Obligations.FilterOneSample : Prop :=
  ∀ (c : CtxId) (slot : SlotId) (fD fS : RegId) (s : State),
    let filter := s.ctx[c].flt[slot]
    (s.hw.legal = true → ∀ alpha prev v : ℝ,
      s.hw.lowpassOrder.exact alpha prev v = prev + alpha * (v - prev)) ∧
    (∀ alpha prev v out, LowpassOut s.hw alpha prev v out → LowpassCorners alpha prev v out) ∧
    (∃ t out, exec (.iirLp c slot fD fS) s = .next t ∧
      LowpassOut s.hw filter.alpha filter.prev s.f[fS] out ∧ t.f[fD] = out ∧
      t.ctx[c].flt[slot] = ⟨filter.alpha, out⟩ ∧
      ChangesOnly { f := (· = fD), flt := fun d i => d = c ∧ i = slot } s t) ∧
    (∃ t out p, exec (.iirHp c slot fD fS) s = .next t ∧
      LowpassOut s.hw filter.alpha filter.prev s.f[fS] out ∧ t.f[fD] = fsub p s.f[fS] out ∧
      t.ctx[c].flt[slot] = ⟨filter.alpha, out⟩ ∧
      ChangesOnly { f := (· = fD), flt := fun d i => d = c ∧ i = slot } s t) ∧
    ∀ h : slot.val + 2 < 8, ∃ t, ∃ out : Fin 3 → F64, exec (.iirLp3 c slot fD fS) s = .next t ∧
      LowpassOut s.hw filter.alpha filter.prev s.f[fS] (out 0) ∧
      LowpassOut s.hw s.ctx[c].flt[slot.val + 1].alpha s.ctx[c].flt[slot.val + 1].prev (out 0) (out 1) ∧
      LowpassOut s.hw s.ctx[c].flt[slot.val + 2].alpha s.ctx[c].flt[slot.val + 2].prev (out 1) (out 2) ∧
      t.f[fD] = out 2 ∧
      t.ctx[c].flt[slot] = ⟨filter.alpha, out 0⟩ ∧
      t.ctx[c].flt[slot.val + 1] = ⟨s.ctx[c].flt[slot.val + 1].alpha, out 1⟩ ∧
      t.ctx[c].flt[slot.val + 2] = ⟨s.ctx[c].flt[slot.val + 2].alpha, out 2⟩ ∧
      ChangesOnly
        { f := (· = fD), flt := fun d i => d = c ∧ slot.val ≤ i.val ∧ i.val ≤ slot.val + 2 } s t

/-- R107, R108, R111: the array variants run sample by sample with carried state over the first `VL` elements,
in place or not, and leave the state in the slots; elements at and beyond `VL` are untouched. Each update is evaluated
in the configured expression order (R101, 93 U6; log 26), `s*alpha + (prev - prev*alpha)` where that is the order R101
writes and in the corner cases of R104 and R105. -/
def Obligations.FilterArrays : Prop :=
  ∀ (c : CtxId) (slot : SlotId) (lD lS : LineId) (s : State), s.Inv →
    let filter := s.ctx[c].flt[slot]
    (∃ t, ∃ q : Nat → F64, exec (.iirLpa c slot lD lS) s = .next t ∧ q 0 = filter.prev ∧
      (∀ n < s.vlen, LowpassOut s.hw filter.alpha (q n) (s.lineAt c lS n) (q (n + 1)) ∧
        t.lineAt c lD n = q (n + 1)) ∧
      t.ctx[c].flt[slot] = ⟨filter.alpha, q s.vlen⟩ ∧
      ChangesOnly { flt := fun d i => d = c ∧ i = slot,
                    line := fun d b n => d = c ∧ b = lD ∧ n < s.vlen } s t) ∧
    (∃ t, ∃ q : Nat → F64, exec (.iirHpa c slot lD lS) s = .next t ∧ q 0 = filter.prev ∧
      (∀ n < s.vlen, LowpassOut s.hw filter.alpha (q n) (s.lineAt c lS n) (q (n + 1)) ∧
        ∃ p, t.lineAt c lD n = fsub p (s.lineAt c lS n) (q (n + 1))) ∧
      t.ctx[c].flt[slot] = ⟨filter.alpha, q s.vlen⟩ ∧
      ChangesOnly { flt := fun d i => d = c ∧ i = slot,
                    line := fun d b n => d = c ∧ b = lD ∧ n < s.vlen } s t) ∧
    ∀ h : slot.val + 2 < 8, ∃ t, ∃ q₀ q₁ q₂ : Nat → F64, exec (.iirLpa3 c slot lD lS) s = .next t ∧
      q₀ 0 = filter.prev ∧ q₁ 0 = s.ctx[c].flt[slot.val + 1].prev ∧
      q₂ 0 = s.ctx[c].flt[slot.val + 2].prev ∧
      (∀ n < s.vlen,
        LowpassOut s.hw filter.alpha (q₀ n) (s.lineAt c lS n) (q₀ (n + 1)) ∧
        LowpassOut s.hw s.ctx[c].flt[slot.val + 1].alpha (q₁ n) (q₀ (n + 1)) (q₁ (n + 1)) ∧
        LowpassOut s.hw s.ctx[c].flt[slot.val + 2].alpha (q₂ n) (q₁ (n + 1)) (q₂ (n + 1)) ∧
        t.lineAt c lD n = q₂ (n + 1)) ∧
      t.ctx[c].flt[slot] = ⟨filter.alpha, q₀ s.vlen⟩ ∧
      t.ctx[c].flt[slot.val + 1] = ⟨s.ctx[c].flt[slot.val + 1].alpha, q₁ s.vlen⟩ ∧
      t.ctx[c].flt[slot.val + 2] = ⟨s.ctx[c].flt[slot.val + 2].alpha, q₂ s.vlen⟩ ∧
      ChangesOnly { flt := fun d i => d = c ∧ slot.val ≤ i.val ∧ i.val ≤ slot.val + 2,
                    line := fun d b n => d = c ∧ b = lD ∧ n < s.vlen } s t

/-! ## FFT and the complex buffer (42_fft.md) -/

/-- R118: the power-of-two check, and the refusal of every other length by both transforms. -/
def Obligations.FftLengthCheck : Prop :=
  (∀ n : Nat, isPow2 n = true ↔ ∃ k, n = 2 ^ k) ∧
  ∀ (c : CtxId) (s : State), s.status.err = false → (¬ ∃ k, s.vlen = 2 ^ k) →
    exec (.fftFwd c) s = .next (s.recorded .fftLen (encode (.fftFwd c))) ∧
    exec (.fftInv c) s = .next (s.recorded .fftLen (encode (.fftInv c)))

/-- R119, R120 with the algorithm of R116: the transforms of the first `VL` elements, a power of two, in place;
the inverse divides every element by `VL`; elements at and beyond `VL` are untouched. Sign and scaling are from
general knowledge (log 24); cosine and sine are open (log 14); the order of evaluation is the model's choice
(log 13). -/
def Obligations.FftTransforms : Prop :=
  ∀ (c : CtxId) (levels : Nat) (s : State), s.Inv → s.vlen = 2 ^ levels →
    (∃ t, ∃ r : Nat → C64, exec (.fftFwd c) s = .next t ∧
      FftOut (fneg fone) levels (fun n => s.zAt c n) r ∧
      (∀ n < s.vlen, t.zAt c n = r n) ∧
      ChangesOnly { z := fun d n => d = c ∧ n < 2 * s.vlen } s t) ∧
    ∃ t, ∃ r : Nat → C64, exec (.fftInv c) s = .next t ∧
      FftOut fone levels (fun n => s.zAt c n) r ∧
      (∀ n < s.vlen, ∃ p p', t.zAt c n =
        (fdiv p (r n).1 (fofInt s.vlen), fdiv p' (r n).2 (fofInt s.vlen))) ∧
      ChangesOnly { z := fun d n => d = c ∧ n < 2 * s.vlen } s t

/-- R121: the shift rotates the first `VL` elements by half their number, for every length; applied twice it
gives an even length, or a length of at most one, back, and rotates an odd length by one less than the
length. -/
def Obligations.SpectrumShift : Prop :=
  ∀ (c : CtxId) (s : State), s.Inv →
    ∃ t u, exec (.fftShift c) s = .next t ∧ exec (.fftShift c) t = .next u ∧
      (∀ i < s.vlen, t.zAt c i = s.zAt c ((i + s.vlen / 2) % s.vlen)) ∧
      ChangesOnly { z := fun d n => d = c ∧ n < 2 * s.vlen } s t ∧
      (s.vlen % 2 = 0 ∨ s.vlen ≤ 1 → ∀ i < s.vlen, u.zAt c i = s.zAt c i) ∧
      (s.vlen % 2 = 1 → ∀ i < s.vlen, u.zAt c i = s.zAt c ((i + (s.vlen - 1)) % s.vlen))

/-- R122, R123, R124: loading a real row, storing the real parts, and the product with a real mask, over the
first `VL` elements. -/
def Obligations.ComplexBufferTransfers : Prop :=
  ∀ (c : CtxId) (l : LineId) (s : State), s.Inv →
    (∃ t, exec (.zLdre c l) s = .next t ∧ (∀ n < s.vlen, t.zAt c n = (s.lineAt c l n, 0)) ∧
      ChangesOnly { z := fun d n => d = c ∧ n < 2 * s.vlen } s t) ∧
    (∃ t, exec (.zStre c l) s = .next t ∧ (∀ n < s.vlen, t.lineAt c l n = (s.zAt c n).1) ∧
      ChangesOnly { line := fun d b n => d = c ∧ b = l ∧ n < s.vlen } s t) ∧
    ∃ t, exec (.zMulr c l) s = .next t ∧
      (∀ n < s.vlen, ∃ p p', t.zAt c n =
        (fmul p (s.zAt c n).1 (s.lineAt c l n), fmul p' (s.zAt c n).2 (s.lineAt c l n))) ∧
      ChangesOnly { z := fun d n => d = c ∧ n < 2 * s.vlen } s t

/-! ## Colour-space transcoder (43_csc.md) -/

/-- R131, R133: every pixel of the frame is converted by the integer formulas (`/` on `Int` by 256 rounds down),
the samples lie in the stated ranges, and nothing outside the addressed part of `YIQ` changes. -/
def Obligations.RgbToYiqFrame : Prop :=
  ∀ s : State, s.Inv → ∃ t, exec .cscRgb2yiq s = .next t ∧
    (∀ y < s.frameH, ∀ x < s.frameW,
      let r : Int := (s.rgbinAt y x 0).toNat
      let g : Int := (s.rgbinAt y x 1).toNat
      let b : Int := (s.rgbinAt y x 2).toNat
      let luma := (77 * r + 151 * g + 28 * b) / 256
      (t.yiqAt 0 y x).toInt = luma ∧ 0 ≤ luma ∧ luma ≤ 255 ∧
      (t.yiqAt 1 y x).toInt = (189 * (r - luma) - 69 * (b - luma)) / 256 ∧
      -153 ≤ (t.yiqAt 1 y x).toInt ∧ (t.yiqAt 1 y x).toInt ≤ 152 ∧
      (t.yiqAt 2 y x).toInt = (123 * (r - luma) + 105 * (b - luma)) / 256 ∧
      -134 ≤ (t.yiqAt 2 y x).toInt ∧ (t.yiqAt 2 y x).toInt ≤ 134) ∧
    ChangesOnly { yiq := (· < 3 * s.frameW * s.frameH) } s t

/-- R136: converting a pixel there and back changes no channel by more than 3, and no channel of a grey
pixel. -/
def Obligations.TranscoderRoundTrip : Prop :=
  ∀ r g b : U8,
    let yiq := rgbToYiq r g b
    let rgb := yiqToRgb yiq.1 yiq.2.1 yiq.2.2
    ((rgb.1.toNat : Int) - r.toNat).natAbs ≤ 3 ∧ ((rgb.2.1.toNat : Int) - g.toNat).natAbs ≤ 3 ∧
    ((rgb.2.2.toNat : Int) - b.toNat).natAbs ≤ 3 ∧
    (r = g → g = b → rgb = (r, g, b))

/-- R132, R134: the rows of one field are converted by the formulas, products and sums wrapped to 32 bits, the
clamp last; no other byte and no sample changes. -/
def Obligations.YiqToRgbField : Prop :=
  ∀ (fld : FieldId) (s : State), s.Inv → ∃ t, exec (.cscYiq2rgb fld) s = .next t ∧
    (∀ y < s.frameH, y % 2 = fld.val → ∀ x < s.frameW,
      let luma := (s.yiqAt 0 y x).toInt
      let i := (s.yiqAt 1 y x).toInt
      let q := (s.yiqAt 2 y x).toInt
      let wrap := fun n : Int => Int.bmod n (2 ^ 32)
      let clamp := fun n : Int => max 0 (min 255 n)
      ((t.rgboutAt y x 0).toNat : Int) = clamp (wrap (luma + wrap (245 * i + 159 * q) / 256)) ∧
      ((t.rgboutAt y x 1).toNat : Int) = clamp (wrap (luma - wrap (70 * i + 166 * q) / 256)) ∧
      ((t.rgboutAt y x 2).toNat : Int) = clamp (wrap (luma + wrap (-283 * i + 436 * q) / 256))) ∧
    ChangesOnly { rgbout := s.ownByte fld } s t

/-! ## Composite multiplex (44_mux.md) -/

/-- R141: the phase index of a row is in 0..3 and depends on the mode, the field, the row and the offset alone
(the implementation's `Xi` is a parameter, 00_scope.md R8); where the implementation's is the instance that R141
takes from general knowledge, it is the formula of the mode (log 11). -/
def Obligations.PhaseIndex : Prop :=
  ∀ (hw : HwParams) (cfg : Cfg) (t y : Nat), t < 2 → y < 2 ^ 32 →
    let xi := rowPhase hw cfg t y
    let offset := cfg.scanlinePhaseShiftOffset.toInt
    xi < 4 ∧
    (∀ (hw' : HwParams) (cfg' : Cfg), hw'.xiInstance = hw.xiInstance →
      cfg'.scanlinePhaseShift = cfg.scanlinePhaseShift →
      cfg'.scanlinePhaseShiftOffset = cfg.scanlinePhaseShiftOffset → rowPhase hw' cfg' t y = xi) ∧
    (hw.xiInstance = true →
      (cfg.scanlinePhaseShift = 0 → (xi : Int) = offset % 4) ∧
      (cfg.scanlinePhaseShift = 1 → (xi : Int) = (t + offset + y / 2) % 4) ∧
      (cfg.scanlinePhaseShift = 2 → (xi : Int) = ((if (t + y) % 4 < 2 then 0 else 2) + offset) % 4) ∧
      (cfg.scanlinePhaseShift = 3 → (xi : Int) = (t + offset) % 4))

/-- R142 with the multipliers of R140 (log 11): the encode adds the modulated chroma into the luma of the
field's rows and zeroes their chroma; nothing else changes. -/
def Obligations.MuxEncode : Prop :=
  ∀ (fld : FieldId) (xAmp : RegId) (s : State), s.Inv → ∃ t, exec (.muxEnc fld xAmp) s = .next t ∧
    (∀ y < s.frameH, y % 2 = fld.val → ∀ x < s.frameW,
      let p := (rowPhase s.hw s.cfg fld y + x) % 4
      let u := ([1, 0, -1, 0] : List I32).getD p 0
      let v := ([0, 1, 0, -1] : List I32).getD p 0
      let chroma := s.yiqAt 1 y x * s.x[xAmp] * u + s.yiqAt 2 y x * s.x[xAmp] * v
      t.yiqAt 0 y x =
        s.yiqAt 0 y x + BitVec.ofInt 32 (chroma.toInt.tdiv s.hw.subcarrierNorm.toInt) ∧
      t.yiqAt 1 y x = 0 ∧ t.yiqAt 2 y x = 0) ∧
    ChangesOnly { yiq := s.ownSample fld } s t

/-- R144, the decode the spec fills in from general knowledge (log 12): the moving average, the residue with its
runs of two negated, the scaling with its zero-amplitude case, the even columns, the odd columns and the zeroed
tail. -/
def Obligations.MuxDecode : Prop :=
  ∀ (fld : FieldId) (xAmp : RegId) (s : State), s.Inv → ∃ t, exec (.muxDec fld xAmp) s = .next t ∧
    (∀ y < s.frameH, y % 2 = fld.val →
      let w := s.frameW
      let amp := s.x[xAmp]
      let ph := rowPhase s.hw s.cfg fld y
      let start := (4 - ph) % 4
      let old : Int → I32 := fun j => if 0 ≤ j ∧ j < w then s.yiqAt 0 y j.toNat else 0
      let average : Nat → I32 := fun x =>
        BitVec.ofInt 32 ((old (x - 1) + old x + old (x + 1) + old (x + 2)).toInt.tdiv 4)
      let residue : Nat → I32 := fun x => old (x + 2) - average x
      let signed : Nat → I32 := fun x =>
        if start ≤ x ∧ 2 ≤ (x - start) % 4 ∧ start + 4 * ((x - start) / 4) + 3 < w then -residue x
        else residue x
      let c : Nat → I32 := fun x =>
        if amp = 0 then 0
        else BitVec.ofInt 32 ((signed x * s.hw.subcarrierNorm).toInt.tdiv amp.toInt)
      let even : Nat → Nat → I32 := fun off x => if x + ph + 1 < w then -c (x + ph + off) else 0
      let chroma : Nat → Nat → I32 := fun off x =>
        if 2 * ((w - 1) / 2) ≤ x then 0
        else if x % 2 = 0 then even off x
        else (even off (x - 1) + even off (x + 1)).sshiftRight 1
      ∀ x < w, t.yiqAt 0 y x = average x ∧ t.yiqAt 1 y x = chroma 0 x ∧ t.yiqAt 2 y x = chroma 1 x) ∧
    ChangesOnly { yiq := s.ownSample fld } s t

/-- R145: on an own row on which Y, I and Q are constant, with the subcarrier norm as both amplitudes and values
small enough that no product wraps, the decode after the encode gives Y back at columns 1..W-3 and I and Q at
columns `x` with `2 ≤ x` and `x + xi + 4 < W`. It rests on the multiplier pairing of the encode (log 11) and on the
body of the decode (log 12), both from general knowledge (PRESUMED). -/
def Obligations.DecodeInvertsEncodeOnConstantRows : Prop :=
  ∀ (fld : FieldId) (xAmp : RegId) (s t u : State) (y : Nat) (luma i q : I32), s.Inv →
    s.x[xAmp] = s.hw.subcarrierNorm → y < s.frameH → y % 2 = fld.val →
    (∀ x < s.frameW, s.yiqAt 0 y x = luma ∧ s.yiqAt 1 y x = i ∧ s.yiqAt 2 y x = q) →
    luma.toInt.natAbs < 2 ^ 28 → i.toInt.natAbs * s.hw.subcarrierNorm.toNat < 2 ^ 28 →
    q.toInt.natAbs * s.hw.subcarrierNorm.toNat < 2 ^ 28 →
    exec (.muxEnc fld xAmp) s = .next t → exec (.muxDec fld xAmp) t = .next u →
    (∀ x, 1 ≤ x → x + 3 ≤ s.frameW → u.yiqAt 0 y x = luma) ∧
    ∀ x, 2 ≤ x → x + rowPhase s.hw s.cfg fld y + 4 < s.frameW → u.yiqAt 1 y x = i ∧ u.yiqAt 2 y x = q

/-! ## Row transfers and number conversions (47_mem_sys.md, 00_scope.md) -/

/-- R211: one row of one plane into a line buffer, W elements; or `ERR_RANGE` and nothing written. -/
def Obligations.LoadRow : Prop :=
  ∀ (c : CtxId) (lD : LineId) (p : PlaneId) (xRow : RegId) (s : State), s.Inv →
    let y := s.x[xRow].toNat
    (y < s.frameH → s.frameW ≤ s.hw.lmax.toNat → ∃ t, exec (.ldRow c lD p xRow) s = .next t ∧
      (∀ n < s.frameW, t.lineAt c lD n = fofI32 (s.yiqAt p y n)) ∧
      ChangesOnly { line := fun d b n => d = c ∧ b = lD ∧ n < s.frameW } s t) ∧
    (s.frameH ≤ y ∨ s.hw.lmax.toNat < s.frameW → s.status.err = false →
      exec (.ldRow c lD p xRow) s = .next (s.recorded .range (encode (.ldRow c lD p xRow))))

/-- R212: elements d..W-1 of a line buffer into columns 0..W-d-1 of a row, the other columns kept; or
`ERR_RANGE` and nothing written. -/
def Obligations.StoreRow : Prop :=
  ∀ (c : CtxId) (p : PlaneId) (xRow xShift : RegId) (lS : LineId) (s : State), s.Inv →
    let y := s.x[xRow].toNat
    let d := s.x[xShift].toNat
    (y < s.frameH → s.frameW ≤ s.hw.lmax.toNat → d ≤ s.frameW →
      ∃ t, exec (.stRow c p xRow xShift lS) s = .next t ∧
      (∀ n, d ≤ n → n < s.frameW → t.yiqAt p y (n - d) = ftoI32 (s.lineAt c lS n)) ∧
      ChangesOnly { yiq := fun i => ∃ n, d ≤ n ∧ n < s.frameW ∧ i = s.yiqIndex p y (n - d) } s t) ∧
    (s.frameH ≤ y ∨ s.hw.lmax.toNat < s.frameW ∨ s.frameW < d → s.status.err = false →
      exec (.stRow c p xRow xShift lS) s =
        .next (s.recorded .range (encode (.stRow c p xRow xShift lS))))

/-- R17: integers convert exactly (a finite value counts units of 2^-1074), and the conversion back truncates
toward zero, saturates, and gives 0 for a NaN. -/
def Obligations.NumberConversions : Prop :=
  (∀ w : I32, isFinite (fofI32 w) = true ∧ funits (fofI32 w) = w.toInt * 2 ^ 1074 ∧
    ftoI32 (fofI32 w) = w) ∧
  (∀ w : U32, isFinite (fofU32 w) = true ∧ funits (fofU32 w) = w.toNat * 2 ^ 1074) ∧
  ∀ a : F64,
    (isNaN a = true → ftoI32 a = 0) ∧
    (isInf a = true → (ftoI32 a).toInt = if a.msb then -2 ^ 31 else 2 ^ 31 - 1) ∧
    (isFinite a = true →
      (ftoI32 a).toInt = max (-2 ^ 31) (min (2 ^ 31 - 1) ((funits a).tdiv (2 ^ 1074))))

/-- R15: a NaN operand compares false and gives a NaN; on finite operands the order is that of the numbers and a
sum, difference, product, quotient or square root is the exact result rounded once, to nearest, ties to even,
overflow to infinity (`RoundsTo`; a finite value counts units of 2^-1074), with IEEE 754's signed zeros, division by
zero, infinities and invalid operations. -/
def Obligations.FloatOrderAndRounding : Prop :=
  ∀ (p : Path) (a b : F64),
    let x : ℝ := funits a
    let y : ℝ := funits b
    let neg : Bool := a.msb != b.msb
    (isNaN a = true ∨ isNaN b = true → flt a b = false ∧ feq a b = false ∧
      isNaN (fadd p a b) = true ∧ isNaN (fsub p a b) = true ∧ isNaN (fmul p a b) = true ∧
      isNaN (fdiv p a b) = true) ∧
    (isNaN a = true → isNaN (fsqrt p a) = true) ∧
    (isFinite a = true → isFinite b = true →
      (flt a b = true ↔ x < y) ∧ (feq a b = true ↔ x = y) ∧
      RoundsTo (x + y) (fadd p a b) ∧ (x + y = 0 → (fadd p a b).msb = (a.msb && b.msb)) ∧
      RoundsTo (x - y) (fsub p a b) ∧ (x - y = 0 → (fsub p a b).msb = (a.msb && !b.msb)) ∧
      RoundsTo (x * y / 2 ^ 1074) (fmul p a b) ∧ (fmul p a b).msb = neg ∧
      (y ≠ 0 → RoundsTo (x / y * 2 ^ 1074) (fdiv p a b) ∧ (fdiv p a b).msb = neg) ∧
      (y = 0 → x ≠ 0 → fdiv p a b = finf neg) ∧
      (y = 0 → x = 0 → isNaN (fdiv p a b) = true)) ∧
    (isFinite a = true →
      (0 < x → RoundsTo (√(x * 2 ^ 1074)) (fsqrt p a)) ∧ (x = 0 → fsqrt p a = a) ∧
      (x < 0 → isNaN (fsqrt p a) = true)) ∧
    (isInf a = true → if a.msb then isNaN (fsqrt p a) = true else fsqrt p a = a) ∧
    (isInf a = true → isNaN b = false →
      (flt a b = true ↔ a.msb = true ∧ a ≠ b) ∧ (flt b a = true ↔ a.msb = false ∧ a ≠ b) ∧
      (feq a b = true ↔ a = b) ∧
      (if isInf b = true ∧ neg = true then isNaN (fadd p a b) = true ∧ isNaN (fadd p b a) = true
        else fadd p a b = a ∧ fadd p b a = a) ∧
      (if isInf b = true ∧ neg = false then isNaN (fsub p a b) = true ∧ isNaN (fsub p b a) = true
        else fsub p a b = a ∧ fsub p b a = fneg a) ∧
      (if isFinite b = true ∧ y = 0 then isNaN (fmul p a b) = true ∧ isNaN (fmul p b a) = true
        else fmul p a b = finf neg ∧ fmul p b a = finf neg) ∧
      (if isInf b = true then isNaN (fdiv p a b) = true
        else fdiv p a b = finf neg ∧ fdiv p b a = fzero neg))

/-! ## The dispatcher (46_dispatcher.md) -/

/-- R192: a frame without pixels sets `DONE` and does nothing else; a width the power-law ringing cannot
transform raises `ERR_FFTLEN` and does nothing else. -/
def Obligations.ProcessPrechecks : Prop :=
  ∀ s : State,
    (s.width = 0 ∨ s.height = 0 →
      exec .pipeProcess s = .next { s with status := { s.status with done := true } }) ∧
    (s.width ≠ 0 → s.height ≠ 0 → s.status.err = false →
      (feq s.cfg.ringing fone = false ∧ s.cfg.enableRinging2 = true ∧
        (s.hw.ringPlanes.y = true ∨ s.hw.ringPlanes.i = true ∨ s.hw.ringPlanes.q = true) ∧
        ¬ ∃ k, s.frameW = 2 ^ k) →
      exec .pipeProcess s = .next (s.recorded .fftLen 0x70000000))

/-- R193: when the pre-checks pass the frame is converted as `CSC.RGB2YIQ` does, `BUSY` is set, `DONE` cleared,
both counters are 0, and nothing else changes but the scratch of contexts 0 and 1, which becomes unspecified
(10_state.md R40; log 4). -/
def Obligations.ProcessForks : Prop :=
  ∀ s : State, s.Inv → s.width ≠ 0 → s.height ≠ 0 → s.badRingLength = false →
    ∃ t u, exec .pipeProcess s = .next t ∧ exec .cscRgb2yiq s = .next u ∧
      t.status = { s.status with busy := true, done := false } ∧
      t.sc[0] = 0 ∧ t.sc[1] = 0 ∧ (∀ n, t.yiq.read n = u.yiq.read n) ∧
      ChangesOnly { flt := fun c _ => c ≠ 2, line := fun c _ _ => c ≠ 2, z := fun c _ => c ≠ 2,
                    yiq := (· < 3 * s.frameW * s.frameH) } s
        { t with status := s.status, sc := s.sc }

/-- R194, R198: while busy, a task's turn runs its next stage as `PIPE.STAGE` does and advances its counter by
one, and the join's turn ends the run when both counters are 17. That turns come from a schedule, and that the turn
of a finished task, or of the join before both counters are 17, passes without effect, is the model's design
(log 8, DESIGN CHOICE). -/
def Obligations.StepsOfARun : Prop :=
  ∀ (s : State) (rest : List Agent), s.Inv → s.status.busy = true →
    let s₀ := { s with turns := rest }
    (∀ t : Fin 2, s.turns = .task t :: rest →
      (s.sc[t] = 17 → step s = .next s₀) ∧
      ∀ k : Fin 32, k.val ≤ 16 → s.sc[t] = k.val → ∃ u w, step s = .next u ∧
        exec (.pipeStage t k) s₀ = .next w ∧
        u.sc[t] = k.val + 1 ∧ (∀ t', t' ≠ t → u.sc[t'] = s.sc[t']) ∧
        (∀ n, u.yiq.read n = w.yiq.read n) ∧ (∀ n, u.rgbout.read n = w.rgbout.read n) ∧
        (∀ c : Fin 3, u.ctx[c].gen = w.ctx[c].gen) ∧
        ChangesOnly (s.stageFootprint t) s₀ { u with sc := s.sc }) ∧
    (s.turns = .join :: rest →
      (s.sc[0] = 17 ∧ s.sc[1] = 17 →
        step s = .next { s₀ with status := { s.status with busy := false, done := true } }) ∧
      (¬ (s.sc[0] = 17 ∧ s.sc[1] = 17) → step s = .next s₀))

/-- 20_memory.md R59: a task's step writes only rows of its own field, its own generator and its own counter,
and what it writes there depends only on the configuration, the sizes, its own rows, generator and counter. R59 lets
the step write the scratch of its own context too; that the step leaves it as it is rests on the model's stages not
writing it out (log 23, DEDUCED). -/
def Obligations.TaskPartition : Prop :=
  ∀ (s u : State) (t : Fin 2), s.Inv → u.Inv →
    ChangesOnly { gen := (· = t.castSucc), rgbout := s.ownByte t, yiq := s.ownSample t } s
      { s.taskStep t with sc := s.sc } ∧
    (∀ t', t' ≠ t → (s.taskStep t).sc[t'] = s.sc[t']) ∧
    (u.cfg = s.cfg → u.hw = s.hw → u.width = s.width → u.height = s.height → u.tick = s.tick →
      u.sc[t] = s.sc[t] → u.ctx[t.castSucc].gen = s.ctx[t.castSucc].gen →
      (∀ i, s.ownSample t i → u.yiq.read i = s.yiq.read i) →
      (∀ i, s.ownByte t i → u.rgbout.read i = s.rgbout.read i) →
      (u.taskStep t).sc[t] = (s.taskStep t).sc[t] ∧
      (u.taskStep t).ctx[t.castSucc].gen = (s.taskStep t).ctx[t.castSucc].gen ∧
      (∀ i, s.ownSample t i → (u.taskStep t).yiq.read i = (s.taskStep t).yiq.read i) ∧
      ∀ i, s.ownByte t i → (u.taskStep t).rgbout.read i = (s.taskStep t).rgbout.read i)

/-- R195: a run reaches its join: from every busy state, under every schedule of task and join turns, within as
many steps as the schedule has turns and 35 more. The fair default after the schedule is the model's (log 8). -/
def Obligations.EveryRunReachesItsJoin : Prop :=
  ∀ s : State, s.Inv → s.status.busy = true → (∀ a ∈ s.turns, a ≠ .host) →
    ∃ k ≤ s.turns.length + 35, ∃ t, core.run k s = .next t ∧ t.status.busy = false ∧
      t.status.done = true ∧ t.sc[0] = 17 ∧ t.sc[1] = 17

/-- R199: the state when both tasks have finished is the same for every interleaving of their steps. R199 leaves
out the scratch of contexts 0 and 1; that it is equal too rests on the model's stages not writing it out (log 23,
DEDUCED). -/
def Obligations.ScheduleIndependence : Prop :=
  ∀ (s : State) (l l' : List (Fin 2)), s.Inv →
    (s.runTasks l).joinReady = true → (s.runTasks l').joinReady = true → s.runTasks l = s.runTasks l'

/-- 20_memory.md R64: two runs that differ only in the starting value of one field's generator leave the same
samples, bytes and generator for the other field. -/
def Obligations.FieldDisjointness : Prop :=
  ∀ (s a b : State) (t : Fin 2) (g : Gen) (l l' : List (Fin 2)), s.Inv →
    exec .pipeProcess s = .next a → exec .pipeProcess (s.setGen t.castSucc g) = .next b →
    a.status.busy = true → (a.runTasks l).joinReady = true → (b.runTasks l').joinReady = true →
    ∀ t' : Fin 2, t' ≠ t →
      (b.runTasks l').ctx[t'.castSucc].gen = (a.runTasks l).ctx[t'.castSucc].gen ∧
      (∀ i, s.ownSample t' i → (b.runTasks l').yiq.read i = (a.runTasks l).yiq.read i) ∧
      ∀ i, s.ownByte t' i → (b.runTasks l').rgbout.read i = (a.runTasks l).rgbout.read i

/-- R202 in the form the spec says is provable (93 U9): with the identity configuration and the subcarrier
disabled, a run gives back every channel of every pixel within 3. -/
def Obligations.IdentityRun : Prop :=
  ∀ s a : State, s.Inv → s.status.busy = false → s.width ≠ 0 → s.height ≠ 0 →
    s.cfg = { Cfg.zero with ringing := fone, noColorSubcarrier := true,
                            subcarrierAmplitude := s.hw.subcarrierNorm,
                            subcarrierAmplitudeBack := s.hw.subcarrierNorm } →
    exec .pipeProcess s = .next a →
    a.status.busy = true ∧ a.sc[0] = 0 ∧ a.sc[1] = 0 ∧
    ∀ l : List (Fin 2), (a.runTasks l).joinReady = true →
      ∀ y < s.frameH, ∀ x < s.frameW, ∀ ch < 3,
        (((a.runTasks l).rgboutAt y x ch).toNat - ((s.rgbinAt y x ch).toNat : Int)).natAbs ≤ 3

/-- R200: the conversion and the thirty-four stages issued one by one leave the same samples, bytes and
generators as the run, for every schedule of the run. -/
def Obligations.StagesOneByOneMatchARun : Prop :=
  ∀ (s a : State) (l : List (Fin 2)), s.Inv → exec .pipeProcess s = .next a → a.status.busy = true →
    (a.runTasks l).joinReady = true →
    ∃ t, execAll stageByStage s = .next t ∧ (∀ n, t.yiq.read n = (a.runTasks l).yiq.read n) ∧
      (∀ n, t.rgbout.read n = (a.runTasks l).rgbout.read n) ∧
      ∀ c : Fin 3, t.ctx[c].gen = (a.runTasks l).ctx[c].gen

/-! ## The stages (45_stages.md) -/

/-- R196, R194: the predicates of the seventeen stages; a stage whose predicate is false draws nothing and
writes nothing, whether the host or a task runs it. That `PIPE.STAGE` leaves the scratch open even then is the
model's reading of 10_state.md R40 (log 4). -/
def Obligations.SkippedStages : Prop :=
  ∀ (fld : FieldId) (k : Fin 32) (s : State), k.val ≤ 16 →
    ¬ (match k.val with
      | 0 => s.cfg.blackLineCut = true
      | 1 => s.cfg.colorBleedBefore = true ∧ (s.cfg.colorBleedHoriz ≠ 0 ∨ s.cfg.colorBleedVert ≠ 0)
      | 2 => s.cfg.inputChromaLowpass = true
      | 3 => feq s.cfg.ringing fone = false
      | 4 => s.cfg.noColorSubcarrier = false
      | 5 => feq s.cfg.compositePreemphasis 0 = false
      | 6 => s.cfg.videoNoise ≠ 0
      | 7 => s.cfg.emulatingVHS = true ∧ s.cfg.vhsHeadSwitching = true
      | 8 => s.cfg.noColorSubcarrier = false
      | 9 => s.cfg.videoChromaNoise ≠ 0
      | 10 => s.cfg.videoChromaPhaseNoise ≠ 0
      | 11 => s.cfg.emulatingVHS = true
      | 12 => s.cfg.videoChromaLoss ≠ 0
      | 13 => s.cfg.outputChromaLowpass = true
      | 14 => s.cfg.colorBleedBefore = false ∧ (s.cfg.colorBleedHoriz ≠ 0 ∨ s.cfg.colorBleedVert ≠ 0)
      | 15 => s.cfg.chromaBlur = true
      | _ => True) →
    (∃ t, exec (.pipeStage fld k) s = .next t ∧
      ChangesOnly { flt := fun c _ => c = fld.castSucc, line := fun c _ _ => c = fld.castSucc,
                    z := fun c _ => c = fld.castSucc } s t) ∧
    (s.sc[fld] = k.val → s.taskStep fld = { s with sc := s.sc.set fld (k.val + 1) })

/-- R200, R152, R163 to R166: `PIPE.STAGE` with a stage number up to 16, unless the ringing length check stops
it, ends in a next state; it changes only own rows, the field's generator by some number of draws, and the
scratch; the stages that are said to write luma only, or chroma only, do so, and the noise stage draws once for
each pixel of the field. -/
def Obligations.StageContract : Prop :=
  ∀ (fld : FieldId) (k : Fin 32) (s : State), s.Inv → k.val ≤ 16 →
    s.frameEmpty = false → ¬ (k.val = 3 ∧ s.badRingLength = true) →
    ∃ t, exec (.pipeStage fld k) s = .next t ∧ ChangesOnly (s.stageFootprint fld) s t ∧
      (∃ n, t.ctx[fld.castSucc].gen = advance n s.ctx[fld.castSucc].gen) ∧
      (k.val ≤ 4 ∧ 1 ≤ k.val ∨ k.val = 8 ∨ 13 ≤ k.val →
        t.ctx[fld.castSucc].gen = s.ctx[fld.castSucc].gen) ∧
      (k.val ≠ 16 → ∀ n, t.rgbout.read n = s.rgbout.read n) ∧
      (k.val = 16 → ∀ n, t.yiq.read n = s.yiq.read n) ∧
      ∀ y < s.frameH, y % 2 = fld.val → ∀ x < s.frameW,
        (k.val ∈ [1, 2, 9, 10, 12, 13, 14, 15] → t.yiqAt 0 y x = s.yiqAt 0 y x) ∧
        (k.val ∈ [6, 7] → t.yiqAt 1 y x = s.yiqAt 1 y x ∧ t.yiqAt 2 y x = s.yiqAt 2 y x) ∧
        (k.val = 6 → s.cfg.videoNoise ≠ 0 → t.ctx[fld.castSucc].gen =
          advance ((s.frameH + 1 - fld.val) / 2 * s.frameW) s.ctx[fld.castSucc].gen)

/-- R154, R171: colour bleed (stages 1 and 14) copies chroma from an offset source or leaves it untouched, and
chroma blur (stage 15) is the 3-tap box filter with missing neighbours 0. -/
def Obligations.BleedAndBlur : Prop :=
  ∀ (fld : FieldId) (k : Fin 32) (s t : State) (p : Nat), s.Inv → s.frameEmpty = false →
    exec (.pipeStage fld k) s = .next t → (p = 1 ∨ p = 2) →
    ∀ y < s.frameH, y % 2 = fld.val → ∀ x < s.frameW,
      (s.cfg.colorBleedHoriz ≠ 0 ∨ s.cfg.colorBleedVert ≠ 0 →
        k.val = 1 ∧ s.cfg.colorBleedBefore = true ∨ k.val = 14 ∧ s.cfg.colorBleedBefore = false →
        let sy := (y : Int) - 2 * s.cfg.colorBleedVert.toInt
        let sx := (x : Int) - s.cfg.colorBleedHoriz.toInt
        t.yiqAt p y x =
          if 0 ≤ sy ∧ sy < s.frameH ∧ 0 ≤ sx ∧ sx < s.frameW then s.yiqAt p sy.toNat sx.toNat
          else s.yiqAt p y x) ∧
      (k.val = 15 → s.cfg.chromaBlur = true →
        let left := if x = 0 then 0 else s.yiqAt p y (x - 1)
        let right := if x + 1 = s.frameW then 0 else s.yiqAt p y (x + 1)
        t.yiqAt p y x = BitVec.ofInt 32 ((left + 2 * s.yiqAt p y x + right).toInt.tdiv 4))

/-- R156, R157 with the profiles of R155 (log 24): stages 2 and 13 pass each chroma row through a cascade
restarted at zero, shift it left by the profile's delay, truncate, and keep the last columns. The lowpass is R101's
formula in the configured expression order (93 U6; log 26); the order of the coefficient's formula is the model's
choice (log 13, DESIGN CHOICE). -/
def Obligations.CompositeLowpassStages : Prop :=
  ∀ (fld : FieldId) (k : Fin 32) (s t : State), s.Inv → s.frameEmpty = false →
    exec (.pipeStage fld k) s = .next t →
    (k.val = 2 ∧ s.cfg.inputChromaLowpass = true ∨ k.val = 13 ∧ s.cfg.outputChromaLowpass = true) →
    let tv := k.val = 13 ∧ s.cfg.outputChromaLowpassTV = true
    ∀ p cutoff delay,
      (¬ tv ∧ p = 1 ∧ cutoff = 1300000 ∧ delay = s.hw.delayI ∨
       ¬ tv ∧ p = 2 ∧ cutoff = 600000 ∧ delay = s.hw.delayQ ∨
       tv ∧ (p = 1 ∨ p = 2) ∧ cutoff = 2600000 ∧ delay = s.hw.delayTV) →
      ∃ alpha, CoeffOut s.hw.sampleRateHz (fofInt cutoff) alpha ∧
      ∀ y < s.frameH, y % 2 = fld.val → ∃ q₀ q₁ q₂ : Nat → F64,
        q₀ 0 = 0 ∧ q₁ 0 = 0 ∧ q₂ 0 = 0 ∧
        ∀ x < s.frameW,
          LowpassOut s.hw alpha (q₀ x) (fofI32 (s.yiqAt p y x)) (q₀ (x + 1)) ∧
          LowpassOut s.hw alpha (q₁ x) (q₀ (x + 1)) (q₁ (x + 1)) ∧
          LowpassOut s.hw alpha (q₂ x) (q₁ (x + 1)) (q₂ (x + 1)) ∧
          t.yiqAt p y x =
            if x + delay < s.frameW then ftoI32 (q₂ (x + delay + 1)) else s.yiqAt p y x

/-- R158, R159, R160: stage 3 on a plane of `RING_PLANES` is the spatial emphasis or, when the toggle is set,
the power-law shaping through the transform with the mask `RingMask` (log 18); the other planes keep their
samples. The sign and scaling of the transform are from general knowledge (log 24, PRESUMED), and the order of
evaluation is the model's choice (log 13). -/
def Obligations.RingingStage : Prop :=
  ∀ (fld : FieldId) (s t : State) (p : Nat), s.Inv → s.frameEmpty = false →
    feq s.cfg.ringing fone = false → s.badRingLength = false →
    exec (.pipeStage fld 3) s = .next t → p < 3 →
    let ringed := p = 0 ∧ s.hw.ringPlanes.y = true ∨ p = 1 ∧ s.hw.ringPlanes.i = true ∨
      p = 2 ∧ s.hw.ringPlanes.q = true
    ∀ y < s.frameH, y % 2 = fld.val →
      (¬ ringed → ∀ x < s.frameW, t.yiqAt p y x = s.yiqAt p y x) ∧
      (ringed → s.cfg.enableRinging2 = false → ∀ x < s.frameW,
        (x = 0 ∨ x + 1 = s.frameW → t.yiqAt p y x = s.yiqAt p y x) ∧
        (1 ≤ x → x + 2 ≤ s.frameW → ∃ p₁ p₂ p₃, t.yiqAt p y x = s.yiqAt p y x + ftoI32
          (fmul p₁ (fmul p₂ (fofI32 (s.yiqAt p y (x + 1) - s.yiqAt p y (x - 1)))
            (fsub p₃ s.cfg.ringing fone)) ftenth))) ∧
      (ringed → s.cfg.enableRinging2 = true → ∃ levels, ∃ spectrum masked result : Nat → C64,
        s.frameW = 2 ^ levels ∧
        FftOut (fneg fone) levels (fun x => (fofI32 (s.yiqAt p y x), 0)) spectrum ∧
        (∀ x < s.frameW, ∃ p₁ p₂, masked x =
          (fmul p₁ (spectrum ((x + s.frameW / 2) % s.frameW)).1 (Config.ringMask s.cfg s.frameW x),
           fmul p₂ (spectrum ((x + s.frameW / 2) % s.frameW)).2 (Config.ringMask s.cfg s.frameW x))) ∧
        FftOut fone levels (fun x => masked ((x + s.frameW / 2) % s.frameW)) result ∧
        ∀ x < s.frameW, ∃ p₁, t.yiqAt p y x = ftoI32 (fdiv p₁ (result x).1 (fofInt s.frameW)))

/-- R170: one draw for each own row in increasing order; a row is zeroed in both chroma planes exactly when its
draw modulo 100000 is below the configured loss. -/
def Obligations.ChromaDropout : Prop :=
  ∀ (fld : FieldId) (s t : State), s.Inv → s.frameEmpty = false → s.cfg.videoChromaLoss ≠ 0 →
    exec (.pipeStage fld 12) s = .next t →
    (∀ y < s.frameH, y % 2 = fld.val → ∀ x < s.frameW,
      let n := (Machine.next (advance (y / 2) s.ctx[fld.castSucc].gen)).2
      let drop := ((n.toNat % 100000 : Nat) : Int) < s.cfg.videoChromaLoss.toInt
      t.yiqAt 0 y x = s.yiqAt 0 y x ∧
      (drop → t.yiqAt 1 y x = 0 ∧ t.yiqAt 2 y x = 0) ∧
      (¬ drop → t.yiqAt 1 y x = s.yiqAt 1 y x ∧ t.yiqAt 2 y x = s.yiqAt 2 y x)) ∧
    t.ctx[fld.castSucc].gen = advance ((s.frameH + 1 - fld.val) / 2) s.ctx[fld.castSucc].gen

/-- R172: stages 4, 8 and 16 compute what `MUX.ENC`, `MUX.DEC` and `CSC.YIQ2RGB` compute with the configured
amplitudes, each stage with the one R146 gives it from general knowledge (log 24). -/
def Obligations.StagesMatchCommands : Prop :=
  ∀ (fld : FieldId) (xAmp : RegId) (s : State), s.Inv → s.frameEmpty = false →
    (s.cfg.noColorSubcarrier = false → s.x[xAmp] = s.cfg.subcarrierAmplitude →
      ∃ t u, exec (.pipeStage fld 4) s = .next t ∧ exec (.muxEnc fld xAmp) s = .next u ∧
        ∀ n, t.yiq.read n = u.yiq.read n) ∧
    (s.cfg.noColorSubcarrier = false → s.x[xAmp] = s.cfg.subcarrierAmplitudeBack →
      ∃ t u, exec (.pipeStage fld 8) s = .next t ∧ exec (.muxDec fld xAmp) s = .next u ∧
        ∀ n, t.yiq.read n = u.yiq.read n) ∧
    ∃ t u, exec (.pipeStage fld 16) s = .next t ∧ exec (.cscYiq2rgb fld) s = .next u ∧
      ∀ n, t.rgbout.read n = u.rgbout.read n
end

