-- ==== Sys2Proof/Laws/Memory.lean ====
section
/-! SUPPORT. Element memory: a read after a write, the canonical form, and equality of canonical memories
with equal contents. -/

namespace Sys2Proof.Machine

variable {w : Nat}

/-! ## Lists of cells -/

theorem lookupCell_insertCell (l : List (Nat × BitVec w)) (i j : Nat) (v : BitVec w) :
    lookupCell (insertCell l i v) j = if i = j then some v else lookupCell l j := by
  induction l with
  | nil => simp [insertCell, lookupCell]
  | cons c rest ih =>
    obtain ⟨k, u⟩ := c
    unfold insertCell
    split
    · simp [lookupCell]
    · split
      · next h => subst h; by_cases hj : i = j <;> simp [lookupCell, hj]
      · next h1 h2 =>
        simp only [lookupCell, ih]
        by_cases hk : k = j
        · subst hk; simp [h2]
        · simp [hk]

theorem lookupCell_eraseCell_of_ne (l : List (Nat × BitVec w)) {i j : Nat} (h : i ≠ j) :
    lookupCell (eraseCell l i) j = lookupCell l j := by
  induction l with
  | nil => rfl
  | cons c rest ih =>
    obtain ⟨k, u⟩ := c
    unfold eraseCell
    split
    · next hk => subst hk; simp [lookupCell, h]
    · simp [lookupCell, ih]

theorem lookupCell_eq_none_of_lt (l : List (Nat × BitVec w)) (i : Nat) (h : ∀ c ∈ l, i < c.1) :
    lookupCell l i = none := by
  induction l with
  | nil => rfl
  | cons c rest ih =>
    have hc := h c (by simp)
    have hr := ih fun d hd => h d (by simp [hd])
    have : c.1 ≠ i := by omega
    simp [lookupCell, this, hr]

theorem lookupCell_eraseCell_self (l : List (Nat × BitVec w)) (i : Nat)
    (h : l.Pairwise fun a b => a.1 < b.1) : lookupCell (eraseCell l i) i = none := by
  induction l with
  | nil => rfl
  | cons c rest ih =>
    rw [List.pairwise_cons] at h
    unfold eraseCell
    split
    · next hk => subst hk; exact lookupCell_eq_none_of_lt rest _ h.1
    · next hk => simp [lookupCell, hk, ih h.2]

theorem mem_insertCell {l : List (Nat × BitVec w)} {i : Nat} {v : BitVec w} {c : Nat × BitVec w}
    (h : c ∈ insertCell l i v) : c = (i, v) ∨ c ∈ l := by
  induction l with
  | nil => simpa [insertCell] using h
  | cons d rest ih =>
    unfold insertCell at h
    split at h
    · simpa using h
    · split at h
      · rcases List.mem_cons.mp h with h | h
        · exact .inl h
        · exact .inr (by simp [h])
      · rcases List.mem_cons.mp h with h | h
        · exact .inr (by simp [h])
        · rcases ih h with h | h
          · exact .inl h
          · exact .inr (by simp [h])

theorem mem_of_mem_eraseCell {l : List (Nat × BitVec w)} {i : Nat} {c : Nat × BitVec w}
    (h : c ∈ eraseCell l i) : c ∈ l := by
  induction l with
  | nil => exact h
  | cons d rest ih =>
    unfold eraseCell at h
    split at h
    · simp [h]
    · rcases List.mem_cons.mp h with h | h
      · simp [h]
      · simp [ih h]

theorem insertCell_rising (l : List (Nat × BitVec w)) (i : Nat) (v : BitVec w)
    (h : l.Pairwise fun a b => a.1 < b.1) : (insertCell l i v).Pairwise fun a b => a.1 < b.1 := by
  induction l with
  | nil => simp [insertCell]
  | cons c rest ih =>
    have h' := List.pairwise_cons.mp h
    unfold insertCell
    split
    · next hlt =>
      refine List.pairwise_cons.mpr ⟨fun b hb => ?_, h⟩
      rcases List.mem_cons.mp hb with rfl | hb
      · exact hlt
      · exact Nat.lt_trans hlt (h'.1 b hb)
    · split
      · next heq => subst heq; exact List.pairwise_cons.mpr h'
      · next h1 h2 =>
        refine List.pairwise_cons.mpr ⟨fun b hb => ?_, ih h'.2⟩
        rcases mem_insertCell hb with rfl | hb
        · simp only; omega
        · exact h'.1 b hb

theorem eraseCell_rising (l : List (Nat × BitVec w)) (i : Nat)
    (h : l.Pairwise fun a b => a.1 < b.1) : (eraseCell l i).Pairwise fun a b => a.1 < b.1 := by
  induction l with
  | nil => exact h
  | cons c rest ih =>
    have h' := List.pairwise_cons.mp h
    unfold eraseCell
    split
    · exact h'.2
    · exact List.pairwise_cons.mpr ⟨fun b hb => h'.1 b (mem_of_mem_eraseCell hb), ih h'.2⟩

theorem mem_of_lookupCell {l : List (Nat × BitVec w)} {i : Nat} {v : BitVec w}
    (h : lookupCell l i = some v) : (i, v) ∈ l := by
  induction l with
  | nil => simp [lookupCell] at h
  | cons c rest ih =>
    unfold lookupCell at h
    split at h
    · next hk => cases h; subst hk; simp
    · simp [ih h]

theorem lookupCell_of_mem {l : List (Nat × BitVec w)} {c : Nat × BitVec w}
    (hs : l.Pairwise fun a b => a.1 < b.1) (h : c ∈ l) : lookupCell l c.1 = some c.2 := by
  induction l with
  | nil => simp at h
  | cons d rest ih =>
    have h' := List.pairwise_cons.mp hs
    rcases List.mem_cons.mp h with rfl | h
    · simp [lookupCell]
    · have : d.1 ≠ c.1 := by have := h'.1 c h; omega
      simp [lookupCell, this, ih h'.2 h]

theorem cells_ext {a b : List (Nat × BitVec w)} (ha : a.Pairwise fun x y => x.1 < y.1)
    (hb : b.Pairwise fun x y => x.1 < y.1) (h : ∀ i, lookupCell a i = lookupCell b i) : a = b := by
  have hmem : ∀ c, c ∈ a ↔ c ∈ b := fun c =>
    ⟨fun hc => mem_of_lookupCell (by rw [← h, lookupCell_of_mem ha hc]),
     fun hc => mem_of_lookupCell (by rw [h, lookupCell_of_mem hb hc])⟩
  have hperm : a.Perm b := by
    rw [List.perm_ext_iff_of_nodup]
    · exact hmem
    · exact ha.imp fun {x y} hxy => by rintro rfl; omega
    · exact hb.imp fun {x y} hxy => by rintro rfl; omega
  exact hperm.eq_of_pairwise (fun x y _ _ h1 h2 => by omega) ha hb

/-! ## Memory -/

@[simp] theorem Memory.read_empty (i : Nat) : (Memory.empty : Memory w).read i = 0 := rfl

theorem Memory.wf_empty : (Memory.empty : Memory w).wf := by simp [Memory.wf, Memory.empty]

@[simp] theorem Memory.write_fill (m : Memory w) (i : Nat) (v : BitVec w) :
    (m.write i v).fill = m.fill := by
  unfold Memory.write
  split
  · split <;> rfl
  · rfl

theorem Memory.fillAt_congr {m m' : Memory w} (h : m.fill = m'.fill) (i : Nat) :
    m.fillAt i = m'.fillAt i := by
  simp [Memory.fillAt, h]

theorem Memory.read_write_of_ne (m : Memory w) {i j : Nat} (v : BitVec w) (h : i ≠ j) :
    (m.write i v).read j = m.read j := by
  have hf := Memory.fillAt_congr (Memory.write_fill m i v) j
  have hl : lookupCell (m.write i v).cells j = lookupCell m.cells j := by
    unfold Memory.write
    split
    · split
      · exact lookupCell_eraseCell_of_ne _ h
      · simp [lookupCell_insertCell, h]
    · simp [lookupCell_insertCell, h]
  simp [Memory.read, hl, hf]

theorem Memory.read_write_self (m : Memory w) (i : Nat) (v : BitVec w) (hm : m.wf) :
    (m.write i v).read i = v := by
  unfold Memory.write
  split
  · next hf =>
    split
    · next hv => simp [Memory.read, lookupCell_eraseCell_self _ _ hm.1, Memory.fillAt, hf, hv]
    · simp [Memory.read, lookupCell_insertCell]
  · simp [Memory.read, lookupCell_insertCell]

/-- A read after a write, in one lemma. -/
theorem Memory.read_write (m : Memory w) (i j : Nat) (v : BitVec w) (hm : m.wf) :
    (m.write i v).read j = if i = j then v else m.read j := by
  by_cases h : i = j
  · subst h; simp [Memory.read_write_self m i v hm]
  · simp [h, Memory.read_write_of_ne m v h]

theorem Memory.wf_write (m : Memory w) (i : Nat) (v : BitVec w) (hm : m.wf) : (m.write i v).wf := by
  unfold Memory.write
  split
  · split
    · exact ⟨eraseCell_rising _ _ hm.1, fun hf c hc => hm.2 hf c (mem_of_mem_eraseCell hc)⟩
    · next hv =>
      refine ⟨insertCell_rising _ _ _ hm.1, fun hf c hc => ?_⟩
      rcases mem_insertCell hc with rfl | hc
      · exact hv
      · exact hm.2 hf c hc
  · next p hp =>
    refine ⟨insertCell_rising _ _ _ hm.1, fun hf => ?_⟩
    simp [hp] at hf

/-- Canonical zero-fill memories with equal contents are equal data. -/
theorem Memory.eq_of_read_eq {a b : Memory w} (ha : a.wf) (hb : b.wf) (hfa : a.fill = .zero)
    (hfb : b.fill = .zero) (h : ∀ i, a.read i = b.read i) : a = b := by
  have hl : ∀ i, lookupCell a.cells i = lookupCell b.cells i := by
    intro i
    have hi := h i
    simp only [Memory.read, Memory.fillAt, hfa, hfb] at hi
    cases ea : lookupCell a.cells i with
    | none =>
      cases eb : lookupCell b.cells i with
      | none => rfl
      | some v =>
        have := hb.2 hfb _ (mem_of_lookupCell eb)
        simp_all
    | some u =>
      cases eb : lookupCell b.cells i with
      | none =>
        have := ha.2 hfa _ (mem_of_lookupCell ea)
        simp_all
      | some v => simp_all
  obtain ⟨fa, ca⟩ := a
  obtain ⟨fb, cb⟩ := b
  have := cells_ext ha.1 hb.1 hl
  simp_all

/-! ## Access inside a space -/

theorem Memory.readIn_of_lt {size i : Nat} (m : Memory w) (h : i < size) : m.readIn size i = m.read i := by
  simp [Memory.readIn, h]

theorem Memory.readIn_of_le {size i : Nat} (m : Memory w) (h : size ≤ i) : m.readIn size i = 0 := by
  simp [Memory.readIn, Nat.not_lt.mpr h]

@[simp] theorem Memory.writeIn_fill (size : Nat) (m : Memory w) (i : Nat) (v : BitVec w) :
    (m.writeIn size i v).fill = m.fill := by
  unfold Memory.writeIn; split <;> simp

theorem Memory.wf_writeIn (size : Nat) (m : Memory w) (i : Nat) (v : BitVec w) (hm : m.wf) :
    (m.writeIn size i v).wf := by
  unfold Memory.writeIn; split
  · exact Memory.wf_write m i v hm
  · exact hm

theorem Memory.read_writeIn (size : Nat) (m : Memory w) (i j : Nat) (v : BitVec w) (hm : m.wf) :
    (m.writeIn size i v).read j = if i = j ∧ i < size then v else m.read j := by
  unfold Memory.writeIn
  by_cases h : i < size
  · simp [h, Memory.read_write m i j v hm]
  · simp [h]

@[simp] theorem Memory.writeFrom_fill (size : Nat) (vs : List (BitVec w)) (m : Memory w) (i : Nat) :
    (Memory.writeFrom size m i vs).fill = m.fill := by
  induction vs generalizing m i with
  | nil => rfl
  | cons v vs ih => simp [Memory.writeFrom, ih]

theorem Memory.wf_writeFrom (size : Nat) (vs : List (BitVec w)) (m : Memory w) (i : Nat) (hm : m.wf) :
    (Memory.writeFrom size m i vs).wf := by
  induction vs generalizing m i with
  | nil => exact hm
  | cons v vs ih => exact ih _ _ (Memory.wf_writeIn size m i v hm)

/-- What consecutive writes leave at an index. -/
theorem Memory.read_writeFrom (size : Nat) (vs : List (BitVec w)) (m : Memory w) (i j : Nat) (hm : m.wf) :
    (Memory.writeFrom size m i vs).read j =
      if i ≤ j ∧ j < i + vs.length ∧ j < size then vs.getD (j - i) 0 else m.read j := by
  induction vs generalizing m i with
  | nil => simp only [Memory.writeFrom, List.length_nil]; split <;> [omega; rfl]
  | cons v vs ih =>
    rw [Memory.writeFrom, ih _ _ (Memory.wf_writeIn size m i v hm), Memory.read_writeIn _ _ _ _ _ hm]
    simp only [List.length_cons]
    by_cases hij : i = j
    · subst hij
      by_cases hs : i < size
      · simp [hs]
      · simp [hs]
    · by_cases hle : i + 1 ≤ j
      · have e : j - i = (j - (i + 1)) + 1 := by omega
        rw [e, List.getD_cons_succ]
        by_cases hc : j < i + 1 + vs.length ∧ j < size
        · have h2 : i ≤ j ∧ j < i + (vs.length + 1) ∧ j < size := by omega
          rw [if_pos ⟨hle, hc.1, hc.2⟩, if_pos h2]
        · have h2 : ¬ (i + 1 ≤ j ∧ j < i + 1 + vs.length ∧ j < size) := fun h => hc h.2
          have h3 : ¬ (i ≤ j ∧ j < i + (vs.length + 1) ∧ j < size) := by omega
          rw [if_neg h2, if_neg h3, if_neg (by omega)]
      · have h2 : ¬ (i + 1 ≤ j ∧ j < i + 1 + vs.length ∧ j < size) := by omega
        have h3 : ¬ (i ≤ j ∧ j < i + (vs.length + 1) ∧ j < size) := by omega
        rw [if_neg h2, if_neg h3, if_neg (by omega)]

theorem Memory.mem_cells_writeFrom (size : Nat) (vs : List (BitVec w)) (m : Memory w) (i : Nat)
    (hm : ∀ c ∈ m.cells, c.1 < size) : ∀ c ∈ (Memory.writeFrom size m i vs).cells, c.1 < size := by
  induction vs generalizing m i with
  | nil => exact hm
  | cons v vs ih =>
    refine ih _ _ ?_
    unfold Memory.writeIn
    split
    · next hi =>
      intro c hc
      unfold Memory.write at hc
      split at hc
      · split at hc
        · exact hm c (mem_of_mem_eraseCell hc)
        · rcases mem_insertCell hc with rfl | hc
          · exact hi
          · exact hm c hc
      · rcases mem_insertCell hc with rfl | hc
        · exact hi
        · exact hm c hc
    · exact hm

@[simp] theorem Memory.length_readFrom (size : Nat) (m : Memory w) (i n : Nat) :
    (m.readFrom size i n).length = n := by
  simp [Memory.readFrom]

theorem Memory.getD_readFrom (size : Nat) (m : Memory w) (i n k : Nat) (h : k < n) (d : BitVec w) :
    (m.readFrom size i n).getD k d = m.readIn size (i + k) := by
  simp [Memory.readFrom, h]

end Sys2Proof.Machine
end

