-- ==== Sys2Proof/Laws/State.lean ====
section
/-! SUPPORT. What each register, buffer or status update leaves in each field of State, one lemma for each
update and field, so that no proof unfolds a record update. -/

namespace Sys2Proof.Machine

variable (s : State)

/-! ### `State.setX` -/

@[simp] theorem State.setX_x (i : Fin 8) (v : U32) : (s.setX i v).x = s.x.set i v := rfl
@[simp] theorem State.setX_f (i : Fin 8) (v : U32) : (s.setX i v).f = s.f := rfl
@[simp] theorem State.setX_status (i : Fin 8) (v : U32) : (s.setX i v).status = s.status := rfl
@[simp] theorem State.setX_errinfo (i : Fin 8) (v : U32) : (s.setX i v).errinfo = s.errinfo := rfl
@[simp] theorem State.setX_width (i : Fin 8) (v : U32) : (s.setX i v).width = s.width := rfl
@[simp] theorem State.setX_height (i : Fin 8) (v : U32) : (s.setX i v).height = s.height := rfl
@[simp] theorem State.setX_vl (i : Fin 8) (v : U32) : (s.setX i v).vl = s.vl := rfl
@[simp] theorem State.setX_sc (i : Fin 8) (v : U32) : (s.setX i v).sc = s.sc := rfl
@[simp] theorem State.setX_cfg (i : Fin 8) (v : U32) : (s.setX i v).cfg = s.cfg := rfl
@[simp] theorem State.setX_ctx (i : Fin 8) (v : U32) : (s.setX i v).ctx = s.ctx := rfl
@[simp] theorem State.setX_rgbin (i : Fin 8) (v : U32) : (s.setX i v).rgbin = s.rgbin := rfl
@[simp] theorem State.setX_rgbout (i : Fin 8) (v : U32) : (s.setX i v).rgbout = s.rgbout := rfl
@[simp] theorem State.setX_yiq (i : Fin 8) (v : U32) : (s.setX i v).yiq = s.yiq := rfl
@[simp] theorem State.setX_hw (i : Fin 8) (v : U32) : (s.setX i v).hw = s.hw := rfl
@[simp] theorem State.setX_inputs (i : Fin 8) (v : U32) : (s.setX i v).inputs = s.inputs := rfl
@[simp] theorem State.setX_turns (i : Fin 8) (v : U32) : (s.setX i v).turns = s.turns := rfl
@[simp] theorem State.setX_tick (i : Fin 8) (v : U32) : (s.setX i v).tick = s.tick := rfl
@[simp] theorem State.setX_hostData (i : Fin 8) (v : U32) : (s.setX i v).hostData = s.hostData := rfl
@[simp] theorem State.setX_frameW (i : Fin 8) (v : U32) : (s.setX i v).frameW = s.frameW := rfl
@[simp] theorem State.setX_frameH (i : Fin 8) (v : U32) : (s.setX i v).frameH = s.frameH := rfl
@[simp] theorem State.setX_vlen (i : Fin 8) (v : U32) : (s.setX i v).vlen = s.vlen := rfl
@[simp] theorem State.setX_frameSize (i : Fin 8) (v : U32) : (s.setX i v).frameSize = s.frameSize := rfl
@[simp] theorem State.setX_lineSize (i : Fin 8) (v : U32) : (s.setX i v).lineSize = s.lineSize := rfl
@[simp] theorem State.setX_zSize (i : Fin 8) (v : U32) : (s.setX i v).zSize = s.zSize := rfl

/-! ### `State.setF` -/

@[simp] theorem State.setF_x (i : Fin 8) (v : F64) : (s.setF i v).x = s.x := rfl
@[simp] theorem State.setF_f (i : Fin 8) (v : F64) : (s.setF i v).f = s.f.set i v := rfl
@[simp] theorem State.setF_status (i : Fin 8) (v : F64) : (s.setF i v).status = s.status := rfl
@[simp] theorem State.setF_errinfo (i : Fin 8) (v : F64) : (s.setF i v).errinfo = s.errinfo := rfl
@[simp] theorem State.setF_width (i : Fin 8) (v : F64) : (s.setF i v).width = s.width := rfl
@[simp] theorem State.setF_height (i : Fin 8) (v : F64) : (s.setF i v).height = s.height := rfl
@[simp] theorem State.setF_vl (i : Fin 8) (v : F64) : (s.setF i v).vl = s.vl := rfl
@[simp] theorem State.setF_sc (i : Fin 8) (v : F64) : (s.setF i v).sc = s.sc := rfl
@[simp] theorem State.setF_cfg (i : Fin 8) (v : F64) : (s.setF i v).cfg = s.cfg := rfl
@[simp] theorem State.setF_ctx (i : Fin 8) (v : F64) : (s.setF i v).ctx = s.ctx := rfl
@[simp] theorem State.setF_rgbin (i : Fin 8) (v : F64) : (s.setF i v).rgbin = s.rgbin := rfl
@[simp] theorem State.setF_rgbout (i : Fin 8) (v : F64) : (s.setF i v).rgbout = s.rgbout := rfl
@[simp] theorem State.setF_yiq (i : Fin 8) (v : F64) : (s.setF i v).yiq = s.yiq := rfl
@[simp] theorem State.setF_hw (i : Fin 8) (v : F64) : (s.setF i v).hw = s.hw := rfl
@[simp] theorem State.setF_inputs (i : Fin 8) (v : F64) : (s.setF i v).inputs = s.inputs := rfl
@[simp] theorem State.setF_turns (i : Fin 8) (v : F64) : (s.setF i v).turns = s.turns := rfl
@[simp] theorem State.setF_tick (i : Fin 8) (v : F64) : (s.setF i v).tick = s.tick := rfl
@[simp] theorem State.setF_hostData (i : Fin 8) (v : F64) : (s.setF i v).hostData = s.hostData := rfl
@[simp] theorem State.setF_frameW (i : Fin 8) (v : F64) : (s.setF i v).frameW = s.frameW := rfl
@[simp] theorem State.setF_frameH (i : Fin 8) (v : F64) : (s.setF i v).frameH = s.frameH := rfl
@[simp] theorem State.setF_vlen (i : Fin 8) (v : F64) : (s.setF i v).vlen = s.vlen := rfl
@[simp] theorem State.setF_frameSize (i : Fin 8) (v : F64) : (s.setF i v).frameSize = s.frameSize := rfl
@[simp] theorem State.setF_lineSize (i : Fin 8) (v : F64) : (s.setF i v).lineSize = s.lineSize := rfl
@[simp] theorem State.setF_zSize (i : Fin 8) (v : F64) : (s.setF i v).zSize = s.zSize := rfl

/-! ### `State.setCtx` -/

@[simp] theorem State.setCtx_x (c : Fin 3) (k : Context) : (s.setCtx c k).x = s.x := rfl
@[simp] theorem State.setCtx_f (c : Fin 3) (k : Context) : (s.setCtx c k).f = s.f := rfl
@[simp] theorem State.setCtx_status (c : Fin 3) (k : Context) : (s.setCtx c k).status = s.status := rfl
@[simp] theorem State.setCtx_errinfo (c : Fin 3) (k : Context) : (s.setCtx c k).errinfo = s.errinfo := rfl
@[simp] theorem State.setCtx_width (c : Fin 3) (k : Context) : (s.setCtx c k).width = s.width := rfl
@[simp] theorem State.setCtx_height (c : Fin 3) (k : Context) : (s.setCtx c k).height = s.height := rfl
@[simp] theorem State.setCtx_vl (c : Fin 3) (k : Context) : (s.setCtx c k).vl = s.vl := rfl
@[simp] theorem State.setCtx_sc (c : Fin 3) (k : Context) : (s.setCtx c k).sc = s.sc := rfl
@[simp] theorem State.setCtx_cfg (c : Fin 3) (k : Context) : (s.setCtx c k).cfg = s.cfg := rfl
@[simp] theorem State.setCtx_ctx (c : Fin 3) (k : Context) : (s.setCtx c k).ctx = s.ctx.set c k := rfl
@[simp] theorem State.setCtx_rgbin (c : Fin 3) (k : Context) : (s.setCtx c k).rgbin = s.rgbin := rfl
@[simp] theorem State.setCtx_rgbout (c : Fin 3) (k : Context) : (s.setCtx c k).rgbout = s.rgbout := rfl
@[simp] theorem State.setCtx_yiq (c : Fin 3) (k : Context) : (s.setCtx c k).yiq = s.yiq := rfl
@[simp] theorem State.setCtx_hw (c : Fin 3) (k : Context) : (s.setCtx c k).hw = s.hw := rfl
@[simp] theorem State.setCtx_inputs (c : Fin 3) (k : Context) : (s.setCtx c k).inputs = s.inputs := rfl
@[simp] theorem State.setCtx_turns (c : Fin 3) (k : Context) : (s.setCtx c k).turns = s.turns := rfl
@[simp] theorem State.setCtx_tick (c : Fin 3) (k : Context) : (s.setCtx c k).tick = s.tick := rfl
@[simp] theorem State.setCtx_hostData (c : Fin 3) (k : Context) : (s.setCtx c k).hostData = s.hostData := rfl
@[simp] theorem State.setCtx_frameW (c : Fin 3) (k : Context) : (s.setCtx c k).frameW = s.frameW := rfl
@[simp] theorem State.setCtx_frameH (c : Fin 3) (k : Context) : (s.setCtx c k).frameH = s.frameH := rfl
@[simp] theorem State.setCtx_vlen (c : Fin 3) (k : Context) : (s.setCtx c k).vlen = s.vlen := rfl
@[simp] theorem State.setCtx_frameSize (c : Fin 3) (k : Context) : (s.setCtx c k).frameSize = s.frameSize := rfl
@[simp] theorem State.setCtx_lineSize (c : Fin 3) (k : Context) : (s.setCtx c k).lineSize = s.lineSize := rfl
@[simp] theorem State.setCtx_zSize (c : Fin 3) (k : Context) : (s.setCtx c k).zSize = s.zSize := rfl

/-! ### `State.setGen` -/

@[simp] theorem State.setGen_x (c : Fin 3) (g : Gen) : (s.setGen c g).x = s.x := rfl
@[simp] theorem State.setGen_f (c : Fin 3) (g : Gen) : (s.setGen c g).f = s.f := rfl
@[simp] theorem State.setGen_status (c : Fin 3) (g : Gen) : (s.setGen c g).status = s.status := rfl
@[simp] theorem State.setGen_errinfo (c : Fin 3) (g : Gen) : (s.setGen c g).errinfo = s.errinfo := rfl
@[simp] theorem State.setGen_width (c : Fin 3) (g : Gen) : (s.setGen c g).width = s.width := rfl
@[simp] theorem State.setGen_height (c : Fin 3) (g : Gen) : (s.setGen c g).height = s.height := rfl
@[simp] theorem State.setGen_vl (c : Fin 3) (g : Gen) : (s.setGen c g).vl = s.vl := rfl
@[simp] theorem State.setGen_sc (c : Fin 3) (g : Gen) : (s.setGen c g).sc = s.sc := rfl
@[simp] theorem State.setGen_cfg (c : Fin 3) (g : Gen) : (s.setGen c g).cfg = s.cfg := rfl
@[simp] theorem State.setGen_ctx (c : Fin 3) (g : Gen) :
    (s.setGen c g).ctx = s.ctx.set c { s.ctx[c] with gen := g } := rfl
@[simp] theorem State.setGen_rgbin (c : Fin 3) (g : Gen) : (s.setGen c g).rgbin = s.rgbin := rfl
@[simp] theorem State.setGen_rgbout (c : Fin 3) (g : Gen) : (s.setGen c g).rgbout = s.rgbout := rfl
@[simp] theorem State.setGen_yiq (c : Fin 3) (g : Gen) : (s.setGen c g).yiq = s.yiq := rfl
@[simp] theorem State.setGen_hw (c : Fin 3) (g : Gen) : (s.setGen c g).hw = s.hw := rfl
@[simp] theorem State.setGen_inputs (c : Fin 3) (g : Gen) : (s.setGen c g).inputs = s.inputs := rfl
@[simp] theorem State.setGen_turns (c : Fin 3) (g : Gen) : (s.setGen c g).turns = s.turns := rfl
@[simp] theorem State.setGen_tick (c : Fin 3) (g : Gen) : (s.setGen c g).tick = s.tick := rfl
@[simp] theorem State.setGen_hostData (c : Fin 3) (g : Gen) : (s.setGen c g).hostData = s.hostData := rfl
@[simp] theorem State.setGen_frameW (c : Fin 3) (g : Gen) : (s.setGen c g).frameW = s.frameW := rfl
@[simp] theorem State.setGen_frameH (c : Fin 3) (g : Gen) : (s.setGen c g).frameH = s.frameH := rfl
@[simp] theorem State.setGen_vlen (c : Fin 3) (g : Gen) : (s.setGen c g).vlen = s.vlen := rfl
@[simp] theorem State.setGen_frameSize (c : Fin 3) (g : Gen) : (s.setGen c g).frameSize = s.frameSize := rfl
@[simp] theorem State.setGen_lineSize (c : Fin 3) (g : Gen) : (s.setGen c g).lineSize = s.lineSize := rfl
@[simp] theorem State.setGen_zSize (c : Fin 3) (g : Gen) : (s.setGen c g).zSize = s.zSize := rfl

/-! ### `State.setFlt` -/

@[simp] theorem State.setFlt_x (c : Fin 3) (i : Fin 8) (v : Filter) : (s.setFlt c i v).x = s.x := rfl
@[simp] theorem State.setFlt_f (c : Fin 3) (i : Fin 8) (v : Filter) : (s.setFlt c i v).f = s.f := rfl
@[simp] theorem State.setFlt_status (c : Fin 3) (i : Fin 8) (v : Filter) :
    (s.setFlt c i v).status = s.status := rfl
@[simp] theorem State.setFlt_errinfo (c : Fin 3) (i : Fin 8) (v : Filter) :
    (s.setFlt c i v).errinfo = s.errinfo := rfl
@[simp] theorem State.setFlt_width (c : Fin 3) (i : Fin 8) (v : Filter) :
    (s.setFlt c i v).width = s.width := rfl
@[simp] theorem State.setFlt_height (c : Fin 3) (i : Fin 8) (v : Filter) :
    (s.setFlt c i v).height = s.height := rfl
@[simp] theorem State.setFlt_vl (c : Fin 3) (i : Fin 8) (v : Filter) : (s.setFlt c i v).vl = s.vl := rfl
@[simp] theorem State.setFlt_sc (c : Fin 3) (i : Fin 8) (v : Filter) : (s.setFlt c i v).sc = s.sc := rfl
@[simp] theorem State.setFlt_cfg (c : Fin 3) (i : Fin 8) (v : Filter) : (s.setFlt c i v).cfg = s.cfg := rfl
@[simp] theorem State.setFlt_ctx (c : Fin 3) (i : Fin 8) (v : Filter) :
    (s.setFlt c i v).ctx = s.ctx.set c { s.ctx[c] with flt := s.ctx[c].flt.set i v } := rfl
@[simp] theorem State.setFlt_rgbin (c : Fin 3) (i : Fin 8) (v : Filter) :
    (s.setFlt c i v).rgbin = s.rgbin := rfl
@[simp] theorem State.setFlt_rgbout (c : Fin 3) (i : Fin 8) (v : Filter) :
    (s.setFlt c i v).rgbout = s.rgbout := rfl
@[simp] theorem State.setFlt_yiq (c : Fin 3) (i : Fin 8) (v : Filter) : (s.setFlt c i v).yiq = s.yiq := rfl
@[simp] theorem State.setFlt_hw (c : Fin 3) (i : Fin 8) (v : Filter) : (s.setFlt c i v).hw = s.hw := rfl
@[simp] theorem State.setFlt_inputs (c : Fin 3) (i : Fin 8) (v : Filter) :
    (s.setFlt c i v).inputs = s.inputs := rfl
@[simp] theorem State.setFlt_turns (c : Fin 3) (i : Fin 8) (v : Filter) :
    (s.setFlt c i v).turns = s.turns := rfl
@[simp] theorem State.setFlt_tick (c : Fin 3) (i : Fin 8) (v : Filter) : (s.setFlt c i v).tick = s.tick := rfl
@[simp] theorem State.setFlt_hostData (c : Fin 3) (i : Fin 8) (v : Filter) :
    (s.setFlt c i v).hostData = s.hostData := rfl
@[simp] theorem State.setFlt_frameW (c : Fin 3) (i : Fin 8) (v : Filter) : (s.setFlt c i v).frameW = s.frameW := rfl
@[simp] theorem State.setFlt_frameH (c : Fin 3) (i : Fin 8) (v : Filter) : (s.setFlt c i v).frameH = s.frameH := rfl
@[simp] theorem State.setFlt_vlen (c : Fin 3) (i : Fin 8) (v : Filter) : (s.setFlt c i v).vlen = s.vlen := rfl
@[simp] theorem State.setFlt_frameSize (c : Fin 3) (i : Fin 8) (v : Filter) : (s.setFlt c i v).frameSize = s.frameSize := rfl
@[simp] theorem State.setFlt_lineSize (c : Fin 3) (i : Fin 8) (v : Filter) : (s.setFlt c i v).lineSize = s.lineSize := rfl
@[simp] theorem State.setFlt_zSize (c : Fin 3) (i : Fin 8) (v : Filter) : (s.setFlt c i v).zSize = s.zSize := rfl

/-! ### `State.setLine` -/

@[simp] theorem State.setLine_x (c : Fin 3) (b : Fin 4) (m : Memory 64) : (s.setLine c b m).x = s.x := rfl
@[simp] theorem State.setLine_f (c : Fin 3) (b : Fin 4) (m : Memory 64) : (s.setLine c b m).f = s.f := rfl
@[simp] theorem State.setLine_status (c : Fin 3) (b : Fin 4) (m : Memory 64) :
    (s.setLine c b m).status = s.status := rfl
@[simp] theorem State.setLine_errinfo (c : Fin 3) (b : Fin 4) (m : Memory 64) :
    (s.setLine c b m).errinfo = s.errinfo := rfl
@[simp] theorem State.setLine_width (c : Fin 3) (b : Fin 4) (m : Memory 64) :
    (s.setLine c b m).width = s.width := rfl
@[simp] theorem State.setLine_height (c : Fin 3) (b : Fin 4) (m : Memory 64) :
    (s.setLine c b m).height = s.height := rfl
@[simp] theorem State.setLine_vl (c : Fin 3) (b : Fin 4) (m : Memory 64) : (s.setLine c b m).vl = s.vl := rfl
@[simp] theorem State.setLine_sc (c : Fin 3) (b : Fin 4) (m : Memory 64) : (s.setLine c b m).sc = s.sc := rfl
@[simp] theorem State.setLine_cfg (c : Fin 3) (b : Fin 4) (m : Memory 64) :
    (s.setLine c b m).cfg = s.cfg := rfl
@[simp] theorem State.setLine_ctx (c : Fin 3) (b : Fin 4) (m : Memory 64) :
    (s.setLine c b m).ctx = s.ctx.set c { s.ctx[c] with lb := s.ctx[c].lb.set b m } := rfl
@[simp] theorem State.setLine_rgbin (c : Fin 3) (b : Fin 4) (m : Memory 64) :
    (s.setLine c b m).rgbin = s.rgbin := rfl
@[simp] theorem State.setLine_rgbout (c : Fin 3) (b : Fin 4) (m : Memory 64) :
    (s.setLine c b m).rgbout = s.rgbout := rfl
@[simp] theorem State.setLine_yiq (c : Fin 3) (b : Fin 4) (m : Memory 64) :
    (s.setLine c b m).yiq = s.yiq := rfl
@[simp] theorem State.setLine_hw (c : Fin 3) (b : Fin 4) (m : Memory 64) : (s.setLine c b m).hw = s.hw := rfl
@[simp] theorem State.setLine_inputs (c : Fin 3) (b : Fin 4) (m : Memory 64) :
    (s.setLine c b m).inputs = s.inputs := rfl
@[simp] theorem State.setLine_turns (c : Fin 3) (b : Fin 4) (m : Memory 64) :
    (s.setLine c b m).turns = s.turns := rfl
@[simp] theorem State.setLine_tick (c : Fin 3) (b : Fin 4) (m : Memory 64) :
    (s.setLine c b m).tick = s.tick := rfl
@[simp] theorem State.setLine_hostData (c : Fin 3) (b : Fin 4) (m : Memory 64) :
    (s.setLine c b m).hostData = s.hostData := rfl
@[simp] theorem State.setLine_frameW (c : Fin 3) (b : Fin 4) (m : Memory 64) : (s.setLine c b m).frameW = s.frameW := rfl
@[simp] theorem State.setLine_frameH (c : Fin 3) (b : Fin 4) (m : Memory 64) : (s.setLine c b m).frameH = s.frameH := rfl
@[simp] theorem State.setLine_vlen (c : Fin 3) (b : Fin 4) (m : Memory 64) : (s.setLine c b m).vlen = s.vlen := rfl
@[simp] theorem State.setLine_frameSize (c : Fin 3) (b : Fin 4) (m : Memory 64) : (s.setLine c b m).frameSize = s.frameSize := rfl
@[simp] theorem State.setLine_lineSize (c : Fin 3) (b : Fin 4) (m : Memory 64) : (s.setLine c b m).lineSize = s.lineSize := rfl
@[simp] theorem State.setLine_zSize (c : Fin 3) (b : Fin 4) (m : Memory 64) : (s.setLine c b m).zSize = s.zSize := rfl

/-! ### `State.setZ` -/

@[simp] theorem State.setZ_x (c : Fin 3) (m : Memory 64) : (s.setZ c m).x = s.x := rfl
@[simp] theorem State.setZ_f (c : Fin 3) (m : Memory 64) : (s.setZ c m).f = s.f := rfl
@[simp] theorem State.setZ_status (c : Fin 3) (m : Memory 64) : (s.setZ c m).status = s.status := rfl
@[simp] theorem State.setZ_errinfo (c : Fin 3) (m : Memory 64) : (s.setZ c m).errinfo = s.errinfo := rfl
@[simp] theorem State.setZ_width (c : Fin 3) (m : Memory 64) : (s.setZ c m).width = s.width := rfl
@[simp] theorem State.setZ_height (c : Fin 3) (m : Memory 64) : (s.setZ c m).height = s.height := rfl
@[simp] theorem State.setZ_vl (c : Fin 3) (m : Memory 64) : (s.setZ c m).vl = s.vl := rfl
@[simp] theorem State.setZ_sc (c : Fin 3) (m : Memory 64) : (s.setZ c m).sc = s.sc := rfl
@[simp] theorem State.setZ_cfg (c : Fin 3) (m : Memory 64) : (s.setZ c m).cfg = s.cfg := rfl
@[simp] theorem State.setZ_ctx (c : Fin 3) (m : Memory 64) :
    (s.setZ c m).ctx = s.ctx.set c { s.ctx[c] with z := m } := rfl
@[simp] theorem State.setZ_rgbin (c : Fin 3) (m : Memory 64) : (s.setZ c m).rgbin = s.rgbin := rfl
@[simp] theorem State.setZ_rgbout (c : Fin 3) (m : Memory 64) : (s.setZ c m).rgbout = s.rgbout := rfl
@[simp] theorem State.setZ_yiq (c : Fin 3) (m : Memory 64) : (s.setZ c m).yiq = s.yiq := rfl
@[simp] theorem State.setZ_hw (c : Fin 3) (m : Memory 64) : (s.setZ c m).hw = s.hw := rfl
@[simp] theorem State.setZ_inputs (c : Fin 3) (m : Memory 64) : (s.setZ c m).inputs = s.inputs := rfl
@[simp] theorem State.setZ_turns (c : Fin 3) (m : Memory 64) : (s.setZ c m).turns = s.turns := rfl
@[simp] theorem State.setZ_tick (c : Fin 3) (m : Memory 64) : (s.setZ c m).tick = s.tick := rfl
@[simp] theorem State.setZ_hostData (c : Fin 3) (m : Memory 64) : (s.setZ c m).hostData = s.hostData := rfl
@[simp] theorem State.setZ_frameW (c : Fin 3) (m : Memory 64) : (s.setZ c m).frameW = s.frameW := rfl
@[simp] theorem State.setZ_frameH (c : Fin 3) (m : Memory 64) : (s.setZ c m).frameH = s.frameH := rfl
@[simp] theorem State.setZ_vlen (c : Fin 3) (m : Memory 64) : (s.setZ c m).vlen = s.vlen := rfl
@[simp] theorem State.setZ_frameSize (c : Fin 3) (m : Memory 64) : (s.setZ c m).frameSize = s.frameSize := rfl
@[simp] theorem State.setZ_lineSize (c : Fin 3) (m : Memory 64) : (s.setZ c m).lineSize = s.lineSize := rfl
@[simp] theorem State.setZ_zSize (c : Fin 3) (m : Memory 64) : (s.setZ c m).zSize = s.zSize := rfl

/-! ### `State.setYiq` -/

@[simp] theorem State.setYiq_x (m : Memory 32) : (s.setYiq m).x = s.x := rfl
@[simp] theorem State.setYiq_f (m : Memory 32) : (s.setYiq m).f = s.f := rfl
@[simp] theorem State.setYiq_status (m : Memory 32) : (s.setYiq m).status = s.status := rfl
@[simp] theorem State.setYiq_errinfo (m : Memory 32) : (s.setYiq m).errinfo = s.errinfo := rfl
@[simp] theorem State.setYiq_width (m : Memory 32) : (s.setYiq m).width = s.width := rfl
@[simp] theorem State.setYiq_height (m : Memory 32) : (s.setYiq m).height = s.height := rfl
@[simp] theorem State.setYiq_vl (m : Memory 32) : (s.setYiq m).vl = s.vl := rfl
@[simp] theorem State.setYiq_sc (m : Memory 32) : (s.setYiq m).sc = s.sc := rfl
@[simp] theorem State.setYiq_cfg (m : Memory 32) : (s.setYiq m).cfg = s.cfg := rfl
@[simp] theorem State.setYiq_ctx (m : Memory 32) : (s.setYiq m).ctx = s.ctx := rfl
@[simp] theorem State.setYiq_rgbin (m : Memory 32) : (s.setYiq m).rgbin = s.rgbin := rfl
@[simp] theorem State.setYiq_rgbout (m : Memory 32) : (s.setYiq m).rgbout = s.rgbout := rfl
@[simp] theorem State.setYiq_yiq (m : Memory 32) : (s.setYiq m).yiq = m := rfl
@[simp] theorem State.setYiq_hw (m : Memory 32) : (s.setYiq m).hw = s.hw := rfl
@[simp] theorem State.setYiq_inputs (m : Memory 32) : (s.setYiq m).inputs = s.inputs := rfl
@[simp] theorem State.setYiq_turns (m : Memory 32) : (s.setYiq m).turns = s.turns := rfl
@[simp] theorem State.setYiq_tick (m : Memory 32) : (s.setYiq m).tick = s.tick := rfl
@[simp] theorem State.setYiq_hostData (m : Memory 32) : (s.setYiq m).hostData = s.hostData := rfl
@[simp] theorem State.setYiq_frameW (m : Memory 32) : (s.setYiq m).frameW = s.frameW := rfl
@[simp] theorem State.setYiq_frameH (m : Memory 32) : (s.setYiq m).frameH = s.frameH := rfl
@[simp] theorem State.setYiq_vlen (m : Memory 32) : (s.setYiq m).vlen = s.vlen := rfl
@[simp] theorem State.setYiq_frameSize (m : Memory 32) : (s.setYiq m).frameSize = s.frameSize := rfl
@[simp] theorem State.setYiq_lineSize (m : Memory 32) : (s.setYiq m).lineSize = s.lineSize := rfl
@[simp] theorem State.setYiq_zSize (m : Memory 32) : (s.setYiq m).zSize = s.zSize := rfl

/-! ### `State.setRgbout` -/

@[simp] theorem State.setRgbout_x (m : Memory 8) : (s.setRgbout m).x = s.x := rfl
@[simp] theorem State.setRgbout_f (m : Memory 8) : (s.setRgbout m).f = s.f := rfl
@[simp] theorem State.setRgbout_status (m : Memory 8) : (s.setRgbout m).status = s.status := rfl
@[simp] theorem State.setRgbout_errinfo (m : Memory 8) : (s.setRgbout m).errinfo = s.errinfo := rfl
@[simp] theorem State.setRgbout_width (m : Memory 8) : (s.setRgbout m).width = s.width := rfl
@[simp] theorem State.setRgbout_height (m : Memory 8) : (s.setRgbout m).height = s.height := rfl
@[simp] theorem State.setRgbout_vl (m : Memory 8) : (s.setRgbout m).vl = s.vl := rfl
@[simp] theorem State.setRgbout_sc (m : Memory 8) : (s.setRgbout m).sc = s.sc := rfl
@[simp] theorem State.setRgbout_cfg (m : Memory 8) : (s.setRgbout m).cfg = s.cfg := rfl
@[simp] theorem State.setRgbout_ctx (m : Memory 8) : (s.setRgbout m).ctx = s.ctx := rfl
@[simp] theorem State.setRgbout_rgbin (m : Memory 8) : (s.setRgbout m).rgbin = s.rgbin := rfl
@[simp] theorem State.setRgbout_rgbout (m : Memory 8) : (s.setRgbout m).rgbout = m := rfl
@[simp] theorem State.setRgbout_yiq (m : Memory 8) : (s.setRgbout m).yiq = s.yiq := rfl
@[simp] theorem State.setRgbout_hw (m : Memory 8) : (s.setRgbout m).hw = s.hw := rfl
@[simp] theorem State.setRgbout_inputs (m : Memory 8) : (s.setRgbout m).inputs = s.inputs := rfl
@[simp] theorem State.setRgbout_turns (m : Memory 8) : (s.setRgbout m).turns = s.turns := rfl
@[simp] theorem State.setRgbout_tick (m : Memory 8) : (s.setRgbout m).tick = s.tick := rfl
@[simp] theorem State.setRgbout_hostData (m : Memory 8) : (s.setRgbout m).hostData = s.hostData := rfl
@[simp] theorem State.setRgbout_frameW (m : Memory 8) : (s.setRgbout m).frameW = s.frameW := rfl
@[simp] theorem State.setRgbout_frameH (m : Memory 8) : (s.setRgbout m).frameH = s.frameH := rfl
@[simp] theorem State.setRgbout_vlen (m : Memory 8) : (s.setRgbout m).vlen = s.vlen := rfl
@[simp] theorem State.setRgbout_frameSize (m : Memory 8) : (s.setRgbout m).frameSize = s.frameSize := rfl
@[simp] theorem State.setRgbout_lineSize (m : Memory 8) : (s.setRgbout m).lineSize = s.lineSize := rfl
@[simp] theorem State.setRgbout_zSize (m : Memory 8) : (s.setRgbout m).zSize = s.zSize := rfl

/-! ### `State.setStatus` -/

@[simp] theorem State.setStatus_x (st : Status) : (s.setStatus st).x = s.x := rfl
@[simp] theorem State.setStatus_f (st : Status) : (s.setStatus st).f = s.f := rfl
@[simp] theorem State.setStatus_status (st : Status) : (s.setStatus st).status = st := rfl
@[simp] theorem State.setStatus_errinfo (st : Status) : (s.setStatus st).errinfo = s.errinfo := rfl
@[simp] theorem State.setStatus_width (st : Status) : (s.setStatus st).width = s.width := rfl
@[simp] theorem State.setStatus_height (st : Status) : (s.setStatus st).height = s.height := rfl
@[simp] theorem State.setStatus_vl (st : Status) : (s.setStatus st).vl = s.vl := rfl
@[simp] theorem State.setStatus_sc (st : Status) : (s.setStatus st).sc = s.sc := rfl
@[simp] theorem State.setStatus_cfg (st : Status) : (s.setStatus st).cfg = s.cfg := rfl
@[simp] theorem State.setStatus_ctx (st : Status) : (s.setStatus st).ctx = s.ctx := rfl
@[simp] theorem State.setStatus_rgbin (st : Status) : (s.setStatus st).rgbin = s.rgbin := rfl
@[simp] theorem State.setStatus_rgbout (st : Status) : (s.setStatus st).rgbout = s.rgbout := rfl
@[simp] theorem State.setStatus_yiq (st : Status) : (s.setStatus st).yiq = s.yiq := rfl
@[simp] theorem State.setStatus_hw (st : Status) : (s.setStatus st).hw = s.hw := rfl
@[simp] theorem State.setStatus_inputs (st : Status) : (s.setStatus st).inputs = s.inputs := rfl
@[simp] theorem State.setStatus_turns (st : Status) : (s.setStatus st).turns = s.turns := rfl
@[simp] theorem State.setStatus_tick (st : Status) : (s.setStatus st).tick = s.tick := rfl
@[simp] theorem State.setStatus_hostData (st : Status) : (s.setStatus st).hostData = s.hostData := rfl
@[simp] theorem State.setStatus_frameW (st : Status) : (s.setStatus st).frameW = s.frameW := rfl
@[simp] theorem State.setStatus_frameH (st : Status) : (s.setStatus st).frameH = s.frameH := rfl
@[simp] theorem State.setStatus_vlen (st : Status) : (s.setStatus st).vlen = s.vlen := rfl
@[simp] theorem State.setStatus_frameSize (st : Status) : (s.setStatus st).frameSize = s.frameSize := rfl
@[simp] theorem State.setStatus_lineSize (st : Status) : (s.setStatus st).lineSize = s.lineSize := rfl
@[simp] theorem State.setStatus_zSize (st : Status) : (s.setStatus st).zSize = s.zSize := rfl

/-! ### `State.setSc` -/

@[simp] theorem State.setSc_x (t : Fin 2) (k : Nat) : (s.setSc t k).x = s.x := rfl
@[simp] theorem State.setSc_f (t : Fin 2) (k : Nat) : (s.setSc t k).f = s.f := rfl
@[simp] theorem State.setSc_status (t : Fin 2) (k : Nat) : (s.setSc t k).status = s.status := rfl
@[simp] theorem State.setSc_errinfo (t : Fin 2) (k : Nat) : (s.setSc t k).errinfo = s.errinfo := rfl
@[simp] theorem State.setSc_width (t : Fin 2) (k : Nat) : (s.setSc t k).width = s.width := rfl
@[simp] theorem State.setSc_height (t : Fin 2) (k : Nat) : (s.setSc t k).height = s.height := rfl
@[simp] theorem State.setSc_vl (t : Fin 2) (k : Nat) : (s.setSc t k).vl = s.vl := rfl
@[simp] theorem State.setSc_sc (t : Fin 2) (k : Nat) : (s.setSc t k).sc = s.sc.set t k := rfl
@[simp] theorem State.setSc_cfg (t : Fin 2) (k : Nat) : (s.setSc t k).cfg = s.cfg := rfl
@[simp] theorem State.setSc_ctx (t : Fin 2) (k : Nat) : (s.setSc t k).ctx = s.ctx := rfl
@[simp] theorem State.setSc_rgbin (t : Fin 2) (k : Nat) : (s.setSc t k).rgbin = s.rgbin := rfl
@[simp] theorem State.setSc_rgbout (t : Fin 2) (k : Nat) : (s.setSc t k).rgbout = s.rgbout := rfl
@[simp] theorem State.setSc_yiq (t : Fin 2) (k : Nat) : (s.setSc t k).yiq = s.yiq := rfl
@[simp] theorem State.setSc_hw (t : Fin 2) (k : Nat) : (s.setSc t k).hw = s.hw := rfl
@[simp] theorem State.setSc_inputs (t : Fin 2) (k : Nat) : (s.setSc t k).inputs = s.inputs := rfl
@[simp] theorem State.setSc_turns (t : Fin 2) (k : Nat) : (s.setSc t k).turns = s.turns := rfl
@[simp] theorem State.setSc_tick (t : Fin 2) (k : Nat) : (s.setSc t k).tick = s.tick := rfl
@[simp] theorem State.setSc_hostData (t : Fin 2) (k : Nat) : (s.setSc t k).hostData = s.hostData := rfl
@[simp] theorem State.setSc_frameW (t : Fin 2) (k : Nat) : (s.setSc t k).frameW = s.frameW := rfl
@[simp] theorem State.setSc_frameH (t : Fin 2) (k : Nat) : (s.setSc t k).frameH = s.frameH := rfl
@[simp] theorem State.setSc_vlen (t : Fin 2) (k : Nat) : (s.setSc t k).vlen = s.vlen := rfl
@[simp] theorem State.setSc_frameSize (t : Fin 2) (k : Nat) : (s.setSc t k).frameSize = s.frameSize := rfl
@[simp] theorem State.setSc_lineSize (t : Fin 2) (k : Nat) : (s.setSc t k).lineSize = s.lineSize := rfl
@[simp] theorem State.setSc_zSize (t : Fin 2) (k : Nat) : (s.setSc t k).zSize = s.zSize := rfl

/-! ### `State.storeLine` -/

@[simp] theorem State.storeLine_x (c : Fin 3) (b : Fin 4) (vs : List F64) :
    (s.storeLine c b vs).x = s.x := rfl
@[simp] theorem State.storeLine_f (c : Fin 3) (b : Fin 4) (vs : List F64) :
    (s.storeLine c b vs).f = s.f := rfl
@[simp] theorem State.storeLine_status (c : Fin 3) (b : Fin 4) (vs : List F64) :
    (s.storeLine c b vs).status = s.status := rfl
@[simp] theorem State.storeLine_errinfo (c : Fin 3) (b : Fin 4) (vs : List F64) :
    (s.storeLine c b vs).errinfo = s.errinfo := rfl
@[simp] theorem State.storeLine_width (c : Fin 3) (b : Fin 4) (vs : List F64) :
    (s.storeLine c b vs).width = s.width := rfl
@[simp] theorem State.storeLine_height (c : Fin 3) (b : Fin 4) (vs : List F64) :
    (s.storeLine c b vs).height = s.height := rfl
@[simp] theorem State.storeLine_vl (c : Fin 3) (b : Fin 4) (vs : List F64) :
    (s.storeLine c b vs).vl = s.vl := rfl
@[simp] theorem State.storeLine_sc (c : Fin 3) (b : Fin 4) (vs : List F64) :
    (s.storeLine c b vs).sc = s.sc := rfl
@[simp] theorem State.storeLine_cfg (c : Fin 3) (b : Fin 4) (vs : List F64) :
    (s.storeLine c b vs).cfg = s.cfg := rfl
@[simp] theorem State.storeLine_rgbin (c : Fin 3) (b : Fin 4) (vs : List F64) :
    (s.storeLine c b vs).rgbin = s.rgbin := rfl
@[simp] theorem State.storeLine_rgbout (c : Fin 3) (b : Fin 4) (vs : List F64) :
    (s.storeLine c b vs).rgbout = s.rgbout := rfl
@[simp] theorem State.storeLine_yiq (c : Fin 3) (b : Fin 4) (vs : List F64) :
    (s.storeLine c b vs).yiq = s.yiq := rfl
@[simp] theorem State.storeLine_hw (c : Fin 3) (b : Fin 4) (vs : List F64) :
    (s.storeLine c b vs).hw = s.hw := rfl
@[simp] theorem State.storeLine_inputs (c : Fin 3) (b : Fin 4) (vs : List F64) :
    (s.storeLine c b vs).inputs = s.inputs := rfl
@[simp] theorem State.storeLine_turns (c : Fin 3) (b : Fin 4) (vs : List F64) :
    (s.storeLine c b vs).turns = s.turns := rfl
@[simp] theorem State.storeLine_tick (c : Fin 3) (b : Fin 4) (vs : List F64) :
    (s.storeLine c b vs).tick = s.tick := rfl
@[simp] theorem State.storeLine_hostData (c : Fin 3) (b : Fin 4) (vs : List F64) :
    (s.storeLine c b vs).hostData = s.hostData := rfl
@[simp] theorem State.storeLine_frameW (c : Fin 3) (b : Fin 4) (vs : List F64) : (s.storeLine c b vs).frameW = s.frameW := rfl
@[simp] theorem State.storeLine_frameH (c : Fin 3) (b : Fin 4) (vs : List F64) : (s.storeLine c b vs).frameH = s.frameH := rfl
@[simp] theorem State.storeLine_vlen (c : Fin 3) (b : Fin 4) (vs : List F64) : (s.storeLine c b vs).vlen = s.vlen := rfl
@[simp] theorem State.storeLine_frameSize (c : Fin 3) (b : Fin 4) (vs : List F64) : (s.storeLine c b vs).frameSize = s.frameSize := rfl
@[simp] theorem State.storeLine_lineSize (c : Fin 3) (b : Fin 4) (vs : List F64) : (s.storeLine c b vs).lineSize = s.lineSize := rfl
@[simp] theorem State.storeLine_zSize (c : Fin 3) (b : Fin 4) (vs : List F64) : (s.storeLine c b vs).zSize = s.zSize := rfl

/-! ### `State.storeZ` -/

@[simp] theorem State.storeZ_x (c : Fin 3) (vs : List C64) : (s.storeZ c vs).x = s.x := rfl
@[simp] theorem State.storeZ_f (c : Fin 3) (vs : List C64) : (s.storeZ c vs).f = s.f := rfl
@[simp] theorem State.storeZ_status (c : Fin 3) (vs : List C64) : (s.storeZ c vs).status = s.status := rfl
@[simp] theorem State.storeZ_errinfo (c : Fin 3) (vs : List C64) : (s.storeZ c vs).errinfo = s.errinfo := rfl
@[simp] theorem State.storeZ_width (c : Fin 3) (vs : List C64) : (s.storeZ c vs).width = s.width := rfl
@[simp] theorem State.storeZ_height (c : Fin 3) (vs : List C64) : (s.storeZ c vs).height = s.height := rfl
@[simp] theorem State.storeZ_vl (c : Fin 3) (vs : List C64) : (s.storeZ c vs).vl = s.vl := rfl
@[simp] theorem State.storeZ_sc (c : Fin 3) (vs : List C64) : (s.storeZ c vs).sc = s.sc := rfl
@[simp] theorem State.storeZ_cfg (c : Fin 3) (vs : List C64) : (s.storeZ c vs).cfg = s.cfg := rfl
@[simp] theorem State.storeZ_rgbin (c : Fin 3) (vs : List C64) : (s.storeZ c vs).rgbin = s.rgbin := rfl
@[simp] theorem State.storeZ_rgbout (c : Fin 3) (vs : List C64) : (s.storeZ c vs).rgbout = s.rgbout := rfl
@[simp] theorem State.storeZ_yiq (c : Fin 3) (vs : List C64) : (s.storeZ c vs).yiq = s.yiq := rfl
@[simp] theorem State.storeZ_hw (c : Fin 3) (vs : List C64) : (s.storeZ c vs).hw = s.hw := rfl
@[simp] theorem State.storeZ_inputs (c : Fin 3) (vs : List C64) : (s.storeZ c vs).inputs = s.inputs := rfl
@[simp] theorem State.storeZ_turns (c : Fin 3) (vs : List C64) : (s.storeZ c vs).turns = s.turns := rfl
@[simp] theorem State.storeZ_tick (c : Fin 3) (vs : List C64) : (s.storeZ c vs).tick = s.tick := rfl
@[simp] theorem State.storeZ_hostData (c : Fin 3) (vs : List C64) :
    (s.storeZ c vs).hostData = s.hostData := rfl
@[simp] theorem State.storeZ_frameW (c : Fin 3) (vs : List C64) : (s.storeZ c vs).frameW = s.frameW := rfl
@[simp] theorem State.storeZ_frameH (c : Fin 3) (vs : List C64) : (s.storeZ c vs).frameH = s.frameH := rfl
@[simp] theorem State.storeZ_vlen (c : Fin 3) (vs : List C64) : (s.storeZ c vs).vlen = s.vlen := rfl
@[simp] theorem State.storeZ_frameSize (c : Fin 3) (vs : List C64) : (s.storeZ c vs).frameSize = s.frameSize := rfl
@[simp] theorem State.storeZ_lineSize (c : Fin 3) (vs : List C64) : (s.storeZ c vs).lineSize = s.lineSize := rfl
@[simp] theorem State.storeZ_zSize (c : Fin 3) (vs : List C64) : (s.storeZ c vs).zSize = s.zSize := rfl

/-! ### `State.storePlaneRow` -/

@[simp] theorem State.storePlaneRow_x (p y : Nat) (vs : List I32) : (s.storePlaneRow p y vs).x = s.x := rfl
@[simp] theorem State.storePlaneRow_f (p y : Nat) (vs : List I32) : (s.storePlaneRow p y vs).f = s.f := rfl
@[simp] theorem State.storePlaneRow_status (p y : Nat) (vs : List I32) :
    (s.storePlaneRow p y vs).status = s.status := rfl
@[simp] theorem State.storePlaneRow_errinfo (p y : Nat) (vs : List I32) :
    (s.storePlaneRow p y vs).errinfo = s.errinfo := rfl
@[simp] theorem State.storePlaneRow_width (p y : Nat) (vs : List I32) :
    (s.storePlaneRow p y vs).width = s.width := rfl
@[simp] theorem State.storePlaneRow_height (p y : Nat) (vs : List I32) :
    (s.storePlaneRow p y vs).height = s.height := rfl
@[simp] theorem State.storePlaneRow_vl (p y : Nat) (vs : List I32) : (s.storePlaneRow p y vs).vl = s.vl := rfl
@[simp] theorem State.storePlaneRow_sc (p y : Nat) (vs : List I32) : (s.storePlaneRow p y vs).sc = s.sc := rfl
@[simp] theorem State.storePlaneRow_cfg (p y : Nat) (vs : List I32) :
    (s.storePlaneRow p y vs).cfg = s.cfg := rfl
@[simp] theorem State.storePlaneRow_ctx (p y : Nat) (vs : List I32) :
    (s.storePlaneRow p y vs).ctx = s.ctx := rfl
@[simp] theorem State.storePlaneRow_rgbin (p y : Nat) (vs : List I32) :
    (s.storePlaneRow p y vs).rgbin = s.rgbin := rfl
@[simp] theorem State.storePlaneRow_rgbout (p y : Nat) (vs : List I32) :
    (s.storePlaneRow p y vs).rgbout = s.rgbout := rfl
@[simp] theorem State.storePlaneRow_yiq (p y : Nat) (vs : List I32) :
    (s.storePlaneRow p y vs).yiq = s.yiq.writeFrom s.frameSize (s.yiqIndex p y 0) vs := rfl
@[simp] theorem State.storePlaneRow_hw (p y : Nat) (vs : List I32) : (s.storePlaneRow p y vs).hw = s.hw := rfl
@[simp] theorem State.storePlaneRow_inputs (p y : Nat) (vs : List I32) :
    (s.storePlaneRow p y vs).inputs = s.inputs := rfl
@[simp] theorem State.storePlaneRow_turns (p y : Nat) (vs : List I32) :
    (s.storePlaneRow p y vs).turns = s.turns := rfl
@[simp] theorem State.storePlaneRow_tick (p y : Nat) (vs : List I32) :
    (s.storePlaneRow p y vs).tick = s.tick := rfl
@[simp] theorem State.storePlaneRow_hostData (p y : Nat) (vs : List I32) :
    (s.storePlaneRow p y vs).hostData = s.hostData := rfl
@[simp] theorem State.storePlaneRow_frameW (p y : Nat) (vs : List I32) : (s.storePlaneRow p y vs).frameW = s.frameW := rfl
@[simp] theorem State.storePlaneRow_frameH (p y : Nat) (vs : List I32) : (s.storePlaneRow p y vs).frameH = s.frameH := rfl
@[simp] theorem State.storePlaneRow_vlen (p y : Nat) (vs : List I32) : (s.storePlaneRow p y vs).vlen = s.vlen := rfl
@[simp] theorem State.storePlaneRow_frameSize (p y : Nat) (vs : List I32) : (s.storePlaneRow p y vs).frameSize = s.frameSize := rfl
@[simp] theorem State.storePlaneRow_lineSize (p y : Nat) (vs : List I32) : (s.storePlaneRow p y vs).lineSize = s.lineSize := rfl
@[simp] theorem State.storePlaneRow_zSize (p y : Nat) (vs : List I32) : (s.storePlaneRow p y vs).zSize = s.zSize := rfl

/-! ### `State.loseScratch` -/

@[simp] theorem State.loseScratch_x (c : Fin 3) : (s.loseScratch c).x = s.x := rfl
@[simp] theorem State.loseScratch_f (c : Fin 3) : (s.loseScratch c).f = s.f := rfl
@[simp] theorem State.loseScratch_status (c : Fin 3) : (s.loseScratch c).status = s.status := rfl
@[simp] theorem State.loseScratch_errinfo (c : Fin 3) : (s.loseScratch c).errinfo = s.errinfo := rfl
@[simp] theorem State.loseScratch_width (c : Fin 3) : (s.loseScratch c).width = s.width := rfl
@[simp] theorem State.loseScratch_height (c : Fin 3) : (s.loseScratch c).height = s.height := rfl
@[simp] theorem State.loseScratch_vl (c : Fin 3) : (s.loseScratch c).vl = s.vl := rfl
@[simp] theorem State.loseScratch_sc (c : Fin 3) : (s.loseScratch c).sc = s.sc := rfl
@[simp] theorem State.loseScratch_cfg (c : Fin 3) : (s.loseScratch c).cfg = s.cfg := rfl
@[simp] theorem State.loseScratch_ctx (c : Fin 3) :
    (s.loseScratch c).ctx = s.ctx.set c (s.ctx[c].loseScratch [c.val, s.tick]) := rfl
@[simp] theorem State.loseScratch_rgbin (c : Fin 3) : (s.loseScratch c).rgbin = s.rgbin := rfl
@[simp] theorem State.loseScratch_rgbout (c : Fin 3) : (s.loseScratch c).rgbout = s.rgbout := rfl
@[simp] theorem State.loseScratch_yiq (c : Fin 3) : (s.loseScratch c).yiq = s.yiq := rfl
@[simp] theorem State.loseScratch_hw (c : Fin 3) : (s.loseScratch c).hw = s.hw := rfl
@[simp] theorem State.loseScratch_inputs (c : Fin 3) : (s.loseScratch c).inputs = s.inputs := rfl
@[simp] theorem State.loseScratch_turns (c : Fin 3) : (s.loseScratch c).turns = s.turns := rfl
@[simp] theorem State.loseScratch_tick (c : Fin 3) : (s.loseScratch c).tick = s.tick := rfl
@[simp] theorem State.loseScratch_hostData (c : Fin 3) : (s.loseScratch c).hostData = s.hostData := rfl
@[simp] theorem State.loseScratch_frameW (c : Fin 3) : (s.loseScratch c).frameW = s.frameW := rfl
@[simp] theorem State.loseScratch_frameH (c : Fin 3) : (s.loseScratch c).frameH = s.frameH := rfl
@[simp] theorem State.loseScratch_vlen (c : Fin 3) : (s.loseScratch c).vlen = s.vlen := rfl
@[simp] theorem State.loseScratch_frameSize (c : Fin 3) : (s.loseScratch c).frameSize = s.frameSize := rfl
@[simp] theorem State.loseScratch_lineSize (c : Fin 3) : (s.loseScratch c).lineSize = s.lineSize := rfl
@[simp] theorem State.loseScratch_zSize (c : Fin 3) : (s.loseScratch c).zSize = s.zSize := rfl

/-! ### `State.markForked` -/

@[simp] theorem State.markForked_x : s.markForked.x = s.x := rfl
@[simp] theorem State.markForked_f : s.markForked.f = s.f := rfl
@[simp] theorem State.markForked_status :
    s.markForked.status = { s.status with done := false, busy := true } := rfl
@[simp] theorem State.markForked_errinfo : s.markForked.errinfo = s.errinfo := rfl
@[simp] theorem State.markForked_width : s.markForked.width = s.width := rfl
@[simp] theorem State.markForked_height : s.markForked.height = s.height := rfl
@[simp] theorem State.markForked_vl : s.markForked.vl = s.vl := rfl
@[simp] theorem State.markForked_sc : s.markForked.sc = s.sc := rfl
@[simp] theorem State.markForked_cfg : s.markForked.cfg = s.cfg := rfl
@[simp] theorem State.markForked_ctx : s.markForked.ctx = s.ctx := rfl
@[simp] theorem State.markForked_rgbin : s.markForked.rgbin = s.rgbin := rfl
@[simp] theorem State.markForked_rgbout : s.markForked.rgbout = s.rgbout := rfl
@[simp] theorem State.markForked_yiq : s.markForked.yiq = s.yiq := rfl
@[simp] theorem State.markForked_hw : s.markForked.hw = s.hw := rfl
@[simp] theorem State.markForked_inputs : s.markForked.inputs = s.inputs := rfl
@[simp] theorem State.markForked_turns : s.markForked.turns = s.turns := rfl
@[simp] theorem State.markForked_tick : s.markForked.tick = s.tick := rfl
@[simp] theorem State.markForked_hostData : s.markForked.hostData = s.hostData := rfl
@[simp] theorem State.markForked_frameW : s.markForked.frameW = s.frameW := rfl
@[simp] theorem State.markForked_frameH : s.markForked.frameH = s.frameH := rfl
@[simp] theorem State.markForked_vlen : s.markForked.vlen = s.vlen := rfl
@[simp] theorem State.markForked_frameSize : s.markForked.frameSize = s.frameSize := rfl
@[simp] theorem State.markForked_lineSize : s.markForked.lineSize = s.lineSize := rfl
@[simp] theorem State.markForked_zSize : s.markForked.zSize = s.zSize := rfl

/-! ### `State.markJoined` -/

@[simp] theorem State.markJoined_x : s.markJoined.x = s.x := rfl
@[simp] theorem State.markJoined_f : s.markJoined.f = s.f := rfl
@[simp] theorem State.markJoined_status :
    s.markJoined.status = { s.status with busy := false, done := true } := rfl
@[simp] theorem State.markJoined_errinfo : s.markJoined.errinfo = s.errinfo := rfl
@[simp] theorem State.markJoined_width : s.markJoined.width = s.width := rfl
@[simp] theorem State.markJoined_height : s.markJoined.height = s.height := rfl
@[simp] theorem State.markJoined_vl : s.markJoined.vl = s.vl := rfl
@[simp] theorem State.markJoined_sc : s.markJoined.sc = s.sc := rfl
@[simp] theorem State.markJoined_cfg : s.markJoined.cfg = s.cfg := rfl
@[simp] theorem State.markJoined_ctx : s.markJoined.ctx = s.ctx := rfl
@[simp] theorem State.markJoined_rgbin : s.markJoined.rgbin = s.rgbin := rfl
@[simp] theorem State.markJoined_rgbout : s.markJoined.rgbout = s.rgbout := rfl
@[simp] theorem State.markJoined_yiq : s.markJoined.yiq = s.yiq := rfl
@[simp] theorem State.markJoined_hw : s.markJoined.hw = s.hw := rfl
@[simp] theorem State.markJoined_inputs : s.markJoined.inputs = s.inputs := rfl
@[simp] theorem State.markJoined_turns : s.markJoined.turns = s.turns := rfl
@[simp] theorem State.markJoined_tick : s.markJoined.tick = s.tick := rfl
@[simp] theorem State.markJoined_hostData : s.markJoined.hostData = s.hostData := rfl
@[simp] theorem State.markJoined_frameW : s.markJoined.frameW = s.frameW := rfl
@[simp] theorem State.markJoined_frameH : s.markJoined.frameH = s.frameH := rfl
@[simp] theorem State.markJoined_vlen : s.markJoined.vlen = s.vlen := rfl
@[simp] theorem State.markJoined_frameSize : s.markJoined.frameSize = s.frameSize := rfl
@[simp] theorem State.markJoined_lineSize : s.markJoined.lineSize = s.lineSize := rfl
@[simp] theorem State.markJoined_zSize : s.markJoined.zSize = s.zSize := rfl

/-! ### `State.setDone` -/

@[simp] theorem State.setDone_x : s.setDone.x = s.x := rfl
@[simp] theorem State.setDone_f : s.setDone.f = s.f := rfl
@[simp] theorem State.setDone_status : s.setDone.status = { s.status with done := true } := rfl
@[simp] theorem State.setDone_errinfo : s.setDone.errinfo = s.errinfo := rfl
@[simp] theorem State.setDone_width : s.setDone.width = s.width := rfl
@[simp] theorem State.setDone_height : s.setDone.height = s.height := rfl
@[simp] theorem State.setDone_vl : s.setDone.vl = s.vl := rfl
@[simp] theorem State.setDone_sc : s.setDone.sc = s.sc := rfl
@[simp] theorem State.setDone_cfg : s.setDone.cfg = s.cfg := rfl
@[simp] theorem State.setDone_ctx : s.setDone.ctx = s.ctx := rfl
@[simp] theorem State.setDone_rgbin : s.setDone.rgbin = s.rgbin := rfl
@[simp] theorem State.setDone_rgbout : s.setDone.rgbout = s.rgbout := rfl
@[simp] theorem State.setDone_yiq : s.setDone.yiq = s.yiq := rfl
@[simp] theorem State.setDone_hw : s.setDone.hw = s.hw := rfl
@[simp] theorem State.setDone_inputs : s.setDone.inputs = s.inputs := rfl
@[simp] theorem State.setDone_turns : s.setDone.turns = s.turns := rfl
@[simp] theorem State.setDone_tick : s.setDone.tick = s.tick := rfl
@[simp] theorem State.setDone_hostData : s.setDone.hostData = s.hostData := rfl
@[simp] theorem State.setDone_frameW : s.setDone.frameW = s.frameW := rfl
@[simp] theorem State.setDone_frameH : s.setDone.frameH = s.frameH := rfl
@[simp] theorem State.setDone_vlen : s.setDone.vlen = s.vlen := rfl
@[simp] theorem State.setDone_frameSize : s.setDone.frameSize = s.frameSize := rfl
@[simp] theorem State.setDone_lineSize : s.setDone.lineSize = s.lineSize := rfl
@[simp] theorem State.setDone_zSize : s.setDone.zSize = s.zSize := rfl

/-! ### `State.setOverrun` -/

@[simp] theorem State.setOverrun_x : s.setOverrun.x = s.x := rfl
@[simp] theorem State.setOverrun_f : s.setOverrun.f = s.f := rfl
@[simp] theorem State.setOverrun_status : s.setOverrun.status = { s.status with ovr := true } := rfl
@[simp] theorem State.setOverrun_errinfo : s.setOverrun.errinfo = s.errinfo := rfl
@[simp] theorem State.setOverrun_width : s.setOverrun.width = s.width := rfl
@[simp] theorem State.setOverrun_height : s.setOverrun.height = s.height := rfl
@[simp] theorem State.setOverrun_vl : s.setOverrun.vl = s.vl := rfl
@[simp] theorem State.setOverrun_sc : s.setOverrun.sc = s.sc := rfl
@[simp] theorem State.setOverrun_cfg : s.setOverrun.cfg = s.cfg := rfl
@[simp] theorem State.setOverrun_ctx : s.setOverrun.ctx = s.ctx := rfl
@[simp] theorem State.setOverrun_rgbin : s.setOverrun.rgbin = s.rgbin := rfl
@[simp] theorem State.setOverrun_rgbout : s.setOverrun.rgbout = s.rgbout := rfl
@[simp] theorem State.setOverrun_yiq : s.setOverrun.yiq = s.yiq := rfl
@[simp] theorem State.setOverrun_hw : s.setOverrun.hw = s.hw := rfl
@[simp] theorem State.setOverrun_inputs : s.setOverrun.inputs = s.inputs := rfl
@[simp] theorem State.setOverrun_turns : s.setOverrun.turns = s.turns := rfl
@[simp] theorem State.setOverrun_tick : s.setOverrun.tick = s.tick := rfl
@[simp] theorem State.setOverrun_hostData : s.setOverrun.hostData = s.hostData := rfl
@[simp] theorem State.setOverrun_frameW : s.setOverrun.frameW = s.frameW := rfl
@[simp] theorem State.setOverrun_frameH : s.setOverrun.frameH = s.frameH := rfl
@[simp] theorem State.setOverrun_vlen : s.setOverrun.vlen = s.vlen := rfl
@[simp] theorem State.setOverrun_frameSize : s.setOverrun.frameSize = s.frameSize := rfl
@[simp] theorem State.setOverrun_lineSize : s.setOverrun.lineSize = s.lineSize := rfl
@[simp] theorem State.setOverrun_zSize : s.setOverrun.zSize = s.zSize := rfl

/-! ### `State.clearDone` -/

@[simp] theorem State.clearDone_x : s.clearDone.x = s.x := rfl
@[simp] theorem State.clearDone_f : s.clearDone.f = s.f := rfl
@[simp] theorem State.clearDone_status : s.clearDone.status = { s.status with done := false } := rfl
@[simp] theorem State.clearDone_errinfo : s.clearDone.errinfo = s.errinfo := rfl
@[simp] theorem State.clearDone_width : s.clearDone.width = s.width := rfl
@[simp] theorem State.clearDone_height : s.clearDone.height = s.height := rfl
@[simp] theorem State.clearDone_vl : s.clearDone.vl = s.vl := rfl
@[simp] theorem State.clearDone_sc : s.clearDone.sc = s.sc := rfl
@[simp] theorem State.clearDone_cfg : s.clearDone.cfg = s.cfg := rfl
@[simp] theorem State.clearDone_ctx : s.clearDone.ctx = s.ctx := rfl
@[simp] theorem State.clearDone_rgbin : s.clearDone.rgbin = s.rgbin := rfl
@[simp] theorem State.clearDone_rgbout : s.clearDone.rgbout = s.rgbout := rfl
@[simp] theorem State.clearDone_yiq : s.clearDone.yiq = s.yiq := rfl
@[simp] theorem State.clearDone_hw : s.clearDone.hw = s.hw := rfl
@[simp] theorem State.clearDone_inputs : s.clearDone.inputs = s.inputs := rfl
@[simp] theorem State.clearDone_turns : s.clearDone.turns = s.turns := rfl
@[simp] theorem State.clearDone_tick : s.clearDone.tick = s.tick := rfl
@[simp] theorem State.clearDone_hostData : s.clearDone.hostData = s.hostData := rfl
@[simp] theorem State.clearDone_frameW : s.clearDone.frameW = s.frameW := rfl
@[simp] theorem State.clearDone_frameH : s.clearDone.frameH = s.frameH := rfl
@[simp] theorem State.clearDone_vlen : s.clearDone.vlen = s.vlen := rfl
@[simp] theorem State.clearDone_frameSize : s.clearDone.frameSize = s.frameSize := rfl
@[simp] theorem State.clearDone_lineSize : s.clearDone.lineSize = s.lineSize := rfl
@[simp] theorem State.clearDone_zSize : s.clearDone.zSize = s.zSize := rfl

end Sys2Proof.Machine
end

