-- ==== Sys2Proof/Laws/Frame.lean ====
section
/-! SUPPORT. Frames: what each register or buffer update may change, and how footprints compose. -/

namespace Sys2Proof.Machine

/-! ## Registers and contexts after an update -/

/-- An entry of a vector after one of its entries is replaced. -/
theorem vector_get_set {α : Type} {n : Nat} (v : Vector α n) (i j : Fin n) (a : α) :
    (v.set i a)[j] = if i = j then a else v[j] := by
  simp only [Fin.getElem_fin, Vector.getElem_set, Fin.ext_iff]

theorem State.setX_get (s : State) (i j : Fin 8) (v : U32) :
    (s.setX i v).x[j] = if i = j then v else s.x[j] := vector_get_set _ _ _ _

theorem State.setF_get (s : State) (i j : Fin 8) (v : F64) :
    (s.setF i v).f[j] = if i = j then v else s.f[j] := vector_get_set _ _ _ _

theorem State.setCtx_get (s : State) (c d : Fin 3) (k : Context) :
    (s.setCtx c k).ctx[d] = if c = d then k else s.ctx[d] := vector_get_set _ _ _ _

theorem State.setSc_get (s : State) (t t' : Fin 2) (k : Nat) :
    (s.setSc t k).sc[t'] = if t = t' then k else s.sc[t'] := vector_get_set _ _ _ _

/-! ## Composition -/

theorem ChangesOnly.refl (fp : Footprint) (s : State) : ChangesOnly fp s s := by
  constructor <;> intros <;> rfl

theorem ChangesOnly.trans {fp : Footprint} {s t u : State} (h : ChangesOnly fp s t)
    (h' : ChangesOnly fp t u) : ChangesOnly fp s u where
  status := h'.status.trans h.status
  errinfo := h'.errinfo.trans h.errinfo
  width := h'.width.trans h.width
  height := h'.height.trans h.height
  vl := h'.vl.trans h.vl
  sc := h'.sc.trans h.sc
  cfg := h'.cfg.trans h.cfg
  hw := h'.hw.trans h.hw
  inputs := h'.inputs.trans h.inputs
  turns := h'.turns.trans h.turns
  tick := h'.tick.trans h.tick
  hostData := h'.hostData.trans h.hostData
  x := fun i hi => (h'.x i hi).trans (h.x i hi)
  f := fun i hi => (h'.f i hi).trans (h.f i hi)
  gen := fun c hc => (h'.gen c hc).trans (h.gen c hc)
  flt := fun c i hi => (h'.flt c i hi).trans (h.flt c i hi)
  line := fun c b n hn => (h'.line c b n hn).trans (h.line c b n hn)
  z := fun c n hn => (h'.z c n hn).trans (h.z c n hn)
  rgbin := fun n => (h'.rgbin n).trans (h.rgbin n)
  rgbout := fun n hn => (h'.rgbout n hn).trans (h.rgbout n hn)
  yiq := fun n hn => (h'.yiq n hn).trans (h.yiq n hn)

/-- A footprint may be replaced by a larger one. -/
theorem ChangesOnly.mono {fp fp' : Footprint} {s t : State} (h : ChangesOnly fp s t)
    (hx : ∀ i, fp.x i → fp'.x i) (hf : ∀ i, fp.f i → fp'.f i) (hg : ∀ c, fp.gen c → fp'.gen c)
    (hs : ∀ c i, fp.flt c i → fp'.flt c i) (hl : ∀ c b n, fp.line c b n → fp'.line c b n)
    (hz : ∀ c n, fp.z c n → fp'.z c n) (ho : ∀ n, fp.rgbout n → fp'.rgbout n)
    (hy : ∀ n, fp.yiq n → fp'.yiq n) : ChangesOnly fp' s t where
  status := h.status
  errinfo := h.errinfo
  width := h.width
  height := h.height
  vl := h.vl
  sc := h.sc
  cfg := h.cfg
  hw := h.hw
  inputs := h.inputs
  turns := h.turns
  tick := h.tick
  hostData := h.hostData
  x := fun i hi => h.x i (mt (hx i) hi)
  f := fun i hi => h.f i (mt (hf i) hi)
  gen := fun c hc => h.gen c (mt (hg c) hc)
  flt := fun c i hi => h.flt c i (mt (hs c i) hi)
  line := fun c b n hn => h.line c b n (mt (hl c b n) hn)
  z := fun c n hn => h.z c n (mt (hz c n) hn)
  rgbin := h.rgbin
  rgbout := fun n hn => h.rgbout n (mt (ho n) hn)
  yiq := fun n hn => h.yiq n (mt (hy n) hn)

/-! ## One update -/

variable {fp : Footprint} {s : State}

theorem changesOnly_setX {i : Fin 8} (v : U32) (h : fp.x i) : ChangesOnly fp s (s.setX i v) := by
  constructor <;> intros <;> try rfl
  next j hj => rw [State.setX_get, if_neg (by rintro rfl; exact hj h)]

theorem changesOnly_setF {i : Fin 8} (v : F64) (h : fp.f i) : ChangesOnly fp s (s.setF i v) := by
  constructor <;> intros <;> try rfl
  next j hj => rw [State.setF_get, if_neg (by rintro rfl; exact hj h)]

/-- A replaced context may differ from the old one only inside the footprint. -/
theorem changesOnly_setCtx {c : Fin 3} {k : Context} (hg : ¬ fp.gen c → k.gen = s.ctx[c].gen)
    (hf : ∀ i : Fin 8, ¬ fp.flt c i → k.flt[i] = s.ctx[c].flt[i])
    (hl : ∀ (b : Fin 4) (n : Nat), ¬ fp.line c b n → k.lb[b].read n = s.ctx[c].lb[b].read n)
    (hz : ∀ n : Nat, ¬ fp.z c n → k.z.read n = s.ctx[c].z.read n) :
    ChangesOnly fp s (s.setCtx c k) := by
  constructor <;> intros <;> try rfl
  · rw [State.setCtx_get]; split
    · next h => subst h; exact hg ‹_›
    · rfl
  · rw [State.setCtx_get]; split
    · next h => subst h; exact hf _ ‹_›
    · rfl
  · rw [State.setCtx_get]; split
    · next h => subst h; exact hl _ _ ‹_›
    · rfl
  · rw [State.setCtx_get]; split
    · next h => subst h; exact hz _ ‹_›
    · rfl

theorem changesOnly_setGen {c : Fin 3} (g : Gen) (h : fp.gen c) : ChangesOnly fp s (s.setGen c g) :=
  changesOnly_setCtx (fun hn => absurd h hn) (fun _ _ => rfl) (fun _ _ _ => rfl) (fun _ _ => rfl)

theorem changesOnly_setFlt {c : Fin 3} {i : Fin 8} (v : Filter) (h : fp.flt c i) :
    ChangesOnly fp s (s.setFlt c i v) :=
  changesOnly_setCtx (fun _ => rfl)
    (fun j hj => by rw [vector_get_set, if_neg (by rintro rfl; exact hj h)]) (fun _ _ _ => rfl) (fun _ _ => rfl)

theorem changesOnly_setLine {c : Fin 3} {b : Fin 4} {m : Memory 64}
    (h : ∀ n, ¬ fp.line c b n → m.read n = s.ctx[c].lb[b].read n) :
    ChangesOnly fp s (s.setLine c b m) := by
  refine changesOnly_setCtx (fun _ => rfl) (fun _ _ => rfl) (fun d n hn => ?_) (fun _ _ => rfl)
  rw [vector_get_set]; split
  · next e => subst e; exact h n hn
  · rfl

theorem changesOnly_setZ {c : Fin 3} {m : Memory 64}
    (h : ∀ n, ¬ fp.z c n → m.read n = s.ctx[c].z.read n) : ChangesOnly fp s (s.setZ c m) :=
  changesOnly_setCtx (fun _ => rfl) (fun _ _ => rfl) (fun _ _ _ => rfl) h

theorem changesOnly_setYiq {m : Memory 32} (h : ∀ n, ¬ fp.yiq n → m.read n = s.yiq.read n) :
    ChangesOnly fp s (s.setYiq m) := by
  constructor <;> intros <;> first | rfl | exact h _ ‹_›

theorem changesOnly_setRgbout {m : Memory 8} (h : ∀ n, ¬ fp.rgbout n → m.read n = s.rgbout.read n) :
    ChangesOnly fp s (s.setRgbout m) := by
  constructor <;> intros <;> first | rfl | exact h _ ‹_›

/-- The loss of a context's scratch leaves every other context, and this one's generator. -/
theorem changesOnly_loseScratch {c : Fin 3} (hf : ∀ i, fp.flt c i) (hl : ∀ b n, fp.line c b n)
    (hz : ∀ n, fp.z c n) : ChangesOnly fp s (s.loseScratch c) :=
  changesOnly_setCtx (fun _ => rfl) (fun i h => absurd (hf i) h) (fun b n h => absurd (hl b n) h)
    (fun n h => absurd (hz n) h)

/-! ## Stores of lists -/

/-- Consecutive writes leave every element outside them, even in a memory out of canonical form. -/
theorem Memory.read_writeFrom_of_outside {w : Nat} (size : Nat) (vs : List (BitVec w)) (m : Memory w)
    (i j : Nat) (h : ¬ (i ≤ j ∧ j < i + vs.length ∧ j < size)) :
    (Memory.writeFrom size m i vs).read j = m.read j := by
  induction vs generalizing m i with
  | nil => rfl
  | cons v vs ih =>
    rw [Memory.writeFrom, ih _ _ (by simp only [List.length_cons] at h; omega)]
    unfold Memory.writeIn
    split
    · exact Memory.read_write_of_ne m v (by simp only [List.length_cons] at h; omega)
    · rfl

theorem changesOnly_storeLine {c : Fin 3} {b : Fin 4} {vs : List F64}
    (h : ∀ n < vs.length, fp.line c b n) : ChangesOnly fp s (s.storeLine c b vs) :=
  changesOnly_setLine fun n hn =>
    Memory.read_writeFrom_of_outside _ _ _ _ _ fun ⟨_, h2, _⟩ => hn (h n (by omega))

theorem changesOnly_storeZ {c : Fin 3} {vs : List C64} (h : ∀ n < 2 * vs.length, fp.z c n) :
    ChangesOnly fp s (s.storeZ c vs) := by
  refine changesOnly_setZ fun n hn => Memory.read_writeFrom_of_outside _ _ _ _ _ fun ⟨_, h2, _⟩ => hn (h n ?_)
  have : (vs.flatMap fun v => [v.1, v.2]).length = 2 * vs.length := by
    induction vs <;> simp_all [List.flatMap_cons]; omega
  omega

theorem changesOnly_storePlaneRow {p y : Nat} {vs : List I32}
    (h : ∀ x < vs.length, fp.yiq (s.yiqIndex p y 0 + x)) : ChangesOnly fp s (s.storePlaneRow p y vs) := by
  refine changesOnly_setYiq fun n hn =>
    Memory.read_writeFrom_of_outside _ _ _ _ _ fun ⟨h1, h2, _⟩ => hn ?_
  have := h (n - s.yiqIndex p y 0) (by omega)
  rwa [Nat.add_sub_cancel' h1] at this

end Sys2Proof.Machine
end

