-- ==== Sys2Proof/Laws/Operands.lean ====
section
/-! SUPPORT. What the operand forms read and what their stores leave: line buffers, complex buffers, planar
rows, the own-field rows, and the whole-frame and field conversions of the transcoder. -/

namespace Sys2Proof.Machine

/-! ## Line buffers -/

@[simp] theorem State.length_lineSlice (s : State) (c : Fin 3) (b : Fin 4) (n : Nat) :
    (s.lineSlice c b n).length = n := by
  simp [State.lineSlice]

theorem State.getD_lineSlice (s : State) (c : Fin 3) (b : Fin 4) {n k : Nat} (h : k < n) (d : F64) :
    (s.lineSlice c b n).getD k d = s.lineAt c b k := by
  rw [State.lineSlice, Memory.getD_readFrom _ _ _ _ _ h, State.lineAt, Nat.zero_add]

/-- A stored list is read back. -/
theorem State.lineAt_storeLine (s : State) (c : Fin 3) (b : Fin 4) (vs : List F64) {n : Nat}
    (hm : s.ctx[c].lb[b].wf) (hn : n < vs.length) (hs : vs.length ≤ s.lineSize) :
    (s.storeLine c b vs).lineAt c b n = vs.getD n 0 := by
  have hc : (s.storeLine c b vs).ctx[c].lb[b] = Memory.writeFrom s.lineSize s.ctx[c].lb[b] 0 vs := by
    rw [State.storeLine, State.setLine, State.setCtx_get, if_pos rfl]; exact
      (vector_get_set _ _ _ _).trans (if_pos rfl)
  have hz : (s.storeLine c b vs).lineSize = s.lineSize := rfl
  rw [State.lineAt, hc, hz, Memory.readIn_of_lt _ (by omega), Memory.read_writeFrom _ _ _ _ _ hm,
    if_pos (by omega), Nat.sub_zero]

/-! ## Complex buffers -/

@[simp] theorem State.length_zSlice (s : State) (c : Fin 3) (n : Nat) : (s.zSlice c n).length = n := by
  simp [State.zSlice]

theorem State.getD_zSlice (s : State) (c : Fin 3) {n k : Nat} (h : k < n) (d : C64) :
    (s.zSlice c n).getD k d = s.zAt c k := by
  simp [State.zSlice, State.zAt, h]

/-- A sequence of complex values as the elements of the complex buffer. -/
theorem length_flatPairs (vs : List C64) : (vs.flatMap fun v => [v.1, v.2]).length = 2 * vs.length := by
  induction vs <;> simp_all [List.flatMap_cons]; omega

theorem getD_flatPairs (vs : List C64) (n : Nat) :
    (vs.flatMap fun v => [v.1, v.2]).getD (2 * n) 0 = (vs.getD n (0, 0)).1 ∧
    (vs.flatMap fun v => [v.1, v.2]).getD (2 * n + 1) 0 = (vs.getD n (0, 0)).2 := by
  induction vs generalizing n with
  | nil => simp
  | cons v vs ih =>
    cases n with
    | zero => simp [List.flatMap_cons]
    | succ n =>
      have := ih n
      simpa [List.flatMap_cons, Nat.mul_succ] using this

/-- A stored sequence of complex values is read back. -/
theorem State.zAt_storeZ (s : State) (c : Fin 3) (vs : List C64) {n : Nat} (hm : s.ctx[c].z.wf)
    (hn : n < vs.length) (hs : vs.length ≤ s.lineSize) :
    (s.storeZ c vs).zAt c n = vs.getD n (0, 0) := by
  have hc : (s.storeZ c vs).ctx[c].z =
      Memory.writeFrom s.zSize s.ctx[c].z 0 (vs.flatMap fun v => [v.1, v.2]) := by
    rw [State.storeZ, State.setZ, State.setCtx_get, if_pos rfl]
  have hz : (s.storeZ c vs).zSize = s.zSize := rfl
  have hz2 : s.zSize = 2 * s.lineSize := rfl
  have hl := length_flatPairs vs
  have hg := getD_flatPairs vs n
  rw [State.zAt, hc, hz, Memory.readIn_of_lt _ (by omega), Memory.readIn_of_lt _ (by omega),
    Memory.read_writeFrom _ _ _ _ _ hm, Memory.read_writeFrom _ _ _ _ _ hm, if_pos (by omega),
    if_pos (by omega), Nat.sub_zero, Nat.sub_zero, hg.1, hg.2]

/-! ## Planar rows -/

/-- The addressed part of the planar buffer fits the buffer, so every in-frame index is inside. -/
theorem State.Inv.frame_le {s : State} (h : s.Inv) : 3 * s.frameW * s.frameH ≤ s.frameSize := by
  have := Nat.mul_le_mul (Nat.mul_le_mul_left 3 h.width) h.height
  exact this

theorem plane_row_bound {w h p y x : Nat} (hp : p < 3) (hy : y < h) (hx : x < w) :
    p * w * h + y * w + x < 3 * w * h := by
  have h1 : y * w + w ≤ h * w := by
    have := Nat.mul_le_mul_right w (Nat.succ_le_of_lt hy); rwa [Nat.succ_mul] at this
  have h2 : p * (w * h) + w * h ≤ 3 * (w * h) := by
    have := Nat.mul_le_mul_right (w * h) (Nat.succ_le_of_lt hp); rwa [Nat.succ_mul] at this
  have e1 : p * w * h = p * (w * h) := Nat.mul_assoc _ _ _
  have e2 : 3 * w * h = 3 * (w * h) := Nat.mul_assoc _ _ _
  have e3 : h * w = w * h := Nat.mul_comm _ _
  omega

/-- Two in-frame samples with one index are the same sample. -/
theorem plane_index_inj {w h p y x p' y' x' : Nat} (hy : y < h) (hx : x < w) (hy' : y' < h)
    (hx' : x' < w) (e : p * w * h + y * w + x = p' * w * h + y' * w + x') :
    p = p' ∧ y = y' ∧ x = x' := by
  have b1 : y * w + x < w * h := by
    have := Nat.mul_le_mul_right w (Nat.succ_le_of_lt hy); rw [Nat.succ_mul] at this
    have e3 : h * w = w * h := Nat.mul_comm _ _
    omega
  have b2 : y' * w + x' < w * h := by
    have := Nat.mul_le_mul_right w (Nat.succ_le_of_lt hy'); rw [Nat.succ_mul] at this
    have e3 : h * w = w * h := Nat.mul_comm _ _
    omega
  have e' : w * h * p + (y * w + x) = w * h * p' + (y' * w + x') := by
    have e1 : p * w * h = w * h * p := by rw [Nat.mul_assoc, Nat.mul_comm]
    have e2 : p' * w * h = w * h * p' := by rw [Nat.mul_assoc, Nat.mul_comm]
    omega
  have hp : p = p' := by
    have := congrArg (· / (w * h)) e'
    simp only [Nat.mul_add_div (Nat.lt_of_le_of_lt (Nat.zero_le _) b1), Nat.div_eq_of_lt b1,
      Nat.div_eq_of_lt b2, Nat.add_zero] at this
    exact this
  subst hp
  have e'' : w * y + x = w * y' + x' := by
    rw [Nat.mul_comm w y, Nat.mul_comm w y']; omega
  have hyy : y = y' := by
    have := congrArg (· / w) e''
    simp only [Nat.mul_add_div (Nat.lt_of_le_of_lt (Nat.zero_le _) hx), Nat.div_eq_of_lt hx,
      Nat.div_eq_of_lt hx', Nat.add_zero] at this
    exact this
  subst hyy
  exact ⟨rfl, rfl, by omega⟩

@[simp] theorem State.length_planeRow (s : State) (p y : Nat) : (s.planeRow p y).length = s.frameW := by
  simp [State.planeRow]

theorem State.getD_planeRow (s : State) (p y : Nat) {x : Nat} (h : x < s.frameW) (d : I32) :
    (s.planeRow p y).getD x d = s.yiqAt p y x := by
  simp [State.planeRow, h]

theorem State.yiqIndex_add (s : State) (p y x : Nat) :
    s.yiqIndex p y 0 + x = s.yiqIndex p y x := by
  simp [State.yiqIndex]

/-- An in-frame sample is read from the planar buffer itself. -/
theorem State.Inv.yiqAt_eq {s : State} (h : s.Inv) {p y x : Nat} (hp : p < 3) (hy : y < s.frameH)
    (hx : x < s.frameW) : s.yiqAt p y x = s.yiq.read (s.yiqIndex p y x) :=
  Memory.readIn_of_lt _ (Nat.lt_of_lt_of_le (plane_row_bound hp hy hx) h.frame_le)

/-! ## Writing several rows -/

/-- What a list of row writes does: the canonical form, the fill and the bound are kept, an element in no row
keeps its value, and an element in one row only takes that row's value. -/
structure RowsWritten {w : Nat} {α : Type} (size : Nat) (ks : List α) (base : α → Nat)
    (vals : α → List (BitVec w)) (m m' : Memory w) : Prop where
  wf : m'.wf
  fill : m'.fill = m.fill
  inside : (∀ c ∈ m.cells, c.1 < size) → ∀ c ∈ m'.cells, c.1 < size
  outside : ∀ j, (∀ k ∈ ks, ¬ (base k ≤ j ∧ j < base k + (vals k).length)) → m'.read j = m.read j
  row : ∀ k ∈ ks, ∀ x < (vals k).length, base k + x < size →
    (∀ k' ∈ ks, base k' ≤ base k + x → base k + x < base k' + (vals k').length → k' = k) →
    m'.read (base k + x) = (vals k).getD x 0

theorem rowsWritten_foldl {w : Nat} {α : Type} (size : Nat) (ks : List α) (base : α → Nat)
    (vals : α → List (BitVec w)) (m : Memory w) (hm : m.wf) :
    RowsWritten size ks base vals m
      (ks.foldl (fun acc k => Memory.writeFrom size acc (base k) (vals k)) m) := by
  induction ks generalizing m with
  | nil => exact ⟨hm, rfl, fun h => h, fun _ _ => rfl, fun _ h => absurd h (by simp)⟩
  | cons k₀ ks ih =>
    have hw := Memory.wf_writeFrom size (vals k₀) m (base k₀) hm
    have H := ih _ hw
    refine ⟨H.wf, H.fill.trans (Memory.writeFrom_fill _ _ _ _),
      fun hc => H.inside (Memory.mem_cells_writeFrom _ _ _ _ hc), fun j hj => ?_,
      fun k hk x hx hs hu => ?_⟩
    · rw [List.foldl_cons, H.outside j fun k hk => hj k (by simp [hk]),
        Memory.read_writeFrom _ _ _ _ _ hm, if_neg fun h => hj k₀ (by simp) ⟨h.1, h.2.1⟩]
    · rw [List.foldl_cons]
      by_cases hks : k ∈ ks
      · exact H.row k hks x hx hs fun k' hk' => hu k' (by simp [hk'])
      · rcases List.mem_cons.mp hk with rfl | hk
        · rw [H.outside _ fun k' hk' hr => hks (hu k' (by simp [hk']) hr.1 hr.2 ▸ hk'),
            Memory.read_writeFrom _ _ _ _ _ hm, if_pos ⟨by omega, by omega, hs⟩]
          congr 1; omega
        · exact absurd hk hks

/-! ## Own-field rows -/

theorem mem_ownRows {h t y : Nat} (ht : t < 2) : y ∈ ownRows h t ↔ y < h ∧ y % 2 = t := by
  simp only [ownRows, ownRowCount, List.mem_map, List.mem_range]
  constructor
  · rintro ⟨r, hr, rfl⟩; omega
  · intro hy; exact ⟨y / 2, by omega, by omega⟩

theorem lt_ownRowCount {h t y : Nat} (hy : y < h) (ht : y % 2 = t) : y / 2 < ownRowCount h t := by
  unfold ownRowCount; omega

/-- The rows of one plane, by plane number. -/
def FieldRows.plane (f : FieldRows) (p : Nat) : PlaneRows :=
  if p = 0 then f.y else if p = 1 then f.i else f.q

/-- Storing own-field rows changes the planar buffer alone. -/
structure FieldStored (s : State) (t : Nat) (ps : List Nat) (sample : Nat → Nat → Nat → I32)
    (m : Memory 32) : Prop where
  wf : m.wf
  fill : m.fill = s.yiq.fill
  inside : (∀ c ∈ s.yiq.cells, c.1 < s.frameSize) → ∀ c ∈ m.cells, c.1 < s.frameSize
  row : ∀ p ∈ ps, ∀ y < s.frameH, y % 2 = t → ∀ x < s.frameW,
    m.read (s.yiqIndex p y x) = sample p (y / 2) x
  outside : ∀ j, (∀ p ∈ ps, ∀ y < s.frameH, y % 2 = t → ∀ x < s.frameW, j ≠ s.yiqIndex p y x) →
    m.read j = s.yiq.read j

/-- What `storePlane` does, once. -/
theorem State.storePlane_eq (s : State) (t p : Nat) (rows : PlaneRows) (ht : t < 2) (hp : p < 3)
    (hf : 3 * s.frameW * s.frameH ≤ s.frameSize) (hm : s.yiq.wf) :
    ∃ m, s.storePlane t p rows = s.setYiq m ∧ FieldStored s t [p] (fun _ r x => rows.at r x) m := by
  have key : ∀ (ks : List Nat) (u : State), u.frameW = s.frameW → u.frameH = s.frameH →
      u.frameSize = s.frameSize →
      ks.foldl (fun acc r => acc.storePlaneRow p (t + 2 * r)
        ((List.range s.frameW).map fun x => rows.at r x)) u =
      u.setYiq (ks.foldl (fun acc r => Memory.writeFrom s.frameSize acc (s.yiqIndex p (t + 2 * r) 0)
        ((List.range s.frameW).map fun x => rows.at r x)) u.yiq) := by
    intro ks
    induction ks with
    | nil => intro u _ _ _; rfl
    | cons k ks ih =>
      intro u h1 h2 h3
      have hi : u.yiqIndex p (t + 2 * k) 0 = s.yiqIndex p (t + 2 * k) 0 := by
        simp [State.yiqIndex, h1, h2]
      rw [List.foldl_cons, List.foldl_cons,
        ih (u.storePlaneRow p (t + 2 * k) _) h1 h2 h3, State.storePlaneRow_yiq, h3, hi]
      rfl
  have H := rowsWritten_foldl s.frameSize (List.range (ownRowCount s.frameH t))
    (fun r => s.yiqIndex p (t + 2 * r) 0) (fun r => (List.range s.frameW).map fun x => rows.at r x) s.yiq hm
  refine ⟨_, key _ s rfl rfl rfl, H.wf, H.fill, H.inside, ?_, ?_⟩
  · intro p' hp' y hy hyt x hx
    obtain rfl : p' = p := by simpa using hp'
    have e : t + 2 * (y / 2) = y := by omega
    have := H.row (y / 2) (List.mem_range.mpr (lt_ownRowCount hy hyt)) x (by simpa using hx) ?_ ?_
    · simp only [e, State.yiqIndex_add] at this
      rw [this]; simp [hx]
    · rw [State.yiqIndex_add, e]
      exact Nat.lt_of_lt_of_le (plane_row_bound hp hy hx) hf
    · intro r hr h1 h2
      rw [State.yiqIndex_add, e] at h1 h2
      simp only [List.length_map, List.length_range] at h2
      have hr' : t + 2 * r < s.frameH := by
        have := List.mem_range.mp hr; unfold ownRowCount at this; omega
      have hd : s.yiqIndex p' (t + 2 * r) (s.yiqIndex p' y x - s.yiqIndex p' (t + 2 * r) 0) =
          s.yiqIndex p' y x := by rw [← State.yiqIndex_add]; omega
      have := plane_index_inj hr' (by omega) hy hx hd
      omega
  · intro j hj
    refine H.outside j fun r hr h => ?_
    have hr' : t + 2 * r < s.frameH := by
      have := List.mem_range.mp hr; unfold ownRowCount at this; omega
    simp only [List.length_map, List.length_range] at h
    refine hj p (by simp) (t + 2 * r) hr' (by omega) (j - s.yiqIndex p (t + 2 * r) 0) (by omega) ?_
    rw [← State.yiqIndex_add]; omega

/-- What `storeField` does, once: own samples take the new rows' values, every other element stays. -/
theorem State.storeField_eq (s : State) (t : Nat) (f : FieldRows) (ht : t < 2)
    (hf : 3 * s.frameW * s.frameH ≤ s.frameSize) (hm : s.yiq.wf) :
    ∃ m, s.storeField t f = s.setYiq m ∧
      FieldStored s t [0, 1, 2] (fun p r x => (f.plane p).at r x) m := by
  obtain ⟨m₀, e₀, h₀⟩ := s.storePlane_eq t 0 f.y ht (by omega) hf hm
  obtain ⟨m₁, e₁, h₁⟩ := (s.setYiq m₀).storePlane_eq t 1 f.i ht (by omega) hf h₀.wf
  obtain ⟨m₂, e₂, h₂⟩ := ((s.setYiq m₀).setYiq m₁).storePlane_eq t 2 f.q ht (by omega) hf h₁.wf
  refine ⟨m₂, by rw [State.storeField, e₀, e₁, e₂]; rfl, h₂.wf, h₂.fill.trans (h₁.fill.trans h₀.fill),
    fun h => h₂.inside (h₁.inside (h₀.inside h)), ?_, ?_⟩
  · intro p hp y hy hyt x hx
    have ne : ∀ p' : Nat, p' ≠ p → ∀ y' < s.frameH, y' % 2 = t → ∀ x' < s.frameW,
        s.yiqIndex p y x ≠ s.yiqIndex p' y' x' := by
      intro p' hp' y' hy' _ x' hx' e
      exact hp' (plane_index_inj hy hx hy' hx' e).1.symm
    simp only [List.mem_cons, List.not_mem_nil, or_false] at hp
    rcases hp with rfl | rfl | rfl
    · rw [h₂.outside _ fun p' hp' => ne p' (by simp at hp'; omega),
        State.setYiq_yiq, h₁.outside _ fun p' hp' => ne p' (by simp at hp'; omega), State.setYiq_yiq]
      exact h₀.row 0 (by simp) y hy hyt x hx
    · rw [h₂.outside _ fun p' hp' => ne p' (by simp at hp'; omega), State.setYiq_yiq]
      exact h₁.row 1 (by simp) y hy hyt x hx
    · exact h₂.row 2 (by simp) y hy hyt x hx
  · intro j hj
    rw [h₂.outside j fun p hp => hj p (by simp at hp ⊢; omega), State.setYiq_yiq,
      h₁.outside j fun p hp => hj p (by simp at hp ⊢; omega), State.setYiq_yiq,
      h₀.outside j fun p hp => hj p (by simp at hp ⊢; omega)]

end Sys2Proof.Machine
end

