-- ==== Sys2Proof/Laws/Csc.lean ====
section
/-! SUPPORT. What the two conversions of the transcoder do to the frame buffers. -/

namespace Sys2Proof.Machine

/-! ## RGB to YIQ, the whole frame -/

/-- A component of a converted pixel by plane number. -/
def yiqComponent (v : I32 × I32 × I32) (p : Nat) : I32 := if p = 0 then v.1 else if p = 1 then v.2.1 else v.2.2

/-- What `CSC.RGB2YIQ` does, once: it replaces the planar buffer, each in-frame sample by the converted pixel. -/
structure FrameConverted (s : State) (m : Memory 32) : Prop where
  wf : m.wf
  fill : m.fill = s.yiq.fill
  inside : (∀ c ∈ s.yiq.cells, c.1 < s.frameSize) → ∀ c ∈ m.cells, c.1 < s.frameSize
  sample : ∀ p < 3, ∀ y < s.frameH, ∀ x < s.frameW, m.read (s.yiqIndex p y x) =
    yiqComponent (rgbToYiq (s.rgbinAt y x 0) (s.rgbinAt y x 1) (s.rgbinAt y x 2)) p
  outside : ∀ j, 3 * s.frameW * s.frameH ≤ j → m.read j = s.yiq.read j

@[simp] theorem State.length_inputRow (s : State) (y : Nat) : (s.inputRow y).length = s.frameW := by
  simp [State.inputRow]

theorem State.rgb2yiq_eq (s : State) (hf : 3 * s.frameW * s.frameH ≤ s.frameSize) (hm : s.yiq.wf) :
    ∃ m, s.rgb2yiq = s.setYiq m ∧ FrameConverted s m := by
  let vals : Nat × Nat → List I32 := fun k => (s.inputRow k.2).map fun v => yiqComponent v k.1
  let rows : List Nat → List (Nat × Nat) := fun ys => ys.flatMap fun y => [(0, y), (1, y), (2, y)]
  have key : ∀ (ys : List Nat) (u : State), u.frameW = s.frameW → u.frameH = s.frameH →
      u.frameSize = s.frameSize →
      ys.foldl (fun acc y =>
        ((acc.storePlaneRow 0 y ((s.inputRow y).map fun v => v.1)).storePlaneRow 1 y
          ((s.inputRow y).map fun v => v.2.1)).storePlaneRow 2 y ((s.inputRow y).map fun v => v.2.2)) u =
      u.setYiq ((rows ys).foldl
        (fun acc k => Memory.writeFrom s.frameSize acc (s.yiqIndex k.1 k.2 0) (vals k)) u.yiq) := by
    intro ys
    induction ys with
    | nil => intro u _ _ _; rfl
    | cons y ys ih =>
      intro u h1 h2 h3
      have hi : ∀ p, u.yiqIndex p y 0 = s.yiqIndex p y 0 := by simp [State.yiqIndex, h1, h2]
      have e0 : vals (0, y) = (s.inputRow y).map fun v => v.1 := rfl
      have e1 : vals (1, y) = (s.inputRow y).map fun v => v.2.1 := rfl
      have e2 : vals (2, y) = (s.inputRow y).map fun v => v.2.2 := rfl
      rw [List.foldl_cons,
        ih (((u.storePlaneRow 0 y _).storePlaneRow 1 y _).storePlaneRow 2 y _) h1 h2 h3]
      simp only [rows, List.flatMap_cons, List.cons_append, List.nil_append, List.foldl_cons, e0, e1, e2,
        ← hi, ← h3]
      rfl
  have H := rowsWritten_foldl s.frameSize (rows (List.range s.frameH))
    (fun k => s.yiqIndex k.1 k.2 0) vals s.yiq hm
  have hmem : ∀ k ∈ rows (List.range s.frameH), k.1 < 3 ∧ k.2 < s.frameH := by
    intro k hk
    simp only [rows, List.mem_flatMap, List.mem_range, List.mem_cons, List.not_mem_nil, or_false] at hk
    obtain ⟨y, hy, rfl | rfl | rfl⟩ := hk <;> exact ⟨by simp, hy⟩
  have hlen : ∀ k, (vals k).length = s.frameW := by intro k; simp [vals]
  refine ⟨_, key _ s rfl rfl rfl, H.wf, H.fill, H.inside, ?_, ?_⟩
  · intro p hp y hy x hx
    have hk : (p, y) ∈ rows (List.range s.frameH) := by
      simp only [rows, List.mem_flatMap, List.mem_range, List.mem_cons, List.not_mem_nil, or_false,
        Prod.mk.injEq]
      exact ⟨y, hy, by omega⟩
    have := H.row (p, y) hk x (by rw [hlen]; exact hx) ?_ ?_
    · simp only [State.yiqIndex_add] at this
      rw [this]
      simp [vals, State.inputRow, hx]
    · rw [State.yiqIndex_add]
      exact Nat.lt_of_lt_of_le (plane_row_bound hp hy hx) hf
    · rintro ⟨p', y'⟩ hk' h1 h2
      rw [State.yiqIndex_add] at h1 h2
      rw [hlen] at h2
      have hy' := (hmem _ hk').2
      have hd : s.yiqIndex p' y' (s.yiqIndex p y x - s.yiqIndex p' y' 0) = s.yiqIndex p y x := by
        rw [← State.yiqIndex_add]; simp only at h1; omega
      have := plane_index_inj hy' (by simp only at h2; omega) hy hx hd
      simp only [Prod.mk.injEq]; exact ⟨this.1, this.2.1⟩
  · intro j hj
    refine H.outside j fun k hk h => ?_
    obtain ⟨hp, hy⟩ := hmem k hk
    rw [hlen] at h
    have := plane_row_bound (w := s.frameW) (x := j - s.yiqIndex k.1 k.2 0) hp hy (by omega)
    have e : k.1 * s.frameW * s.frameH + k.2 * s.frameW = s.yiqIndex k.1 k.2 0 := by simp [State.yiqIndex]
    omega

/-! ## YIQ to RGB, one field -/

/-- A byte of a pixel by channel number. -/
def rgbComponent (v : U8 × U8 × U8) (ch : Nat) : U8 := if ch = 0 then v.1 else if ch = 1 then v.2.1 else v.2.2

/-- What `CSC.YIQ2RGB` does, once: it replaces the output buffer, each own byte by the converted sample. -/
structure FieldConverted (s : State) (t : Nat) (m : Memory 8) : Prop where
  wf : m.wf
  fill : m.fill = s.rgbout.fill
  inside : (∀ c ∈ s.rgbout.cells, c.1 < s.frameSize) → ∀ c ∈ m.cells, c.1 < s.frameSize
  byte : ∀ y < s.frameH, y % 2 = t → ∀ x < s.frameW, ∀ ch < 3, m.read (s.pixelIndex y x ch) =
    rgbComponent (yiqToRgb (s.yiqAt 0 y x) (s.yiqAt 1 y x) (s.yiqAt 2 y x)) ch
  outside : ∀ j, ¬ s.ownByte t j → m.read j = s.rgbout.read j

theorem getD_flatTriples {α : Type} (d : α) (f : Nat → α × α × α) (n x ch : Nat) (hx : x < n) (hc : ch < 3) :
    ((List.range n).flatMap fun x => [(f x).1, (f x).2.1, (f x).2.2]).getD (3 * x + ch) d =
      if ch = 0 then (f x).1 else if ch = 1 then (f x).2.1 else (f x).2.2 := by
  have gen : ∀ (n : Nat) (g : Nat → Nat), x < n →
      (((List.range n).map g).flatMap fun x => [(f x).1, (f x).2.1, (f x).2.2]).getD (3 * x + ch) d =
        if ch = 0 then (f (g x)).1 else if ch = 1 then (f (g x)).2.1 else (f (g x)).2.2 := by
    clear hx
    induction x with
    | zero =>
      intro n g h
      obtain ⟨n, rfl⟩ := Nat.exists_eq_succ_of_ne_zero (Nat.ne_of_gt h)
      rw [List.range_succ_eq_map]
      rcases ch with _ | _ | _ | ch <;> first | rfl | omega
    | succ x ih =>
      intro n g h
      obtain ⟨n, rfl⟩ := Nat.exists_eq_succ_of_ne_zero (Nat.ne_of_gt (Nat.lt_of_le_of_lt (Nat.zero_le _) h))
      rw [List.range_succ_eq_map]
      have e : 3 * (x + 1) + ch = (3 * x + ch) + 3 := by omega
      rw [List.map_cons, List.flatMap_cons, e, List.map_map]
      exact ih n (g ∘ Nat.succ) (by omega)
  simpa using gen n id hx

theorem length_flatTriples {α : Type} (f : Nat → α × α × α) (n : Nat) :
    ((List.range n).flatMap fun x => [(f x).1, (f x).2.1, (f x).2.2]).length = 3 * n := by
  induction n with
  | zero => rfl
  | succ n ih => rw [List.range_succ, List.flatMap_append, List.length_append, ih]; simp; omega

theorem State.length_outputRow (s : State) (y : Nat) : (s.outputRow y).length = 3 * s.frameW :=
  length_flatTriples (fun x => yiqToRgb (s.yiqAt 0 y x) (s.yiqAt 1 y x) (s.yiqAt 2 y x)) _

theorem State.getD_outputRow (s : State) (y : Nat) {x ch : Nat} (hx : x < s.frameW) (hc : ch < 3) :
    (s.outputRow y).getD (3 * x + ch) 0 =
      rgbComponent (yiqToRgb (s.yiqAt 0 y x) (s.yiqAt 1 y x) (s.yiqAt 2 y x)) ch :=
  getD_flatTriples 0 (fun x => yiqToRgb (s.yiqAt 0 y x) (s.yiqAt 1 y x) (s.yiqAt 2 y x)) _ _ _ hx hc

theorem pixel_row_bound {w h y j : Nat} (hy : y < h) (hj : j < 3 * w) : 3 * (y * w) + j < 3 * w * h := by
  have h1 : y * w + w ≤ h * w := by
    have := Nat.mul_le_mul_right w (Nat.succ_le_of_lt hy); rwa [Nat.succ_mul] at this
  have e : 3 * w * h = 3 * (h * w) := by rw [Nat.mul_assoc, Nat.mul_comm w h]
  omega

theorem pixel_row_inj {w y y' j j' : Nat} (hj : j < 3 * w) (hj' : j' < 3 * w)
    (e : 3 * (y * w) + j = 3 * (y' * w) + j') : y = y' ∧ j = j' := by
  have e1 : 3 * w * y + j = 3 * w * y' + j' := by
    have a1 : 3 * w * y = 3 * (y * w) := by rw [Nat.mul_assoc, Nat.mul_comm w y]
    have a2 : 3 * w * y' = 3 * (y' * w) := by rw [Nat.mul_assoc, Nat.mul_comm w y']
    omega
  have hy : y = y' := by
    have := congrArg (· / (3 * w)) e1
    simp only [Nat.mul_add_div (Nat.lt_of_le_of_lt (Nat.zero_le _) hj), Nat.div_eq_of_lt hj,
      Nat.div_eq_of_lt hj', Nat.add_zero] at this
    exact this
  subst hy
  exact ⟨rfl, by omega⟩

theorem State.pixelIndex_eq (s : State) (y x ch : Nat) :
    s.pixelIndex y x ch = s.pixelIndex y 0 0 + (3 * x + ch) := by
  simp only [State.pixelIndex]; omega

theorem State.yiq2rgb_eq (s : State) (t : Nat) (ht : t < 2)
    (hf : 3 * s.frameW * s.frameH ≤ s.frameSize) (hm : s.rgbout.wf) :
    ∃ m, s.yiq2rgb t = s.setRgbout m ∧ FieldConverted s t m := by
  have key : ∀ (ys : List Nat) (u : State),
      ys.foldl (fun acc y =>
        acc.setRgbout (acc.rgbout.writeFrom s.frameSize (s.pixelIndex y 0 0) (s.outputRow y))) u =
      u.setRgbout (ys.foldl (fun acc y =>
        Memory.writeFrom s.frameSize acc (s.pixelIndex y 0 0) (s.outputRow y)) u.rgbout) := by
    intro ys
    induction ys with
    | nil => intro u; rfl
    | cons y ys ih => intro u; rw [List.foldl_cons, ih]; rfl
  have H := rowsWritten_foldl s.frameSize (ownRows s.frameH t) (fun y => s.pixelIndex y 0 0)
    s.outputRow s.rgbout hm
  have e0 : ∀ y, s.pixelIndex y 0 0 = 3 * (y * s.frameW) := by intro y; simp [State.pixelIndex]
  refine ⟨_, key _ s, H.wf, H.fill, H.inside, ?_, ?_⟩
  · intro y hy hyt x hx ch hc
    have hl : 3 * x + ch < 3 * s.frameW := by omega
    have := H.row y ((mem_ownRows ht).mpr ⟨hy, hyt⟩) (3 * x + ch)
      (by rw [State.length_outputRow]; exact hl) ?_ ?_
    · rw [← State.pixelIndex_eq] at this
      rw [this, State.getD_outputRow _ _ hx hc]
    · rw [e0]; exact Nat.lt_of_lt_of_le (pixel_row_bound hy hl) hf
    · intro y' _ h1 h2
      rw [State.length_outputRow, e0, e0] at h2
      rw [e0, e0] at h1
      have := pixel_row_inj (w := s.frameW) (y := y') (y' := y)
        (j := 3 * (y * s.frameW) + (3 * x + ch) - 3 * (y' * s.frameW)) (by omega) hl (by omega)
      exact this.1
  · intro j hj
    refine H.outside j fun y hy h => hj ?_
    obtain ⟨hy, hyt⟩ := (mem_ownRows ht).mp hy
    rw [State.length_outputRow, e0] at h
    refine ⟨y, (j - 3 * (y * s.frameW)) / 3, (j - 3 * (y * s.frameW)) % 3, hy, hyt, by omega,
      Nat.mod_lt _ (by omega), ?_⟩
    simp only [State.pixelIndex]
    omega

end Sys2Proof.Machine
end

