-- ==== Sys2Proof/Laws/Decode.lean ====
section
/-! SUPPORT. The fields of a command word: cutting and assembling are inverse, and each field reader inverts
and is inverted by the field's encoding. -/

namespace Sys2Proof

theorem fieldsOf_assemble (f : Fields) : fieldsOf (assemble f) = f := by
  obtain ⟨a, b, c, d, e, g, h⟩ := f
  simp only [fieldsOf, assemble, Fields.mk.injEq]
  refine ⟨?_, ?_, ?_, ?_, ?_, ?_, ?_⟩ <;>
  · apply BitVec.eq_of_getLsbD_eq
    intro i hi
    simp only [BitVec.getLsbD_extractLsb', BitVec.getLsbD_append]
    repeat (first | rw [if_pos (by omega)] | rw [if_neg (by omega)])
    simp only [hi, decide_true, Bool.true_and]
    congr 1; omega

theorem toNat_append_eq {n m : Nat} (x : BitVec n) (y : BitVec m) :
    (x ++ y).toNat = x.toNat * 2 ^ m + y.toNat := by
  rw [BitVec.toNat_append, ← Nat.shiftLeft_add_eq_or_of_lt y.isLt, Nat.shiftLeft_eq]

theorem assemble_fieldsOf (w : U32) : assemble (fieldsOf w) = w := by
  apply BitVec.eq_of_toNat_eq
  simp only [fieldsOf, assemble, toNat_append_eq, BitVec.extractLsb'_toNat, Nat.shiftRight_eq_div_pow]
  have := w.isLt
  omega

theorem ctxOf_ofNat : ∀ c : CtxId, ctxOf (.ofNat 2 c) = some c := by decide
theorem lineOf_ofNat : ∀ l : LineId, lineOf (.ofNat 3 l) = some l := by decide
theorem regOf_ofNat : ∀ r : RegId, regOf (.ofNat 3 r) = r := by decide
theorem slotOf_ofNat : ∀ s : SlotId, slotOf (.ofNat 10 s) = some s := by decide
theorem cascadeSlotOf_ofNat : ∀ s : SlotId, s.startsCascade → cascadeSlotOf (.ofNat 10 s) = some s := by
  decide
theorem planeOf_ofNat : ∀ p : PlaneId, planeOf (.ofNat 10 p) = some p := by decide
theorem fieldOf_ofNat : ∀ f : FieldId, fieldOf (.ofNat 10 f) = some f := by decide
theorem stageOf_ofNat : ∀ (f : FieldId) (k : Fin 32), stageNumberLegal k →
    stageOf (.ofNat 10 (2 * k.val + f.val)) = some (f, k) := by decide

theorem ofNat_regOf (b : BitVec 3) : BitVec.ofNat 3 (regOf b) = b := by simp [regOf]
theorem ofNat_of_ctxOf {b : BitVec 2} {c : CtxId} (h : ctxOf b = some c) : BitVec.ofNat 2 c = b := by
  unfold ctxOf at h; split at h <;> cases h; simp
theorem ofNat_of_lineOf {b : BitVec 3} {l : LineId} (h : lineOf b = some l) : BitVec.ofNat 3 l = b := by
  unfold lineOf at h; split at h <;> cases h; simp
theorem ofNat_of_slotOf {b : BitVec 10} {s : SlotId} (h : slotOf b = some s) : BitVec.ofNat 10 s = b := by
  unfold slotOf at h; split at h <;> cases h; simp
theorem ofNat_of_cascadeSlotOf {b : BitVec 10} {s : SlotId} (h : cascadeSlotOf b = some s) :
    BitVec.ofNat 10 s = b ∧ s.startsCascade := by
  unfold cascadeSlotOf at h; split at h
  · next hb => cases h; exact ⟨by simp, Nat.le_of_lt_succ hb⟩
  · cases h
theorem ofNat_of_planeOf {b : BitVec 10} {p : PlaneId} (h : planeOf b = some p) :
    BitVec.ofNat 10 p = b := by
  unfold planeOf at h; split at h <;> cases h; simp
theorem ofNat_of_fieldOf {b : BitVec 10} {f : FieldId} (h : fieldOf b = some f) :
    BitVec.ofNat 10 f = b := by
  unfold fieldOf at h; split at h <;> cases h; simp
theorem ofNat_of_stageOf {b : BitVec 10} {f : FieldId} {k : Fin 32} (h : stageOf b = some (f, k)) :
    BitVec.ofNat 10 (2 * k.val + f.val) = b ∧ stageNumberLegal k := by
  unfold stageOf at h; split at h
  · next hb =>
    cases h
    exact ⟨by rw [Nat.div_add_mod]; simp, by simp only [stageNumberLegal]; omega⟩
  · cases h
theorem unused_eq_some {n : Nat} {b : BitVec n} {u : Unit} (h : unused b = some u) : b = 0 := by
  unfold unused at h; split at h
  · assumption
  · cases h
@[simp] theorem unused_zero {n : Nat} : unused (0 : BitVec n) = some () := by simp [unused]

end Sys2Proof
end

