-- ==== Sys2Proof/Laws/Stages.lean ====
section
/-! SUPPORT. What a stage, a task step and the pipeline commands can do: which fields they touch, the draws they
take, and the rows they leave. -/

namespace Sys2Proof.Machine

/-! ## Which fields a conversion or a stage touches, for every state -/

theorem foldl_setYiq {α : Type} (f : State → α → State) (h : ∀ u a, ∃ m, f u a = u.setYiq m) (l : List α)
    (s : State) : ∃ m, l.foldl f s = s.setYiq m := by
  induction l generalizing s with
  | nil => exact ⟨s.yiq, rfl⟩
  | cons a l ih =>
    obtain ⟨m, e⟩ := h s a
    obtain ⟨m', e'⟩ := ih (s.setYiq m)
    exact ⟨m', by rw [List.foldl_cons, e, e']; rfl⟩

theorem State.storePlane_setYiq (s : State) (t p : Nat) (rows : PlaneRows) :
    ∃ m, s.storePlane t p rows = s.setYiq m :=
  foldl_setYiq _ (fun _ _ => ⟨_, rfl⟩) _ _

theorem State.storeField_setYiq (s : State) (t : Nat) (f : FieldRows) :
    ∃ m, s.storeField t f = s.setYiq m := by
  obtain ⟨m₀, e₀⟩ := s.storePlane_setYiq t 0 f.y
  obtain ⟨m₁, e₁⟩ := (s.setYiq m₀).storePlane_setYiq t 1 f.i
  obtain ⟨m₂, e₂⟩ := ((s.setYiq m₀).setYiq m₁).storePlane_setYiq t 2 f.q
  exact ⟨m₂, by rw [State.storeField, e₀, e₁, e₂]; rfl⟩

theorem State.rgb2yiq_setYiq (s : State) : ∃ m, s.rgb2yiq = s.setYiq m :=
  foldl_setYiq _ (fun _ _ => ⟨_, rfl⟩) _ _

theorem State.yiq2rgb_setRgbout (s : State) (t : Nat) : ∃ m, s.yiq2rgb t = s.setRgbout m := by
  unfold State.yiq2rgb
  generalize ownRows s.frameH t = l
  suffices h : ∀ u : State, ∃ m, l.foldl (fun acc y => acc.setRgbout
      (acc.rgbout.writeFrom s.frameSize (s.pixelIndex y 0 0) (s.outputRow y))) u = u.setRgbout m from h s
  induction l with
  | nil => intro u; exact ⟨u.rgbout, rfl⟩
  | cons y l ih =>
    intro u
    obtain ⟨m, e⟩ := ih (u.setRgbout (u.rgbout.writeFrom s.frameSize (s.pixelIndex y 0 0) (s.outputRow y)))
    exact ⟨m, by rw [List.foldl_cons, e]; rfl⟩

/-! ## Draws -/

theorem dropDecisions_gen (loss : I32) (n : Nat) (g : Gen) :
    (dropDecisions loss n g).1 = advance n g := by
  induction n generalizing g with
  | zero => rfl
  | succ n ih => exact ih (next g).1

theorem advance_succ (n : Nat) (g : Gen) : advance (n + 1) g = (next (advance n g)).1 := by
  induction n generalizing g with
  | zero => rfl
  | succ n ih => exact ih (next g).1

/-- The decision for a row comes from the draw after those of the rows before it. -/
theorem getD_dropDecisions (loss : I32) (n : Nat) (g : Gen) {r : Nat} (h : r < n) :
    (dropDecisions loss n g).2.getD r false = dropped loss (next (advance r g)).2 := by
  induction n generalizing g r with
  | zero => omega
  | succ n ih =>
    cases r with
    | zero => rw [dropDecisions, List.getD_cons_zero, advance]
    | succ r => rw [dropDecisions, List.getD_cons_succ]; exact ih (next g).1 (by omega)

/-- The number of draws of a stage (R152). -/
theorem stageBody_gen (e : StageEnv) (f : FieldRows) (g : Gen) (st : Stage) :
    ∃ n, (stageBody e f g st).2 = advance n g := by
  cases st
  case borderCut => exact ⟨Config.borderCutDraws (e.extArgs f g), rfl⟩
  case preemphasis => exact ⟨Config.preemphasisDraws (e.extArgs f g), rfl⟩
  case videoNoise => exact ⟨e.rowCount * e.w, rfl⟩
  case headSwitching => exact ⟨Config.headSwitchDraws (e.extArgs f g), rfl⟩
  case chromaNoise => exact ⟨Config.chromaNoiseDraws (e.extArgs f g), rfl⟩
  case phaseNoise => exact ⟨phaseDrawCount e f g, rfl⟩
  case vhsBundle => exact ⟨Config.vhsDraws (e.extArgs f g), rfl⟩
  case dropout => exact ⟨e.rowCount, dropDecisions_gen _ _ _⟩
  all_goals exact ⟨0, rfl⟩

/-! ## A stage -/

/-- A stage touches the planar buffer, the output buffer and its field's generator. -/
theorem State.stageStep_fields (s : State) (t : Fin 2) (k : Nat) :
    ∃ m m' n, s.stageStep t k =
      ((s.setYiq m).setRgbout m').setGen t.castSucc (advance n s.ctx[t.castSucc].gen) := by
  have same : s = ((s.setYiq s.yiq).setRgbout s.rgbout).setGen t.castSucc
      (advance 0 s.ctx[t.castSucc].gen) := by
    have : s.ctx.set t.castSucc s.ctx[t.castSucc] = s.ctx := by simp
    simp only [advance, State.setGen, State.setCtx, State.setYiq, State.setRgbout, this]
  unfold State.stageStep
  split
  · next st _ =>
    split
    · unfold State.runStage
      split
      · obtain ⟨m, e⟩ := s.yiq2rgb_setRgbout t
        refine ⟨s.yiq, m, 0, ?_⟩
        rw [e]
        have : (s.setRgbout m).ctx.set t.castSucc s.ctx[t.castSucc] = s.ctx := by simp
        simp only [advance, State.setGen, State.setCtx, State.setYiq, State.setRgbout] at this ⊢
        simp only [this]
      · obtain ⟨m, e⟩ := s.storeField_setYiq t
          (stageBody (s.stageEnv t k) (s.loadField t) s.ctx[t.castSucc].gen st).1
        obtain ⟨n, hn⟩ := stageBody_gen (s.stageEnv t k) (s.loadField t) s.ctx[t.castSucc].gen st
        exact ⟨m, s.rgbout, n, by simp only [e, hn]; rfl⟩
    · exact ⟨_, _, _, same⟩
  · exact ⟨_, _, _, same⟩

end Sys2Proof.Machine
end

