-- ==== Sys2Proof/Laws/Invariant.lean ====
section
/-! SUPPORT. The invariant through each update, the legality of this implementation's parameters, and the
power-of-two check. -/

namespace Sys2Proof.Machine

/-! ## Parameters -/

theorem one_le_atLeastOne (x : U32) : 1 ≤ (atLeastOne x).toNat := by
  unfold atLeastOne; split
  · decide
  · next h => have : x.toNat ≠ 0 := fun e => h (BitVec.eq_of_toNat_eq (by simpa using e)); omega

theorem hwParams_legal : hwParams.legal = true := by
  have ne : ∀ x, (atLeastOne x != 0) = true := fun x => by
    rw [bne_iff_ne]; intro e; have := one_le_atLeastOne x; rw [e] at this; simp at this
  have hl : (atLeastOne Config.wmax).toNat ≤
      (if (atLeastOne Config.wmax).toNat ≤ Config.lmax.toNat then Config.lmax
        else atLeastOne Config.wmax).toNat := by
    split <;> [assumption; exact Nat.le_refl _]
  have hr : flt 0 (if flt 0 Config.sampleRateHz then Config.sampleRateHz else fone) = true := by
    split
    · assumption
    · decide +kernel
  have hn : 0 < (if 0 < Config.subcarrierNorm.toInt then Config.subcarrierNorm else 1).toInt := by
    split
    · assumption
    · decide
  have ho : (if Config.lowpassOrder.isLowpass then Config.lowpassOrder else lowpassAsWritten).isLowpass = true := by
    split
    · assumption
    · decide +kernel
  simp only [HwParams.legal, hwParams, hl, hr, hn, ho, ne, one_le_atLeastOne, decide_true, Bool.and_true]

/-- `IsPow2` is what its name says (42_fft.md R118). -/
theorem isPow2_iff (n : Nat) : isPow2 n = true ↔ ∃ k, n = 2 ^ k := by
  simp only [isPow2, Bool.and_eq_true, bne_iff_ne, ne_eq, beq_iff_eq]
  constructor
  · rintro ⟨_, h⟩; exact ⟨_, h⟩
  · rintro ⟨k, rfl⟩; simp [Nat.log2_two_pow]

/-- Raising from a state with no error recorded (60_exceptions.md R222). -/
theorem State.raise_eq_recorded (s : State) (e : CommandError) (word : U32) (h : s.status.err = false) :
    s.raise e word = s.recorded e word := by
  simp [State.raise, State.recorded, h]

/-! ## Memory in a context -/

theorem Memory.FrameOk.empty {w n : Nat} : (Memory.empty : Memory w).FrameOk n :=
  ⟨Memory.wf_empty, rfl, by simp [Memory.empty]⟩

theorem Memory.inside_write {w : Nat} {m : Memory w} {i size : Nat} (v : BitVec w) (hi : i < size)
    (h : ∀ c ∈ m.cells, c.1 < size) : ∀ c ∈ (m.write i v).cells, c.1 < size := by
  have := Memory.mem_cells_writeFrom size [v] m i h
  simpa [Memory.writeFrom, Memory.writeIn, hi] using this

theorem Memory.FrameOk.write {w : Nat} {m : Memory w} {i size : Nat} (v : BitVec w) (hi : i < size)
    (h : m.FrameOk size) : (m.write i v).FrameOk size :=
  ⟨Memory.wf_write m i v h.wf, (Memory.write_fill m i v).trans h.zeroFill,
    Memory.inside_write v hi h.inside⟩

theorem Memory.FrameOk.writeFrom {w : Nat} {m : Memory w} {size : Nat} (i : Nat) (vs : List (BitVec w))
    (h : m.FrameOk size) : (Memory.writeFrom size m i vs).FrameOk size :=
  ⟨Memory.wf_writeFrom size vs m i h.wf, (Memory.writeFrom_fill size vs m i).trans h.zeroFill,
    Memory.mem_cells_writeFrom size vs m i h.inside⟩

theorem Context.Ok.setGen {k : Context} {l z : Nat} (g : Gen) (h : k.Ok l z) :
    ({ k with gen := g } : Context).Ok l z := ⟨h.lines, h.complex⟩

theorem Context.Ok.setFlt {k : Context} {l z : Nat} (v : Vector Filter 8) (h : k.Ok l z) :
    ({ k with flt := v } : Context).Ok l z := ⟨h.lines, h.complex⟩

theorem Context.Ok.setLine {k : Context} {l z : Nat} (b : Fin 4) (m : Memory 64) (h : k.Ok l z)
    (hm : m.wf ∧ ∀ c ∈ m.cells, c.1 < l) : ({ k with lb := k.lb.set b m } : Context).Ok l z := by
  refine ⟨fun b' => ?_, h.complex⟩
  show (k.lb.set b m)[b'].wf ∧ ∀ c ∈ (k.lb.set b m)[b'].cells, c.1 < l
  rw [vector_get_set]; split
  · exact hm
  · exact h.lines b'

theorem Context.Ok.setZ {k : Context} {l z : Nat} (m : Memory 64) (h : k.Ok l z)
    (hm : m.wf ∧ ∀ c ∈ m.cells, c.1 < z) : ({ k with z := m } : Context).Ok l z := ⟨h.lines, hm⟩

theorem Context.Ok.loseScratch (k : Context) (p : Path) (l z : Nat) : (k.loseScratch p).Ok l z := by
  have hw : ∀ q, (⟨.free q, []⟩ : Memory 64).wf ∧ ∀ c ∈ (⟨.free q, []⟩ : Memory 64).cells, c.1 < l :=
    fun q => ⟨⟨List.Pairwise.nil, fun h => by cases h⟩, fun c hc => absurd hc (by simp)⟩
  refine ⟨fun b => ?_, ⟨⟨List.Pairwise.nil, fun h => by cases h⟩, fun c hc => absurd hc (by simp [Context.loseScratch])⟩⟩
  have : (k.loseScratch p).lb[b] = ⟨.free (1 :: b.val :: p), []⟩ := by simp [Context.loseScratch]
  rw [this]; exact hw _

/-! ## The invariant through updates -/

/-- The invariant does not look at the operand registers and the model's own fields. -/
theorem State.Inv.congr {s t : State} (h : s.Inv) (hst : t.status = s.status) (he : t.errinfo = s.errinfo)
    (hw : t.width = s.width) (hh : t.height = s.height) (hv : t.vl = s.vl) (hs : t.sc = s.sc)
    (hc : t.cfg = s.cfg) (hx : t.ctx = s.ctx) (hi : t.rgbin = s.rgbin) (ho : t.rgbout = s.rgbout)
    (hy : t.yiq = s.yiq) (hp : t.hw = s.hw) : t.Inv := by
  cases t; cases s; simp only at hst he hw hh hv hs hc hx hi ho hy hp; subst_vars
  exact { params := h.params, width := h.width, height := h.height, vl := h.vl, counters := h.counters,
          idle := h.idle, noError := h.noError, errorCode := h.errorCode, run := h.run,
          contexts := h.contexts, rgbin := h.rgbin, rgbout := h.rgbout, yiq := h.yiq }

theorem State.Inv.setX {s : State} (h : s.Inv) (i : Fin 8) (v : U32) : (s.setX i v).Inv :=
  h.congr rfl rfl rfl rfl rfl rfl rfl rfl rfl rfl rfl rfl

theorem State.Inv.setF {s : State} (h : s.Inv) (i : Fin 8) (v : F64) : (s.setF i v).Inv :=
  h.congr rfl rfl rfl rfl rfl rfl rfl rfl rfl rfl rfl rfl

theorem State.Inv.setCtx {s : State} (h : s.Inv) (c : Fin 3) (k : Context) (hk : k.Ok s.lineSize s.zSize) :
    (s.setCtx c k).Inv :=
  { params := h.params, width := h.width, height := h.height, vl := h.vl, counters := h.counters,
    idle := h.idle, noError := h.noError, errorCode := h.errorCode, run := h.run,
    contexts := fun d => by
      rw [State.setCtx_get]; split
      · exact hk
      · exact h.contexts d
    rgbin := h.rgbin, rgbout := h.rgbout, yiq := h.yiq }

theorem State.Inv.setGen {s : State} (h : s.Inv) (c : Fin 3) (g : Gen) : (s.setGen c g).Inv :=
  h.setCtx c _ ((h.contexts c).setGen g)

theorem State.Inv.setFlt {s : State} (h : s.Inv) (c : Fin 3) (i : Fin 8) (v : Filter) : (s.setFlt c i v).Inv :=
  h.setCtx c _ ((h.contexts c).setFlt _)

theorem State.Inv.storeLine {s : State} (h : s.Inv) (c : Fin 3) (b : Fin 4) (vs : List F64) :
    (s.storeLine c b vs).Inv :=
  h.setCtx c _ ((h.contexts c).setLine b _
    ⟨Memory.wf_writeFrom _ _ _ _ ((h.contexts c).lines b).1,
      Memory.mem_cells_writeFrom _ _ _ _ ((h.contexts c).lines b).2⟩)

theorem State.Inv.storeZ {s : State} (h : s.Inv) (c : Fin 3) (vs : List C64) : (s.storeZ c vs).Inv :=
  h.setCtx c _ ((h.contexts c).setZ _
    ⟨Memory.wf_writeFrom _ _ _ _ (h.contexts c).complex.1,
      Memory.mem_cells_writeFrom _ _ _ _ (h.contexts c).complex.2⟩)

theorem State.Inv.loseScratch {s : State} (h : s.Inv) (c : Fin 3) : (s.loseScratch c).Inv :=
  h.setCtx c _ (Context.Ok.loseScratch _ _ _ _)

theorem State.Inv.setYiq {s : State} (h : s.Inv) {m : Memory 32} (hm : m.FrameOk s.frameSize) :
    (s.setYiq m).Inv :=
  { params := h.params, width := h.width, height := h.height, vl := h.vl, counters := h.counters,
    idle := h.idle, noError := h.noError, errorCode := h.errorCode, run := h.run,
    contexts := h.contexts, rgbin := h.rgbin, rgbout := h.rgbout, yiq := hm }

theorem State.Inv.setRgbout {s : State} (h : s.Inv) {m : Memory 8} (hm : m.FrameOk s.frameSize) :
    (s.setRgbout m).Inv :=
  { params := h.params, width := h.width, height := h.height, vl := h.vl, counters := h.counters,
    idle := h.idle, noError := h.noError, errorCode := h.errorCode, run := h.run,
    contexts := h.contexts, rgbin := h.rgbin, rgbout := hm, yiq := h.yiq }

theorem State.Inv.storePlaneRow {s : State} (h : s.Inv) (p y : Nat) (vs : List I32) :
    (s.storePlaneRow p y vs).Inv := h.setYiq (h.yiq.writeFrom _ _)

/-- A stored field or plane keeps the canonical form of the planar buffer. -/
theorem FieldStored.frameOk {s : State} {t : Nat} {ps : List Nat} {v : Nat → Nat → Nat → I32} {m : Memory 32}
    (h : s.Inv) (hm : FieldStored s t ps v m) : m.FrameOk s.frameSize :=
  ⟨hm.wf, hm.fill.trans h.yiq.zeroFill, hm.inside h.yiq.inside⟩

theorem State.Inv.storeField {s : State} (h : s.Inv) (t : Fin 2) (f : FieldRows) :
    (s.storeField t f).Inv := by
  obtain ⟨m, e, hm⟩ := s.storeField_eq t f t.isLt h.frame_le h.yiq.wf
  rw [e]; exact h.setYiq (hm.frameOk h)

theorem State.Inv.rgb2yiq {s : State} (h : s.Inv) : s.rgb2yiq.Inv := by
  obtain ⟨m, e, hm⟩ := s.rgb2yiq_eq h.frame_le h.yiq.wf
  rw [e]; exact h.setYiq ⟨hm.wf, hm.fill.trans h.yiq.zeroFill, hm.inside h.yiq.inside⟩

theorem State.Inv.yiq2rgb {s : State} (h : s.Inv) (t : Fin 2) : (s.yiq2rgb t).Inv := by
  obtain ⟨m, e, hm⟩ := s.yiq2rgb_eq t t.isLt h.frame_le h.rgbout.wf
  rw [e]; exact h.setRgbout ⟨hm.wf, hm.fill.trans h.rgbout.zeroFill, hm.inside h.rgbout.inside⟩

theorem State.Inv.stageStep {s : State} (h : s.Inv) (t : Fin 2) (k : Nat) : (s.stageStep t k).Inv := by
  unfold State.stageStep
  split
  · split
    · unfold State.runStage
      split
      · exact h.yiq2rgb t
      · exact (h.storeField t _).setGen _ _
    · exact h
  · exact h

end Sys2Proof.Machine
end

