-- ==== Sys2Proof/Laws/Fft.lean ====
section
/-! SUPPORT. The transforms keep the length of their sequence; and under the round-trip property that 42_fft.md
R117 has a model assume, `FFT.INV` after `FFT.FWD` gives the complex buffer back within the tolerance. -/

namespace Sys2Proof.Machine

theorem length_fft (p : Path) (inverse : Bool) {levels : Nat} {a : List C64} (h : a.length = 2 ^ levels) :
    (fft p inverse levels a).length = 2 ^ levels := by
  cases levels with
  | zero => exact h
  | succ levels =>
    simp only [fft, List.length_append, List.length_map, List.length_range]
    omega

theorem length_forwardTransform (p : Path) {levels : Nat} {a : List C64} (h : a.length = 2 ^ levels) :
    (forwardTransform p a).length = a.length := by
  rw [forwardTransform, h, Nat.log2_two_pow, length_fft p false h]

theorem length_inverseTransform (p : Path) {levels : Nat} {a : List C64} (h : a.length = 2 ^ levels) :
    (inverseTransform p a).length = a.length := by
  rw [inverseTransform, List.length_mapIdx, h, Nat.log2_two_pow, length_fft _ true h]

/-- A sequence that fills the first elements of the complex buffer is what the slice reads. -/
theorem State.zSlice_storeZ (s : State) (c : Fin 3) (vs : List C64) (hm : s.ctx[c].z.wf)
    (hs : vs.length ≤ s.lineSize) : (s.storeZ c vs).zSlice c vs.length = vs := by
  refine List.ext_getElem (by simp) fun n hn hn' => ?_
  have h := State.getD_zSlice (s.storeZ c vs) c hn' (0, 0)
  rw [State.zAt_storeZ s c vs hm hn' hs] at h
  simpa [List.getD_eq_getElem?_getD, hn, hn'] using h

/-- R117 on the commands: with the assumed property, the forward and then the inverse command give every element
of `Z` back within one part in 10^9 of the largest magnitude. -/
theorem fft_commands_round_trip (h : NumericsRoundTrip) {s : State} (hs : s.Inv) (c : CtxId)
    (hv : s.vlen ∈ [4, 16, 256]) {bound : Int} (hlo : 2 ^ 574 ≤ bound) (hhi : bound ≤ 2 ^ 1574)
    (hz : ∀ n < s.vlen, isFinite (s.zAt c n).1 = true ∧ |funits (s.zAt c n).1| ≤ bound ∧
      isFinite (s.zAt c n).2 = true ∧ |funits (s.zAt c n).2| ≤ bound) :
    ∃ t u, execFftFwd c s = .next t ∧ execFftInv c t = .next u ∧ ∀ n < s.vlen,
      10 ^ 9 * |funits (u.zAt c n).1 - funits (s.zAt c n).1| ≤ bound ∧
      10 ^ 9 * |funits (u.zAt c n).2 - funits (s.zAt c n).2| ≤ bound := by
  obtain ⟨levels, hl⟩ : ∃ k, s.vlen = 2 ^ k := by
    simp only [List.mem_cons, List.not_mem_nil, or_false] at hv
    rcases hv with hv | hv | hv
    exacts [⟨2, hv⟩, ⟨4, hv⟩, ⟨8, hv⟩]
  have hp : isPow2 s.vlen = true := (isPow2_iff _).2 ⟨levels, hl⟩
  have hlen : (s.zSlice c s.vlen).length = 2 ^ levels := by rw [State.length_zSlice, hl]
  have hfwd := length_forwardTransform [s.tick] hlen
  rw [State.length_zSlice] at hfwd
  have hinv := length_inverseTransform [s.tick] (hfwd.trans hl)
  rw [hfwd] at hinv
  have hcap : s.vlen ≤ s.lineSize := hs.vl
  have hmem : (s.storeZ c (forwardTransform [s.tick] (s.zSlice c s.vlen))).Inv := hs.storeZ c _
  have hslice : (s.storeZ c (forwardTransform [s.tick] (s.zSlice c s.vlen))).zSlice c s.vlen =
      forwardTransform [s.tick] (s.zSlice c s.vlen) := by
    have := State.zSlice_storeZ s c (forwardTransform [s.tick] (s.zSlice c s.vlen))
      (hs.contexts c).complex.1 (by omega)
    rwa [hfwd] at this
  refine ⟨_, _, if_pos hp, if_pos hp, fun n hn => ?_⟩
  simp only [State.storeZ_vlen, State.storeZ_tick, hslice]
  rw [State.zAt_storeZ _ c _ (hmem.contexts c).complex.1 (by omega)
    (by rw [hinv]; simpa using hcap)]
  have key := h (s.zSlice c s.vlen) bound [s.tick] [s.tick] (by simpa using hv) hlo hhi
    (fun v hv => by
      obtain ⟨k, hk, rfl⟩ := List.getElem_of_mem hv
      rw [State.length_zSlice] at hk
      have e := State.getD_zSlice s c hk (0, 0)
      simp only [List.getD_eq_getElem?_getD, State.length_zSlice, hk, getElem?_pos,
        Option.getD_some] at e
      rw [e]; exact hz k hk) n (by simpa using hn)
  rw [State.getD_zSlice s c hn] at key
  exact ⟨key.2.1, key.2.2.2⟩

end Sys2Proof.Machine
end

