-- ==== Sys2Proof/Laws/Float.lean ====
section
/-! SUPPORT. What packing a floating-point result does: `roundPack` answers the exact number rounded as
00_scope.md R15 says (`roundPack_roundsTo`), whatever the sign, the scale and the sticky tail. -/

namespace Sys2Proof.Machine

/-- The magnitude, in units of 2^-1074, of the 63-bit pattern `n`; beyond the finite patterns the exponents go
on, so that rounding can be followed past the largest finite value. -/
def patternMag (n : Nat) : Nat :=
  if n / 2 ^ 52 = 0 then n else (2 ^ 52 + n % 2 ^ 52) * 2 ^ (n / 2 ^ 52 - 1)

theorem div_mod_of_lt {b q r : Nat} (h : r < b) : (q * b + r) / b = q ∧ (q * b + r) % b = r := by
  rw [mul_comm, Nat.mul_add_div (by omega), Nat.mul_add_mod, Nat.div_eq_of_lt h, Nat.mod_eq_of_lt h]; simp

theorem patternMag_succ (n : Nat) : patternMag (n + 1) = patternMag n + 2 ^ (n / 2 ^ 52 - 1) := by
  unfold patternMag
  obtain ⟨q, r, hr, rfl⟩ : ∃ q r, r < 2 ^ 52 ∧ n = q * 2 ^ 52 + r :=
    ⟨n / 2 ^ 52, n % 2 ^ 52, Nat.mod_lt _ (by norm_num), by omega⟩
  rw [(div_mod_of_lt hr).1, (div_mod_of_lt hr).2]
  by_cases hl : r + 1 < 2 ^ 52
  · rw [add_assoc, (div_mod_of_lt hl).1, (div_mod_of_lt hl).2]
    split
    · next h => subst h; simp
    · ring
  · have hr' : r + 1 = 2 ^ 52 := by omega
    have hn : q * 2 ^ 52 + r + 1 = (q + 1) * 2 ^ 52 + 0 := by rw [add_assoc, hr']; ring
    rw [hn, (div_mod_of_lt (Nat.two_pow_pos 52)).1, (div_mod_of_lt (Nat.two_pow_pos 52)).2,
      if_neg (Nat.succ_ne_zero q), Nat.add_sub_cancel, Nat.add_zero]
    cases q with
    | zero => rw [if_pos rfl, zero_mul, zero_add, pow_zero, mul_one, hr']
    | succ q =>
      rw [if_neg (Nat.succ_ne_zero q), Nat.add_sub_cancel, pow_succ 2 q, ← hr']; ring

theorem patternMag_strictMono : StrictMono patternMag :=
  strictMono_nat_of_lt_succ fun n => by rw [patternMag_succ]; have := Nat.two_pow_pos (n / 2 ^ 52 - 1); omega

/-- The pattern whose exponent part is `u` and whose significand is `sig`, a carry into the next binade
included. -/
theorem patternMag_of_sig {u sig : Nat} (hle : sig ≤ 2 ^ 53) (hge : u = 0 ∨ 2 ^ 52 ≤ sig) :
    patternMag (u * 2 ^ 52 + sig) = sig * 2 ^ u := by
  unfold patternMag
  by_cases h0 : sig < 2 ^ 52
  · have hu : u = 0 := by omega
    subst hu
    rw [if_pos (by omega)]; simp
  · by_cases h1 : sig < 2 ^ 53
    · have hn : u * 2 ^ 52 + sig = (u + 1) * 2 ^ 52 + (sig - 2 ^ 52) := by rw [add_mul]; omega
      have hl : sig - 2 ^ 52 < 2 ^ 52 := by omega
      rw [hn, (div_mod_of_lt hl).1, (div_mod_of_lt hl).2, if_neg (Nat.succ_ne_zero u), Nat.add_sub_cancel]
      rw [Nat.add_sub_of_le (by omega)]
    · have hs : sig = 2 ^ 52 * 2 := by omega
      have hn : u * 2 ^ 52 + sig = (u + 2) * 2 ^ 52 + 0 := by rw [hs]; ring
      rw [hn, (div_mod_of_lt (Nat.two_pow_pos 52)).1, (div_mod_of_lt (Nat.two_pow_pos 52)).2,
        if_neg (by omega), show u + 2 - 1 = u + 1 by omega, pow_succ, Nat.add_zero, hs]; ring

/-- A pattern is nearest to `y`, and even on a tie, if `y` lies between the midpoints to its neighbours. -/
theorem nearest_of_neighbours {n : Nat} {y : ℝ}
    (up : 2 * y ≤ patternMag n + patternMag (n + 1))
    (upTie : 2 * y = patternMag n + patternMag (n + 1) → n % 2 = 0)
    (down : ∀ k, n = k + 1 → (patternMag k : ℝ) + patternMag n ≤ 2 * y)
    (downTie : ∀ k, n = k + 1 → (patternMag k : ℝ) + patternMag n = 2 * y → n % 2 = 0) (k : Nat) :
    |(patternMag n : ℝ) - y| ≤ |(patternMag k : ℝ) - y| ∧
    (|(patternMag n : ℝ) - y| = |(patternMag k : ℝ) - y| → k ≠ n → n % 2 = 0) := by
  rcases lt_trichotomy k n with h | rfl | h
  · obtain ⟨j, rfl⟩ : ∃ j, n = j + 1 := ⟨n - 1, by omega⟩
    have hkj : (patternMag k : ℝ) ≤ patternMag j := by exact_mod_cast patternMag_strictMono.monotone (by omega)
    have hk : (patternMag k : ℝ) < patternMag (j + 1) := by exact_mod_cast patternMag_strictMono h
    have hd := down j rfl
    have e : |(patternMag k : ℝ) - y| = y - patternMag k := by
      rw [abs_of_nonpos (by linarith)]; ring
    rw [e]
    refine ⟨abs_le.2 ⟨by linarith, by linarith⟩, fun ht _ => downTie j rfl ?_⟩
    rcases abs_choice ((patternMag (j + 1) : ℝ) - y) with h' | h' <;> rw [h'] at ht <;> linarith
  · exact ⟨le_rfl, fun _ h => absurd rfl h⟩
  · have hkj : (patternMag (n + 1) : ℝ) ≤ patternMag k := by
      exact_mod_cast patternMag_strictMono.monotone (by omega)
    have hk : (patternMag n : ℝ) < patternMag k := by exact_mod_cast patternMag_strictMono h
    have e : |(patternMag k : ℝ) - y| = patternMag k - y := abs_of_nonneg (by linarith)
    rw [e]
    refine ⟨abs_le.2 ⟨by linarith, by linarith⟩, fun ht _ => upTie ?_⟩
    rcases abs_choice ((patternMag n : ℝ) - y) with h' | h' <;> rw [h'] at ht <;> linarith

/-- `roundShift` is within half a step of the true numerator `z`, and even when it is exactly half a step off. -/
theorem roundShift_spec {m k : Nat} {sticky : Bool} {z : ℝ} (hk : k ≠ 0) (lo : (m : ℝ) ≤ z)
    (hi : z < m + 1) (exact : sticky = false → z = m) (inexact : sticky = true → (m : ℝ) < z) :
    let sig := roundShift m k sticky
    (m >>> k = sig ∨ m >>> k + 1 = sig) ∧
    2 * z ≤ (2 * sig + 1) * 2 ^ k ∧ (2 * z = (2 * sig + 1) * 2 ^ k → sig % 2 = 0) ∧
    (2 * (sig : ℝ) - 1) * 2 ^ k ≤ 2 * z ∧ ((2 * (sig : ℝ) - 1) * 2 ^ k = 2 * z → sig % 2 = 0) := by
  obtain ⟨k, rfl⟩ := Nat.exists_eq_succ_of_ne_zero hk
  have hdm : m = m >>> (k + 1) * (2 * 2 ^ k) + m % 2 ^ (k + 1) := by
    rw [Nat.shiftRight_eq_div_pow, pow_succ, mul_comm (2 : Nat)]; exact (Nat.div_add_mod' m _).symm
  have hlt : m % 2 ^ (k + 1) < 2 * 2 ^ k := by
    rw [mul_comm, ← pow_succ]; exact Nat.mod_lt m (Nat.two_pow_pos (k + 1))
  simp only [roundShift, Nat.succ_eq_add_one, Nat.add_sub_cancel, if_neg (Nat.succ_ne_zero k)]
  generalize m >>> (k + 1) = q at *
  generalize m % 2 ^ (k + 1) = r at *
  have hpos : (0 : ℝ) < 2 ^ k := by positivity
  have hm : (m : ℝ) = q * (2 * 2 ^ k) + r := by exact_mod_cast hdm
  have hr : (r : ℝ) < 2 * 2 ^ k := by exact_mod_cast hlt
  have hr1 : (r : ℝ) + 1 ≤ 2 * 2 ^ k := by exact_mod_cast hlt
  rw [pow_succ (2 : ℝ)]
  split
  · next h =>
    simp only [Bool.or_eq_true, Bool.and_eq_true, decide_eq_true_eq, beq_iff_eq] at h
    have hh : (2 : ℝ) ^ k ≤ r := by
      have : 2 ^ k ≤ r := by omega
      exact_mod_cast this
    refine ⟨.inr rfl, by push_cast; nlinarith, fun ht => ?_, by push_cast; nlinarith, fun ht => ?_⟩
    · push_cast at ht; nlinarith
    · push_cast at ht
      have hz : z = q * (2 * 2 ^ k) + 2 ^ k := by nlinarith
      have hre : (r : ℝ) = 2 ^ k := by linarith
      have hre' : r = 2 ^ k := by exact_mod_cast hre
      rcases h with h | ⟨-, h | h⟩
      · omega
      · have := inexact h; linarith
      · omega
  · next h =>
    simp only [Bool.or_eq_true, Bool.and_eq_true, decide_eq_true_eq, beq_iff_eq, not_or, not_and] at h
    have hh : r ≤ 2 ^ k := by omega
    have hz : z ≤ q * (2 * 2 ^ k) + 2 ^ k := by
      rcases hh.lt_or_eq with hl | he
      · have : (r : ℝ) + 1 ≤ 2 ^ k := by exact_mod_cast hl
        linarith
      · have := exact (by simpa using (h.2 he).1)
        have he' : (r : ℝ) = 2 ^ k := by exact_mod_cast he
        linarith
    have hr0 : (0 : ℝ) ≤ r := Nat.cast_nonneg r
    refine ⟨.inl rfl, by nlinarith, fun ht => ?_, by nlinarith, fun ht => by nlinarith⟩
    have hz' : z = q * (2 * 2 ^ k) + 2 ^ k := by nlinarith
    rcases hh.lt_or_eq with hl | he
    · have : (r : ℝ) + 1 ≤ 2 ^ k := by exact_mod_cast hl
      linarith
    · have := (h.2 he).2; omega

/-! ## Patterns as binary64 values -/

theorem fexpField_eq (b : F64) : fexpField b = b.toNat % 2 ^ 63 / 2 ^ 52 := by
  simp only [fexpField, BitVec.extractLsb'_toNat, Nat.shiftRight_eq_div_pow]; omega

theorem ffrac_eq (b : F64) : ffrac b = b.toNat % 2 ^ 63 % 2 ^ 52 := by
  simp only [ffrac, BitVec.extractLsb'_toNat, Nat.shiftRight_zero]; omega

theorem fmag_eq (b : F64) : fmag b = patternMag (b.toNat % 2 ^ 63) := by
  simp only [fmag, fmant, fexp, ffrac_eq, fexpField_eq, patternMag, Nat.shiftLeft_eq]
  generalize b.toNat % 2 ^ 63 = n
  split
  · next h => rw [h]; simp only [zero_tsub, pow_zero, mul_one]; omega
  · rfl

theorem isFinite_iff (b : F64) : isFinite b = true ↔ b.toNat % 2 ^ 63 < 2047 * 2 ^ 52 := by
  simp only [isFinite, fexpField_eq, bne_iff_ne, ne_eq]
  have := Nat.mod_lt b.toNat (Nat.two_pow_pos 63); omega

theorem isInf_iff (b : F64) : isInf b = true ↔ b.toNat % 2 ^ 63 = 2047 * 2 ^ 52 := by
  simp only [isInf, fexpField_eq, ffrac_eq, Bool.and_eq_true, beq_iff_eq]
  have := Nat.mod_lt b.toNat (Nat.two_pow_pos 63); omega

theorem isInf_finf (neg : Bool) : isInf (finf neg) = true ∧ (finf neg).msb = neg := by
  cases neg <;> decide

/-- The value with sign `neg` and the 63-bit pattern `n`. -/
theorem packed {n : Nat} (h : n < 2 ^ 63) (neg : Bool) :
    let b : F64 := BitVec.ofNat 64 (n + if neg then 2 ^ 63 else 0)
    b.toNat % 2 ^ 63 = n ∧ b.msb = neg ∧ (n % 2 = 0 → b.getLsbD 0 = false) := by
  have ht : (BitVec.ofNat 64 (n + if neg then 2 ^ 63 else 0)).toNat = n + if neg then 2 ^ 63 else 0 := by
    rw [BitVec.toNat_ofNat, Nat.mod_eq_of_lt]; split <;> omega
  refine ⟨by rw [ht]; split <;> omega, ?_, fun he => ?_⟩
  · rw [BitVec.msb_eq_decide, ht]; cases neg <;> simp; omega
  · rw [← BitVec.testBit_toNat, ht, Nat.testBit_zero]; split <;> simp <;> omega

/-! ## Rounding -/

/-- The significand and the step that `roundPack` chooses for `y`, a real number known to lie at `m * 2^e` or,
when `sticky`, strictly between that and `(m + 1) * 2^e`. -/
structure Rounded (y : ℝ) (u sig : Nat) : Prop where
  le : sig ≤ 2 ^ 53
  normal : u = 0 ∨ 2 ^ 52 ≤ sig
  up : 2 * y ≤ (2 * sig + 1) * 2 ^ u
  upTie : 2 * y = (2 * sig + 1) * 2 ^ u → sig % 2 = 0
  down : (2 * (sig : ℝ) - 1) * 2 ^ u ≤ 2 * y
  downTie : (2 * (sig : ℝ) - 1) * 2 ^ u = 2 * y → sig % 2 = 0
  low : u ≠ 0 → sig = 2 ^ 52 → (sig : ℝ) * 2 ^ u ≤ y

theorem below_of_low {y c d g : ℝ} {P : Prop} (hdn : c = d + g) (hg : 0 < g) (low : c ≤ y) :
    d + c ≤ 2 * y ∧ (d + c = 2 * y → P) :=
  ⟨by linarith, fun h => absurd h (by linarith)⟩

theorem below_of_half {y c d g sig p : ℝ} (hc : c = sig * p) (hdn : c = d + g) (hg : p ≤ g)
    (half : (2 * sig - 1) * p ≤ 2 * y) : d + c ≤ 2 * y ∧ (d + c = 2 * y → (2 * sig - 1) * p = 2 * y) := by
  have e : (2 * sig - 1) * p = 2 * c - p := by rw [hc]; ring
  rw [e] at *
  exact ⟨by linarith, fun h => by linarith⟩

theorem above_of_half {y c d g sig p : ℝ} (hc : c = sig * p) (hup : d = c + g) (hg : p ≤ g)
    (half : 2 * y ≤ (2 * sig + 1) * p) : 2 * y ≤ c + d ∧ (2 * y = c + d → 2 * y = (2 * sig + 1) * p) := by
  have e : (2 * sig + 1) * p = 2 * c + p := by rw [hc]; ring
  rw [e] at *
  exact ⟨by linarith, fun h => by linarith⟩

/-- Of all patterns the chosen one is nearest, and even on a tie. -/
theorem Rounded.nearest {y : ℝ} {u sig : Nat} (h : Rounded y u sig) (k : Nat) :
    |(patternMag (u * 2 ^ 52 + sig) : ℝ) - y| ≤ |(patternMag k : ℝ) - y| ∧
    (|(patternMag (u * 2 ^ 52 + sig) : ℝ) - y| = |(patternMag k : ℝ) - y| → k ≠ u * 2 ^ 52 + sig →
      (u * 2 ^ 52 + sig) % 2 = 0) := by
  have hn : (patternMag (u * 2 ^ 52 + sig) : ℝ) = sig * 2 ^ u := by
    rw [patternMag_of_sig h.le h.normal]; push_cast; ring
  have even : sig % 2 = 0 → (u * 2 ^ 52 + sig) % 2 = 0 := by omega
  have hgap : (2 : ℝ) ^ u ≤ 2 ^ ((u * 2 ^ 52 + sig) / 2 ^ 52 - 1) := by
    refine pow_le_pow_right₀ (by norm_num) ?_
    have := h.normal; omega
  have hup : (patternMag (u * 2 ^ 52 + sig + 1) : ℝ) =
      patternMag (u * 2 ^ 52 + sig) + 2 ^ ((u * 2 ^ 52 + sig) / 2 ^ 52 - 1) := by
    rw [patternMag_succ]; push_cast; ring
  have hpos : (0 : ℝ) < 2 ^ u := by positivity
  have key : ∀ k, u * 2 ^ 52 + sig = k + 1 → (patternMag k : ℝ) + patternMag (u * 2 ^ 52 + sig) ≤ 2 * y ∧
      ((patternMag k : ℝ) + patternMag (u * 2 ^ 52 + sig) = 2 * y → (u * 2 ^ 52 + sig) % 2 = 0) := by
    intro k hk
    have hdn : (patternMag (u * 2 ^ 52 + sig) : ℝ) = patternMag k + 2 ^ (k / 2 ^ 52 - 1) := by
      rw [hk, patternMag_succ]; push_cast; ring
    have hkpos : (0 : ℝ) < 2 ^ (k / 2 ^ 52 - 1) := by positivity
    by_cases hb : u ≠ 0 ∧ sig = 2 ^ 52
    · have low := h.low hb.1 hb.2
      rw [← hn] at low
      exact below_of_low hdn hkpos low
    · have hg : (2 : ℝ) ^ u ≤ 2 ^ (k / 2 ^ 52 - 1) := by
        refine pow_le_pow_right₀ (by norm_num) ?_
        have := h.normal; omega
      exact (below_of_half hn hdn hg h.down).imp id fun f ht => even (h.downTie (f ht))
  obtain ⟨hu, hu'⟩ := above_of_half hn hup hgap h.up
  exact nearest_of_neighbours hu (fun ht => even (h.upTie (hu' ht)))
    (fun k hk => (key k hk).1) (fun k hk => (key k hk).2) k

theorem dist_of_signs_ne {a b : Bool} {c y : ℝ} (h : a ≠ b) (hc : 0 ≤ c) (hy : 0 ≤ y) :
    |(if a then -c else c) - if b then -y else y| = c + y := by
  cases a <;> cases b <;> simp only [ne_eq, not_true, Bool.false_eq_true, if_true, if_false] at h ⊢
  · rw [abs_of_nonneg (by linarith)]; ring
  · rw [abs_of_nonpos (by linarith)]; ring

/-- Whatever is nearest among all patterns is what R15 asks for, with the sign put to it. -/
theorem roundsTo_of_nearest {y : ℝ} {n : Nat} (neg : Bool) (hy : 0 < y)
    (near : ∀ k, |(patternMag n : ℝ) - y| ≤ |(patternMag k : ℝ) - y| ∧
      (|(patternMag n : ℝ) - y| = |(patternMag k : ℝ) - y| → k ≠ n → n % 2 = 0)) :
    RoundsTo (if neg then -y else y)
      (if n ≥ 0x7FF0000000000000 then finf neg else BitVec.ofNat 64 (n + if neg then 2 ^ 63 else 0)) := by
  have habs : |if neg then -y else y| = y := by cases neg <;> simp [abs_of_pos hy]
  have hsgn : ((if neg then -y else y) < 0) ↔ neg = true := by
    cases neg
    · simp [hy.le]
    · simp [hy]
  have hinf : (patternMag (2047 * 2 ^ 52) : ℝ) = 2 ^ 2098 := by
    have h : patternMag (2047 * 2 ^ 52 + 0) = (2 ^ 52 + 0) * 2 ^ (2047 - 1) := by
      rw [patternMag, (div_mod_of_lt (Nat.two_pow_pos 52)).1, (div_mod_of_lt (Nat.two_pow_pos 52)).2,
        if_neg (by decide)]
    rw [Nat.add_zero, Nat.add_zero, ← pow_add] at h
    rw [h, Nat.cast_pow, Nat.cast_ofNat]
  obtain ⟨top, htop⟩ : ∃ top, 2047 * 2 ^ 52 = top + 1 := ⟨2047 * 2 ^ 52 - 1, by decide⟩
  have hmax : (patternMag top : ℝ) = 2 ^ 2098 - 2 ^ 2045 := by
    have h := patternMag_succ top
    have hd : top / 2 ^ 52 - 1 = 2045 := by omega
    rw [← htop, hd] at h
    have h' : (patternMag (2047 * 2 ^ 52) : ℝ) = patternMag top + 2 ^ 2045 := by
      rw [h, Nat.cast_add, Nat.cast_pow, Nat.cast_ofNat]
    exact eq_sub_of_add_eq (h'.symm.trans hinf)
  have h45 : (2 : ℝ) ^ 2045 = 2 ^ 2044 * 2 := pow_succ (2 : ℝ) 2044
  have hgap : (0 : ℝ) < 2 ^ 2044 := by positivity
  rw [RoundsTo, habs]
  generalize (2 : ℝ) ^ 2098 = big at *
  generalize (2 : ℝ) ^ 2045 = gap at *
  generalize (2 : ℝ) ^ 2044 = half at *
  have above : 2047 * 2 ^ 52 ≤ n → big ≤ patternMag n := fun h => by
    rw [← hinf]; exact_mod_cast patternMag_strictMono.monotone h
  have below : n < 2047 * 2 ^ 52 → (patternMag n : ℝ) ≤ big - gap := fun h => by
    rw [← hmax]; exact_mod_cast patternMag_strictMono.monotone (by omega)
  have finite : y < big - half → n < 2047 * 2 ^ 52 := fun hlt => by
    by_contra hge
    have h := (near top).1
    have ho := above (by omega)
    rw [hmax, abs_of_nonneg (by linarith)] at h
    rcases abs_cases (big - gap - y) with ⟨e, _⟩ | ⟨e, _⟩ <;> rw [e] at h <;> linarith
  have infinite : big - half ≤ y → ¬ n < 2047 * 2 ^ 52 := fun hge hlt => by
    have hu := below hlt
    have h := near (2047 * 2 ^ 52)
    rw [hinf, abs_sub_comm, abs_of_nonneg (by linarith)] at h
    rcases abs_cases (big - y) with ⟨e, _⟩ | ⟨e, _⟩
    · rw [e] at h
      have hm : (patternMag n : ℝ) = patternMag top := by linarith [h.1]
      have hn : n = top := patternMag_strictMono.injective (by exact_mod_cast hm)
      have := h.2 (by linarith) (by omega)
      omega
    · rw [e] at h; linarith [h.1]
  by_cases hn : n < 2047 * 2 ^ 52
  · rw [if_neg (show ¬ n ≥ 0x7FF0000000000000 by omega)]
    obtain ⟨hp, hs, he⟩ := packed (show n < 2 ^ 63 by omega) neg
    generalize BitVec.ofNat 64 (n + if neg then 2 ^ 63 else 0) = out at *
    refine ⟨fun _ => by rw [hs, hsgn], fun _ => ⟨(isFinite_iff _).2 (by rw [hp]; exact hn), fun r _ => ?_⟩,
      fun hge => absurd hn (infinite hge)⟩
    have hout : (funits out : ℝ) = if neg then -(patternMag n : ℝ) else patternMag n := by
      simp only [funits, fsign, hs, fmag_eq, hp]; cases neg <;> simp
    have hr : (funits r : ℝ) = if r.msb then -(patternMag (r.toNat % 2 ^ 63) : ℝ)
        else patternMag (r.toNat % 2 ^ 63) := by
      simp only [funits, fsign, fmag_eq]; cases r.msb <;> simp
    have hoff : |(funits out : ℝ) - if neg then -y else y| = |(patternMag n : ℝ) - y| := by
      rw [hout]; cases neg
      · rfl
      · simp only [if_true]; rw [← abs_neg]; congr 1; ring
    have hk := near (r.toNat % 2 ^ 63)
    have hpos : (0 : ℝ) ≤ patternMag (r.toNat % 2 ^ 63) := Nat.cast_nonneg _
    rw [hoff, hr]
    by_cases hsame : r.msb = neg
    · have hro : |(if r.msb then -(patternMag (r.toNat % 2 ^ 63) : ℝ) else patternMag (r.toNat % 2 ^ 63)) -
          if neg then -y else y| = |(patternMag (r.toNat % 2 ^ 63) : ℝ) - y| := by
        rw [hsame]; cases neg
        · rfl
        · simp only [if_true]; rw [← abs_neg]; congr 1; ring
      rw [hro]
      refine ⟨hk.1, fun ht hne => he (hk.2 ht fun hkn => hne ?_)⟩
      have : (funits r : ℝ) = funits out := by rw [hr, hout, hkn, hsame]
      exact_mod_cast this
    · have hro : |(if r.msb then -(patternMag (r.toNat % 2 ^ 63) : ℝ) else patternMag (r.toNat % 2 ^ 63)) -
          if neg then -y else y| = patternMag (r.toNat % 2 ^ 63) + y :=
        dist_of_signs_ne hsame hpos hy.le
      have hfar : |(patternMag (r.toNat % 2 ^ 63) : ℝ) - y| ≤ patternMag (r.toNat % 2 ^ 63) + y :=
        abs_le.2 ⟨by linarith, by linarith⟩
      rw [hro]
      refine ⟨hk.1.trans hfar, fun ht hne => he ?_⟩
      have hzero : (patternMag (r.toNat % 2 ^ 63) : ℝ) = 0 := by
        have := hk.1
        rcases abs_cases ((patternMag (r.toNat % 2 ^ 63) : ℝ) - y) with ⟨e, _⟩ | ⟨e, _⟩ <;> linarith
      refine hk.2 (by rw [ht, hzero]; simp [abs_of_pos hy]) fun hkn => hne ?_
      have : (funits r : ℝ) = funits out := by rw [hr, hout, ← hkn, hzero]; simp
      exact_mod_cast this
  · rw [if_pos (show n ≥ 0x7FF0000000000000 by omega)]
    obtain ⟨hi, hs⟩ := isInf_finf neg
    exact ⟨fun _ => by rw [hs, hsgn], fun hlt => absurd (finite hlt) hn, fun _ => hi⟩

/-- What `roundPack` does: the exact number, known by `m`, `e` and `sticky`, rounded as R15 says. -/
theorem roundPack_roundsTo {neg : Bool} {m : Nat} {e : Int} {sticky : Bool} {y : ℝ} (hm : m ≠ 0)
    (lo : (m : ℝ) * 2 ^ e ≤ y) (hi : y < (m + 1) * 2 ^ e) (exact : sticky = false → y = m * 2 ^ e)
    (inexact : sticky = true → (m : ℝ) * 2 ^ e < y ∧ 2 ^ 53 ≤ m) :
    RoundsTo (if neg then -y else y) (roundPack neg m e sticky) := by
  have hpe : (0 : ℝ) < 2 ^ e := by positivity
  have hm1 : (1 : ℝ) ≤ m := by exact_mod_cast Nat.one_le_iff_ne_zero.2 hm
  have hy : 0 < y := lt_of_lt_of_le (by positivity) lo
  have hL := Nat.log2_self_le hm
  have hU : m < 2 ^ (m.log2 + 1) := Nat.lt_log2_self
  rw [roundPack, if_neg hm]
  generalize m.log2 = L at *
  obtain ⟨u, hu⟩ : ∃ u : Nat, max (e + (L + 1) - 53) 0 = (u : Int) :=
    ⟨(max (e + (L + 1) - 53) 0).toNat, by omega⟩
  simp only [hu, Int.toNat_natCast]
  refine roundsTo_of_nearest neg hy (Rounded.nearest ?_)
  by_cases hc : (u : Int) ≤ e
  · obtain ⟨j, hj⟩ : ∃ j : Nat, e = u + j := ⟨(e - u).toNat, by omega⟩
    have hst : sticky = false := by
      by_contra hst
      have h53 := (inexact (by simpa using hst)).2
      have : (53 : Nat) < L + 1 := (Nat.pow_lt_pow_iff_right (by norm_num)).1 (lt_of_le_of_lt h53 hU)
      omega
    have hye := exact hst
    have hjt : (e - u).toNat = j := by omega
    have hsig : y = ((m <<< j : Nat) : ℝ) * 2 ^ u := by
      rw [hye, hj, Nat.shiftLeft_eq, zpow_add₀ (by norm_num), zpow_natCast, zpow_natCast]; push_cast; ring
    rw [if_pos hc, hjt]
    have hpu : (0 : ℝ) < 2 ^ u := by positivity
    refine ⟨?_, ?_, by rw [hsig]; nlinarith, fun h => by rw [hsig] at h; nlinarith,
      by rw [hsig]; nlinarith, fun h => by rw [hsig] at h; nlinarith, fun _ _ => by rw [hsig]⟩
    · rw [Nat.shiftLeft_eq]
      calc m * 2 ^ j ≤ 2 ^ (L + 1) * 2 ^ j := Nat.mul_le_mul_right _ hU.le
        _ = 2 ^ (L + 1 + j) := (pow_add ..).symm
        _ ≤ 2 ^ 53 := Nat.pow_le_pow_right (by norm_num) (by omega)
    · rcases Nat.eq_zero_or_pos u with h0 | h0
      · exact .inl h0
      · refine .inr ?_
        rw [Nat.shiftLeft_eq]
        calc 2 ^ 52 ≤ 2 ^ (L + j) := Nat.pow_le_pow_right (by norm_num) (by omega)
          _ = 2 ^ L * 2 ^ j := pow_add ..
          _ ≤ m * 2 ^ j := Nat.mul_le_mul_right _ hL
  · obtain ⟨j, hj⟩ : ∃ j : Nat, (u : Int) = e + j := ⟨(u - e).toNat, by omega⟩
    have hjt : (u - e).toNat = j := by omega
    have hz : y = y / 2 ^ e * 2 ^ e := by field_simp
    have hpu : (2 : ℝ) ^ u = 2 ^ j * 2 ^ e := by
      rw [← zpow_natCast, hj, zpow_add₀ (by norm_num), zpow_natCast]; ring
    obtain ⟨hq, h1, h2, h3, h4⟩ := roundShift_spec (m := m) (k := j) (sticky := sticky) (z := y / 2 ^ e)
      (by omega) ((le_div_iff₀ hpe).2 lo) ((div_lt_iff₀ hpe).2 hi)
      (fun h => (div_eq_iff hpe.ne').2 (exact h)) (fun h => (lt_div_iff₀ hpe).2 (inexact h).1)
    rw [if_neg hc, hjt]
    have hshift : m >>> j = m / 2 ^ j := Nat.shiftRight_eq_div_pow ..
    have hlow : m / 2 ^ j < 2 ^ 53 := by
      rw [Nat.div_lt_iff_lt_mul (Nat.two_pow_pos j), ← pow_add]
      exact lt_of_lt_of_le hU (Nat.pow_le_pow_right (by norm_num) (by omega))
    have hhigh : u ≠ 0 → 2 ^ 52 ≤ m / 2 ^ j := fun h0 => by
      rw [Nat.le_div_iff_mul_le (Nat.two_pow_pos j), ← pow_add]
      exact le_trans (Nat.pow_le_pow_right (by norm_num) (by omega)) hL
    generalize roundShift m j sticky = sig at *
    have key : ∀ c : ℝ, c * 2 ^ u = c * 2 ^ j * 2 ^ e := fun c => by rw [hpu]; ring
    have conv : ∀ c : ℝ, 2 * y = c * 2 ^ u ↔ 2 * (y / 2 ^ e) = c * 2 ^ j := fun c => by
      rw [key, ← mul_div_assoc, div_eq_iff hpe.ne']
    refine ⟨by omega, ?_, ?_, fun h => h2 ((conv _).1 h), ?_, fun h => h4 ((conv _).1 h.symm).symm, ?_⟩
    · rcases Nat.eq_zero_or_pos u with h0 | h0
      · exact .inl h0
      · have := hhigh (by omega); exact .inr (by omega)
    · rw [key, ← div_le_iff₀ hpe, mul_div_assoc]; exact h1
    · rw [key, ← le_div_iff₀ hpe, mul_div_assoc]; exact h3
    · intro h0 hs
      have hsig : m / 2 ^ j = sig := by have := hhigh h0; omega
      have : sig * 2 ^ j ≤ m := by rw [← hsig]; exact Nat.div_mul_le_self ..
      have : (sig : ℝ) * 2 ^ j ≤ m := by exact_mod_cast this
      rw [key]
      exact le_trans (mul_le_mul_of_nonneg_right this hpe.le) lo

end Sys2Proof.Machine
end

