-- ==== Sys2Proof/Laws/Lowpass.lean ====
section
/-! SUPPORT. What the check of a lowpass order means: the terms of an order are its value in exact arithmetic
(`LowpassExpr.terms_value`), so an order that passes is the formula of 41_iir.md R101 (`LowpassExpr.exact_of_isLowpass`);
and what one update answers (`lowpass_out`). -/

namespace Sys2Proof.Machine

/-- The value of a monomial. -/
noncomputable def Monomial.value (a p v : ℝ) (m : Monomial) : ℝ := a ^ m.1 * p ^ m.2.1 * v ^ m.2.2

/-- The value of a polynomial. -/
noncomputable def Terms.value (a p v : ℝ) (t : Terms) : ℝ :=
  (t.map fun t => (t.2 : ℝ) * Monomial.value a p v t.1).sum

section
variable {a p v : ℝ}

@[simp] theorem Terms.value_nil : Terms.value a p v [] = 0 := rfl

@[simp] theorem Terms.value_cons (m : Monomial) (c : Int) (t : Terms) :
    Terms.value a p v ((m, c) :: t) = c * Monomial.value a p v m + Terms.value a p v t := rfl

theorem Monomial.value_add (m n : Monomial) :
    Monomial.value a p v (m + n) = Monomial.value a p v m * Monomial.value a p v n := by
  simp only [Monomial.value, Prod.fst_add, Prod.snd_add, pow_add]; ring

theorem Terms.value_append (s t : Terms) :
    Terms.value a p v (s ++ t) = Terms.value a p v s + Terms.value a p v t := by
  simp [Terms.value]

theorem value_map_mulTerm (m : Monomial) (c : Int) (t : Terms) :
    Terms.value a p v (t.map (mulTerm (m, c))) = c * Monomial.value a p v m * Terms.value a p v t := by
  induction t with
  | nil => simp
  | cons u t ih =>
    obtain ⟨n, d⟩ := u
    rw [List.map_cons, mulTerm, Terms.value_cons, ih, Terms.value_cons, Monomial.value_add]; push_cast; ring

theorem value_product (s t : Terms) :
    Terms.value a p v (s.flatMap fun u => t.map (mulTerm u)) = Terms.value a p v s * Terms.value a p v t := by
  induction s with
  | nil => simp
  | cons u s ih =>
    obtain ⟨m, c⟩ := u
    rw [List.flatMap_cons, Terms.value_append, ih, value_map_mulTerm, Terms.value_cons]; ring

/-- The terms of an order have its value. -/
theorem LowpassExpr.terms_value (e : LowpassExpr) : Terms.value a p v e.terms = e.exact a p v := by
  have one : Monomial.value a p v 0 = 1 := by simp [Monomial.value]
  induction e with
  | alpha | prev | sample | one => simp [terms, exact, Monomial.value]
  | add b c hb hc => rw [terms, Terms.value_append, hb, hc, exact]
  | sub b c hb hc => rw [terms, Terms.value_append, value_map_mulTerm, hb, hc, one, exact]; push_cast; ring
  | mul b c hb hc => rw [terms, value_product, hb, hc, exact]

/-- An order that passes the check is the lowpass formula in exact arithmetic (R101). -/
theorem LowpassExpr.exact_of_isLowpass {e : LowpassExpr} (h : e.isLowpass = true) :
    e.exact a p v = p + a * (v - p) := by
  rw [← terms_value, Terms.value, ((List.isPerm_iff.1 h).map _).sum_eq]
  simp [lowpassTerms, Monomial.value]; ring

end

/-- The order R101 writes passes the check. -/
theorem lowpassAsWritten_isLowpass : lowpassAsWritten.isLowpass = true := by decide +kernel

/-- One update: the output is what `LowpassOut` says, and becomes the slot's previous output. -/
theorem lowpass_out (hw : HwParams) (p : Path) (filter : Filter) (v : F64) :
    ∃ out, lowpass hw.lowpassOrder p filter v = (⟨filter.alpha, out⟩, out) ∧
      LowpassOut hw filter.alpha filter.prev v out := by
  refine ⟨_, rfl, ?_⟩
  unfold LowpassOut lowpassUpdate
  by_cases hc : lowpassCorner filter.alpha filter.prev v = true
  · rw [if_pos (.inr hc), if_pos hc]; exact ⟨_, _, _, _, rfl⟩
  · by_cases ho : hw.lowpassOrder = lowpassAsWritten
    · rw [if_pos (.inl ho), if_neg hc, ho]; exact ⟨_, _, _, _, rfl⟩
    · rw [if_neg (not_or.2 ⟨ho, hc⟩), if_neg hc]; exact ⟨_, rfl⟩

end Sys2Proof.Machine
end

