-- ==== Sys2Proof/Laws/PerInstr.lean ====
section
/-! SUPPORT. One lemma per command, named after its constructor: the encoder puts the row's operation code
into the top byte of the word. -/

namespace Sys2Proof.Laws.OpcodeByte

/-- The word of a command carries its row's operation code in bits 31:24 (30_encoding.md R70, R75). -/
def Statement (i : Instr) : Prop := (fieldsOf (encode i)).opc = i.opcodeRow.pattern.extractLsb' 24 8

theorem nop : Statement (.nop) := by
  simp [Statement, encode, fieldsOf_assemble, encodeFields, Instr.opcodeRow]

theorem prngSeed (c : CtxId) (xS : RegId) : Statement (.prngSeed c xS) := by
  simp [Statement, encode, fieldsOf_assemble, encodeFields, Instr.opcodeRow]

theorem prngNext (c : CtxId) (xD : RegId) : Statement (.prngNext c xD) := by
  simp [Statement, encode, fieldsOf_assemble, encodeFields, Instr.opcodeRow]

theorem prngU01 (c : CtxId) (fD : RegId) : Statement (.prngU01 c fD) := by
  simp [Statement, encode, fieldsOf_assemble, encodeFields, Instr.opcodeRow]

theorem prngUrange (c : CtxId) (fD fLo fHi : RegId) : Statement (.prngUrange c fD fLo fHi) := by
  simp [Statement, encode, fieldsOf_assemble, encodeFields, Instr.opcodeRow]

theorem prngTri (c : CtxId) (fD fLo fHi fMode : RegId) : Statement (.prngTri c fD fLo fHi fMode) := by
  simp [Statement, encode, fieldsOf_assemble, encodeFields, Instr.opcodeRow]

theorem iirInit (c : CtxId) (slot : SlotId) (fRate fCut fVal : RegId) : Statement (.iirInit c slot fRate fCut fVal) := by
  simp [Statement, encode, fieldsOf_assemble, encodeFields, Instr.opcodeRow]

theorem iirLp (c : CtxId) (slot : SlotId) (fD fS : RegId) : Statement (.iirLp c slot fD fS) := by
  simp [Statement, encode, fieldsOf_assemble, encodeFields, Instr.opcodeRow]

theorem iirHp (c : CtxId) (slot : SlotId) (fD fS : RegId) : Statement (.iirHp c slot fD fS) := by
  simp [Statement, encode, fieldsOf_assemble, encodeFields, Instr.opcodeRow]

theorem iirLpa (c : CtxId) (slot : SlotId) (lD lS : LineId) : Statement (.iirLpa c slot lD lS) := by
  simp [Statement, encode, fieldsOf_assemble, encodeFields, Instr.opcodeRow]

theorem iirHpa (c : CtxId) (slot : SlotId) (lD lS : LineId) : Statement (.iirHpa c slot lD lS) := by
  simp [Statement, encode, fieldsOf_assemble, encodeFields, Instr.opcodeRow]

theorem iirInit3 (c : CtxId) (slot : SlotId) (fRate fCut fVal : RegId) : Statement (.iirInit3 c slot fRate fCut fVal) := by
  simp [Statement, encode, fieldsOf_assemble, encodeFields, Instr.opcodeRow]

theorem iirLp3 (c : CtxId) (slot : SlotId) (fD fS : RegId) : Statement (.iirLp3 c slot fD fS) := by
  simp [Statement, encode, fieldsOf_assemble, encodeFields, Instr.opcodeRow]

theorem iirLpa3 (c : CtxId) (slot : SlotId) (lD lS : LineId) : Statement (.iirLpa3 c slot lD lS) := by
  simp [Statement, encode, fieldsOf_assemble, encodeFields, Instr.opcodeRow]

theorem fftFwd (c : CtxId) : Statement (.fftFwd c) := by
  simp [Statement, encode, fieldsOf_assemble, encodeFields, Instr.opcodeRow]

theorem fftInv (c : CtxId) : Statement (.fftInv c) := by
  simp [Statement, encode, fieldsOf_assemble, encodeFields, Instr.opcodeRow]

theorem fftShift (c : CtxId) : Statement (.fftShift c) := by
  simp [Statement, encode, fieldsOf_assemble, encodeFields, Instr.opcodeRow]

theorem zLdre (c : CtxId) (lS : LineId) : Statement (.zLdre c lS) := by
  simp [Statement, encode, fieldsOf_assemble, encodeFields, Instr.opcodeRow]

theorem zStre (c : CtxId) (lD : LineId) : Statement (.zStre c lD) := by
  simp [Statement, encode, fieldsOf_assemble, encodeFields, Instr.opcodeRow]

theorem zMulr (c : CtxId) (lS : LineId) : Statement (.zMulr c lS) := by
  simp [Statement, encode, fieldsOf_assemble, encodeFields, Instr.opcodeRow]

theorem cscRgb2yiq : Statement (.cscRgb2yiq) := by
  simp [Statement, encode, fieldsOf_assemble, encodeFields, Instr.opcodeRow]

theorem cscYiq2rgb (fld : FieldId) : Statement (.cscYiq2rgb fld) := by
  simp [Statement, encode, fieldsOf_assemble, encodeFields, Instr.opcodeRow]

theorem muxEnc (fld : FieldId) (xAmp : RegId) : Statement (.muxEnc fld xAmp) := by
  simp [Statement, encode, fieldsOf_assemble, encodeFields, Instr.opcodeRow]

theorem muxDec (fld : FieldId) (xAmp : RegId) : Statement (.muxDec fld xAmp) := by
  simp [Statement, encode, fieldsOf_assemble, encodeFields, Instr.opcodeRow]

theorem ldRow (c : CtxId) (lD : LineId) (p : PlaneId) (xRow : RegId) : Statement (.ldRow c lD p xRow) := by
  simp [Statement, encode, fieldsOf_assemble, encodeFields, Instr.opcodeRow]

theorem stRow (c : CtxId) (p : PlaneId) (xRow xShift : RegId) (lS : LineId) : Statement (.stRow c p xRow xShift lS) := by
  simp [Statement, encode, fieldsOf_assemble, encodeFields, Instr.opcodeRow]

theorem pipeProcess : Statement (.pipeProcess) := by
  simp [Statement, encode, fieldsOf_assemble, encodeFields, Instr.opcodeRow]

theorem pipeStage (fld : FieldId) (k : Fin 32) : Statement (.pipeStage fld k) := by
  simp [Statement, encode, fieldsOf_assemble, encodeFields, Instr.opcodeRow]

end Sys2Proof.Laws.OpcodeByte
end

