-- ==== Sys2Proof/Tests/Slice0.lean ====
section
/-! SUPPORT. Own tests: the checks of WellFormed, words written out from 30_encoding.md R70 to R76, one step of
each command against 95_test_vectors.md or the example of the command's rule, and for every statement with
hypotheses a concrete case that meets them (`witness_<statement>`). -/

namespace Sys2Proof.Tests

set_option Elab.async false

open Sys2Proof.Machine

/-! ## Small states -/

/-- Parameters with the defaults of 95_test_vectors.md: norm 50, 14318181.8 Hz, delays 2, 4, 1; 8 columns, 4
rows, 8 samples. -/
def params : HwParams :=
  ⟨0xAA5, 8, 4, 8, 1, 2, 3, 0x416B4F4CBA2E8BA3, 50, 2, 4, 1, ⟨true, false, true⟩, true, lowpassAsWritten⟩

/-- The state after reset with `W`, `H` and `VL` set. -/
def sized (w h n : U32) : State := { State.resetWith params with width := w, height := h, vl := n }

/-- A 4 by 2 frame, two samples. -/
def small : State := sized 4 2 2

/-- `small` after an error of code 1. -/
def failed : State := { small with status := ⟨false, false, true, false, 1⟩, errinfo := 0x80000000 }

/-- `small` in a run. -/
def running (k₀ k₁ : Nat) (turns : List Agent) : State :=
  { small with status := ⟨true, false, false, false, 0⟩, sc := #v[k₀, k₁], turns := turns }

/-- The planar buffer with the given samples from index 0 on, none of them zero. -/
def samples (vs : List Int) : Memory 32 :=
  ⟨.zero, (vs.map (BitVec.ofInt 32)).zipIdx.map fun c => (c.2, c.1)⟩

/-- A line or complex buffer with the given elements from index 0 on, none of them zero. -/
def reals (vs : List F64) : Memory 64 := ⟨.zero, vs.zipIdx.map fun c => (c.2, c.1)⟩

/-- The state a step answers. -/
def answer (o : Host.Outcome State Fault Refusal) : State :=
  match o with
  | .next t => t
  | _ => State.resetWith params

/-- Whether a step answers a next state. -/
def ran (o : Host.Outcome State Fault Refusal) : Bool :=
  match o with
  | .next _ => true
  | _ => false

theorem next_of_ran {o : Host.Outcome State Fault Refusal} (h : ran o = true) : ∃ t, o = .next t := by
  cases o with
  | next t => exact ⟨t, rfl⟩
  | fault _ => cases h
  | refused _ => cases h

theorem reset_lines : ∀ (c : Fin 3) (b : Fin 4), (State.resetWith params).ctx[c].lb[b] = Memory.empty := by
  decide +kernel

theorem reset_complex : ∀ c : Fin 3, (State.resetWith params).ctx[c].z = Memory.empty := by
  decide +kernel

theorem inv_of {s : State} (hw : s.hw = params) (ctx : s.ctx = (State.resetWith params).ctx)
    (rgbin : s.rgbin = Memory.empty) (rgbout : s.rgbout = Memory.empty)
    (yiq : s.yiq.wf ∧ s.yiq.fill = .zero ∧ ∀ c ∈ s.yiq.cells, c.1 < s.frameSize)
    (sizes : s.frameW ≤ 8 ∧ s.frameH ≤ 4 ∧ s.vlen ≤ 8)
    (counters : s.sc[0] ≤ 17 ∧ s.sc[1] ≤ 17 ∧ (s.status.busy = false → s.sc[0] = 17 ∧ s.sc[1] = 17))
    (errors : (s.status.err = false → s.status.errcode = 0 ∧ s.errinfo = 0) ∧
      (s.status.err = true → 1 ≤ s.status.errcode.toNat ∧ s.status.errcode.toNat ≤ 4))
    (run : s.status.busy = true →
      s.status.err = false ∧ s.frameEmpty = false ∧ s.badRingLength = false) : s.Inv where
  params := by rw [hw]; decide +kernel
  width := by rw [hw]; exact sizes.1
  height := by rw [hw]; exact sizes.2.1
  vl := by rw [hw]; exact sizes.2.2
  counters t := by fin_cases t; exacts [counters.1, counters.2.1]
  idle := counters.2.2
  noError := errors.1
  errorCode := errors.2
  run := run
  contexts c := by
    rw [ctx]
    exact ⟨fun b => by rw [reset_lines]; exact ⟨⟨.nil, nofun⟩, nofun⟩,
      by rw [reset_complex]; exact ⟨⟨.nil, nofun⟩, nofun⟩⟩
  rgbin := by rw [rgbin]; exact ⟨⟨.nil, nofun⟩, rfl, nofun⟩
  rgbout := by rw [rgbout]; exact ⟨⟨.nil, nofun⟩, rfl, nofun⟩
  yiq := ⟨yiq.1, yiq.2.1, yiq.2.2⟩

theorem small_inv : small.Inv := by
  refine inv_of rfl rfl rfl rfl ?_ ?_ ?_ ?_ ?_ <;> decide +kernel

theorem running_inv : (running 0 3 []).Inv := by
  refine inv_of rfl rfl rfl rfl ?_ ?_ ?_ ?_ ?_ <;> decide +kernel

/-! ## WellFormed: one ill-formed term for each check -/

theorem test_iirInit3_slot_six_refused : (Instr.iirInit3 2 6 0 0 0).wellFormed = false := by decide
theorem test_iirLp3_slot_six_refused : (Instr.iirLp3 2 6 0 0).wellFormed = false := by decide
theorem test_iirLpa3_slot_seven_refused : (Instr.iirLpa3 2 7 0 0).wellFormed = false := by decide
theorem test_pipeStage_seventeen_refused : (Instr.pipeStage 0 17).wellFormed = false := by decide

/-! ## Words written out field by field: opc, ctx, rd, rs1, rs2, rs3, imm (R70, R73, R74, R75) -/

theorem test_words_system_and_prng :
    decode 0b00000000_00_000_000_000_000_0000000000 = some .nop ∧
    decode 0b00010000_10_000_001_000_000_0000000000 = some (.prngSeed 2 1) ∧
    decode 0b00010001_01_011_000_000_000_0000000000 = some (.prngNext 1 3) ∧
    decode 0b00010010_00_111_000_000_000_0000000000 = some (.prngU01 0 7) ∧
    decode 0b00010011_10_001_010_110_000_0000000000 = some (.prngUrange 2 1 2 6) ∧
    decode 0b00010100_10_100_010_011_101_0000000000 = some (.prngTri 2 4 2 3 5) := by decide

theorem test_words_iir :
    decode 0b00100000_10_000_100_101_110_0000000111 = some (.iirInit 2 7 4 5 6) ∧
    decode 0b00100001_01_010_111_000_000_0000000011 = some (.iirLp 1 3 2 7) ∧
    decode 0b00100010_00_110_001_000_000_0000000100 = some (.iirHp 0 4 6 1) ∧
    decode 0b00100011_10_011_010_000_000_0000000001 = some (.iirLpa 2 1 3 2) ∧
    decode 0b00100100_01_001_011_000_000_0000000110 = some (.iirHpa 1 6 1 3) ∧
    decode 0b00100101_10_000_001_010_011_0000000101 = some (.iirInit3 2 5 1 2 3) ∧
    decode 0b00100110_00_101_100_000_000_0000000010 = some (.iirLp3 0 2 5 4) ∧
    decode 0b00100111_10_001_000_000_000_0000000000 = some (.iirLpa3 2 0 1 0) := by decide

theorem test_words_fft_and_complex_buffer :
    decode 0b00110000_10_000_000_000_000_0000000000 = some (.fftFwd 2) ∧
    decode 0b00110001_01_000_000_000_000_0000000000 = some (.fftInv 1) ∧
    decode 0b00110010_00_000_000_000_000_0000000000 = some (.fftShift 0) ∧
    decode 0b00110011_10_000_011_000_000_0000000000 = some (.zLdre 2 3) ∧
    decode 0b00110100_01_010_000_000_000_0000000000 = some (.zStre 1 2) ∧
    decode 0b00110101_10_000_001_000_000_0000000000 = some (.zMulr 2 1) := by decide

theorem test_words_csc_and_mux :
    decode 0b01000000_00_000_000_000_000_0000000000 = some .cscRgb2yiq ∧
    decode 0b01000001_00_000_000_000_000_0000000001 = some (.cscYiq2rgb 1) ∧
    decode 0b01010000_00_000_110_000_000_0000000000 = some (.muxEnc 0 6) ∧
    decode 0b01010001_00_000_011_000_000_0000000001 = some (.muxDec 1 3) := by decide

theorem test_words_memory_and_pipe :
    decode 0b01100000_10_000_010_000_000_0000000001 = some (.ldRow 2 0 1 2) ∧
    decode 0b01100001_01_000_010_101_011_0000000010 = some (.stRow 1 2 2 5 3) ∧
    decode 0b01110000_00_000_000_000_000_0000000000 = some .pipeProcess ∧
    decode 0b01110001_00_000_000_000_000_0000011111 = some (.pipeStage 1 15) ∧
    decode 0b01110001_00_000_000_000_000_0000100000 = some (.pipeStage 0 16) := by decide

/-- Vectors V71, V73, V75 to V77, V79, V82 to V84. -/
theorem test_illegal_words :
    ([0x00000001, 0x11C00000, 0x15000000, 0x23A00000, 0x26800006, 0x60800003, 0x71000022, 0x80000000,
      0xFFFFFFFF, 0x41000002] : List U32).all (fun w => decode w == none) = true := by decide +kernel

/-- One word of each row of the opcode map, run as the first command after reset. -/
theorem test_every_row_runs_after_reset :
    ([0x00000000, 0x10000000, 0x11000000, 0x12000000, 0x13000000, 0x14000000, 0x20000000,
      0x21000000, 0x22000000, 0x23000000, 0x24000000, 0x25000000, 0x26000000, 0x27000000, 0x30000000,
      0x31000000, 0x32000000, 0x33000000, 0x34000000, 0x35000000, 0x40000000, 0x41000000, 0x50000000,
      0x51000000, 0x60000000, 0x61000000, 0x70000000, 0x71000000] : List Nat).all (fun w =>
        (decodeTableWord 32 w).isSome && ran (step (State.reset.withFetchWord 32 w))) = true := by
  decide +kernel

/-! ## One step of each command, results from 95_test_vectors.md and the rules' examples -/

/-- R210: `NOP` is accepted while an error is recorded and changes nothing. -/
theorem test_nop_keeps_the_error : exec .nop failed = .next failed := rfl

/-- V1: the expansion of seed 1. -/
theorem test_prngSeed : (answer (exec (.prngSeed 2 1) (small.setX 1 1))).ctx[2].gen =
    ⟨0x00000001, 0x159A55E5, 0x1F123BB5, 0x05491333, 0x00583F19, 0x0064F0C9⟩ := by decide +kernel

/-- V10: seed 0 on `PRNG.SEED c2, x1` gives `STATUS` 0x44. -/
theorem test_prngSeed_zero :
    (answer (exec (.prngSeed 2 1) small)).status.word = 0x44 ∧
    (answer (exec (.prngSeed 2 1) small)).errinfo = 0x10810000 := by decide +kernel

/-- `small` with the seed 1 expanded in context 2. -/
def seeded : State := small.setGen 2 (seedExpand 1)

/-- V1: the first and the fourth draw. -/
theorem test_prngNext :
    (answer (exec (.prngNext 2 3) seeded)).x[3] = 105269016 ∧
    (answer (exec (.prngNext 2 3) (seeded.setGen 2 (advance 3 (seedExpand 1))))).x[3] = 3127460036 := by
  decide +kernel

/-- V6: 0.024509852757796144. -/
theorem test_prngU01 : (answer (exec (.prngU01 2 0) seeded)).f[0] = 0x3F99191C6019191C := by
  decide +kernel

/-- V7: in [-1.0, 1.0], the source `f2` also the destination: -0.9509802944844077. -/
theorem test_prngUrange :
    (answer (exec (.prngUrange 2 2 2 6)
      ((seeded.setF 2 0xBFF0000000000000).setF 6 0x3FF0000000000000))).f[2] = 0xBFEE6E6E39FE6E6E := by
  decide +kernel

/-- V8: (0.0, 10.0, 2.0): 0.7001407395345045. -/
theorem test_prngTri :
    (answer (exec (.prngTri 2 5 2 3 4)
      ((seeded.setF 3 0x4024000000000000).setF 4 0x4000000000000000))).f[5] = 0x3FE6678D8D5CBC04 := by
  decide +kernel

/-- V13: rate 4.0, cutoff 1.0: 0.6110154703516573. -/
theorem test_iirInit :
    (answer (exec (.iirInit 1 7 0 1 2)
      ((small.setF 0 0x4010000000000000).setF 1 0x3FF0000000000000))).ctx[1].flt[7].alpha =
      0x3FE38D7050D05568 := by decide +kernel

/-- `small` with alpha 0.5 in every slot of context 2 from `slot` to `slot + 2`. -/
def halved (slot : SlotId) : State :=
  small.setCascade 2 slot
    (⟨0x3FE0000000000000, 0⟩, ⟨0x3FE0000000000000, 0⟩, ⟨0x3FE0000000000000, 0⟩)

/-- V15, V16: the first sample 100 gives 50 from either filter, in place; the second gives 75 from the lowpass. -/
theorem test_iirLp :
    (answer (exec (.iirLp 2 0 1 1) ((halved 0).setF 1 0x4059000000000000))).f[1] = 0x4049000000000000 ∧
    (answer (exec (.iirLp 2 0 1 1) (((halved 0).setF 1 0x4059000000000000).setFlt 2 0
      ⟨0x3FE0000000000000, 0x4049000000000000⟩))).ctx[2].flt[0].prev = 0x4052C00000000000 := by
  decide +kernel

/-- `alpha*s + (1 - alpha)*prev`. -/
def convexOrder : LowpassExpr := .add (.mul .alpha .sample) (.mul (.sub .one .alpha) .prev)

/-- V19a and R105 in another order than the one R101 writes: a slot never initialised returns 0.0, an infinity enters
the slot, and after it the update is that of R101. -/
theorem test_iirLp_corners :
    let s : State := { small with hw := { params with lowpassOrder := convexOrder } }
    let out := fun (filter : Filter) (v : F64) =>
      (answer (exec (.iirLp 2 0 1 0) ((s.setFlt 2 0 filter).setF 0 v))).f[1]
    out ⟨0, 0⟩ 0x7FE1CCF385EBC8A0 = 0 ∧ out ⟨0x3FE0000000000000, 0⟩ (finf false) = finf false ∧
      lowpassCorner 0x3FE0000000000000 (finf false) fone = true := by decide +kernel

/-- Orders of the three terms of the lowpass formula pass the check, other formulas and sums with terms that cancel do
not (41_iir.md R101). -/
theorem test_lowpassOrders :
    ([.add .prev (.mul .alpha (.sub .sample .prev)), .sub .prev (.mul (.sub .prev .sample) .alpha),
      convexOrder, lowpassAsWritten].all LowpassExpr.isLowpass) = true ∧
    ([.sample, .add .prev (.mul .alpha .sample),
      .add .prev (.mul .alpha (.sub (.add .sample .sample) (.add .sample .prev))), .sub .prev (.mul .alpha (.sub .sample .prev))].any
      LowpassExpr.isLowpass) = false := by decide +kernel

/-- V16: the second sample 100 gives 25 from the highpass. -/
theorem test_iirHp :
    (answer (exec (.iirHp 2 0 3 1) (((halved 0).setF 1 0x4059000000000000).setFlt 2 0
      ⟨0x3FE0000000000000, 0x4049000000000000⟩))).f[3] = 0x4039000000000000 := by decide +kernel

/-- V15: 100, 100 in place give 50, 75, and 75 stays in the slot. -/
theorem test_iirLpa :
    let t := answer (exec (.iirLpa 2 0 1 1)
      ((halved 0).setLine 2 1 (reals [0x4059000000000000, 0x4059000000000000])))
    t.lineSlice 2 1 2 = [0x4049000000000000, 0x4052C00000000000] ∧
      t.ctx[2].flt[0].prev = 0x4052C00000000000 := by decide +kernel

/-- V16: 100, 100 give 50, 25. -/
theorem test_iirHpa :
    (answer (exec (.iirHpa 2 0 0 1)
      ((halved 0).setLine 2 1 (reals [0x4059000000000000, 0x4059000000000000])))).lineSlice 2 0 2 =
      [0x4049000000000000, 0x4039000000000000] := by decide +kernel

/-- V12: cutoff 1300000.0 at the default rate, in the last of the three slots. -/
theorem test_iirInit3 :
    (answer (exec (.iirInit3 2 5 0 1 2)
      ((small.setF 0 0x416B4F4CBA2E8BA3).setF 1 0x4133D62000000000))).ctx[2].flt[7].alpha =
      0x3FD73F79F9C6BE70 := by decide +kernel

/-- V18: 64 through three halving filters gives 8. -/
theorem test_iirLp3 :
    (answer (exec (.iirLp3 2 5 0 0) ((halved 5).setF 0 0x4050000000000000))).f[0] =
      0x4020000000000000 := by decide +kernel

/-- V18: 64, 64 give 8, 20. -/
theorem test_iirLpa3 :
    (answer (exec (.iirLpa3 2 3 0 1)
      ((halved 3).setLine 2 1 (reals [0x4050000000000000, 0x4050000000000000])))).lineSlice 2 0 2 =
      [0x4020000000000000, 0x4034000000000000] := by decide +kernel

/-- `small` with the complex buffer of context 2 (8, 0), (2, -1). -/
def spectrum : State :=
  small.setZ 2 ⟨.zero, [(0, 0x4020000000000000), (2, 0x4000000000000000), (3, 0xBFF0000000000000)]⟩

/-- V23: (5, 3) gives (8, 0), (2, 0). -/
theorem test_fftFwd :
    let t := answer (exec (.fftFwd 2)
      (small.setZ 2 ⟨.zero, [(0, 0x4014000000000000), (2, 0x4008000000000000)]⟩))
    feq (t.zAt 2 0).1 0x4020000000000000 = true ∧ feq (t.zAt 2 0).2 0 = true ∧
      feq (t.zAt 2 1).1 0x4000000000000000 = true ∧ feq (t.zAt 2 1).2 0 = true := by decide +kernel

/-- V26: a length of 3 gives `STATUS` 0x34. -/
theorem test_fftFwd_length :
    (answer (exec (.fftFwd 2) (sized 4 2 3))).status.word = 0x34 ∧
    (answer (exec (.fftFwd 2) (sized 4 2 3))).errinfo = 0x30800000 := by decide +kernel

/-- V23 backwards: (8, 0), (2, 0) gives 5, 3. -/
theorem test_fftInv :
    let t := answer (exec (.fftInv 2)
      (small.setZ 2 ⟨.zero, [(0, 0x4020000000000000), (2, 0x4000000000000000)]⟩))
    feq (t.zAt 2 0).1 0x4014000000000000 = true ∧ feq (t.zAt 2 1).1 0x4008000000000000 = true := by
  decide +kernel

/-- V27: (A, B, C) becomes (B, C, A). -/
theorem test_fftShift_odd :
    ((answer (exec (.fftShift 2)
      ((sized 4 2 3).setZ 2 ⟨.zero, [(0, 1), (2, 2), (4, 3)]⟩))).zSlice 2 3).map Prod.fst = [2, 3, 1] := by
  decide +kernel

/-- The example of R122: 5, 3. -/
theorem test_zLdre :
    (answer (exec (.zLdre 2 0)
      ((spectrum).setLine 2 0 (reals [0x4014000000000000, 0x4008000000000000])))).zSlice 2 2 =
      [(0x4014000000000000, 0), (0x4008000000000000, 0)] := by decide +kernel

/-- The example of R123: 8, 2. -/
theorem test_zStre :
    (answer (exec (.zStre 2 2) spectrum)).lineSlice 2 2 2 = [0x4020000000000000, 0x4000000000000000] := by
  decide +kernel

/-- V28: the mask (0.5, 2.0) gives (4, 0), (4, -2). -/
theorem test_zMulr :
    (answer (exec (.zMulr 2 1)
      (spectrum.setLine 2 1 (reals [0x3FE0000000000000, 0x4000000000000000])))).zSlice 2 2 =
      [(0x4010000000000000, 0), (0x4010000000000000, 0xC000000000000000)] := by decide +kernel

/-- V30: the pixel (255, 0, 0) at row 1, column 3. -/
theorem test_cscRgb2yiq :
    let t := answer (exec .cscRgb2yiq { small with rgbin := ⟨.zero, [(21, 255)]⟩ })
    t.yiqAt 0 1 3 = 76 ∧ t.yiqAt 1 1 3 = 152 ∧ t.yiqAt 2 1 3 = 54 := by decide +kernel

/-- V31: (-5, 300, -300) clamps to (95, 108, 0); row 0 belongs to the other field. -/
theorem test_cscYiq2rgb :
    let s := { small with yiq := ⟨.zero, [(4, -5), (12, 300), (20, -300)]⟩ }
    let t := answer (exec (.cscYiq2rgb 1) s)
    t.rgboutAt 1 0 0 = 95 ∧ t.rgboutAt 1 0 1 = 108 ∧ t.rgboutAt 1 0 2 = 0 ∧ t.rgboutAt 0 0 0 = 0 := by
  decide +kernel

/-- A 4 by 1 frame with Y = 100, I = 40, Q = -20 in every column. -/
def flatRow : State :=
  { sized 4 1 2 with
      yiq := samples [100, 100, 100, 100, 40, 40, 40, 40, -20, -20, -20, -20] }

/-- V41: amplitude 50, phase index 0 and 1. -/
theorem test_muxEnc :
    (answer (exec (.muxEnc 0 3) (flatRow.setX 3 50))).planeRow 0 0 = [140, 80, 60, 120] ∧
    (answer (exec (.muxEnc 0 3)
      { flatRow.setX 3 50 with
          cfg := { Cfg.zero with scanlinePhaseShiftOffset := 1 } })).planeRow 0 0 =
        [80, 60, 120, 140] := by decide +kernel

/-- V45: 8 columns, amplitude 50, phase index 1. -/
theorem test_muxDec :
    let t := answer (exec (.muxDec 0 3)
      { (sized 8 1 2).setX 3 50 with
          yiq := samples [80, 60, 120, 140, 80, 60, 120, 140],
          cfg := { Cfg.zero with scanlinePhaseShiftOffset := 1 } })
    (t.planeRow 0 0).map BitVec.toInt = [65, 100, 100, 100, 100, 100, 80, 65] ∧
    (t.planeRow 1 0).map BitVec.toInt = [-40, 0, 40, 40, 40, 20, 0, 0] ∧
    (t.planeRow 2 0).map BitVec.toInt = [20, 0, -20, -50, -80, -40, 0, 0] := by decide +kernel

/-- V43: amplitude 0 gives zero chroma. -/
theorem test_muxDec_zero_amplitude :
    let t := answer (exec (.muxDec 0 3)
      { sized 8 1 2 with yiq := samples [100, 140, 100, 60, 100, 140, 100, 60] })
    (t.planeRow 0 0).map BitVec.toInt = [85, 100, 100, 100, 100, 100, 75, 40] ∧
    t.planeRow 1 0 = [0, 0, 0, 0, 0, 0, 0, 0] ∧ t.planeRow 2 0 = [0, 0, 0, 0, 0, 0, 0, 0] := by
  decide +kernel

/-- V64: row 1 of plane 1. -/
theorem test_ldRow :
    (answer (exec (.ldRow 2 0 1 2)
      { small.setX 2 1 with yiq := ⟨.zero, [(12, -3), (14, 7), (15, 2147483647)]⟩ })).lineSlice 2 0 4 =
      [0xC008000000000000, 0, 0x401C000000000000, 0x41DFFFFFFFC00000] := by decide +kernel

/-- V89: row 2 of a frame of two rows. -/
theorem test_ldRow_range :
    (answer (exec (.ldRow 2 0 1 2) (small.setX 2 2))).status.word = 0x24 ∧
    (answer (exec (.ldRow 2 0 1 2) (small.setX 2 2))).errinfo = 0x60820001 := by decide +kernel

/-- V66: shift 3 stores two samples and keeps the last three columns. -/
theorem test_stRow :
    let s := { sized 5 1 2 with yiq := ⟨.zero, [(5, 9), (6, 9), (7, 9), (8, 9), (9, 9)]⟩ }
    ((answer (exec (.stRow 2 1 0 1 1) ((s.setX 1 3).setLine 2 1
      (reals [0x400F333333333333, 0xC00F333333333333, 0xBFE0000000000000, 0x7E37E43C8800759C,
        0x7FF8000000000000])))).planeRow 1 0).map BitVec.toInt = [2147483647, 0, 9, 9, 9] := by
  decide +kernel

/-- R192: a frame without rows ends at once with `DONE`. -/
theorem test_pipeProcess_empty : (answer (exec .pipeProcess (sized 4 0 2))).status.word = 2 := by
  decide +kernel

/-- R193: a frame that has pixels forks. -/
theorem test_pipeProcess_forks :
    (answer (exec .pipeProcess small)).status.word = 1 ∧
    (answer (exec .pipeProcess small)).sc = #v[0, 0] := by decide +kernel

/-- V57: simple ringing with gain 1.5. -/
theorem test_pipeStage_ringing :
    ((answer (exec (.pipeStage 0 3)
      { sized 6 1 2 with
          yiq := ⟨.zero, [(2, 100), (3, 100), (4, 37), (5, -5)]⟩,
          cfg := { Cfg.zero with ringing := 0x3FF8000000000000 } })).planeRow 0 0).map BitVec.toInt =
      [0, 5, 105, 97, 32, -5] := by decide +kernel

/-- V54: stage 2 on plane 1 with the standard profile. -/
theorem test_pipeStage_lowpass :
    ((answer (exec (.pipeStage 0 2)
      { sized 8 1 2 with
          yiq := ⟨.zero, [(8, 100), (9, 100), (10, 100), (11, 100)]⟩,
          cfg := { Cfg.zero with inputChromaLowpass := true } })).planeRow 1 0).map BitVec.toInt =
      [25, 37, 45, 46, 43, 38, 0, 0] := by decide +kernel

/-- V86, V88: while an error is recorded a command is dropped; writing 4 to `STATUS` clears it. -/
theorem test_sticky_error :
    answer (step { failed with inputs := [.write .ctl 3 0x11980000] }) = { failed with tick := 1 } ∧
    (failed.hostWrite .ctl 1 4).status.word = 0 ∧ (failed.hostWrite .ctl 1 4).errinfo = 0 := by
  decide +kernel

/-- R78: a command written during a run sets `OVR` and is dropped. -/
theorem test_overrun :
    (answer (step { running 0 3 [.host] with inputs := [.write .ctl 3 0x11980000] })).status.word = 9 := by
  decide +kernel

/-! ## Witnesses: concrete cases that meet the hypotheses of the statements -/

theorem witness_DecodeInvertsEncode :
    (Instr.iirLpa3 2 5 3 3).wellFormed = true ∧ (Instr.pipeStage 1 16).wellFormed = true := by decide

theorem witness_EncodeInvertsDecode : decode 0x71000021 = some (.pipeStage 1 16) := by decide

theorem witness_IllegalWords :
    (Instr.pipeStage 1 16).opcodeRow.spelledBy 0x71000021 = true ∧
    small.status.busy = false ∧ small.status.err = false ∧ decode 0x71000022 = none := by decide +kernel

/-- `PRNG.SEED c2, x1` as the host's next event, without and, for `NOP`, with a recorded error. -/
theorem witness_StepRunsTheDecodedCommand :
    (small.status.busy = false ∧ small.status.err = false ∧
      (commandWrite 0x10810000 = .write .ctl 3 0x10810000) ∧
      decode ((0x10810000 : PortWord).setWidth 32) = some (.prngSeed 2 1)) ∧
    (failed.status.busy = false ∧ failed.status.err = true ∧
      decode ((0 : PortWord).setWidth 32) = some .nop) := by decide +kernel

theorem witness_FetchedWordRuns :
    (Instr.iirLp3 0 5 7 7).wellFormed = true ∧ small.status.busy = false ∧ small.status.err = false := by
  decide +kernel

/-- One case for each check of R78. -/
theorem witness_OrderOfChecks :
    (running 0 3 []).status.busy = true ∧
    (failed.status.busy = false ∧ failed.status.err = true ∧ decode 0x11980000 ≠ some .nop) ∧
    (small.status.busy = false ∧ small.status.err = false ∧ decode 0x80000000 = none) ∧
    (decode 0x10810000 = some (.prngSeed 2 1) ∧ small.x[1] = 0) := by decide +kernel

theorem witness_RaiseRecordsTheFirstError : small.status.err = false ∧ failed.status.err = true := by
  decide +kernel

/-- Each error's cause at a boundary: slot 6, stage 17, row `H`, shift `W + 1`, a width of 3 and a seed of 0;
`witness_FftLengthCheck` has the lengths. -/
theorem witness_ErrorsArePrecise :
    small.status.err = false ∧ CommandError.cause .illegal (.iirLp3 0 6 0 0) small ∧
    CommandError.cause .illegal (.pipeStage 0 17) small ∧
    CommandError.cause .range (.ldRow 2 0 1 2) (small.setX 2 2) ∧
    CommandError.cause .range (.stRow 2 1 0 1 1) (small.setX 1 5) ∧
    CommandError.cause .seed0 (.prngSeed 2 1) small ∧
    CommandError.cause .fftLen (.pipeStage 0 3)
      { sized 3 1 0 with cfg := { Cfg.zero with enableRinging2 := true } } := by
  simp only [CommandError.cause]; decide +kernel

theorem witness_FftLengthCheck :
    (sized 4 2 0).status.err = false ∧ (¬ ∃ k, (sized 4 2 0).vlen = 2 ^ k) ∧
    ¬ ∃ k, (sized 4 2 3).vlen = 2 ^ k := by
  refine ⟨rfl, ?_, ?_⟩
  · rintro ⟨k, h⟩
    exact absurd h (Nat.ne_of_lt (Nat.two_pow_pos k))
  · rintro ⟨k, h⟩
    have h : 3 = 2 ^ k := h
    match k, h with
    | 0, h => simp at h
    | k + 1, h => omega

theorem witness_StickyErrorAndRecovery :
    failed.status.busy = false ∧ failed.status.err = true ∧ (4 : PortWord).getLsbD 2 = true ∧
    decode 0x11980000 = some (.prngNext 2 3) := by decide +kernel

/-- A busy state that meets the invariant; the registers next to the generator words of contexts 0 and 1, to `STATUS`
and to `CMD`; the first index outside a scratch space. -/
theorem witness_BusyWindow :
    (running 0 3 []).Inv ∧ (running 0 3 []).status.busy = true ∧ (running 0 3 []).sc[0] < 32 ∧
    (running 0 3 []).sc[1] < 32 ∧ ¬ (16 ≤ 15 ∧ 15 < 28) ∧ ¬ (16 ≤ 28 ∧ 28 < 28) ∧
    (running 0 3 []).spaceSize .flt ≤ 48 ∧ (running 0 3 []).spaceSize .lbuf ≤ 96 ∧
    ¬ (Space.ctl = .ctl ∧ (4 = 1 ∨ 4 = 3)) ∧ ¬ (Space.xreg = .ctl ∧ (3 = 1 ∨ 3 = 3)) :=
  ⟨running_inv, by decide +kernel⟩

/-- A read and a write as the next event, idle and at the host's turn of a run; no event; the first index outside
each space; the ends of the reserved and the read-only ranges of `CTL`. -/
theorem witness_HostAccessesAndAbsentLocations :
    (let s := { small with inputs := [.read .ctl 9, .write .xreg 7 1] };
      s.status.busy = false ∧ s.inputs = .read .ctl 9 :: [.write .xreg 7 1]) ∧
    (small.Inv ∧ small.status.busy = false ∧ small.inputs = []) ∧
    (1 < small.frameH ∧ 3 < small.frameW ∧ 95 < small.frameSize ∧ 7 < small.hw.lmax.toNat) ∧
    (let s := { running 0 17 [.host, .task 0] with inputs := [.write .ctl 1 2] };
      s.status.busy = true ∧ s.turns = .host :: [.task 0] ∧ s.inputs = .write .ctl 1 2 :: []) ∧
    ((running 0 17 [.host]).turns = .host :: [] ∧ (running 0 17 [.host]).inputs = []) ∧
    (small.spaceSize .ctl ≤ 256 ∧ small.spaceSize .xreg ≤ 8 ∧ small.spaceSize .cfg ≤ 64 ∧
      small.spaceSize .flt ≤ 48 ∧ small.spaceSize .lbuf ≤ 96 ∧ small.spaceSize .zbuf ≤ 48 ∧
      small.spaceSize .yiq ≤ 96) ∧
    ¬ (Space.ctl = .ctl ∧ 4 = 3) := by
  refine ⟨?_, ⟨small_inv, ?_⟩, ?_⟩ <;> decide +kernel

/-- The last index of each space. -/
theorem witness_WrittenElementsReadBack :
    small.Inv ∧ small.status.busy = false ∧ 7 < small.spaceSize .xreg ∧ 7 < small.spaceSize .freg ∧
    47 < small.spaceSize .flt ∧ 95 < small.spaceSize .lbuf ∧ 47 < small.spaceSize .zbuf ∧
    95 < small.spaceSize .rgbin ∧ 95 < small.spaceSize .yiq :=
  ⟨small_inv, by decide +kernel⟩

theorem witness_ConfigurationAndGeneratorWords : small.status.busy = false := rfl

/-- The state after reset, and the state a reset during a run leaves. -/
theorem witness_ResetValues :
    ∃ s, (running 3 4 []).hw = params ∧ (running 3 4 []).perform .reset = .next s := ⟨_, rfl, rfl⟩

/-- Idle and in a run. -/
theorem witness_EveryStepKeepsTheInvariant : small.Inv ∧ (running 0 3 []).Inv := ⟨small_inv, running_inv⟩

theorem witness_PrngSeed :
    (small.setX 1 1).x[1] ≠ 0 ∧ small.x[1] = 0 ∧ small.status.err = false := by decide +kernel

/-- Generators whose next draw is 0 and 0xFFFFFFFF. -/
theorem witness_PrngU01 :
    (next ⟨0, 0, 0, 0, 0, 0xFFFA783B⟩).2 = 0 ∧ (next ⟨0, 0, 0, 0, 0, 0xFFFA783A⟩).2 = 0xFFFFFFFF := by
  decide +kernel

theorem witness_GeneratorOwnership : ∃ t, exec (.prngNext 2 3) small = .next t := ⟨_, rfl⟩

/-- The last slot that starts a cascade. -/
theorem witness_FilterInit : (5 : SlotId).val ≤ 5 := by decide

theorem witness_FilterOneSample :
    ((5 : SlotId).val + 2 < 8 ∧ small.hw.legal = true ∧ small.hw.lowpassOrder = lowpassAsWritten ∧
      isFinite fone = true ∧ isFinite (finf true) = false ∧ flt ftenth 0 = false ∧ isZero (fneg 0) = true ∧
      isNaN 0x7FF8000000000000 = true) ∧
    (∃ out, LowpassOut small.hw 0 0 fone out) ∧ (∃ out, LowpassOut small.hw fone ftwo (finf true) out) ∧
    ∃ out, LowpassOut small.hw ftenth (finf true) fone out :=
  ⟨by decide +kernel, ⟨_, (if_pos (.inl rfl)).mpr ⟨[], [], [], [], rfl⟩⟩,
    ⟨_, (if_pos (.inl rfl)).mpr ⟨[], [], [], [], rfl⟩⟩, _, (if_pos (.inl rfl)).mpr ⟨[], [], [], [], rfl⟩⟩

theorem sized_inv : (sized 8 1 8).Inv ∧ (sized 4 2 0).Inv ∧ (sized 4 2 1).Inv ∧ (sized 4 2 3).Inv := by
  refine ⟨?_, ?_, ?_, ?_⟩ <;> refine inv_of rfl rfl rfl rfl ?_ ?_ ?_ ?_ ?_ <;> decide +kernel

/-- No sample, and as many samples as a buffer holds. -/
theorem witness_FilterArrays :
    (sized 4 2 0).Inv ∧ ((sized 8 1 8).Inv ∧ 7 < (sized 8 1 8).vlen) ∧ (5 : SlotId).val + 2 < 8 ∧
    (sized 8 1 8).hw.lowpassOrder = lowpassAsWritten :=
  ⟨sized_inv.2.1, ⟨sized_inv.1, by decide +kernel⟩, by decide, rfl⟩

theorem witness_FftTransforms :
    ((sized 4 2 1).Inv ∧ (sized 4 2 1).vlen = 2 ^ 0) ∧ (sized 8 1 8).Inv ∧ (sized 8 1 8).vlen = 2 ^ 3 :=
  ⟨⟨sized_inv.2.2.1, rfl⟩, sized_inv.1, rfl⟩

/-- Even, one and odd lengths. -/
theorem witness_SpectrumShift :
    ((sized 8 1 8).Inv ∧ (sized 8 1 8).vlen % 2 = 0) ∧ ((sized 4 2 1).Inv ∧ (sized 4 2 1).vlen ≤ 1) ∧
    (sized 4 2 3).Inv ∧ (sized 4 2 3).vlen % 2 = 1 :=
  ⟨⟨sized_inv.1, rfl⟩, ⟨sized_inv.2.2.1, by decide +kernel⟩, sized_inv.2.2.2, rfl⟩

theorem witness_ComplexBufferTransfers : (sized 8 1 8).Inv ∧ 7 < (sized 8 1 8).vlen :=
  ⟨sized_inv.1, by decide +kernel⟩

/-- The last pixel of a frame as wide as the capacity. -/
theorem witness_RgbToYiqFrame :
    (sized 8 1 8).Inv ∧ 0 < (sized 8 1 8).frameH ∧ 7 < (sized 8 1 8).frameW :=
  ⟨sized_inv.1, by decide +kernel⟩

/-- A row of each field. -/
theorem witness_YiqToRgbField :
    small.Inv ∧ 0 < small.frameH ∧ 0 % 2 = (0 : FieldId).val ∧ 1 < small.frameH ∧
    1 % 2 = (1 : FieldId).val ∧ 3 < small.frameW := ⟨small_inv, by decide +kernel⟩

/-- Every mode, the last row of the range, parameters with and without the instance of R141. -/
theorem witness_PhaseIndex :
    1 < 2 ∧ 4294967295 < 2 ^ 32 ∧ params.xiInstance = true ∧
    { params with xiInstance := false, wmax := 5 }.xiInstance = { params with xiInstance := false }.xiInstance ∧
    Cfg.zero.scanlinePhaseShift = 0 ∧ { Cfg.zero with scanlinePhaseShift := 3 }.scanlinePhaseShift = 3 ∧
    { Cfg.zero with seed1 := 1 }.scanlinePhaseShift = Cfg.zero.scanlinePhaseShift := by decide +kernel

theorem witness_MuxEncode :
    small.Inv ∧ 1 < small.frameH ∧ 1 % 2 = (1 : FieldId).val ∧ 3 < small.frameW :=
  ⟨small_inv, by decide +kernel⟩

theorem witness_MuxDecode :
    small.Inv ∧ 1 < small.frameH ∧ 1 % 2 = (1 : FieldId).val ∧ 3 < small.frameW :=
  ⟨small_inv, by decide +kernel⟩

/-- An 8 by 1 frame with Y = 100, I = 40, Q = -20 in every column, the amplitude 50 in `x3`. -/
def flat : State :=
  { (sized 8 1 2).setX 3 50 with
      yiq := samples [100, 100, 100, 100, 100, 100, 100, 100, 40, 40, 40, 40, 40, 40, 40, 40,
        -20, -20, -20, -20, -20, -20, -20, -20] }

theorem flat_inv : flat.Inv := by
  refine inv_of rfl rfl rfl rfl ?_ ?_ ?_ ?_ ?_ <;> decide +kernel

theorem witness_DecodeInvertsEncodeOnConstantRows :
    flat.Inv ∧ (flat.x[3] = flat.hw.subcarrierNorm ∧ 0 < flat.frameH ∧ 0 % 2 = (0 : FieldId).val ∧
      (∀ x < flat.frameW, flat.yiqAt 0 0 x = 100 ∧ flat.yiqAt 1 0 x = 40 ∧ flat.yiqAt 2 0 x = -20) ∧
      (100 : I32).toInt.natAbs < 2 ^ 28 ∧ (40 : I32).toInt.natAbs * flat.hw.subcarrierNorm.toNat < 2 ^ 28 ∧
      (-20 : I32).toInt.natAbs * flat.hw.subcarrierNorm.toNat < 2 ^ 28 ∧
      2 + rowPhase flat.hw flat.cfg 0 0 + 4 < flat.frameW ∧ 5 + 3 ≤ flat.frameW) ∧
    ∃ t u, exec (.muxEnc 0 3) flat = .next t ∧ exec (.muxDec 0 3) t = .next u :=
  ⟨flat_inv, by decide +kernel, _, _, rfl, rfl⟩

/-- The last row, and the first row out of range. -/
theorem witness_LoadRow :
    small.Inv ∧ (1 < small.frameH ∧ small.frameW ≤ small.hw.lmax.toNat) ∧ small.frameH ≤ 2 ∧
    small.status.err = false := ⟨small_inv, by decide +kernel⟩

/-- Shift 0, shift `W`, and the first shift out of range. -/
theorem witness_StoreRow :
    small.Inv ∧ (1 < small.frameH ∧ small.frameW ≤ small.hw.lmax.toNat ∧ 0 ≤ small.frameW ∧
      4 ≤ small.frameW) ∧ small.frameW < 5 ∧ small.status.err = false := ⟨small_inv, by decide +kernel⟩

theorem witness_NumberConversions :
    isNaN 0x7FF0000000000001 = true ∧ isInf 0xFFF0000000000000 = true ∧
    isFinite 0x7FEFFFFFFFFFFFFF = true := by decide +kernel

/-- A NaN, finite values of either sign (the largest and the smallest among them), the zeros, the infinities. -/
theorem witness_FloatOrderAndRounding :
    isNaN 0x7FF8000000000000 = true ∧
    ((0x7FEFFFFFFFFFFFFF :: 1 :: [ftenth, fneg ftwo]).all fun a => isFinite a && funits a != 0) = true ∧
    (isFinite 0 = true ∧ funits 0 = 0) ∧ (isFinite (fneg 0) = true ∧ funits (fneg 0) = 0) ∧
    0 < funits ftenth ∧ funits (fneg ftwo) < 0 ∧
    (isInf (finf true) = true ∧ (finf true).msb = true) ∧ (isInf (finf false) = true ∧ (finf false).msb = false) ∧
    isNaN ftenth = false := by decide +kernel

/-- No column, no row, and a width of 3 with the power-law ringing configured. -/
theorem witness_ProcessPrechecks :
    (sized 0 1 0).width = 0 ∧ (sized 1 0 0).height = 0 ∧ (sized 3 1 0).width ≠ 0 ∧
    (sized 3 1 0).height ≠ 0 ∧ (sized 3 1 0).status.err = false ∧ feq 0 fone = false ∧
    params.ringPlanes.y = true ∧ (sized 3 1 0).frameW = 3 := by decide +kernel

theorem witness_ProcessForks :
    small.Inv ∧ small.width ≠ 0 ∧ small.height ≠ 0 ∧ small.badRingLength = false :=
  ⟨small_inv, by decide +kernel⟩

theorem runs_inv :
    (running 16 17 [.task 0]).Inv ∧ (running 17 17 [.join]).Inv ∧ (running 0 17 []).Inv ∧
    (running 17 3 [.task 0]).Inv ∧ (running 16 17 [.join]).Inv := by
  refine ⟨?_, ?_, ?_, ?_, ?_⟩ <;> refine inv_of rfl rfl rfl rfl ?_ ?_ ?_ ?_ ?_ <;> decide +kernel

/-- The last stage, a finished task's turn, the join, and a join that is not ready. -/
theorem witness_StepsOfARun :
    ((running 16 17 [.task 0]).Inv ∧ (running 16 17 [.task 0]).status.busy = true ∧
      (running 16 17 [.task 0]).turns = [.task 0] ∧ (running 16 17 [.task 0]).sc[0] = 16) ∧
    ((running 17 3 [.task 0]).Inv ∧ (running 17 3 [.task 0]).status.busy = true ∧
      (running 17 3 [.task 0]).turns = [.task 0] ∧ (running 17 3 [.task 0]).sc[0] = 17) ∧
    ((running 17 17 [.join]).Inv ∧ (running 17 17 [.join]).turns = [.join] ∧
      (running 17 17 [.join]).sc[0] = 17 ∧ (running 17 17 [.join]).sc[1] = 17) ∧
    (running 16 17 [.join]).Inv ∧ (running 16 17 [.join]).turns = [.join] ∧
      ¬ ((running 16 17 [.join]).sc[0] = 17 ∧ (running 16 17 [.join]).sc[1] = 17) :=
  ⟨⟨runs_inv.1, rfl, rfl, rfl⟩, ⟨runs_inv.2.2.2.1, rfl, rfl, rfl⟩, ⟨runs_inv.2.1, rfl, rfl, rfl⟩,
    runs_inv.2.2.2.2, rfl, by decide +kernel⟩

/-- Two states that agree on everything task 0 owns and differ in the other task's counter. -/
theorem witness_TaskPartition :
    (running 0 3 []).Inv ∧ (running 0 17 []).Inv ∧ (running 0 3 []).sc[0] = (running 0 17 []).sc[0] ∧
    (running 0 3 []).yiq = (running 0 17 []).yiq ∧ (running 0 3 []).sc ≠ (running 0 17 []).sc :=
  ⟨running_inv, runs_inv.2.2.1, by decide +kernel⟩

theorem witness_EveryRunReachesItsJoin :
    (running 16 17 [.task 0]).Inv ∧ (running 16 17 [.task 0]).status.busy = true ∧
    ∀ a ∈ (running 16 17 [.task 0]).turns, a ≠ .host := ⟨runs_inv.1, by decide +kernel⟩

theorem witness_ScheduleIndependence :
    (running 16 17 [.task 0]).Inv ∧ ((running 16 17 [.task 0]).runTasks [0]).joinReady = true ∧
    ((running 16 17 [.task 0]).runTasks [1, 0]).joinReady = true := ⟨runs_inv.1, by decide +kernel⟩

/-- The identity configuration of R202 with the subcarrier disabled, a frame with a row of each field. -/
def identity : State :=
  { sized 1 2 0 with
      cfg := { Cfg.zero with ringing := fone, noColorSubcarrier := true, subcarrierAmplitude := 50,
                             subcarrierAmplitudeBack := 50 } }

/-- All steps of task 0, then all of task 1; and the tasks in turn. -/
def inOrder : List (Fin 2) := List.replicate 17 0 ++ List.replicate 17 1
def inTurn : List (Fin 2) := (List.replicate 17 [1, 0]).flatten

theorem identity_inv : identity.Inv := by
  refine inv_of rfl rfl rfl rfl ?_ ?_ ?_ ?_ ?_ <;> decide +kernel

theorem identity_run :
    (answer (exec .pipeProcess identity)).status.busy = true ∧
    ((answer (exec .pipeProcess identity)).runTasks inOrder).joinReady = true ∧
    ((answer (exec .pipeProcess identity)).runTasks inTurn).joinReady = true ∧
    ((answer (exec .pipeProcess (identity.setGen 0 (seedExpand 7)))).runTasks inTurn).joinReady = true := by
  decide +kernel

theorem witness_FieldDisjointness :
    identity.Inv ∧ ∃ a b, exec .pipeProcess identity = .next a ∧
      exec .pipeProcess (identity.setGen (0 : Fin 2).castSucc (seedExpand 7)) = .next b ∧
      a.status.busy = true ∧ (a.runTasks inOrder).joinReady = true ∧
      (b.runTasks inTurn).joinReady = true :=
  ⟨identity_inv, _, _, rfl, rfl, identity_run.1, identity_run.2.1, identity_run.2.2.2⟩

theorem witness_IdentityRun :
    identity.Inv ∧ identity.status.busy = false ∧ identity.width ≠ 0 ∧ identity.height ≠ 0 ∧
    identity.cfg = { Cfg.zero with ringing := fone, noColorSubcarrier := true,
                                   subcarrierAmplitude := identity.hw.subcarrierNorm,
                                   subcarrierAmplitudeBack := identity.hw.subcarrierNorm } ∧
    ∃ a, exec .pipeProcess identity = .next a ∧ (a.runTasks inTurn).joinReady = true :=
  ⟨identity_inv, rfl, by decide +kernel, by decide +kernel, rfl, _, rfl, identity_run.2.2.1⟩

theorem witness_StagesOneByOneMatchARun :
    identity.Inv ∧ ∃ a, exec .pipeProcess identity = .next a ∧ a.status.busy = true ∧
      (a.runTasks inOrder).joinReady = true :=
  ⟨identity_inv, _, rfl, identity_run.1, identity_run.2.1⟩

/-- Every stage but the last with every effect disabled: no predicate of R196 holds; the counter at 15. -/
theorem witness_SkippedStages :
    ((stageList.take 16).all fun k => !stagePred identity.cfg k) = true ∧
    (running 15 17 []).sc[0] = 15 := by decide +kernel

/-- The first, the ringing and the last stage. -/
theorem witness_StageContract :
    small.Inv ∧ small.frameEmpty = false ∧ (0 : Fin 32).val ≤ 16 ∧ (16 : Fin 32).val ≤ 16 ∧
    small.badRingLength = false ∧ 1 < small.frameH ∧ 1 % 2 = (1 : FieldId).val :=
  ⟨small_inv, by decide +kernel⟩

/-- A 4 by 2 frame with everything configured that the statements about single stages need. -/
def effects (before power tv : Bool) : State :=
  { small with
      cfg := { Cfg.zero with
        colorBleedBefore := before, colorBleedHoriz := 1, inputChromaLowpass := true,
        enableRinging2 := power, videoChromaLoss := 70000, outputChromaLowpass := true,
        outputChromaLowpassTV := tv, chromaBlur := true, subcarrierAmplitude := 50,
        subcarrierAmplitudeBack := 50 } }

theorem effects_inv : (effects true true true).Inv ∧ (effects false false false).Inv := by
  refine ⟨?_, ?_⟩ <;> refine inv_of rfl rfl rfl rfl ?_ ?_ ?_ ?_ ?_ <;> decide +kernel

/-- Stage 1 with the bleed configured before, stage 14 with it configured after, stage 15; row 1, both ends. -/
theorem witness_BleedAndBlur :
    (effects true true true).Inv ∧ (effects false false false).Inv ∧
    (∃ t, exec (.pipeStage 1 1) (effects true true true) = .next t) ∧
    (∃ t, exec (.pipeStage 1 14) (effects false false false) = .next t) ∧
    (∃ t, exec (.pipeStage 1 15) (effects true true true) = .next t) ∧
    (effects true true true).frameEmpty = false ∧ 1 < (effects true true true).frameH ∧
    3 < (effects true true true).frameW :=
  ⟨effects_inv.1, effects_inv.2, ⟨_, rfl⟩, ⟨_, rfl⟩, ⟨_, rfl⟩, by decide +kernel⟩

/-- Stage 2, and stage 13 with either profile. -/
theorem witness_CompositeLowpassStages :
    (effects true true true).Inv ∧ (effects false false false).Inv ∧
    (∃ t, exec (.pipeStage 0 2) (effects true true true) = .next t) ∧
    (∃ t, exec (.pipeStage 0 13) (effects true true true) = .next t) ∧
    (∃ t, exec (.pipeStage 0 13) (effects false false false) = .next t) ∧
    (effects true true true).cfg.outputChromaLowpassTV = true ∧
    (effects false false false).cfg.outputChromaLowpassTV = false ∧ 3 < small.frameW :=
  ⟨effects_inv.1, effects_inv.2, ⟨_, rfl⟩, ⟨_, rfl⟩, ⟨_, rfl⟩, rfl, rfl, by decide +kernel⟩

/-- Either variant; plane 0 is a ringing plane of `params`, plane 1 is not. -/
theorem witness_RingingStage :
    (effects true true true).Inv ∧ (effects false false false).Inv ∧
    (∃ t, exec (.pipeStage 0 3) (effects true true true) = .next t) ∧
    (∃ t, exec (.pipeStage 0 3) (effects false false false) = .next t) ∧
    (feq (effects true true true).cfg.ringing fone = false ∧
      (effects true true true).badRingLength = false ∧
      (effects false false false).badRingLength = false ∧ (effects true true true).frameEmpty = false ∧
      params.ringPlanes.y = true ∧ params.ringPlanes.i = false) :=
  ⟨effects_inv.1, effects_inv.2, ⟨_, rfl⟩, ⟨_, rfl⟩, by decide +kernel⟩

/-- V61: the first draw drops its row, the second keeps it. -/
theorem witness_ChromaDropout :
    (effects true true true).Inv ∧
    (∃ t, exec (.pipeStage 0 12) (effects true true true) = .next t) ∧
    ((effects true true true).frameEmpty = false ∧ (effects true true true).cfg.videoChromaLoss ≠ 0 ∧
      (next (seedExpand 1)).2.toNat % 100000 < 70000 ∧
      70000 ≤ (next (advance 1 (seedExpand 1))).2.toNat % 100000) :=
  ⟨effects_inv.1, ⟨_, rfl⟩, by decide +kernel⟩

/-- The amplitude 50 in `x3`, as in both fields of the configuration. -/
theorem witness_StagesMatchCommands :
    let s := (effects true true true).setX 3 50
    s.Inv ∧ s.frameEmpty = false ∧ s.cfg.noColorSubcarrier = false ∧
      s.x[3] = s.cfg.subcarrierAmplitude ∧ s.x[3] = s.cfg.subcarrierAmplitudeBack := by
  refine ⟨inv_of rfl rfl rfl rfl ?_ ?_ ?_ ?_ ?_, ?_⟩ <;> decide +kernel

end Sys2Proof.Tests
end

section
/-! PROOFS. What each floating-point operation answers on each class of operands (00_scope.md R15). A binary64
is read through its sign bit and its 63-bit pattern; `roundPack_roundsTo` carries every rounding. -/

namespace Sys2Proof.Machine

/-! ## The classes of values -/

theorem isNaN_iff (a : F64) : isNaN a = true ↔ 2047 * 2 ^ 52 < a.toNat % 2 ^ 63 := by
  simp only [isNaN, fexpField_eq, ffrac_eq, Bool.and_eq_true, beq_iff_eq, bne_iff_ne, ne_eq]
  have := Nat.mod_lt a.toNat (Nat.two_pow_pos 63); omega

theorem isZero_iff (a : F64) : isZero a = true ↔ a.toNat % 2 ^ 63 = 0 := by
  simp only [isZero, fexpField_eq, ffrac_eq, Bool.and_eq_true, beq_iff_eq]; omega

theorem isNaN_of_isFinite {a : F64} (h : isFinite a = true) : isNaN a = false := by
  rw [Bool.eq_false_iff, ne_eq, isNaN_iff]; rw [isFinite_iff] at h; omega

theorem isInf_of_isFinite {a : F64} (h : isFinite a = true) : isInf a = false := by
  rw [Bool.eq_false_iff, ne_eq, isInf_iff]; rw [isFinite_iff] at h; omega

theorem isNaN_of_isInf {a : F64} (h : isInf a = true) : isNaN a = false := by
  rw [Bool.eq_false_iff, ne_eq, isNaN_iff]; rw [isInf_iff] at h; omega

theorem isZero_of_isInf {a : F64} (h : isInf a = true) : isZero a = false := by
  rw [Bool.eq_false_iff, ne_eq, isZero_iff]; rw [isInf_iff] at h; omega

/-- Every draw is a NaN (R15). -/
@[simp] theorem isNaN_someNaN (p : Path) : isNaN (someNaN p) = true := by
  unfold someNaN
  split
  · assumption
  · decide

theorem msb_fzero (neg : Bool) : (fzero neg).msb = neg := by cases neg <;> decide

theorem isFinite_fzero (neg : Bool) : isFinite (fzero neg) = true := by cases neg <;> decide

theorem isZero_fzero (neg : Bool) : isZero (fzero neg) = true := by cases neg <;> decide

/-! ## Sign and pattern -/

theorem toNat_eq_pattern_add_sign (a : F64) : a.toNat = a.toNat % 2 ^ 63 + if a.msb then 2 ^ 63 else 0 := by
  have := a.isLt
  rw [BitVec.msb_eq_decide]
  simp only [decide_eq_true_eq]
  split <;> omega

/-- A binary64 is its sign bit and its 63-bit pattern. -/
theorem eq_iff_msb_pattern {a b : F64} :
    a = b ↔ a.msb = b.msb ∧ a.toNat % 2 ^ 63 = b.toNat % 2 ^ 63 := by
  refine ⟨fun h => h ▸ ⟨rfl, rfl⟩, fun ⟨hs, hp⟩ => BitVec.eq_of_toNat_eq ?_⟩
  rw [toNat_eq_pattern_add_sign a, toNat_eq_pattern_add_sign b, hs, hp]

theorem eq_iff_msb_of_isInf {a b : F64} (ha : isInf a = true) (hb : isInf b = true) : a = b ↔ a.msb = b.msb :=
  eq_iff_msb_pattern.trans (and_iff_left (((isInf_iff a).1 ha).trans ((isInf_iff b).1 hb).symm))

theorem pattern_fneg (a : F64) : (fneg a).toNat % 2 ^ 63 = a.toNat % 2 ^ 63 := by
  rw [fneg, BitVec.toNat_xor, Nat.xor_mod_two_pow]; simp

@[simp] theorem msb_fneg (a : F64) : (fneg a).msb = !a.msb := by
  rw [fneg, BitVec.msb_xor, show (0x8000000000000000 : F64).msb = true by decide, Bool.xor_true]

@[simp] theorem isNaN_fneg (a : F64) : isNaN (fneg a) = isNaN a := by
  rw [Bool.eq_iff_iff, isNaN_iff, isNaN_iff, pattern_fneg]

@[simp] theorem isInf_fneg (a : F64) : isInf (fneg a) = isInf a := by
  rw [Bool.eq_iff_iff, isInf_iff, isInf_iff, pattern_fneg]

@[simp] theorem isFinite_fneg (a : F64) : isFinite (fneg a) = isFinite a := by
  rw [Bool.eq_iff_iff, isFinite_iff, isFinite_iff, pattern_fneg]

@[simp] theorem funits_fneg (a : F64) : funits (fneg a) = -funits a := by
  simp only [funits, fsign, msb_fneg, fmag_eq, pattern_fneg]
  cases a.msb <;> simp

/-! ## The order of the finite values -/

/-- The pattern with the sign of the value put to it: what `flt` compares. -/
def signedPattern (a : F64) : Int := if a.msb then -(a.toNat % 2 ^ 63 : Nat) else (a.toNat % 2 ^ 63 : Nat)

/-- A strictly increasing function from 0 on keeps its order when a sign is put to argument and value. -/
theorem signed_lt_iff {f : Nat → Nat} (hf : StrictMono f) (h0 : f 0 = 0) (s t : Bool) (m n : Nat) :
    (if s then -(f m : Int) else f m) < (if t then -(f n : Int) else f n) ↔
      (if s then -(m : Int) else m) < (if t then -(n : Int) else n) := by
  have hlt := hf.lt_iff_lt (a := m) (b := n)
  have hgt := hf.lt_iff_lt (a := n) (b := m)
  have hm := hf.lt_iff_lt (a := 0) (b := m)
  have hn := hf.lt_iff_lt (a := 0) (b := n)
  cases s <;> cases t <;> simp only [if_true, if_false, Bool.false_eq_true] <;> omega

theorem patternMag_zero : patternMag 0 = 0 := rfl

theorem funits_lt_iff (a b : F64) : funits a < funits b ↔ signedPattern a < signedPattern b := by
  simp only [funits, fsign, fmag_eq]
  exact signed_lt_iff patternMag_strictMono patternMag_zero ..

theorem funits_eq_iff (a b : F64) : funits a = funits b ↔ signedPattern a = signedPattern b := by
  have h₁ := funits_lt_iff a b
  have h₂ := funits_lt_iff b a
  omega

theorem isZero_iff_funits (a : F64) : isZero a = true ↔ funits a = 0 := by
  have h : funits a = funits (fzero false) ↔ _ := funits_eq_iff a (fzero false)
  rw [show funits (fzero false) = 0 from rfl, show signedPattern (fzero false) = 0 from rfl] at h
  rw [h, isZero_iff, signedPattern]
  split <;> omega

theorem isZero_iff_cast (a : F64) : isZero a = true ↔ (funits a : ℝ) = 0 := by
  rw [isZero_iff_funits, Int.cast_eq_zero]

theorem isZero_iff_isFinite (a : F64) : isZero a = true ↔ isFinite a = true ∧ (funits a : ℝ) = 0 := by
  rw [← isZero_iff_cast, isZero_iff, isFinite_iff]; omega

/-- The signed patterns agree on equal values and on the two zeros. -/
theorem signedPattern_eq_iff (a b : F64) : signedPattern a = signedPattern b ↔
    (a.toNat % 2 ^ 63 = 0 ∧ b.toNat % 2 ^ 63 = 0) ∨ (a.msb = b.msb ∧ a.toNat % 2 ^ 63 = b.toNat % 2 ^ 63) := by
  rw [signedPattern, signedPattern]
  generalize a.toNat % 2 ^ 63 = m
  generalize b.toNat % 2 ^ 63 = n
  cases a.msb <;> cases b.msb <;> simp <;> omega

theorem flt_iff {a b : F64} (ha : isNaN a = false) (hb : isNaN b = false) :
    flt a b = true ↔ signedPattern a < signedPattern b := by
  simp only [flt, ha, hb, signedPattern, fsign, Bool.not_false, Bool.true_and]
  exact decide_eq_true_iff

theorem feq_iff {a b : F64} (ha : isNaN a = false) (hb : isNaN b = false) :
    feq a b = true ↔ signedPattern a = signedPattern b := by
  have h : feq a b = true ↔ (isZero a = true ∧ isZero b = true) ∨ a = b := by simp [feq, ha, hb]
  rw [h, isZero_iff, isZero_iff, eq_iff_msb_pattern, signedPattern_eq_iff]

/-- On finite operands the comparisons are those of the numbers. -/
theorem compare_of_isFinite {a b : F64} (ha : isFinite a = true) (hb : isFinite b = true) :
    (flt a b = true ↔ (funits a : ℝ) < funits b) ∧ (feq a b = true ↔ (funits a : ℝ) = funits b) := by
  have hna := isNaN_of_isFinite ha
  have hnb := isNaN_of_isFinite hb
  rw [Int.cast_lt, Int.cast_inj, funits_lt_iff, funits_eq_iff]
  exact ⟨flt_iff hna hnb, feq_iff hna hnb⟩

/-- Comparing an infinity with a value that is no NaN. -/
theorem signedPattern_of_isInf {a b : F64} (ha : isInf a = true) (hb : isNaN b = false) :
    (signedPattern a < signedPattern b ↔ a.msb = true ∧ a ≠ b) ∧
    (signedPattern b < signedPattern a ↔ a.msb = false ∧ a ≠ b) ∧
    (signedPattern a = signedPattern b ↔ a = b) := by
  have hpa := (isInf_iff a).1 ha
  have hpb : b.toNat % 2 ^ 63 ≤ 2047 * 2 ^ 52 := not_lt.1 fun h => by simp [(isNaN_iff b).2 h] at hb
  rw [ne_eq, eq_iff_msb_pattern, signedPattern, signedPattern, hpa]
  generalize b.toNat % 2 ^ 63 = n at *
  cases a.msb <;> cases b.msb <;> simp <;> omega

/-! ## Rounding a scaled number -/

/-- The packed pattern, or the infinity it overflows to, keeps its sign. -/
theorem msb_packed_or_finf (n : Nat) (neg : Bool) :
    (if n ≥ 0x7FF0000000000000 then finf neg else BitVec.ofNat 64 (n + if neg then 2 ^ 63 else 0)).msb = neg := by
  split
  · exact (isInf_finf neg).2
  · exact (packed (by omega) neg).2.1

theorem msb_roundPack (neg : Bool) (m : Nat) (e : Int) (sticky : Bool) : (roundPack neg m e sticky).msb = neg := by
  rw [roundPack]
  by_cases hm : m = 0
  · rw [if_pos hm]; exact msb_fzero neg
  · rw [if_neg hm]; exact msb_packed_or_finf ..

theorem roundsTo_fzero (neg : Bool) : RoundsTo 0 (fzero neg) := by
  have hz : funits (fzero neg) = 0 := (isZero_iff_funits _).1 (isZero_fzero neg)
  refine ⟨fun h => absurd rfl h, fun _ => ⟨isFinite_fzero neg, fun r _ => ?_⟩,
    fun h => absurd h (not_le.2 ?_)⟩
  · rw [hz]
    refine ⟨by simp, fun _ _ => by cases neg <;> decide⟩
  · rw [abs_zero, sub_pos]; exact pow_lt_pow_right₀ one_lt_two (by norm_num)

/-- `roundPack` rounds `z * 2^e`, where `m` is the integer part of `z` and `sticky` says whether `z` has a
fraction. -/
theorem roundPack_roundsTo_scaled {neg : Bool} {m : Nat} {e : Int} {sticky : Bool} {z : ℝ} (hm : m ≠ 0)
    (lo : (m : ℝ) ≤ z) (hi : z < m + 1) (hst : sticky = true ↔ (m : ℝ) ≠ z) (big : sticky = true → 2 ^ 53 ≤ m) :
    RoundsTo (if neg then -(z * 2 ^ e) else z * 2 ^ e) (roundPack neg m e sticky) := by
  have hpe : (0 : ℝ) < 2 ^ e := by positivity
  refine roundPack_roundsTo hm (by gcongr) (by gcongr) (fun h => ?_) fun h => ⟨?_, big h⟩
  · have : (m : ℝ) = z := by simpa [h] using hst
    rw [this]
  · have := lo.lt_of_ne (hst.1 h)
    gcongr

/-- An exact number of units `m * 2^e` is rounded as it stands, a zero to the zero of its sign. -/
theorem roundPack_roundsTo_exact (neg : Bool) (m : Nat) (e : Int) :
    RoundsTo (if neg then -((m : ℝ) * 2 ^ e) else m * 2 ^ e) (roundPack neg m e false) := by
  by_cases hm : m = 0
  · subst hm
    simpa [roundPack] using roundsTo_fzero neg
  · exact roundPack_roundsTo_scaled hm le_rfl (lt_add_one _) (by simp) (by simp)

theorem roundUnits_roundsTo (u : Int) : RoundsTo u (roundUnits u) := by
  have h := roundPack_roundsTo_exact (decide (u < 0)) u.natAbs 0
  have habs : ((u.natAbs : Nat) : ℝ) = |(u : ℝ)| := by rw [Nat.cast_natAbs, Int.cast_abs]
  rw [roundUnits]
  convert h using 1
  rw [zpow_zero, mul_one, habs]
  by_cases hu : u < 0
  · rw [decide_eq_true hu, if_pos rfl, abs_of_neg (by exact_mod_cast hu), neg_neg]
  · rw [decide_eq_false hu, if_neg (by simp), abs_of_nonneg (by exact_mod_cast not_lt.1 hu)]

theorem funits_cast (a : F64) :
    (funits a : ℝ) = if a.msb then -((fmant a : ℝ) * 2 ^ fexp a) else (fmant a : ℝ) * 2 ^ fexp a := by
  simp only [funits, fsign, fmag, Nat.shiftLeft_eq]
  cases a.msb <;> push_cast <;> rfl

/-! ## Addition and subtraction -/

theorem isNaN_fadd {p : Path} {a b : F64} (h : isNaN a = true ∨ isNaN b = true) : isNaN (fadd p a b) = true := by
  rw [fadd, if_pos (by simpa using h)]; exact isNaN_someNaN p

theorem fadd_of_isFinite (p : Path) {a b : F64} (ha : isFinite a = true) (hb : isFinite b = true) :
    fadd p a b = if isZero a && isZero b then fzero (a.msb && b.msb) else roundUnits (funits a + funits b) := by
  simp [fadd, isNaN_of_isFinite, isInf_of_isFinite, ha, hb, fsign]

theorem fadd_roundsTo (p : Path) {a b : F64} (ha : isFinite a = true) (hb : isFinite b = true) :
    RoundsTo ((funits a : ℝ) + funits b) (fadd p a b) := by
  rw [fadd_of_isFinite p ha hb]
  split
  · next h =>
    rw [Bool.and_eq_true, isZero_iff_funits, isZero_iff_funits] at h
    rw [h.1, h.2, Int.cast_zero, add_zero]
    exact roundsTo_fzero _
  · have := roundUnits_roundsTo (funits a + funits b)
    rwa [Int.cast_add] at this

/-- Opposite values that are no zeros have different signs. -/
theorem msb_and_of_add_eq_zero {a b : F64} (h : funits a + funits b = 0) (ha : funits a ≠ 0) :
    (a.msb && b.msb) = false := by
  rw [Bool.and_eq_false_iff]
  by_contra hs
  simp only [not_or, Bool.not_eq_false] at hs
  obtain ⟨hsa, hsb⟩ := hs
  simp only [funits, fsign, hsa, hsb, if_true] at h ha
  omega

/-- The sign of an exact zero sum. -/
theorem msb_fadd_of_eq_zero (p : Path) {a b : F64} (ha : isFinite a = true) (hb : isFinite b = true)
    (h : funits a + funits b = 0) : (fadd p a b).msb = (a.msb && b.msb) := by
  rw [fadd_of_isFinite p ha hb]
  split
  · exact msb_fzero _
  · next hz =>
    rw [Bool.and_eq_true, isZero_iff_funits, isZero_iff_funits] at hz
    rw [h, msb_and_of_add_eq_zero h fun h0 => hz ⟨h0, by omega⟩]
    decide

/-- An infinity plus a value that is no NaN. -/
theorem fadd_of_isInf (p : Path) {a b : F64} (ha : isInf a = true) (hb : isNaN b = false) :
    if isInf b = true ∧ (a.msb != b.msb) = true then isNaN (fadd p a b) = true ∧ isNaN (fadd p b a) = true
    else fadd p a b = a ∧ fadd p b a = a := by
  by_cases hi : isInf b = true
  · by_cases hs : a.msb = b.msb
    · obtain rfl := (eq_iff_msb_of_isInf ha hi).2 hs
      simp [fadd, isNaN_of_isInf, ha, fsign]
    · simp [fadd, isNaN_of_isInf, ha, hi, fsign, hs, Ne.symm hs]
  · simp [fadd, isNaN_of_isInf, ha, hb, hi]

theorem fsub_roundsTo (p : Path) {a b : F64} (ha : isFinite a = true) (hb : isFinite b = true) :
    RoundsTo ((funits a : ℝ) - funits b) (fsub p a b) := by
  have h := fadd_roundsTo p ha (by rwa [isFinite_fneg] : isFinite (fneg b) = true)
  rwa [funits_fneg, Int.cast_neg, ← sub_eq_add_neg] at h

theorem msb_fsub_of_eq_zero (p : Path) {a b : F64} (ha : isFinite a = true) (hb : isFinite b = true)
    (h : funits a - funits b = 0) : (fsub p a b).msb = (a.msb && !b.msb) := by
  rw [← msb_fneg]
  exact msb_fadd_of_eq_zero p ha (by rwa [isFinite_fneg]) (by rw [funits_fneg]; omega)

/-- An infinity minus a value that is no NaN, and the other way round. -/
theorem fsub_of_isInf (p : Path) {a b : F64} (ha : isInf a = true) (hb : isNaN b = false) :
    if isInf b = true ∧ (a.msb != b.msb) = false then isNaN (fsub p a b) = true ∧ isNaN (fsub p b a) = true
    else fsub p a b = a ∧ fsub p b a = fneg a := by
  have h₁ := fadd_of_isInf p ha (by rwa [isNaN_fneg] : isNaN (fneg b) = false)
  have h₂ := fadd_of_isInf p (by rwa [isInf_fneg] : isInf (fneg a) = true) hb
  simp only [isInf_fneg, msb_fneg] at h₁ h₂
  simp only [fsub]
  by_cases hc : isInf b = true ∧ (a.msb != b.msb) = false
  · rw [if_pos (by simpa using hc)] at h₁ h₂
    rw [if_pos hc]
    exact ⟨h₁.1, h₂.2⟩
  · rw [if_neg (by simpa using hc)] at h₁ h₂
    rw [if_neg hc]
    exact ⟨h₁.1, h₂.2⟩

/-! ## Multiplication -/

theorem isNaN_fmul {p : Path} {a b : F64} (h : isNaN a = true ∨ isNaN b = true) : isNaN (fmul p a b) = true := by
  simp only [fmul]
  rw [if_pos (by simpa using h)]; exact isNaN_someNaN p

theorem fmul_of_isFinite (p : Path) {a b : F64} (ha : isFinite a = true) (hb : isFinite b = true) :
    fmul p a b =
      roundPack (a.msb != b.msb) (fmant a * fmant b) ((fexp a : Int) + fexp b - 1074) false := by
  simp [fmul, isNaN_of_isFinite, isInf_of_isFinite, ha, hb, fsign]

theorem fmul_roundsTo (p : Path) {a b : F64} (ha : isFinite a = true) (hb : isFinite b = true) :
    RoundsTo ((funits a : ℝ) * funits b / 2 ^ 1074) (fmul p a b) := by
  rw [fmul_of_isFinite p ha hb]
  convert roundPack_roundsTo_exact (a.msb != b.msb) (fmant a * fmant b) ((fexp a : Int) + fexp b - 1074) using 1
  have hz : (2 : ℝ) ^ ((fexp a : Int) + fexp b - 1074) = 2 ^ fexp a * 2 ^ fexp b / 2 ^ 1074 := by
    rw [zpow_sub₀ two_ne_zero, zpow_add₀ two_ne_zero, zpow_natCast, zpow_natCast]; rfl
  rw [funits_cast, funits_cast, hz]
  generalize (2 : ℝ) ^ 1074 = c
  cases a.msb <;> cases b.msb <;> simp <;> ring

theorem msb_fmul_of_isFinite (p : Path) {a b : F64} (ha : isFinite a = true) (hb : isFinite b = true) :
    (fmul p a b).msb = (a.msb != b.msb) := by
  rw [fmul_of_isFinite p ha hb]; exact msb_roundPack ..

/-- An infinity times a value that is no NaN. -/
theorem fmul_of_isInf (p : Path) {a b : F64} (ha : isInf a = true) (hb : isNaN b = false) :
    if isZero b = true then isNaN (fmul p a b) = true ∧ isNaN (fmul p b a) = true
    else fmul p a b = finf (a.msb != b.msb) ∧ fmul p b a = finf (a.msb != b.msb) := by
  by_cases hz : isZero b = true
  · simp [fmul, isNaN_of_isInf, ha, hb, hz]
  · simp [fmul, isNaN_of_isInf, isZero_of_isInf, ha, hb, hz, fsign, bne_comm]

/-! ## Division -/

theorem isNaN_fdiv {p : Path} {a b : F64} (h : isNaN a = true ∨ isNaN b = true) : isNaN (fdiv p a b) = true := by
  simp only [fdiv]
  rw [if_pos (by simpa using h)]; exact isNaN_someNaN p

/-- A finite value divided by a zero. -/
theorem fdiv_of_isZero (p : Path) {a b : F64} (ha : isFinite a = true) (hb : isFinite b = true)
    (hz : isZero b = true) : fdiv p a b = if isZero a then someNaN p else finf (a.msb != b.msb) := by
  simp [fdiv, isNaN_of_isFinite, isInf_of_isFinite, ha, hb, hz, fsign]

theorem fdiv_of_isFinite (p : Path) {a b : F64} (ha : isFinite a = true) (hb : isFinite b = true)
    (hz : isZero b = false) :
    fdiv p a b = roundPack (a.msb != b.msb) (fmant a <<< 108 / fmant b)
      ((fexp a : Int) - fexp b + 1074 - 108) (fmant a <<< 108 % fmant b != 0) := by
  simp [fdiv, isNaN_of_isFinite, isInf_of_isFinite, ha, hb, hz, fsign]

theorem fmant_lt (a : F64) : fmant a < 2 ^ 53 := by
  have h : ffrac a < 2 ^ 52 := by rw [ffrac_eq]; exact Nat.mod_lt _ (Nat.two_pow_pos 52)
  rw [fmant]
  split <;> omega

theorem fmant_eq_zero_iff (a : F64) : fmant a = 0 ↔ isZero a = true := by
  simp only [fmant, isZero, Bool.and_eq_true, beq_iff_eq]
  split <;> omega

/-- The integer quotient is the integer part of the quotient, and the remainder tells whether there is more. -/
theorem natDiv_spec (n : Nat) {d : Nat} (hd : 0 < d) :
    ((n / d : Nat) : ℝ) ≤ n / d ∧ (n : ℝ) / d < (n / d : Nat) + 1 ∧
    ((n % d != 0) = true ↔ ((n / d : Nat) : ℝ) ≠ n / d) := by
  have hd' : (0 : ℝ) < d := by exact_mod_cast hd
  refine ⟨Nat.cast_div_le, ?_, ?_⟩
  · rw [div_lt_iff₀ hd']
    exact_mod_cast Nat.lt_mul_of_div_lt (Nat.lt_succ_self _) hd
  · rw [bne_iff_ne, not_iff_not, eq_div_iff hd'.ne', ← Nat.dvd_iff_mod_eq_zero]
    constructor
    · intro h; exact_mod_cast Nat.div_mul_cancel h
    · intro h; exact Dvd.intro_left _ (by exact_mod_cast h)

/-- The exact quotient in units, as `fdiv` scales it. -/
theorem quotient_scaled (a b : F64) :
    (funits a : ℝ) / funits b * (2 : ℝ) ^ 1074 =
      if (a.msb != b.msb) = true
        then -(((fmant a <<< 108 : Nat) : ℝ) / fmant b * 2 ^ ((fexp a : Int) - fexp b + 1074 - 108))
        else ((fmant a <<< 108 : Nat) : ℝ) / fmant b * 2 ^ ((fexp a : Int) - fexp b + 1074 - 108) := by
  have hp : (2 : ℝ) ^ ((fexp a : Int) - fexp b + 1074 - 108) =
      2 ^ fexp a / 2 ^ fexp b * 2 ^ 1074 / 2 ^ 108 := by
    rw [zpow_sub₀ two_ne_zero, zpow_add₀ two_ne_zero, zpow_sub₀ two_ne_zero, zpow_natCast, zpow_natCast]; rfl
  have h108 : (2 : ℝ) ^ 108 ≠ 0 := by positivity
  rw [funits_cast, funits_cast, hp, Nat.shiftLeft_eq, Nat.cast_mul, Nat.cast_pow, Nat.cast_ofNat]
  generalize (2 : ℝ) ^ 1074 = c
  generalize (2 : ℝ) ^ 108 = d at *
  cases a.msb <;> cases b.msb <;> simp <;> field_simp

theorem fdiv_roundsTo (p : Path) {a b : F64} (ha : isFinite a = true) (hb : isFinite b = true)
    (hz : isZero b = false) : RoundsTo ((funits a : ℝ) / funits b * 2 ^ 1074) (fdiv p a b) := by
  have hd : 0 < fmant b := Nat.pos_of_ne_zero fun h => by simp [(fmant_eq_zero_iff b).1 h] at hz
  rw [fdiv_of_isFinite p ha hb hz, quotient_scaled]
  by_cases h0 : fmant a = 0
  · simpa [h0, roundPack] using roundsTo_fzero _
  · obtain ⟨lo, hi, hst⟩ := natDiv_spec (fmant a <<< 108) hd
    have hbig : 2 ^ 53 ≤ fmant a <<< 108 / fmant b := by
      rw [Nat.le_div_iff_mul_le hd, Nat.shiftLeft_eq]
      have := fmant_lt b
      omega
    exact roundPack_roundsTo_scaled (by omega) lo hi hst fun _ => hbig

theorem msb_fdiv (p : Path) {a b : F64} (ha : isFinite a = true) (hb : isFinite b = true)
    (hz : isZero b = false) : (fdiv p a b).msb = (a.msb != b.msb) := by
  rw [fdiv_of_isFinite p ha hb hz]; exact msb_roundPack ..

/-- Division of finite values, a zero divisor apart. -/
theorem fdiv_finite (p : Path) {a b : F64} (ha : isFinite a = true) (hb : isFinite b = true) :
    let x : ℝ := funits a
    let y : ℝ := funits b
    (y ≠ 0 → RoundsTo (x / y * 2 ^ 1074) (fdiv p a b) ∧ (fdiv p a b).msb = (a.msb != b.msb)) ∧
    (y = 0 → x ≠ 0 → fdiv p a b = finf (a.msb != b.msb)) ∧
    (y = 0 → x = 0 → isNaN (fdiv p a b) = true) := by
  simp only [ne_eq, ← isZero_iff_cast, Bool.not_eq_true]
  refine ⟨fun hz => ⟨fdiv_roundsTo p ha hb hz, msb_fdiv p ha hb hz⟩, fun hz hn => ?_, fun hz hn => ?_⟩
  · rw [fdiv_of_isZero p ha hb hz, if_neg (by simp [hn])]
  · rw [fdiv_of_isZero p ha hb hz, if_pos hn]; exact isNaN_someNaN p

/-- An infinity divided by, and dividing, a value that is no NaN. -/
theorem fdiv_of_isInf (p : Path) {a b : F64} (ha : isInf a = true) (hb : isNaN b = false) :
    if isInf b = true then isNaN (fdiv p a b) = true
    else fdiv p a b = finf (a.msb != b.msb) ∧ fdiv p b a = fzero (a.msb != b.msb) := by
  by_cases hi : isInf b = true
  · simp [fdiv, isNaN_of_isInf, ha, hi]
  · simp [fdiv, isNaN_of_isInf, ha, hb, hi, fsign, bne_comm]

/-! ## Square root -/

/-- From a root known to `2^n`, `isqrtFrom` finds the integer square root. -/
theorem isqrtFrom_eq_sqrt {m n r : Nat} (lo : r * r ≤ m) (hi : m < (r + 2 ^ n) * (r + 2 ^ n)) :
    isqrtFrom m n r = Nat.sqrt m := by
  induction n generalizing r with
  | zero => exact Nat.eq_sqrt.2 ⟨lo, hi⟩
  | succ n ih =>
    rw [isqrtFrom]
    split
    · next h => exact ih h (by rwa [add_assoc, ← two_mul, ← pow_succ'])
    · next h => exact ih lo (by omega)

theorem isqrt_eq_sqrt (m : Nat) : isqrt m = Nat.sqrt m := by
  refine isqrtFrom_eq_sqrt (Nat.zero_le m) ?_
  rw [zero_add, ← pow_add]
  exact Nat.lt_log2_self.trans_le (Nat.pow_le_pow_right two_pos (by omega))

/-- The integer square root is the integer part of the square root. -/
theorem natSqrt_spec (m : Nat) :
    (Nat.sqrt m : ℝ) ≤ √m ∧ √m < Nat.sqrt m + 1 ∧
    ((Nat.sqrt m * Nat.sqrt m != m) = true ↔ (Nat.sqrt m : ℝ) ≠ √m) := by
  refine ⟨Real.nat_sqrt_le_real_sqrt, Real.real_sqrt_lt_nat_sqrt_succ, ?_⟩
  rw [bne_iff_ne, not_iff_not, eq_comm (a := (Nat.sqrt m : ℝ)),
    Real.sqrt_eq_iff_mul_self_eq (Nat.cast_nonneg m) (Nat.cast_nonneg _), eq_comm]
  norm_cast

theorem isNaN_fsqrt_of_isNaN {p : Path} {a : F64} (h : isNaN a = true) : isNaN (fsqrt p a) = true := by
  rw [fsqrt, if_pos h]; exact isNaN_someNaN p

/-- The root of a zero is that zero. -/
theorem fsqrt_of_isZero (p : Path) {a : F64} (h : isZero a = true) : fsqrt p a = a := by
  have hn : ¬ isNaN a = true := by rw [isNaN_iff]; rw [isZero_iff] at h; omega
  rw [fsqrt, if_neg hn, if_pos h]

/-- The root of a negative value, an infinity too, is a NaN. -/
theorem isNaN_fsqrt_of_msb {p : Path} {a : F64} (hz : isZero a = false) (hs : a.msb = true) :
    isNaN (fsqrt p a) = true := by
  simp only [fsqrt, hz, fsign, hs, if_true, Bool.false_eq_true, if_false, ite_self, isNaN_someNaN]

theorem fsqrt_of_isInf (p : Path) {a : F64} (h : isInf a = true) (hs : a.msb = false) : fsqrt p a = a := by
  simp [fsqrt, isNaN_of_isInf, isZero_of_isInf, h, fsign, hs]

/-- The shift that `fsqrt` gives the significand at exponent `e`, so that an even power of two remains. -/
def rootShift (e : Nat) : Nat := if e % 2 = 0 then 110 else 111

theorem fsqrt_of_pos (p : Path) {a : F64} (ha : isFinite a = true) (hz : isZero a = false) (hs : a.msb = false) :
    fsqrt p a = roundPack false (Nat.sqrt (fmant a <<< rootShift (fexp a)))
      (((fexp a : Int) - 1074 - rootShift (fexp a)) / 2 + 1074)
      (Nat.sqrt (fmant a <<< rootShift (fexp a)) * Nat.sqrt (fmant a <<< rootShift (fexp a)) !=
        fmant a <<< rootShift (fexp a)) := by
  simp only [fsqrt, isNaN_of_isFinite ha, isInf_of_isFinite ha, hz, fsign, hs, Bool.false_eq_true, if_false,
    isqrt_eq_sqrt]
  rfl

/-- The remaining power of two is a square. -/
theorem rootShift_scale (e : Nat) :
    ((2 : ℝ) ^ (((e : Int) - 1074 - rootShift e) / 2 + 1074)) ^ 2 * 2 ^ rootShift e = 2 ^ e * 2 ^ 1074 := by
  have hexp : (((e : Int) - 1074 - rootShift e) / 2 + 1074) * (2 : Nat) + rootShift e = (e : Int) + 1074 := by
    unfold rootShift; split <;> omega
  have h := congrArg (fun k : Int => (2 : ℝ) ^ k) hexp
  simp only [zpow_add₀ (two_ne_zero (α := ℝ)), zpow_mul, zpow_natCast] at h
  rw [zpow_add₀ two_ne_zero, h]
  rfl

/-- The exact root in units, as `fsqrt` scales it. -/
theorem root_scaled {a : F64} (hs : a.msb = false) :
    √((funits a : ℝ) * 2 ^ 1074) = √((fmant a <<< rootShift (fexp a) : Nat) : ℝ) *
      (2 : ℝ) ^ (((fexp a : Int) - 1074 - rootShift (fexp a)) / 2 + 1074) := by
  have hsq := rootShift_scale (fexp a)
  have hpos : (0 : ℝ) < 2 ^ (((fexp a : Int) - 1074 - rootShift (fexp a)) / 2 + 1074) := by positivity
  generalize (2 : ℝ) ^ (((fexp a : Int) - 1074 - rootShift (fexp a)) / 2 + 1074) = scale at *
  rw [funits_cast, hs, if_neg Bool.false_ne_true, mul_assoc, ← hsq, Nat.shiftLeft_eq, Nat.cast_mul, Nat.cast_pow,
    Nat.cast_ofNat, mul_comm (scale ^ 2), ← mul_assoc, Real.sqrt_mul (by positivity), Real.sqrt_sq hpos.le]

theorem fsqrt_roundsTo (p : Path) {a : F64} (ha : isFinite a = true) (hz : isZero a = false)
    (hs : a.msb = false) : RoundsTo (√((funits a : ℝ) * 2 ^ 1074)) (fsqrt p a) := by
  have hm : 1 ≤ fmant a := Nat.one_le_iff_ne_zero.2 fun h => by simp [(fmant_eq_zero_iff a).1 h] at hz
  have hbig : 2 ^ 53 ≤ Nat.sqrt (fmant a <<< rootShift (fexp a)) := by
    rw [Nat.le_sqrt, ← pow_add, Nat.shiftLeft_eq]
    calc 2 ^ (53 + 53) ≤ 1 * 2 ^ rootShift (fexp a) := by
          rw [one_mul]; exact Nat.pow_le_pow_right two_pos (by unfold rootShift; split <;> omega)
      _ ≤ fmant a * 2 ^ rootShift (fexp a) := Nat.mul_le_mul_right _ hm
  obtain ⟨lo, hi, hst⟩ := natSqrt_spec (fmant a <<< rootShift (fexp a))
  rw [fsqrt_of_pos p ha hz hs, root_scaled hs]
  exact roundPack_roundsTo_scaled (neg := false) (by omega) lo hi hst fun _ => hbig

/-- The root of a finite value, by its sign. -/
theorem fsqrt_finite (p : Path) {a : F64} (ha : isFinite a = true) :
    let x : ℝ := funits a
    (0 < x → RoundsTo (√(x * 2 ^ 1074)) (fsqrt p a)) ∧ (x = 0 → fsqrt p a = a) ∧
    (x < 0 → isNaN (fsqrt p a) = true) := by
  have hsign : (a.msb = true → (funits a : ℝ) ≤ 0) ∧ (a.msb = false → 0 ≤ (funits a : ℝ)) := by
    rw [Int.cast_nonpos, Int.cast_nonneg_iff, funits, fsign]
    constructor <;> intro h <;> simp [h]
  have hz : (funits a : ℝ) ≠ 0 → isZero a = false := fun h =>
    Bool.eq_false_iff.2 fun h' => h ((isZero_iff_cast a).1 h')
  refine ⟨fun h => ?_, fun h => fsqrt_of_isZero p ((isZero_iff_cast a).2 h), fun h => ?_⟩
  · exact fsqrt_roundsTo p ha (hz h.ne') (Bool.eq_false_iff.2 fun hs => (hsign.1 hs).not_gt h)
  · refine isNaN_fsqrt_of_msb (hz h.ne) ?_
    by_contra hs
    exact (hsign.2 (by simpa using hs)).not_gt h

/-- The root of an infinity. -/
theorem fsqrt_infinite (p : Path) {a : F64} (ha : isInf a = true) :
    if a.msb then isNaN (fsqrt p a) = true else fsqrt p a = a := by
  split
  · next hs => exact isNaN_fsqrt_of_msb (isZero_of_isInf ha) hs
  · next hs => exact fsqrt_of_isInf p ha (by simpa using hs)

end Sys2Proof.Machine
end

section
/-! PROOFS. The conversions between integers and binary64 (00_scope.md R17): O43. -/

namespace Sys2Proof.Machine

/-- A significand of at most 53 bits at a scale below overflow is packed without rounding. -/
theorem roundPack_eq_exact (neg : Bool) {m e : Nat} (hm : m < 2 ^ 53) (he : e ≤ 2045) :
    isFinite (roundPack neg m e false) = true ∧
    funits (roundPack neg m e false) = if neg then -((m * 2 ^ e : Nat) : Int) else (m * 2 ^ e : Nat) := by
  by_cases h0 : m = 0
  · subst h0
    rw [roundPack, if_pos rfl, (isZero_iff_funits _).1 (isZero_fzero neg)]
    exact ⟨isFinite_fzero neg, by simp⟩
  have hL := Nat.log2_self_le h0
  have hU : m < 2 ^ (m.log2 + 1) := Nat.lt_log2_self
  have hL52 : m.log2 < 53 := (Nat.pow_lt_pow_iff_right one_lt_two).1 (hL.trans_lt hm)
  rw [roundPack, if_neg h0]
  generalize m.log2 = L at *
  obtain ⟨u, hu⟩ : ∃ u : Nat, max ((e : Int) + (L + 1) - 53) 0 = (u : Int) :=
    ⟨(max ((e : Int) + (L + 1) - 53) 0).toNat, by omega⟩
  obtain ⟨j, rfl⟩ : ∃ j, e = u + j := ⟨e - u, by omega⟩
  simp only [hu, Int.toNat_natCast]
  rw [if_pos (show (u : Int) ≤ (u + j : Nat) by omega),
    show ((u + j : Nat) - u : Int).toNat = j by omega, Nat.shiftLeft_eq]
  have hle : m * 2 ^ j < 2 ^ 53 :=
    calc m * 2 ^ j < 2 ^ (L + 1) * 2 ^ j := Nat.mul_lt_mul_of_pos_right hU (Nat.two_pow_pos j)
      _ = 2 ^ (L + 1 + j) := (pow_add ..).symm
      _ ≤ 2 ^ 53 := Nat.pow_le_pow_right two_pos (by omega)
  have hge : u = 0 ∨ 2 ^ 52 ≤ m * 2 ^ j := by
    refine (Nat.eq_zero_or_pos u).imp id fun h => ?_
    calc 2 ^ 52 ≤ 2 ^ (L + j) := Nat.pow_le_pow_right two_pos (by omega)
      _ = 2 ^ L * 2 ^ j := pow_add ..
      _ ≤ m * 2 ^ j := Nat.mul_le_mul_right _ hL
  have hmag := patternMag_of_sig hle.le hge
  rw [mul_assoc, ← pow_add, add_comm j] at hmag
  rw [if_neg (by omega)]
  obtain ⟨hp, hs, -⟩ := packed (show u * 2 ^ 52 + m * 2 ^ j < 2 ^ 63 by omega) neg
  exact ⟨(isFinite_iff _).2 (by rw [hp]; omega), by rw [funits, fsign, hs, fmag_eq, hp, hmag]⟩

/-- Integers of at most 53 bits convert exactly. -/
theorem fofInt_eq_exact {n : Int} (h : n.natAbs < 2 ^ 53) :
    isFinite (fofInt n) = true ∧ funits (fofInt n) = n * 2 ^ 1074 := by
  obtain ⟨hf, hu⟩ := roundPack_eq_exact (decide (n < 0)) h (show 1074 ≤ 2045 by norm_num)
  refine ⟨hf, hu.trans ?_⟩
  rw [Nat.cast_mul, Nat.cast_pow, Nat.cast_ofNat]
  generalize (2 : Int) ^ 1074 = c
  by_cases hn : n < 0
  · rw [decide_eq_true hn, if_pos rfl, ← neg_mul, Int.ofNat_natAbs_of_nonpos hn.le, neg_neg]
  · rw [decide_eq_false hn, if_neg Bool.false_ne_true, Int.natAbs_of_nonneg (not_lt.1 hn)]

/-- `ftoI32` clamps the truncated value, an infinity counting as an integer out of range. -/
theorem toInt_ftoI32 {a : F64} (hn : isNaN a = false) {t : Nat}
    (ht : (if isInf a then 2 ^ 31 else fmag a >>> 1074) = t) :
    (ftoI32 a).toInt = max (-2 ^ 31) (min (2 ^ 31 - 1) (if a.msb then -(t : Int) else t)) := by
  have hmin : (BitVec.intMin 32).toInt = -2 ^ 31 := by decide
  have hmax : (BitVec.intMax 32).toInt = 2 ^ 31 - 1 := by decide
  simp only [ftoI32, hn, ht, fsign, Bool.false_eq_true, if_false]
  split <;> split
  · rw [hmin]; omega
  · rw [BitVec.toInt_ofInt_eq_self (by norm_num) (by omega) (by omega)]; omega
  · rw [hmax]; omega
  · rw [BitVec.toInt_ofNat', Int.bmod_eq_of_le (by omega) (by omega)]; omega

theorem ftoI32_of_isNaN {a : F64} (h : isNaN a = true) : ftoI32 a = 0 := by rw [ftoI32, if_pos h]

theorem toInt_ftoI32_of_isInf {a : F64} (h : isInf a = true) :
    (ftoI32 a).toInt = if a.msb then -2 ^ 31 else 2 ^ 31 - 1 := by
  rw [toInt_ftoI32 (isNaN_of_isInf h) (if_pos h)]
  cases a.msb <;> rfl

/-- Truncation toward zero shifts the magnitude and keeps the sign. -/
theorem signed_shift_eq_tdiv (neg : Bool) (m k : Nat) :
    (if neg then -((m >>> k : Nat) : Int) else (m >>> k : Nat)) = (if neg then -(m : Int) else m).tdiv (2 ^ k) := by
  have h : ((m >>> k : Nat) : Int) = (m : Int).tdiv (2 ^ k) := by
    rw [Nat.shiftRight_eq_div_pow, Int.ofNat_tdiv, Nat.cast_pow, Nat.cast_ofNat]
  cases neg
  · exact h
  · rw [if_pos rfl, if_pos rfl, Int.neg_tdiv, h]

theorem toInt_ftoI32_of_isFinite {a : F64} (h : isFinite a = true) :
    (ftoI32 a).toInt = max (-2 ^ 31) (min (2 ^ 31 - 1) ((funits a).tdiv (2 ^ 1074))) := by
  rw [toInt_ftoI32 (isNaN_of_isFinite h) (if_neg (by simp [isInf_of_isFinite h])), signed_shift_eq_tdiv, funits,
    fsign]

theorem fofI32_eq_exact (w : I32) : isFinite (fofI32 w) = true ∧ funits (fofI32 w) = w.toInt * 2 ^ 1074 := by
  have hlo := w.le_toInt
  have hhi := w.toInt_lt
  exact fofInt_eq_exact (by omega)

theorem fofU32_eq_exact (w : U32) : isFinite (fofU32 w) = true ∧ funits (fofU32 w) = w.toNat * 2 ^ 1074 := by
  have hlt := w.isLt
  exact fofInt_eq_exact (by omega)

/-- The round trip from an `i32` to a binary64 and back. -/
theorem ftoI32_fofI32 (w : I32) : ftoI32 (fofI32 w) = w := by
  obtain ⟨hf, hu⟩ := fofI32_eq_exact w
  have hlo := w.le_toInt
  have hhi := w.toInt_lt
  refine BitVec.eq_of_toInt_eq ?_
  rw [toInt_ftoI32_of_isFinite hf, hu, Int.mul_tdiv_cancel _ (pow_ne_zero _ two_ne_zero)]
  omega

/-- Settles O43: the integers are packed exactly, and `ftoI32` is taken class by class. -/
theorem numberConversions : Obligations.NumberConversions := by
  refine ⟨fun w => ?_, fofU32_eq_exact,
    fun a => ⟨ftoI32_of_isNaN, toInt_ftoI32_of_isInf, toInt_ftoI32_of_isFinite⟩⟩
  obtain ⟨hf, hu⟩ := fofI32_eq_exact w
  exact ⟨hf, hu, ftoI32_fofI32 w⟩

end Sys2Proof.Machine
end

section
/-! PROOFS. The floating-point operations together (00_scope.md R15): O44. -/

namespace Sys2Proof.Machine

/-- A NaN operand compares false and gives a NaN. -/
theorem nan_operand (p : Path) {a b : F64} (h : isNaN a = true ∨ isNaN b = true) :
    flt a b = false ∧ feq a b = false ∧ isNaN (fadd p a b) = true ∧ isNaN (fsub p a b) = true ∧
      isNaN (fmul p a b) = true ∧ isNaN (fdiv p a b) = true :=
  ⟨by rcases h with h | h <;> simp [flt, h], by rcases h with h | h <;> simp [feq, h], isNaN_fadd h,
    isNaN_fadd (by rwa [isNaN_fneg]), isNaN_fmul h, isNaN_fdiv h⟩

/-- Settles O44: operand class by operand class, from what each operation answers there. -/
theorem floatOrderAndRounding : Obligations.FloatOrderAndRounding := by
  intro p a b
  dsimp only
  refine ⟨nan_operand p, isNaN_fsqrt_of_isNaN, fun ha hb => ?_, fsqrt_finite p, fsqrt_infinite p,
    fun ha hb => ?_⟩
  · obtain ⟨hlt, heq⟩ := compare_of_isFinite ha hb
    exact ⟨hlt, heq, fadd_roundsTo p ha hb, fun h => msb_fadd_of_eq_zero p ha hb (by exact_mod_cast h),
      fsub_roundsTo p ha hb, fun h => msb_fsub_of_eq_zero p ha hb (by exact_mod_cast h),
      fmul_roundsTo p ha hb, msb_fmul_of_isFinite p ha hb, fdiv_finite p ha hb⟩
  · have hna := isNaN_of_isInf ha
    obtain ⟨hlt, hgt, heq⟩ := signedPattern_of_isInf ha hb
    have hmul := fmul_of_isInf p ha hb
    simp only [isZero_iff_isFinite b] at hmul
    exact ⟨(flt_iff hna hb).trans hlt, (flt_iff hb hna).trans hgt, (feq_iff hna hb).trans heq,
      fadd_of_isInf p ha hb, fsub_of_isInf p ha hb, hmul, fdiv_of_isInf p ha hb⟩

end Sys2Proof.Machine
end

section
/-! PROOFS. The host port (20_memory.md R50, 10_state.md R25 to R27, R45): what a read returns and a write does, then
the status register, O12, the size registers, O13, and accesses during a run, O14. -/

namespace Sys2Proof.Machine

open Host (Outcome)

/-! ## Reads and writes -/

/-- A location outside the open ones reads its element, in a run too. -/
theorem State.hostRead_eq_readElement {s : State} {sp : Space} {i : Nat} (hi : i < s.spaceSize sp)
    (ho : s.status.busy = false ∨ openInRun sp i = false) : s.hostRead sp i = s.readElement sp i := by
  rw [State.hostRead, if_neg (Nat.not_le.2 hi), if_neg]
  rcases ho with h | h <;> simp [h]

/-- A write inside a space to anything but `STATUS` and `CMD` waits for the block to be idle. -/
theorem State.hostWrite_eq_writeElement {s : State} {sp : Space} {i : Nat} (hi : i < s.spaceSize sp)
    (hs : ¬ (sp = .ctl ∧ i = 1)) (v : PortWord) :
    s.hostWrite sp i v = if s.status.busy then s else s.writeElement sp i v := by
  rw [State.hostWrite, if_neg (Nat.not_le.2 hi), if_neg hs]

theorem State.hostWrite_of_busy {s : State} (hb : s.status.busy = true) {sp : Space} {i : Nat}
    (hs : ¬ (sp = .ctl ∧ i = 1)) (v : PortWord) : s.hostWrite sp i v = s := by
  by_cases hi : i < s.spaceSize sp
  · rw [State.hostWrite_eq_writeElement hi hs, if_pos hb]
  · rw [State.hostWrite, if_pos (Nat.not_lt.1 hi)]

theorem State.hostWrite_rgbout (s : State) (i : Nat) (v : PortWord) : s.hostWrite .rgbout i v = s := by
  by_cases hi : i < s.spaceSize .rgbout
  · rw [State.hostWrite_eq_writeElement hi nofun]
    exact ite_self s
  · rw [State.hostWrite, if_pos (Nat.not_lt.1 hi)]

/-- A control register outside the generator words of contexts 0 and 1. -/
theorem State.hostRead_ctl (s : State) {i : Nat} (hi : i < 256) (ho : ¬ (16 ≤ i ∧ i < 28)) :
    s.hostRead .ctl i = (s.readCtl i).setWidth 64 :=
  State.hostRead_eq_readElement hi (.inr (by simpa [openInRun] using ho))

/-! ## The status register -/

theorem getLsbD_flagBit (b : Bool) {pos : Nat} (hp : pos < 32) (n : Nat) :
    (flagBit b pos).getLsbD n = (b && decide (n = pos)) := by
  cases b
  · simp [flagBit]
  · rw [flagBit, if_pos rfl, BitVec.getLsbD_ofNat, Nat.testBit_two_pow]
    by_cases h : pos = n
    · simp [h, h ▸ hp]
    · simp [h, Ne.symm h]

/-- The bits of the `STATUS` word (R26). -/
theorem Status.getLsbD_word (st : Status) (n : Nat) : st.word.getLsbD n =
    if n = 0 then st.busy else if n = 1 then st.done else if n = 2 then st.err
    else if n = 3 then st.ovr else if n < 8 then st.errcode.getLsbD (n - 4) else false := by
  have flags : st.word.getLsbD n = (st.busy && decide (n = 0) || st.done && decide (n = 1) ||
      st.err && decide (n = 2) || st.ovr && decide (n = 3) ||
      (st.errcode.setWidth 32 <<< 4).getLsbD n) := by
    simp only [Status.word, BitVec.getLsbD_or, getLsbD_flagBit, Nat.reduceLT]
  rw [flags, BitVec.getLsbD_shiftLeft]
  match n with
  | 0 | 1 | 2 | 3 => simp
  | n + 4 =>
    by_cases h : n + 4 < 8
    · simp [h, show n < 32 by omega, show n + 4 < 32 by omega]
    · simp [h, BitVec.getLsbD_of_ge st.errcode n (by omega)]

theorem State.ite_clearDone (s : State) (b : Bool) : (if b then s.clearDone else s) =
    s.setStatus { s.status with done := s.status.done && !b } := by
  cases b <;> simp [State.clearDone, State.setStatus]

theorem State.ite_clearError (s : State) (b : Bool) : (if b then s.clearError else s) =
    { s with
      status :=
        { s.status with
          err := s.status.err && (s.status.busy || !b)
          errcode := if b && !s.status.busy then 0 else s.status.errcode }
      errinfo := if b && !s.status.busy then 0 else s.errinfo } := by
  cases b <;> cases hb : s.status.busy <;> simp [State.clearError, hb] <;> simp [← hb]

theorem State.ite_clearOverrun (s : State) (b : Bool) : (if b then s.clearOverrun else s) =
    s.setStatus { s.status with ovr := s.status.ovr && (s.status.busy || !b) } := by
  cases b <;> cases hb : s.status.busy <;> simp [State.clearOverrun, State.setStatus, hb] <;> simp [← hb]

/-- A write to `STATUS` (R26), the three rules together. -/
theorem State.writeStatus_eq (s : State) (v : U32) : s.writeStatus v =
    { s with
      status :=
        { busy := s.status.busy
          done := s.status.done && !v.getLsbD 1
          err := s.status.err && (s.status.busy || !v.getLsbD 2)
          ovr := s.status.ovr && (s.status.busy || !v.getLsbD 3)
          errcode := if v.getLsbD 2 && !s.status.busy then 0 else s.status.errcode }
      errinfo := if v.getLsbD 2 && !s.status.busy then 0 else s.errinfo } := by
  simp only [State.writeStatus, State.ite_clearDone, State.ite_clearError, State.ite_clearOverrun]
  rfl

/-- Settles O12: the word bit by bit, and the rules of a write composed. -/
theorem statusRegister : Obligations.StatusRegister := by
  refine ⟨fun s n => ?_, fun s v => ?_⟩
  · have hr : s.hostRead .ctl 1 = s.status.word.setWidth 64 := s.hostRead_ctl (by decide) (by decide)
    rw [hr, BitVec.getLsbD_setWidth, ← Status.getLsbD_word]
    by_cases hn : n < 64
    · simp [hn]
    · simp [hn, BitVec.getLsbD_of_ge s.status.word n (by omega)]
  · have hw : s.hostWrite .ctl 1 v = s.writeStatus (v.setWidth 32) := rfl
    rw [hw, State.writeStatus_eq]
    simp only [BitVec.getLsbD_setWidth, Nat.reduceLT, decide_true, Bool.true_and]

/-! ## The size registers -/

theorem State.hostWrite_ctl (s : State) {i : Nat} (hi : i < 256) (hs : i ≠ 1) (v : PortWord) :
    s.hostWrite .ctl i v = if s.status.busy then s else s.writeCtl i (v.setWidth 32) :=
  State.hostWrite_eq_writeElement hi (fun h => hs h.2) v

/-- The busy check around a capacity check is one check. -/
theorem ite_busy_capacity {α : Type} (b : Bool) (P : Prop) [Decidable P] (x y : α) :
    (if b then x else if P then y else x) = if b = false ∧ P then y else x := by
  cases b <;> simp

/-- Settles O13: each register's arm of a control write. -/
theorem sizeRegisters : Obligations.SizeRegisters := fun s v =>
  ⟨(s.hostWrite_ctl (i := 4) (by decide) (by decide) v).trans (ite_busy_capacity ..),
    (s.hostWrite_ctl (i := 5) (by decide) (by decide) v).trans (ite_busy_capacity ..),
    (s.hostWrite_ctl (i := 6) (by decide) (by decide) v).trans (ite_busy_capacity ..)⟩

/-! ## A run -/

theorem setWidth_ofNat_counter {k : Nat} (hk : k < 32) :
    (BitVec.ofNat 32 (k % 32)).setWidth 64 = BitVec.ofNat 64 k := by
  apply BitVec.eq_of_toNat_eq
  simp only [BitVec.toNat_setWidth, BitVec.toNat_ofNat]
  omega

theorem State.hostRead_counter (s : State) (t : Fin 2) (ht : s.sc[t] < 32) :
    s.hostRead .ctl (7 + t) = BitVec.ofNat 64 s.sc[t] := by
  rw [s.hostRead_ctl (by omega) (by omega), ← setWidth_ofNat_counter ht]
  fin_cases t <;> rfl

/-- Every index of `CFG` inside the space, reserved ones included, reads its field. -/
theorem State.hostRead_cfg (s : State) {i : Nat} (hi : i < 64) : s.hostRead .cfg i = s.cfg.readField i :=
  State.hostRead_eq_readElement hi (.inr rfl)

theorem State.hostRead_rgbin (s : State) {n : Nat} (hn : n < s.frameSize) :
    s.hostRead .rgbin n = (s.rgbin.read n).setWidth 64 :=
  State.hostRead_eq_readElement hn (.inr rfl)

theorem State.Inv.pixelIndex_lt {s : State} (h : s.Inv) {y x ch : Nat} (hy : y < s.frameH) (hx : x < s.frameW)
    (hc : ch < 3) : s.pixelIndex y x ch < s.frameSize := by
  rw [State.pixelIndex_eq]
  exact (pixel_row_bound hy (by omega)).trans_le h.frame_le

/-- What a run leaves specified, location by location (R45, R249). -/
theorem State.Inv.sharedReads {s : State} (h : s.Inv) : s.SharedReads where
  id := s.hostRead_ctl (by decide) (by decide)
  status := s.hostRead_ctl (by decide) (by decide)
  errinfo := s.hostRead_ctl (by decide) (by decide)
  cmd := s.hostRead_ctl (by decide) (by decide)
  width := s.hostRead_ctl (by decide) (by decide)
  height := s.hostRead_ctl (by decide) (by decide)
  vl := s.hostRead_ctl (by decide) (by decide)
  sc t := s.hostRead_counter t ((h.counters t).trans_lt (by decide))
  wmax := s.hostRead_ctl (by decide) (by decide)
  hmax := s.hostRead_ctl (by decide) (by decide)
  lmax := s.hostRead_ctl (by decide) (by decide)
  hostGen := by
    have hg : ∀ i ∈ List.range 6, s.hostRead .ctl (28 + i) = (s.readCtl (28 + i)).setWidth 64 := fun i hi =>
      s.hostRead_ctl (by have := List.mem_range.1 hi; omega) (by omega)
    rw [List.map_congr_left hg]
    rfl
  x i := by
    rw [State.hostRead_eq_readElement i.isLt (.inr rfl)]
    simp only [State.readElement, regIndex, Nat.mod_eq_of_lt i.isLt]
  f i := by
    rw [State.hostRead_eq_readElement i.isLt (.inr rfl)]
    simp only [State.readElement, regIndex, Nat.mod_eq_of_lt i.isLt]
  cfg := by
    rw [List.map_congr_left fun i hi => s.hostRead_cfg (by have := List.mem_range.1 hi; omega)]
    rfl
  rgbin n hn := s.hostRead_rgbin hn
  rgbinPixel y hy x hx ch hc := by
    have hlt := h.pixelIndex_lt hy hx hc
    rw [State.rgbinAt, Memory.readIn_of_lt _ hlt]
    exact s.hostRead_rgbin hlt

/-- Only `STATUS` shows whether the block is busy. -/
theorem State.readElement_setBusy (s : State) (b : Bool) {sp : Space} {i : Nat} (hs : ¬ (sp = .ctl ∧ i = 1)) :
    { s with status := { s.status with busy := b } }.readElement sp i = s.readElement sp i := by
  cases sp with
  | ctl =>
    show BitVec.setWidth 64 (State.readCtl _ i) = BitVec.setWidth 64 (s.readCtl i)
    congr 1
    unfold State.readCtl
    split
    case h_2 => exact absurd ⟨rfl, rfl⟩ hs
    all_goals rfl
  | _ => rfl

/-- A location that is not open reads the same in a run and while idle, but `STATUS`. -/
theorem State.hostRead_setBusy (s : State) (b : Bool) {sp : Space} {i : Nat} (hs : ¬ (sp = .ctl ∧ i = 1))
    (ho : openInRun sp i = false ∨ s.spaceSize sp ≤ i) :
    s.hostRead sp i = { s with status := { s.status with busy := b } }.hostRead sp i := by
  have hsize : { s with status := { s.status with busy := b } }.spaceSize sp = s.spaceSize sp := by
    cases sp <;> rfl
  by_cases hi : i < s.spaceSize sp
  · have ho := ho.resolve_right (Nat.not_le.2 hi)
    rw [State.hostRead_eq_readElement hi (.inr ho), State.hostRead_eq_readElement (hsize ▸ hi) (.inr ho),
      State.readElement_setBusy s b hs]
  · rw [State.hostRead, State.hostRead, hsize, if_pos (Nat.not_lt.1 hi), if_pos (Nat.not_lt.1 hi)]

theorem openInRun_eq_false {sp : Space} {i : Nat}
    (h : sp ∈ [Space.xreg, .freg, .cfg, .rgbin] ∨ sp = .ctl ∧ ¬ (16 ≤ i ∧ i < 28)) :
    openInRun sp i = false := by
  rcases h with h | ⟨rfl, h⟩
  · simp only [List.mem_cons, List.not_mem_nil, or_false] at h
    rcases h with rfl | rfl | rfl | rfl <;> rfl
  · simpa [openInRun] using h

/-- Settles O14: writes wait for the block to be idle, and the locations that are not open do not look at `BUSY`. -/
theorem busyWindow : Obligations.BusyWindow := by
  refine fun s => ⟨s.hostWrite_rgbout, fun hb => ⟨fun v => ?_, fun sp i v hs => ?_, ?_, ?_, ?_, ?_, ?_⟩⟩
  · exact if_pos hb
  · exact State.hostWrite_of_busy hb (fun ⟨hc, hi⟩ => hs ⟨hc, .inl hi⟩) v
  · exact s.hostRead_ctl (by decide) (by decide)
  · exact s.hostRead_counter 0
  · exact s.hostRead_counter 1
  · intro sp i hl
    by_cases hs : sp = .ctl ∧ i = 1
    · exact .inr hs
    · exact .inl (s.hostRead_setBusy false hs ((or_assoc.2 hl).imp_left openInRun_eq_false))
  · exact State.Inv.sharedReads

end Sys2Proof.Machine
end

section
/-! PROOFS. The configuration record and the generator words at the host port (10_state.md R25, R33): O17. -/

namespace Sys2Proof.Machine

/-! ## The configuration record -/

/-- The fields of `CFG` as the host reads them, in the order of R33. -/
def Cfg.words (c : Cfg) : List PortWord := (List.range 37).map c.readField

theorem Cfg.words_eq (c : Cfg) : c.words =
    [boolWord c.blackLineCut, boolWord c.colorBleedBefore, c.colorBleedHoriz.setWidth 64,
     c.colorBleedVert.setWidth 64, boolWord c.inputChromaLowpass, c.ringing, boolWord c.enableRinging2,
     c.ringingShift, c.ringingPower, c.compositePreemphasis, c.subcarrierAmplitude.setWidth 64,
     c.subcarrierAmplitudeBack.setWidth 64, boolWord c.noColorSubcarrier, c.scanlinePhaseShift.setWidth 64,
     c.scanlinePhaseShiftOffset.setWidth 64, c.videoNoise.setWidth 64, c.videoChromaNoise.setWidth 64,
     c.videoChromaPhaseNoise.setWidth 64, c.videoChromaLoss.setWidth 64, boolWord c.preciseNoise,
     boolWord c.emulatingVHS, c.vhsTapeSpeed.setWidth 64, c.vhsEdgeWave.setWidth 64,
     boolWord c.vhsHeadSwitching, c.vhsHeadSwitchingPoint, c.vhsHeadSwitchingPhase,
     c.vhsHeadSwitchingPhaseNoise, c.vhsSharpen, c.vhsOutSharpen, boolWord c.vhsChromaVertBlend,
     boolWord c.vhsSVideoOut, boolWord c.outputNTSC, boolWord c.outputChromaLowpass,
     boolWord c.outputChromaLowpassTV, boolWord c.chromaBlur, c.seed1.setWidth 64, c.seed2.setWidth 64] := rfl

theorem Cfg.length_words (c : Cfg) : c.words.length = 37 := by simp [Cfg.words]

theorem Cfg.getElem_words (c : Cfg) {i : Nat} (hi : i < 37) :
    c.words[i]'(c.length_words.symm ▸ hi) = c.readField i := by
  simp [Cfg.words]

/-- A write replaces the word of its field and no other. -/
theorem Cfg.words_writeField (c : Cfg) {i : Nat} (hi : i < 37) (v : PortWord) :
    (c.writeField i v).words = c.words.set i ((c.writeField i v).readField i) := by
  rw [Cfg.words_eq, Cfg.words_eq]
  interval_cases i <;> rfl

/-- Reserved indices hold nothing. -/
theorem Cfg.readField_reserved (c : Cfg) {i : Nat} (hi : 37 ≤ i) : c.readField i = 0 := by
  obtain ⟨k, rfl⟩ := Nat.exists_eq_add_of_le' hi
  rfl

theorem Cfg.readField_writeField_of_ne (c : Cfg) {i j : Nat} (hi : i < 37) (hj : j ≠ i) (v : PortWord) :
    (c.writeField i v).readField j = c.readField j := by
  by_cases h : j < 37
  · rw [← Cfg.getElem_words _ h, ← Cfg.getElem_words _ h]
    simp only [Cfg.words_writeField c hi v]
    exact List.getElem_set_ne hj.symm _
  · rw [Cfg.readField_reserved _ (Nat.not_lt.1 h), Cfg.readField_reserved _ (Nat.not_lt.1 h)]

theorem boolWord_wordBool (v : PortWord) :
    boolWord (wordBool v) = if (v.setWidth 32 : U32) = 0 then 0 else 1 := by
  by_cases h : (v.setWidth 32 : U32) = 0 <;> simp [boolWord, wordBool, h]

theorem setWidth_setWidth_port (v : PortWord) (n : Nat) :
    (v.setWidth n).setWidth 64 = BitVec.ofNat 64 (v.toNat % 2 ^ n) := by
  apply BitVec.eq_of_toNat_eq
  simp only [BitVec.toNat_setWidth, BitVec.toNat_ofNat]

/-- What a field keeps of a written value, by the types of R33 (log 21). -/
theorem Cfg.readField_writeField_self (c : Cfg) {i : Nat} (hi : i < 37) (v : PortWord) :
    (c.writeField i v).readField i =
      if i ∈ [0, 1, 4, 6, 12, 19, 20, 23, 29, 30, 31, 32, 33, 34] then
        if (v.setWidth 32 : U32) = 0 then 0 else 1
      else if i ∈ [5, 7, 8, 9, 24, 25, 26, 27, 28] then v
      else if i ∈ [13, 21] then BitVec.ofNat 64 (v.toNat % 4)
      else BitVec.ofNat 64 (v.toNat % 2 ^ 32) := by
  have enum : BitVec.ofNat 64 (v.toNat % 4) = (v.setWidth 2).setWidth 64 := (setWidth_setWidth_port v 2).symm
  rw [← boolWord_wordBool, ← setWidth_setWidth_port v 32, enum]
  interval_cases i <;> rfl

theorem State.hostWrite_cfg {s : State} (hb : s.status.busy = false) {i : Nat} (hi : i < 64) (v : PortWord) :
    s.hostWrite .cfg i v = { s with cfg := s.cfg.writeField i v } := by
  rw [State.hostWrite_eq_writeElement (sp := .cfg) hi nofun, hb]
  rfl

/-- A read of `CFG` looks at the record alone. -/
theorem State.hostRead_cfg_eq (s : State) (i : Nat) :
    s.hostRead .cfg i = if 64 ≤ i then 0 else s.cfg.readField i := by
  split
  · next h => exact if_pos h
  · next h => exact s.hostRead_cfg (Nat.not_le.1 h)

/-! ## Generator words -/

/-- The generator words of context `c` stand at `16 + 6c` to `16 + 6c + 5` (R25). -/
theorem State.readCtl_genWord (s : State) (c : Fin 3) {i : Nat} (hi : i < 6) :
    s.readCtl (16 + 6 * c.val + i) = s.ctx[c].gen.word i := by
  fin_cases c <;> interval_cases i <;> rfl

theorem State.writeCtl_genWord (s : State) (c : Fin 3) {i : Nat} (hi : i < 6) (v : U32) :
    s.writeCtl (16 + 6 * c.val + i) v = s.setGen c (s.ctx[c].gen.setWord i v) := by
  fin_cases c <;> interval_cases i <;> rfl

theorem Gen.word_setWord (g : Gen) {i j : Nat} (hi : i < 6) (hj : j < 6) (v : U32) :
    (g.setWord i v).word j = if j = i then v else g.word j := by
  interval_cases i <;> interval_cases j <;> rfl

theorem State.hostRead_genWord {s : State} (hb : s.status.busy = false) (c : Fin 3) {i : Nat} (hi : i < 6) :
    s.hostRead .ctl (16 + 6 * c.val + i) = (s.ctx[c].gen.word i).setWidth 64 := by
  have hlt : 16 + 6 * c.val + i < s.spaceSize .ctl := by show _ < 256; omega
  rw [State.hostRead_eq_readElement hlt (.inl hb), ← s.readCtl_genWord c hi]
  rfl

theorem State.hostWrite_genWord {s : State} (hb : s.status.busy = false) (c : Fin 3) {i : Nat} (hi : i < 6)
    (v : PortWord) : s.hostWrite .ctl (16 + 6 * c.val + i) v =
      s.setGen c (s.ctx[c].gen.setWord i (v.setWidth 32)) := by
  rw [s.hostWrite_ctl (by omega) (by omega), hb, ← s.writeCtl_genWord c hi]
  rfl

theorem State.setGen_gen (s : State) (c : Fin 3) (g : Gen) : (s.setGen c g).ctx[c].gen = g := by
  rw [State.setGen, State.setCtx_get, if_pos rfl]

/-- Settles O17: what the record and a generator keep of a written word, each write changing one of them. -/
theorem configurationAndGeneratorWords : Obligations.ConfigurationAndGeneratorWords := by
  refine fun s v hb => ⟨fun i hi => ?_, fun c i hi => ?_⟩
  · rw [State.hostWrite_cfg hb (by omega)]
    refine ⟨?_, fun j hj => ?_, ChangesOnly.refl {} s⟩
    · rw [State.hostRead_cfg _ (by omega)]
      exact s.cfg.readField_writeField_self hi v
    · simp only [State.hostRead_cfg_eq, Cfg.readField_writeField_of_ne _ hi hj]
  · simp only [State.hostWrite_genWord hb c hi]
    refine ⟨?_, fun j hj hne => ?_, changesOnly_setGen _ rfl⟩
    · rw [State.hostRead_genWord (s := s.setGen c _) hb c hi, State.setGen_gen, Gen.word_setWord _ hi hi, if_pos rfl]
      exact setWidth_setWidth_port v 32
    · rw [State.setGen_gen, Gen.word_setWord _ hi hj, if_neg hne]

end Sys2Proof.Machine
end

section
/-! PROOFS. Reset (10_state.md R42, 70_reset_and_hazards.md R240): the values it leaves, O18, and the invariant, O19. -/

namespace Sys2Proof.Machine

open Host (Outcome)

/-! ## The invariant after reset -/

theorem Context.Ok.afterReset (seed : U32) (l z : Nat) : (Context.afterReset seed).Ok l z := by
  refine ⟨fun b => ?_, Memory.wf_empty, nofun⟩
  have hb : (Context.afterReset seed).lb[b] = Memory.empty := by simp [Context.afterReset]
  rw [hb]
  exact ⟨Memory.wf_empty, nofun⟩

theorem State.resetWith_ctx (p : HwParams) (c : Fin 3) :
    (State.resetWith p).ctx[c] =
      Context.afterReset (#v[p.resetSeed0, p.resetSeed1, p.resetSeed2] : Vector U32 3)[c] := by
  fin_cases c <;> rfl

theorem State.resetWith_sc (p : HwParams) (t : Fin 2) : (State.resetWith p).sc[t] = 17 := by
  simp [State.resetWith]

theorem State.inv_resetWith {p : HwParams} (hp : p.legal = true) : (State.resetWith p).Inv where
  params := hp
  width := Nat.zero_le _
  height := Nat.zero_le _
  vl := Nat.zero_le _
  counters t := (State.resetWith_sc p t).le
  idle _ := ⟨State.resetWith_sc p 0, State.resetWith_sc p 1⟩
  noError _ := ⟨rfl, rfl⟩
  errorCode := nofun
  run := nofun
  contexts c := by rw [State.resetWith_ctx]; exact Context.Ok.afterReset _ _ _
  rgbin := Memory.FrameOk.empty
  rgbout := Memory.FrameOk.empty
  yiq := Memory.FrameOk.empty

/-- Settles O19: the implementation's parameters are legal, and so the reset state meets the invariant. -/
theorem resetMeetsTheInvariant : Obligations.ResetMeetsTheInvariant :=
  State.inv_resetWith hwParams_legal

/-! ## The values after reset -/

/-- The states that a reset leaves: the model's own fields are open (log 22). -/
theorem State.eq_of_reset {p : HwParams} {s : State}
    (h : s = State.resetWith p ∨ ∃ u : State, u.hw = p ∧ u.perform .reset = .next s) :
    ∃ ins turns n d, s = { State.resetWith p with inputs := ins, turns := turns, tick := n, hostData := d } := by
  rcases h with rfl | ⟨u, rfl, hu⟩
  · exact ⟨_, _, _, _, rfl⟩
  · obtain rfl : u.platformReset = s := Outcome.next.inj hu
    exact ⟨_, _, _, _, rfl⟩

theorem Cfg.readField_zero (i : Nat) : Cfg.zero.readField i = 0 := by
  unfold Cfg.readField
  split <;> rfl

theorem Status.word_reset : (⟨false, false, false, false, 0⟩ : Status).word = 0 := by decide

/-- Settles O18: both kinds of reset leave `State.resetWith`, up to the model's own fields. -/
theorem resetValues : Obligations.ResetValues := by
  refine ⟨fun p s h => ?_, hwParams, hwParams_legal, rfl⟩
  obtain ⟨ins, turns, n, d, rfl⟩ := State.eq_of_reset h
  refine ⟨fun i => ⟨?_, ?_⟩, rfl,
    (State.hostRead_ctl _ (by decide) (by decide)).trans (congrArg (BitVec.setWidth 64) Status.word_reset),
    rfl, rfl, rfl, rfl, State.resetWith_sc p 0, State.resetWith_sc p 1,
    rfl, rfl, rfl, fun c i => ?_, fun i => ?_, rfl⟩
  · simp [State.resetWith]
  · simp [State.resetWith]
  · show (State.resetWith p).ctx[c].flt[i] = _
    rw [State.resetWith_ctx]
    simp [Context.afterReset]
  · rw [State.hostRead_cfg_eq]
    split
    · rfl
    · exact Cfg.readField_zero i

end Sys2Proof.Machine
end

section
/-! PROOFS. Every step keeps the invariant (10_state.md R24, R27, 46_dispatcher.md R192 to R198): O20. The invariant
goes through each kind of update, then through each command, host access and agent. -/

namespace Sys2Proof.Machine

open Host (Outcome)

section

variable {s : State}

/-! ## The invariant through the status bits, the counters and the control registers -/

/-- The status fields and `ERRINFO` may take any values that fit each other, the counters and the frame. -/
theorem State.Inv.setFlags (h : s.Inv) {st : Status} {info : U32}
    (idle : st.busy = false → s.sc[0] = 17 ∧ s.sc[1] = 17)
    (noError : st.err = false → st.errcode = 0 ∧ info = 0)
    (errorCode : st.err = true → 1 ≤ st.errcode.toNat ∧ st.errcode.toNat ≤ 4)
    (run : st.busy = true → st.err = false ∧ s.frameEmpty = false ∧ s.badRingLength = false) :
    ({ s with status := st, errinfo := info }).Inv where
  params := h.params
  width := h.width
  height := h.height
  vl := h.vl
  counters := h.counters
  idle := idle
  noError := noError
  errorCode := errorCode
  run := run
  contexts := h.contexts
  rgbin := h.rgbin
  rgbout := h.rgbout
  yiq := h.yiq

/-- `DONE` and `OVR` are free. -/
theorem State.Inv.setDoneOvr (h : s.Inv) (done ovr : Bool) :
    (s.setStatus { s.status with done := done, ovr := ovr }).Inv :=
  h.setFlags h.idle h.noError h.errorCode h.run

theorem CommandError.code_range (e : CommandError) : 1 ≤ e.code.toNat ∧ e.code.toNat ≤ 4 := by
  cases e <;> decide

theorem State.Inv.raise (h : s.Inv) (hb : s.status.busy = false) (e : CommandError) (word : U32) :
    (s.raise e word).Inv := by
  unfold State.raise
  split
  · exact h
  · exact h.setFlags (fun _ => h.idle hb) nofun (fun _ => e.code_range)
      (fun hr => absurd (hb.symm.trans hr) nofun)

theorem State.Inv.clearError (h : s.Inv) : s.clearError.Inv := by
  unfold State.clearError
  split
  · exact h
  · next hb => exact h.setFlags h.idle (fun _ => ⟨rfl, rfl⟩) nofun (fun hr => absurd hr hb)

theorem State.Inv.writeStatus (h : s.Inv) (v : U32) : (s.writeStatus v).Inv := by
  have done (b : Bool) : (if b then s.clearDone else s).Inv := by
    split
    · exact h.setDoneOvr _ _
    · exact h
  have error (b : Bool) {u : State} (hu : u.Inv) : (if b then u.clearError else u).Inv := by
    split
    · exact hu.clearError
    · exact hu
  have overrun (b : Bool) {u : State} (hu : u.Inv) : (if b then u.clearOverrun else u).Inv := by
    unfold State.clearOverrun
    split
    · split
      · exact hu
      · exact hu.setDoneOvr _ _
    · exact hu
  exact overrun _ (error _ (done _))

/-- While a run is active a counter may take any value 0..17. -/
theorem State.Inv.setSc (h : s.Inv) (hb : s.status.busy = true) (t : Fin 2) {k : Nat} (hk : k ≤ 17) :
    (s.setSc t k).Inv :=
  { params := h.params, width := h.width, height := h.height, vl := h.vl,
    counters := fun t' => by
      rw [State.setSc_get]; split
      · exact hk
      · exact h.counters t'
    idle := fun hi => absurd (hb.symm.trans hi) nofun
    noError := h.noError, errorCode := h.errorCode, run := h.run, contexts := h.contexts,
    rgbin := h.rgbin, rgbout := h.rgbout, yiq := h.yiq }

/-- While idle the sizes may take any values within the capacities, and the configuration any value. -/
theorem State.Inv.configure (h : s.Inv) (hb : s.status.busy = false) {w ht n : U32} {c : Cfg}
    (hw : w.toNat ≤ s.hw.wmax.toNat) (hh : ht.toNat ≤ s.hw.hmax.toNat) (hn : n.toNat ≤ s.hw.lmax.toNat) :
    ({ s with width := w, height := ht, vl := n, cfg := c }).Inv where
  params := h.params
  width := hw
  height := hh
  vl := hn
  counters := h.counters
  idle := h.idle
  noError := h.noError
  errorCode := h.errorCode
  run hr := absurd (hb.symm.trans hr) nofun
  contexts := h.contexts
  rgbin := h.rgbin
  rgbout := h.rgbout
  yiq := h.yiq

theorem State.Inv.setRgbin (h : s.Inv) {m : Memory 8} (hm : m.FrameOk s.frameSize) :
    ({ s with rgbin := m }).Inv :=
  { params := h.params, width := h.width, height := h.height, vl := h.vl, counters := h.counters,
    idle := h.idle, noError := h.noError, errorCode := h.errorCode, run := h.run,
    contexts := h.contexts, rgbin := hm, rgbout := h.rgbout, yiq := h.yiq }

/-- The invariant does not look at the model's own fields. -/
theorem State.Inv.setModel (h : s.Inv) (ins : List HostOp) (turns : List Agent) (n : Nat) (d : PortWord) :
    ({ s with inputs := ins, turns := turns, tick := n, hostData := d }).Inv :=
  h.congr rfl rfl rfl rfl rfl rfl rfl rfl rfl rfl rfl rfl

/-! ## The agents of a run -/

/-- The fork (46_dispatcher.md R193) of a frame that the pre-checks accept. -/
theorem State.Inv.fork (h : s.Inv) (he : s.status.err = false) (hf : s.frameEmpty = false)
    (hr : s.badRingLength = false) : s.fork.Inv := by
  obtain ⟨m, e⟩ := s.rgb2yiq_setYiq
  have hc : (s.setYiq m).Inv := e ▸ h.rgb2yiq
  have hm : (s.setYiq m).markForked.Inv :=
    hc.setFlags nofun h.noError h.errorCode fun _ => ⟨he, hf, hr⟩
  rw [State.fork, e]
  exact (((hm.setSc rfl 0 (Nat.zero_le _)).setSc rfl 1 (Nat.zero_le _)).loseScratch 0).loseScratch 1

/-- While idle both counters are 17, so a task that can move moves in a run. -/
theorem State.Inv.busy_of_task (h : s.Inv) {t : Fin 2} (ht : s.sc[t] ≤ 16) : s.status.busy = true := by
  by_contra hb
  obtain ⟨h0, h1⟩ := h.idle (by simpa using hb)
  have : s.sc[t] = 17 := by fin_cases t <;> assumption
  omega

theorem State.stageStep_status (s : State) (t : Fin 2) (k : Nat) : (s.stageStep t k).status = s.status := by
  obtain ⟨m, m', n, e⟩ := s.stageStep_fields t k
  rw [e]; rfl

theorem State.Inv.taskStep (h : s.Inv) (t : Fin 2) : (s.taskStep t).Inv := by
  unfold State.taskStep
  split
  · next ht =>
    have hb : (s.stageStep t s.sc[t]).status.busy = true := by
      rw [State.stageStep_status]; exact h.busy_of_task ht
    exact (h.stageStep t _).setSc hb t (by omega)
  · exact h

theorem State.Inv.joinStep (h : s.Inv) : s.joinStep.Inv := by
  unfold State.joinStep
  split
  · next hj =>
    have hj : s.sc[0] = 17 ∧ s.sc[1] = 17 := by simpa [State.joinReady] using hj
    exact h.setFlags (fun _ => hj) h.noError h.errorCode nofun
  · exact h

/-! ## Commands -/

/-- The outcome is a next state that meets the invariant. -/
def NextInv (o : Outcome State Fault Refusal) : Prop := ∃ t, o = .next t ∧ t.Inv

theorem NextInv.next {t : State} (h : t.Inv) : NextInv (.next t) := ⟨t, rfl, h⟩

theorem NextInv.ite {P : Prop} [Decidable P] {a b : Outcome State Fault Refusal} (ha : P → NextInv a)
    (hb : ¬ P → NextInv b) : NextInv (if P then a else b) := by
  split
  · exact ha ‹_›
  · exact hb ‹_›

theorem State.Inv.setCascade (h : s.Inv) (c : CtxId) (slot : SlotId) (k : Cascade) :
    (s.setCascade c slot k).Inv :=
  ((h.setFlt _ _ _).setFlt _ _ _).setFlt _ _ _

theorem State.Inv.execPipeProcess (h : s.Inv) (hb : s.status.busy = false) (he : s.status.err = false) :
    NextInv (execPipeProcess s) :=
  .ite (fun _ => .next (h.setDoneOvr _ _)) fun hf =>
    .ite (fun _ => .next (h.raise hb _ _)) fun hr => .next (h.fork he (by simpa using hf) (by simpa using hr))

/-- A command run while idle; only `PIPE.PROCESS` asks that no error is recorded, because a run has none
(60_exceptions.md R227). -/
theorem State.Inv.exec (h : s.Inv) (hb : s.status.busy = false) (i : Instr)
    (hi : i = .pipeProcess → s.status.err = false) : NextInv (exec i s) := by
  cases i with
  | nop => exact .next h
  | prngSeed c xS => exact .ite (fun _ => .next (h.raise hb _ _)) fun _ => .next (h.setGen _ _)
  | prngNext c xD => exact .next ((h.setGen _ _).setX _ _)
  | prngU01 c fD => exact .next ((h.setGen _ _).setF _ _)
  | prngUrange c fD fLo fHi => exact .next ((h.setGen _ _).setF _ _)
  | prngTri c fD fLo fHi fMode => exact .next ((h.setGen _ _).setF _ _)
  | iirInit c slot fRate fCut fVal => exact .next (h.setFlt _ _ _)
  | iirLp c slot fD fS => exact .next ((h.setFlt _ _ _).setF _ _)
  | iirHp c slot fD fS => exact .next ((h.setFlt _ _ _).setF _ _)
  | iirLpa c slot lD lS => exact .next ((h.setFlt _ _ _).storeLine _ _ _)
  | iirHpa c slot lD lS => exact .next ((h.setFlt _ _ _).storeLine _ _ _)
  | iirInit3 c slot fRate fCut fVal =>
    exact .ite (fun _ => .next (h.setCascade _ _ _)) fun _ => .next (h.raise hb _ _)
  | iirLp3 c slot fD fS =>
    exact .ite (fun _ => .next ((h.setCascade _ _ _).setF _ _)) fun _ => .next (h.raise hb _ _)
  | iirLpa3 c slot lD lS =>
    exact .ite (fun _ => .next ((h.setCascade _ _ _).storeLine _ _ _)) fun _ => .next (h.raise hb _ _)
  | fftFwd c => exact .ite (fun _ => .next (h.storeZ _ _)) fun _ => .next (h.raise hb _ _)
  | fftInv c => exact .ite (fun _ => .next (h.storeZ _ _)) fun _ => .next (h.raise hb _ _)
  | fftShift c => exact .next (h.storeZ _ _)
  | zLdre c lS => exact .next (h.storeZ _ _)
  | zStre c lD => exact .next (h.storeLine _ _ _)
  | zMulr c lS => exact .next (h.storeZ _ _)
  | cscRgb2yiq => exact .next h.rgb2yiq
  | cscYiq2rgb fld => exact .next (h.yiq2rgb _)
  | muxEnc fld xAmp => exact .next (h.storeField _ _)
  | muxDec fld xAmp => exact .next (h.storeField _ _)
  | ldRow c lD p xRow => exact .ite (fun _ => .next (h.raise hb _ _)) fun _ => .next (h.storeLine _ _ _)
  | stRow c p xRow xShift lS =>
    exact .ite (fun _ => .next (h.raise hb _ _)) fun _ => .next (h.storePlaneRow _ _ _)
  | pipeProcess => exact h.execPipeProcess hb (hi rfl)
  | pipeStage fld k =>
    exact .ite (fun _ => .next (h.raise hb _ _)) fun _ => .ite (fun _ => .next h) fun _ =>
      .ite (fun _ => .next (h.raise hb _ _)) fun _ => .next ((h.stageStep _ _).loseScratch _)

/-- A word written to `CTL.CMD`: a recorded error lets only `NOP` through (30_encoding.md R78). -/
theorem State.Inv.issue (h : s.Inv) (word : U32) : NextInv (s.issue word) := by
  refine .ite (fun _ => .next (h.setDoneOvr _ _)) fun hb => .ite (fun _ => .next h) fun hd => ?_
  have hb : s.status.busy = false := by simpa using hb
  split
  · exact .next (h.raise hb _ _)
  · next i hi =>
    refine h.exec hb i ?_
    rintro rfl
    simpa [hi] using hd

/-! ## The host -/

theorem State.Inv.writeCtl (h : s.Inv) (hb : s.status.busy = false) (i : Nat) (v : U32) :
    (s.writeCtl i v).Inv := by
  unfold State.writeCtl
  split
  · split
    · next hv => exact h.configure hb hv h.height h.vl
    · exact h
  · split
    · next hv => exact h.configure hb h.width hv h.vl
    · exact h
  · split
    · next hv => exact h.configure hb h.width h.height hv
    · exact h
  · split
    · exact h.setGen _ _
    · exact h

/-- An index inside a space of parts of `n` elements lies inside its part. -/
theorem mod_lt_of_lt_mul {i k n : Nat} (h : i < k * n) : i % n < n :=
  Nat.mod_lt _ (Nat.pos_of_ne_zero fun hn => by simp [hn] at h)

theorem State.Inv.writeElement (h : s.Inv) (hb : s.status.busy = false) (sp : Space) {i : Nat}
    (hi : i < s.spaceSize sp) (v : PortWord) : (s.writeElement sp i v).Inv := by
  cases sp with
  | ctl => exact h.writeCtl hb _ _
  | xreg => exact h.setX _ _
  | freg => exact h.setF _ _
  | cfg => exact h.configure hb h.width h.height h.vl
  | flt => exact h.setFlt _ _ _
  | lbuf =>
    obtain ⟨hwf, hin⟩ := (h.contexts (ctxIndex (i / s.lineSize / 4))).lines (lineIndex (i / s.lineSize % 4))
    exact h.setCtx _ _ ((h.contexts _).setLine _ _
      ⟨Memory.wf_write _ _ _ hwf, Memory.inside_write v (mod_lt_of_lt_mul hi) hin⟩)
  | zbuf =>
    obtain ⟨hwf, hin⟩ := (h.contexts (ctxIndex (i / s.zSize))).complex
    exact h.setCtx _ _ ((h.contexts _).setZ _
      ⟨Memory.wf_write _ _ _ hwf, Memory.inside_write v (mod_lt_of_lt_mul hi) hin⟩)
  | rgbin => exact h.setRgbin (h.rgbin.write _ hi)
  | rgbout => exact h
  | yiq => exact h.setYiq (h.yiq.write _ hi)

theorem State.Inv.hostWrite (h : s.Inv) (sp : Space) (i : Nat) (v : PortWord) : (s.hostWrite sp i v).Inv := by
  unfold State.hostWrite
  split
  · exact h
  next hi =>
    split
    · exact h.writeStatus _
    · split
      · exact h
      next hb => exact h.writeElement (by simpa using hb) sp (by omega) v

theorem State.Inv.platformReset (h : s.Inv) : s.platformReset.Inv :=
  (State.inv_resetWith h.params).setModel _ _ _ _

theorem State.Inv.perform (h : s.Inv) (op : HostOp) : NextInv (s.perform op) := by
  cases op with
  | read sp i => exact .next (h.setModel _ _ _ _)
  | write sp i v => exact .ite (fun _ => h.issue _) fun _ => .next (h.hostWrite _ _ _)
  | reset => exact .next h.platformReset

theorem State.Inv.hostStep (h : s.Inv) : NextInv s.hostStep := by
  unfold State.hostStep
  split
  · exact .next h
  · exact (h.setModel _ _ _ _).perform _

/-! ## A step -/

theorem State.Inv.agentStep (h : s.Inv) (a : Agent) : NextInv (s.agentStep a) := by
  cases a with
  | host => exact h.hostStep
  | task t => exact .next (h.taskStep t)
  | join => exact .next h.joinStep

theorem State.Inv.busyStep (h : s.Inv) : NextInv s.busyStep := by
  unfold State.busyStep
  split
  · exact h.agentStep _
  · exact (h.setModel _ _ _ _).agentStep _

theorem State.Inv.step (h : s.Inv) : NextInv (step s) := .ite (fun _ => h.busyStep) fun _ => h.hostStep

end

/-- Settles O20: a step is an agent's step in a run, or the host's. -/
theorem everyStepKeepsTheInvariant : Obligations.EveryStepKeepsTheInvariant := fun _ h => h.step

end Sys2Proof.Machine
end

section
/-! PROOFS. The two field tasks of a run own disjoint parts of the state (20_memory.md R59, R64): what a task's step
writes and what it reads, O48; and that no schedule carries a value from one field to the other, O51. -/

namespace Sys2Proof.Machine

open Host (Outcome)

/-! ## What a task's step writes -/

/-- What a task's step needs of the frame buffers: the frame fits them, and they are in canonical form. It is weaker
than the invariant because O51 lets `exec` fork a run while an error is recorded, and the invariant allows no such run. -/
structure State.FramesOk (s : State) : Prop where
  fits : 3 * s.frameW * s.frameH ≤ s.frameSize
  yiq : s.yiq.wf
  rgbout : s.rgbout.wf

theorem State.Inv.framesOk {s : State} (h : s.Inv) : s.FramesOk := ⟨h.frame_le, h.yiq.wf, h.rgbout.wf⟩

/-- What the task of field `t` may write (R59): its own rows and its own generator. -/
def State.taskFootprint (s : State) (t : Fin 2) : Footprint where
  gen := (· = t.castSucc)
  rgbout := s.ownByte t
  yiq := s.ownSample t

section

variable {s : State} (h : s.FramesOk)

include h

theorem State.FramesOk.storeField (t : Fin 2) (f : FieldRows) :
    ∃ m, s.storeField t f = s.setYiq m ∧ m.wf ∧
      (∀ p < 3, ∀ y < s.frameH, y % 2 = t → ∀ x < s.frameW,
        m.read (s.yiqIndex p y x) = (f.plane p).at (y / 2) x) ∧
      ∀ i, ¬ s.ownSample t i → m.read i = s.yiq.read i := by
  obtain ⟨m, e, hm⟩ := s.storeField_eq t f t.isLt h.fits h.yiq
  have planes {p : Nat} : p ∈ [0, 1, 2] ↔ p < 3 := by simp; omega
  exact ⟨m, e, hm.wf, fun p hp => hm.row p (planes.2 hp), fun i hi => hm.outside i
    fun p hp y hy hyt x hx hix => hi ⟨p, y, x, planes.1 hp, hy, hyt, hx, hix⟩⟩

theorem State.FramesOk.stageStep (t : Fin 2) (k : Nat) :
    (s.stageStep t k).FramesOk ∧ ChangesOnly (s.taskFootprint t) s (s.stageStep t k) := by
  have idle : s.FramesOk ∧ ChangesOnly (s.taskFootprint t) s s := ⟨h, .refl _ s⟩
  unfold State.stageStep
  split
  · next st _ =>
    split
    · unfold State.runStage
      split
      · obtain ⟨m, e, hm⟩ := s.yiq2rgb_eq t t.isLt h.fits h.rgbout
        rw [e]
        exact ⟨⟨h.fits, h.yiq, hm.wf⟩, changesOnly_setRgbout hm.outside⟩
      · obtain ⟨m, e, hwf, -, hout⟩ := h.storeField t
          (stageBody (s.stageEnv t k) (s.loadField t) s.ctx[t.castSucc].gen st).1
        simp only [e]
        exact ⟨⟨h.fits, hwf, h.rgbout⟩, (changesOnly_setYiq hout).trans (changesOnly_setGen _ rfl)⟩
    · exact idle
  · exact idle

/-- A task's step writes its own rows and generator, and its counter. -/
theorem State.FramesOk.taskStep_changesOnly (t : Fin 2) :
    ChangesOnly (s.taskFootprint t) s { s.taskStep t with sc := s.sc } := by
  unfold State.taskStep
  split
  · exact { (h.stageStep t s.sc[t]).2 with sc := rfl }
  · exact .refl _ s

theorem State.FramesOk.taskStep (t : Fin 2) : (s.taskStep t).FramesOk := by
  unfold State.taskStep
  split
  · obtain ⟨fits, yiq, rgbout⟩ := (h.stageStep t s.sc[t]).1
    exact ⟨fits, yiq, rgbout⟩
  · exact h

theorem State.FramesOk.taskStep_sc_of_ne {t t' : Fin 2} (ht : t' ≠ t) : (s.taskStep t).sc[t'] = s.sc[t'] := by
  unfold State.taskStep
  split
  · rw [State.setSc_get, if_neg ht.symm, (h.stageStep t s.sc[t]).2.sc]
  · rfl

end

/-! ## What a task's step reads -/

/-- The two states agree on all that the task of field `t` may read (R59): the configuration, the parameters, the sizes,
its own rows, generator and counter; and on the model's count of host steps, which names free values (log 6). -/
structure SameField (t : Fin 2) (s u : State) : Prop where
  cfg : u.cfg = s.cfg
  hw : u.hw = s.hw
  width : u.width = s.width
  height : u.height = s.height
  tick : u.tick = s.tick
  sc : u.sc[t] = s.sc[t]
  gen : u.ctx[t.castSucc].gen = s.ctx[t.castSucc].gen
  yiq : ∀ i, s.ownSample t i → u.yiq.read i = s.yiq.read i
  rgbout : ∀ i, s.ownByte t i → u.rgbout.read i = s.rgbout.read i

/-- Which samples and bytes are a field's own is a matter of the sizes alone. -/
theorem State.ownSample_congr {s u : State} (hw : u.width = s.width) (hh : u.height = s.height) (t i : Nat) :
    u.ownSample t i ↔ s.ownSample t i := by
  simp only [State.ownSample, State.yiqIndex, State.frameW, State.frameH, hw, hh]

theorem State.ownByte_congr {s u : State} (hw : u.width = s.width) (hh : u.height = s.height) (t i : Nat) :
    u.ownByte t i ↔ s.ownByte t i := by
  simp only [State.ownByte, State.pixelIndex, State.frameW, State.frameH, hw, hh]

namespace SameField

variable {t : Fin 2} {s u v : State}

theorem refl (t : Fin 2) (s : State) : SameField t s s :=
  ⟨rfl, rfl, rfl, rfl, rfl, rfl, rfl, fun _ _ => rfl, fun _ _ => rfl⟩

theorem symm (h : SameField t s u) : SameField t u s where
  cfg := h.cfg.symm
  hw := h.hw.symm
  width := h.width.symm
  height := h.height.symm
  tick := h.tick.symm
  sc := h.sc.symm
  gen := h.gen.symm
  yiq i hi := (h.yiq i ((State.ownSample_congr h.width h.height t i).1 hi)).symm
  rgbout i hi := (h.rgbout i ((State.ownByte_congr h.width h.height t i).1 hi)).symm

theorem trans (h : SameField t s u) (h' : SameField t u v) : SameField t s v where
  cfg := h'.cfg.trans h.cfg
  hw := h'.hw.trans h.hw
  width := h'.width.trans h.width
  height := h'.height.trans h.height
  tick := h'.tick.trans h.tick
  sc := h'.sc.trans h.sc
  gen := h'.gen.trans h.gen
  yiq i hi := (h'.yiq i ((State.ownSample_congr h.width h.height t i).2 hi)).trans (h.yiq i hi)
  rgbout i hi := (h'.rgbout i ((State.ownByte_congr h.width h.height t i).2 hi)).trans (h.rgbout i hi)

theorem frameW (h : SameField t s u) : u.frameW = s.frameW := congrArg BitVec.toNat h.width

theorem frameH (h : SameField t s u) : u.frameH = s.frameH := congrArg BitVec.toNat h.height

theorem yiqIndex (h : SameField t s u) (p y x : Nat) : u.yiqIndex p y x = s.yiqIndex p y x := by
  simp only [State.yiqIndex, h.frameW, h.frameH]

theorem pixelIndex (h : SameField t s u) (y x ch : Nat) : u.pixelIndex y x ch = s.pixelIndex y x ch := by
  simp only [State.pixelIndex, h.frameW]

theorem yiqAt (h : SameField t s u) {p y x : Nat} (hp : p < 3) (hy : y < s.frameH) (hyt : y % 2 = t)
    (hx : x < s.frameW) : u.yiqAt p y x = s.yiqAt p y x := by
  have size : u.frameSize = s.frameSize := by rw [State.frameSize, State.frameSize, h.hw]
  rw [State.yiqAt, State.yiqAt, Memory.readIn, Memory.readIn, size, h.yiqIndex,
    h.yiq _ ⟨p, y, x, hp, hy, hyt, hx, rfl⟩]

theorem loadPlane (h : SameField t s u) {p : Nat} (hp : p < 3) : u.loadPlane t p = s.loadPlane t p := by
  rw [State.loadPlane, State.loadPlane, h.frameH]
  refine List.map_congr_left fun y hy => ?_
  obtain ⟨hy, hyt⟩ := (mem_ownRows t.isLt).1 hy
  rw [State.planeRow, State.planeRow, h.frameW]
  exact List.map_congr_left fun x hx => h.yiqAt hp hy hyt (List.mem_range.1 hx)

theorem loadField (h : SameField t s u) : u.loadField t = s.loadField t := by
  rw [State.loadField, State.loadField, h.loadPlane (p := 0) (by decide), h.loadPlane (p := 1) (by decide),
    h.loadPlane (p := 2) (by decide)]

theorem stageEnv (h : SameField t s u) (k : Nat) : u.stageEnv t k = s.stageEnv t k := by
  simp only [State.stageEnv, h.cfg, h.hw, h.frameW, h.frameH, h.tick]

/-- Storing the same rows and generator for the field. -/
theorem storeField (h : SameField t s u) (hs : s.FramesOk) (hu : u.FramesOk) (f : FieldRows) (g : Gen) :
    SameField t ((s.storeField t f).setGen t.castSucc g) ((u.storeField t f).setGen t.castSucc g) := by
  obtain ⟨m, e, -, hm, -⟩ := hs.storeField t f
  obtain ⟨m', e', -, hm', -⟩ := hu.storeField t f
  rw [e, e']
  refine ⟨h.cfg, h.hw, h.width, h.height, h.tick, h.sc, ?_, ?_, h.rgbout⟩
  · rw [State.setGen_gen, State.setGen_gen]
  · rintro _ ⟨p, y, x, hp, hy, hyt, hx, rfl⟩
    show m'.read (s.yiqIndex p y x) = m.read (s.yiqIndex p y x)
    rw [hm p hp y hy hyt x hx, ← h.yiqIndex, hm' p hp y (h.frameH ▸ hy) hyt x (h.frameW ▸ hx)]

theorem yiq2rgb (h : SameField t s u) (hs : s.FramesOk) (hu : u.FramesOk) :
    SameField t (s.yiq2rgb t) (u.yiq2rgb t) := by
  obtain ⟨m, e, hm⟩ := s.yiq2rgb_eq t t.isLt hs.fits hs.rgbout
  obtain ⟨m', e', hm'⟩ := u.yiq2rgb_eq t t.isLt hu.fits hu.rgbout
  rw [e, e']
  refine ⟨h.cfg, h.hw, h.width, h.height, h.tick, h.sc, h.gen, h.yiq, ?_⟩
  rintro _ ⟨y, x, ch, hy, hyt, hx, hch, rfl⟩
  show m'.read (s.pixelIndex y x ch) = m.read (s.pixelIndex y x ch)
  have at_eq {p : Nat} (hp : p < 3) := h.yiqAt hp hy hyt hx
  rw [hm.byte y hy hyt x hx ch hch, ← h.pixelIndex, hm'.byte y (h.frameH ▸ hy) hyt x (h.frameW ▸ hx) ch hch,
    at_eq (p := 0) (by decide), at_eq (p := 1) (by decide), at_eq (p := 2) (by decide)]

theorem stageStep (h : SameField t s u) (hs : s.FramesOk) (hu : u.FramesOk) (k : Nat) :
    SameField t (s.stageStep t k) (u.stageStep t k) := by
  unfold State.stageStep
  split
  · rw [h.cfg]
    split
    · unfold State.runStage
      split
      · exact h.yiq2rgb hs hu
      · rw [h.stageEnv, h.loadField, h.gen]
        exact h.storeField hs hu _ _
    · exact h
  · exact h

/-- What a task's step writes depends on nothing but what R59 lets it read. -/
theorem taskStep (h : SameField t s u) (hs : s.FramesOk) (hu : u.FramesOk) :
    SameField t (s.taskStep t) (u.taskStep t) := by
  unfold State.taskStep
  rw [h.sc]
  split
  · have hk := h.stageStep hs hu s.sc[t]
    refine ⟨hk.cfg, hk.hw, hk.width, hk.height, hk.tick, ?_, hk.gen, hk.yiq, hk.rgbout⟩
    rw [State.setSc_get, State.setSc_get, if_pos rfl, if_pos rfl]
  · exact h

end SameField

/-- Settles O48: the footprint of a stage, and the dependence of each part of it. -/
theorem taskPartition : Obligations.TaskPartition := by
  refine fun s u t hs hu => ⟨hs.framesOk.taskStep_changesOnly t, fun t' ht => hs.framesOk.taskStep_sc_of_ne ht, ?_⟩
  intro cfg hw width height tick sc gen yiq rgbout
  have same : SameField t s u := ⟨cfg, hw, width, height, tick, sc, gen, yiq, rgbout⟩
  have step := same.taskStep hs.framesOk hu.framesOk
  have fp := hs.framesOk.taskStep_changesOnly t
  exact ⟨step.sc, step.gen,
    fun i hi => step.yiq i ((State.ownSample_congr fp.width fp.height t i).2 hi),
    fun i hi => step.rgbout i ((State.ownByte_congr fp.width fp.height t i).2 hi)⟩

/-! ## A schedule seen by one field -/

/-- No sample belongs to both fields. -/
theorem State.ownSample_unique {s : State} {t t' i : Nat} (h : s.ownSample t i) (h' : s.ownSample t' i) : t = t' := by
  obtain ⟨p, y, x, -, hy, rfl, hx, rfl⟩ := h
  obtain ⟨p', y', x', -, hy', rfl, hx', e⟩ := h'
  rw [(plane_index_inj hy hx hy' hx' e).2.1]

/-- No pixel byte belongs to both fields. -/
theorem State.ownByte_unique {s : State} {t t' i : Nat} (h : s.ownByte t i) (h' : s.ownByte t' i) : t = t' := by
  obtain ⟨y, x, ch, -, rfl, hx, hch, rfl⟩ := h
  obtain ⟨y', x', ch', -, rfl, hx', hch', e⟩ := h'
  simp only [State.pixelIndex] at e
  rw [(pixel_row_inj (w := s.frameW) (y := y) (y' := y') (j := 3 * x + ch) (j' := 3 * x' + ch') (by omega) (by omega)
    (by omega)).1]

/-- The other task's step touches nothing that the task of field `t` reads. -/
theorem State.FramesOk.sameField_taskStep {s : State} (h : s.FramesOk) {t t' : Fin 2} (ht : t ≠ t') :
    SameField t s (s.taskStep t') := by
  have fp := h.taskStep_changesOnly t'
  have hval : t.val ≠ t'.val := fun e => ht (Fin.ext e)
  exact ⟨fp.cfg, fp.hw, fp.width, fp.height, fp.tick, h.taskStep_sc_of_ne ht,
    fp.gen _ fun e => ht (Fin.castSucc_injective _ e),
    fun i hi => fp.yiq i fun hi' => hval (State.ownSample_unique hi hi'),
    fun i hi => fp.rgbout i fun hi' => hval (State.ownByte_unique hi hi')⟩

/-- `n` steps of the task of field `t` and of no other agent. -/
def State.aloneSteps (s : State) (t : Fin 2) (n : Nat) : State := (State.taskStep · t)^[n] s

theorem State.aloneSteps_succ (s : State) (t : Fin 2) (n : Nat) :
    s.aloneSteps t (n + 1) = (s.taskStep t).aloneSteps t n := rfl

/-- A finished task's steps change nothing, so no later count of steps differs. -/
theorem State.aloneSteps_eq_of_finished {s : State} {t : Fin 2} {n k : Nat} (hn : n ≤ k)
    (hf : (s.aloneSteps t n).sc[t] = 17) : s.aloneSteps t k = s.aloneSteps t n := by
  have fixed : Function.IsFixedPt (State.taskStep · t) (s.aloneSteps t n) := if_neg (by omega)
  obtain ⟨d, rfl⟩ := Nat.exists_eq_add_of_le' hn
  rw [State.aloneSteps, Function.iterate_add_apply]
  exact fixed.iterate d

namespace SameField

variable {t : Fin 2} {s u : State}

theorem aloneSteps (h : SameField t s u) (hs : s.FramesOk) (hu : u.FramesOk) (n : Nat) :
    SameField t (s.aloneSteps t n) (u.aloneSteps t n) := by
  induction n generalizing s u with
  | zero => exact h
  | succ n ih => exact ih (h.taskStep hs hu) (hs.taskStep t) (hu.taskStep t)

/-- Of a schedule a field sees its own task's turns alone. -/
theorem runTasks (h : SameField t s u) (hs : s.FramesOk) (hu : u.FramesOk) (l : List (Fin 2)) :
    SameField t (s.aloneSteps t (l.count t)) (u.runTasks l) := by
  induction l generalizing s u with
  | nil => exact h
  | cons a l ih =>
    by_cases ha : a = t
    · subst ha
      rw [List.count_cons_self, State.aloneSteps_succ]
      exact ih (h.taskStep hs hu) (hs.taskStep a) (hu.taskStep a)
    · rw [List.count_cons_of_ne ha]
      exact ih (h.trans (hu.sameField_taskStep (Ne.symm ha))) hs (hu.taskStep a)

/-- What a field's task leaves when it has finished is a matter of what the field held at the start, whatever the
schedules. -/
theorem runTasks_of_finished (h : SameField t s u) (hs : s.FramesOk) (hu : u.FramesOk) {l l' : List (Fin 2)}
    (hl : (s.runTasks l).sc[t] = 17) (hl' : (u.runTasks l').sc[t] = 17) :
    SameField t (s.runTasks l) (u.runTasks l') := by
  have left := (refl t s).runTasks hs hs l
  have right := (refl t u).runTasks hu hu l'
  have both := h.aloneSteps hs hu (max (l.count t) (l'.count t))
  rw [State.aloneSteps_eq_of_finished (Nat.le_max_left ..) (left.sc.symm.trans hl),
    State.aloneSteps_eq_of_finished (Nat.le_max_right ..) (right.sc.symm.trans hl')] at both
  exact left.symm.trans (both.trans right)

end SameField

theorem State.FramesOk.runTasks_sizes {s : State} (h : s.FramesOk) (l : List (Fin 2)) :
    (s.runTasks l).width = s.width ∧ (s.runTasks l).height = s.height := by
  induction l generalizing s with
  | nil => exact ⟨rfl, rfl⟩
  | cons t l ih =>
    have fp := h.taskStep_changesOnly t
    obtain ⟨hw, hh⟩ := ih (h.taskStep t)
    exact ⟨hw.trans fp.width, hh.trans fp.height⟩

/-! ## The fork -/

theorem State.loseScratch_gen (s : State) (c d : Fin 3) : (s.loseScratch c).ctx[d].gen = s.ctx[d].gen := by
  rw [State.loseScratch, State.setCtx_get]
  split
  · next e => rw [e]; rfl
  · rfl

/-- What the fork leaves of the frame buffers, the counters and the generators (46_dispatcher.md R193). -/
theorem State.FramesOk.fork {s : State} (h : s.FramesOk) :
    ∃ m, FrameConverted s m ∧ s.fork =
      (((((s.setYiq m).markForked).setSc 0 0).setSc 1 0).loseScratch 0).loseScratch 1 := by
  obtain ⟨m, e, hm⟩ := s.rgb2yiq_eq h.fits h.yiq
  exact ⟨m, hm, by rw [State.fork, e]⟩

/-- A run that differs in the generator of another context starts with the same contents of the field. -/
theorem State.FramesOk.sameField_fork {s : State} (h : s.FramesOk) {t : Fin 2} {c : Fin 3} (hc : c ≠ t.castSucc)
    (g : Gen) : SameField t s.fork (s.setGen c g).fork := by
  obtain ⟨m, hm, e⟩ := h.fork
  obtain ⟨m', hm', e'⟩ := State.FramesOk.fork (s := s.setGen c g) ⟨h.fits, h.yiq, h.rgbout⟩
  rw [e, e']
  refine ⟨rfl, rfl, rfl, rfl, rfl, rfl, ?_, ?_, fun _ _ => rfl⟩
  · rw [State.loseScratch_gen, State.loseScratch_gen, State.loseScratch_gen, State.loseScratch_gen]
    show (s.setGen c g).ctx[t.castSucc].gen = s.ctx[t.castSucc].gen
    rw [State.setGen, State.setCtx_get, if_neg hc]
  · rintro _ ⟨p, y, x, hp, hy, -, hx, rfl⟩
    exact (hm'.sample p hp y hy x hx).trans (hm.sample p hp y hy x hx).symm

theorem State.FramesOk.framesOk_fork {s : State} (h : s.FramesOk) : s.fork.FramesOk := by
  obtain ⟨m, hm, e⟩ := h.fork
  rw [e]
  exact ⟨h.fits, hm.wf, h.rgbout⟩

theorem State.fork_sizes (s : State) : s.fork.width = s.width ∧ s.fork.height = s.height := by
  obtain ⟨m, e⟩ := s.rgb2yiq_setYiq
  rw [State.fork, e]
  exact ⟨rfl, rfl⟩

theorem State.raise_busy (s : State) (e : CommandError) (word : U32) :
    (s.raise e word).status.busy = s.status.busy := by
  unfold State.raise
  split <;> rfl

/-- `PIPE.PROCESS` starts a run exactly on a frame that the pre-checks accept (R192). -/
theorem accepted_of_exec_pipeProcess {s a : State} (h : s.Inv) (e : exec .pipeProcess s = .next a)
    (hb : a.status.busy = true) : s.frameEmpty = false ∧ s.badRingLength = false := by
  by_cases hs : s.status.busy = true
  · exact (h.run hs).2
  · rw [exec, execPipeProcess] at e
    split at e
    · cases e; exact absurd hb hs
    next hf =>
      split at e
      · cases e; exact absurd ((s.raise_busy _ _).symm.trans hb) hs
      next hr => exact ⟨by simpa using hf, by simpa using hr⟩

theorem exec_pipeProcess_of_accepted {s : State} (h : s.frameEmpty = false ∧ s.badRingLength = false) :
    exec .pipeProcess s = .next s.fork := by
  rw [exec, execPipeProcess, h.1, h.2]
  rfl

/-- Both tasks have finished. -/
theorem State.sc_of_joinReady {s : State} (h : s.joinReady = true) (t : Fin 2) : s.sc[t] = 17 := by
  have hj : s.sc[0] = 17 ∧ s.sc[1] = 17 := by simpa [State.joinReady] using h
  fin_cases t
  · exact hj.1
  · exact hj.2

/-- Settles O51: the two runs start with the same contents of the other field, and each schedule leaves what that
field's task makes of them. -/
theorem fieldDisjointness : Obligations.FieldDisjointness := by
  intro s a b t g l l' hs ha hb hbusy hl hl' t' ht
  have accepted := accepted_of_exec_pipeProcess hs ha hbusy
  obtain rfl : s.fork = a := Outcome.next.inj ((exec_pipeProcess_of_accepted accepted).symm.trans ha)
  obtain rfl : (s.setGen t.castSucc g).fork = b :=
    Outcome.next.inj ((exec_pipeProcess_of_accepted (s := s.setGen t.castSucc g) accepted).symm.trans hb)
  have ok := hs.framesOk.framesOk_fork
  have ok' := (hs.setGen t.castSucc g).framesOk.framesOk_fork
  obtain ⟨hw, hh⟩ := s.fork_sizes
  have start := hs.framesOk.sameField_fork (t := t') (fun e => ht (Fin.castSucc_injective _ e).symm) g
  have final := start.runTasks_of_finished ok ok' (State.sc_of_joinReady hl t') (State.sc_of_joinReady hl' t')
  obtain ⟨hlw, hlh⟩ := ok.runTasks_sizes l
  exact ⟨final.gen,
    fun i hi => final.yiq i ((State.ownSample_congr (hlw.trans hw) (hlh.trans hh) t' i).2 hi),
    fun i hi => final.rgbout i ((State.ownByte_congr (hlw.trans hw) (hlh.trans hh) t' i).2 hi)⟩

end Sys2Proof.Machine
end

section
/-! PROOFS. Every location at the host port (20_memory.md R50 to R52, R56): an idle write of an element is read back and
leaves every other location, O16; a step performs the host's next event, and an idle read returns what the location
holds, O15. -/

namespace Sys2Proof.Machine

/-! ## The frame of an update at the host port -/

/-- The locations that show a part of the state that lies in the footprint. -/
def Footprint.shows (fp : Footprint) (s : State) (sp : Space) (i : Nat) : Prop :=
  match sp with
  | .ctl => (16 ≤ i ∧ i < 34) ∧ fp.gen (ctxIndex ((i - 16) / 6))
  | .xreg => fp.x (regIndex i)
  | .freg => fp.f (regIndex i)
  | .flt => fp.flt (ctxIndex (i / 16)) (regIndex (i % 16 / 2))
  | .lbuf => fp.line (ctxIndex (i / s.lineSize / 4)) (lineIndex (i / s.lineSize % 4)) (i % s.lineSize)
  | .zbuf => fp.z (ctxIndex (i / s.zSize)) (i % s.zSize)
  | .rgbout => fp.rgbout i
  | .yiq => fp.yiq i
  | .cfg | .rgbin => False

/-- The sizes of the spaces are a matter of the fixed parameters (R50). -/
theorem State.spaceSize_congr {s t : State} (h : t.hw = s.hw) (sp : Space) : t.spaceSize sp = s.spaceSize sp := by
  cases sp <;> simp only [State.spaceSize, State.lineSize, State.zSize, State.frameSize, h]

section

variable {fp : Footprint} {s t : State} (h : ChangesOnly fp s t)

include h

theorem ChangesOnly.lineSize : t.lineSize = s.lineSize := by rw [State.lineSize, State.lineSize, h.hw]

theorem ChangesOnly.zSize : t.zSize = s.zSize := by rw [State.zSize, State.zSize, h.hw]

theorem ChangesOnly.readCtl {i : Nat} (hi : ¬ fp.shows s .ctl i) : t.readCtl i = s.readCtl i := by
  unfold State.readCtl
  split
  case h_12 n =>
    split
    · next hn => rw [h.gen _ fun hg => hi ⟨hn, hg⟩]
    · rfl
  all_goals simp only [h.hw, h.status, h.errinfo, h.width, h.height, h.vl, h.sc]

theorem ChangesOnly.readElement {sp : Space} {i : Nat} (hi : ¬ fp.shows s sp i) :
    t.readElement sp i = s.readElement sp i := by
  cases sp with
  | ctl => exact congrArg (BitVec.setWidth 64) (h.readCtl hi)
  | xreg => exact congrArg (BitVec.setWidth 64) (h.x _ hi)
  | freg => exact h.f _ hi
  | cfg => exact congrArg (Cfg.readField · i) h.cfg
  | flt => simp only [State.readElement, h.flt _ _ hi]
  | lbuf => simp only [State.readElement, h.lineSize, h.line _ _ _ hi]
  | zbuf => simp only [State.readElement, h.zSize, h.z _ _ hi]
  | rgbin => exact congrArg (BitVec.setWidth 64) (h.rgbin i)
  | rgbout => exact congrArg (BitVec.setWidth 64) (h.rgbout i hi)
  | yiq => exact congrArg (BitVec.setWidth 64) (h.yiq i hi)

/-- A location that shows nothing of the footprint reads as before, in a run too. -/
theorem ChangesOnly.hostRead {sp : Space} {i : Nat} (hi : i < s.spaceSize sp → ¬ fp.shows s sp i) :
    t.hostRead sp i = s.hostRead sp i := by
  unfold State.hostRead
  rw [State.spaceSize_congr h.hw, h.status, h.tick]
  split
  · rfl
  · next hs => rw [h.readElement (hi (Nat.not_le.1 hs))]

end

/-! ## One element written -/

/-- The part of the state that stands at a location of a register or buffer space; a filter slot as a whole. -/
def State.elementFootprint (s : State) (sp : Space) (i : Nat) : Footprint where
  x r := sp = .xreg ∧ r = regIndex i
  f r := sp = .freg ∧ r = regIndex i
  flt c r := sp = .flt ∧ c = ctxIndex (i / 16) ∧ r = regIndex (i % 16 / 2)
  line c b n :=
    sp = .lbuf ∧ c = ctxIndex (i / s.lineSize / 4) ∧ b = lineIndex (i / s.lineSize % 4) ∧ n = i % s.lineSize
  z c n := sp = .zbuf ∧ c = ctxIndex (i / s.zSize) ∧ n = i % s.zSize
  yiq n := sp = .yiq ∧ n = i

theorem State.writeElement_changesOnly (s : State) {sp : Space} (i : Nat) (v : PortWord)
    (hsp : sp ∈ [Space.xreg, .freg, .flt, .lbuf, .zbuf, .yiq]) :
    ChangesOnly (s.elementFootprint sp i) s (s.writeElement sp i v) := by
  cases sp with
  | xreg => exact changesOnly_setX _ ⟨rfl, rfl⟩
  | freg => exact changesOnly_setF _ ⟨rfl, rfl⟩
  | flt => exact changesOnly_setFlt _ ⟨rfl, rfl, rfl⟩
  | lbuf => exact changesOnly_setLine fun n hn => Memory.read_write_of_ne _ _ fun e => hn ⟨rfl, rfl, rfl, e.symm⟩
  | zbuf => exact changesOnly_setZ fun n hn => Memory.read_write_of_ne _ _ fun e => hn ⟨rfl, rfl, e.symm⟩
  | yiq => exact changesOnly_setYiq fun n hn => Memory.read_write_of_ne _ _ fun e => hn ⟨rfl, e.symm⟩
  | ctl | cfg | rgbin | rgbout => simp at hsp

/-- An index inside a space of `k` parts of `n` elements lies in one of them. -/
theorem div_lt_of_lt_mul {i k n : Nat} (h : i < k * n) : i / n < k :=
  Nat.div_lt_of_lt_mul (Nat.mul_comm k n ▸ h)

/-- Two locations show the same part only if they are the same location, or the two halves of a filter slot. -/
theorem State.eq_of_shows_elementFootprint {s : State} {sp sp' : Space} {i i' : Nat} (hi : i < s.spaceSize sp)
    (hi' : i' < s.spaceSize sp') (h : (s.elementFootprint sp i).shows s sp' i') :
    sp' = sp ∧ (i' = i ∨ sp = .flt ∧ i' / 2 = i / 2) := by
  cases sp' with
  | ctl => exact h.2.elim
  | cfg | rgbin | rgbout => exact False.elim h
  | xreg | freg =>
    obtain ⟨rfl, hr⟩ := h
    have hr : i' % 8 = i % 8 := congrArg Fin.val hr
    simp only [State.spaceSize] at hi hi'
    exact ⟨rfl, .inl (by omega)⟩
  | flt =>
    obtain ⟨rfl, hc, hr⟩ := h
    have hc : i' / 16 % 3 = i / 16 % 3 := congrArg Fin.val hc
    have hr : i' % 16 / 2 % 8 = i % 16 / 2 % 8 := congrArg Fin.val hr
    simp only [State.spaceSize] at hi hi'
    exact ⟨rfl, .inr ⟨rfl, by omega⟩⟩
  | lbuf =>
    obtain ⟨rfl, hc, hb, hn⟩ := h
    have hc : i' / s.lineSize / 4 % 3 = i / s.lineSize / 4 % 3 := congrArg Fin.val hc
    have hb : i' / s.lineSize % 4 % 4 = i / s.lineSize % 4 % 4 := congrArg Fin.val hb
    have same_line {q q' : Nat} (hq : q < 12) (hq' : q' < 12) (hc : q' / 4 % 3 = q / 4 % 3)
        (hb : q' % 4 % 4 = q % 4 % 4) : q' = q := by omega
    exact ⟨rfl, .inl (Nat.ext_div_mod (same_line (div_lt_of_lt_mul hi) (div_lt_of_lt_mul hi') hc hb) hn)⟩
  | zbuf =>
    obtain ⟨rfl, hc, hn⟩ := h
    have hc : i' / s.zSize % 3 = i / s.zSize % 3 := congrArg Fin.val hc
    have same_context {q q' : Nat} (hq : q < 3) (hq' : q' < 3) (hc : q' % 3 = q % 3) : q' = q := by omega
    exact ⟨rfl, .inl (Nat.ext_div_mod (same_context (div_lt_of_lt_mul hi) (div_lt_of_lt_mul hi') hc) hn)⟩
  | yiq => exact ⟨h.1.symm, .inl h.2⟩

theorem State.setFlt_get (s : State) (c : Fin 3) (r : Fin 8) (v : Filter) :
    (s.setFlt c r v).ctx[c].flt[r] = v := by
  rw [State.setFlt, State.setCtx_get, if_pos rfl]
  exact (vector_get_set _ _ _ _).trans (if_pos rfl)

theorem State.setLine_get (s : State) (c : Fin 3) (b : Fin 4) (m : Memory 64) :
    (s.setLine c b m).ctx[c].lb[b] = m := by
  rw [State.setLine, State.setCtx_get, if_pos rfl]
  exact (vector_get_set _ _ _ _).trans (if_pos rfl)

theorem State.setZ_get (s : State) (c : Fin 3) (m : Memory 64) : (s.setZ c m).ctx[c].z = m := by
  rw [State.setZ, State.setCtx_get, if_pos rfl]

/-- A write of one half of a filter slot leaves the other half. -/
theorem State.readElement_flt_other_half (s : State) {i i' : Nat} (v : PortWord) (hs : i' / 2 = i / 2)
    (hne : i' ≠ i) : (s.writeElement .flt i v).readElement .flt i' = s.readElement .flt i' := by
  have hc : i' / 16 = i / 16 := by omega
  have hr : i' % 16 / 2 = i % 16 / 2 := by omega
  simp only [State.writeElement, State.readElement, hc, hr, State.setFlt_get]
  by_cases hp : i % 2 = 0
  · rw [if_pos hp, if_neg (by omega), if_neg (by omega)]
  · rw [if_neg hp, if_pos (by omega), if_pos (by omega)]

theorem ofNat_mod_port (v : PortWord) : BitVec.ofNat 64 (v.toNat % 2 ^ 64) = v := by
  rw [Nat.mod_eq_of_lt v.isLt, BitVec.ofNat_toNat, BitVec.setWidth_eq]

/-- A written element reads as the value cut to its width. -/
theorem State.Inv.readElement_writeElement_self {s : State} (h : s.Inv) {sp : Space} (i : Nat) (v : PortWord)
    (hsp : sp ∈ [Space.xreg, .freg, .flt, .lbuf, .zbuf, .rgbin, .yiq]) :
    (s.writeElement sp i v).readElement sp i = BitVec.ofNat 64 (v.toNat % 2 ^ elementBits sp i) := by
  cases sp with
  | xreg =>
    have hx : (s.setX (regIndex i) (v.setWidth 32)).x[regIndex i] = v.setWidth 32 := by rw [State.setX_get, if_pos rfl]
    exact (congrArg (BitVec.setWidth 64) hx).trans (setWidth_setWidth_port v 32)
  | freg =>
    have hf : (s.setF (regIndex i) v).f[regIndex i] = v := by rw [State.setF_get, if_pos rfl]
    exact hf.trans (ofNat_mod_port v).symm
  | flt =>
    rw [elementBits, ofNat_mod_port]
    simp only [State.writeElement, State.readElement, State.setFlt_get]
    split <;> rfl
  | lbuf =>
    rw [elementBits, ofNat_mod_port]
    simp only [State.writeElement, State.readElement, State.setLine_lineSize, State.setLine_get]
    exact Memory.read_write_self _ _ _ ((h.contexts _).lines _).1
  | zbuf =>
    rw [elementBits, ofNat_mod_port]
    simp only [State.writeElement, State.readElement, State.setZ_zSize, State.setZ_get]
    exact Memory.read_write_self _ _ _ (h.contexts _).complex.1
  | rgbin =>
    exact (congrArg (BitVec.setWidth 64) (Memory.read_write_self _ i _ h.rgbin.wf)).trans (setWidth_setWidth_port v 8)
  | yiq =>
    exact (congrArg (BitVec.setWidth 64) (Memory.read_write_self _ i _ h.yiq.wf)).trans (setWidth_setWidth_port v 32)
  | ctl | cfg | rgbout => simp at hsp

/-- A write of an element of a register or buffer space changes neither the sizes nor the status, so a read of a
location inside its space gives the element. -/
theorem State.hostRead_writeElement {s : State} (hb : s.status.busy = false) {sp sp' : Space} (i : Nat) {i' : Nat}
    (v : PortWord) (hsp : sp ∈ [Space.xreg, .freg, .flt, .lbuf, .zbuf, .rgbin, .yiq]) (hi' : i' < s.spaceSize sp') :
    (s.writeElement sp i v).hostRead sp' i' = (s.writeElement sp i v).readElement sp' i' := by
  have kept : (s.writeElement sp i v).hw = s.hw ∧ (s.writeElement sp i v).status = s.status := by
    cases sp with
    | ctl | cfg | rgbout => simp at hsp
    | _ => exact ⟨rfl, rfl⟩
  exact State.hostRead_eq_readElement (State.spaceSize_congr kept.1 sp' ▸ hi') (.inl (kept.2 ▸ hb))

/-- A read of `RGBIN` looks at the input frame alone. -/
theorem State.hostRead_rgbin_eq (s : State) (i : Nat) :
    s.hostRead .rgbin i = if s.frameSize ≤ i then 0 else (s.rgbin.read i).setWidth 64 := by
  split
  · next h => exact if_pos h
  · next h => exact s.hostRead_rgbin (Nat.not_le.1 h)

/-- The input frame is shown by its own space alone. -/
theorem State.hostRead_setRgbin_of_ne (s : State) (m : Memory 8) {sp : Space} (i : Nat) (hsp : sp ≠ .rgbin) :
    { s with rgbin := m }.hostRead sp i = s.hostRead sp i := by
  cases sp with
  | rgbin => exact absurd rfl hsp
  | _ => rfl

/-- A written element leaves every other location. -/
theorem State.hostRead_writeElement_of_ne {s : State} (hb : s.status.busy = false) {sp sp' : Space} {i i' : Nat}
    (v : PortWord) (hsp : sp ∈ [Space.xreg, .freg, .flt, .lbuf, .zbuf, .rgbin, .yiq]) (hi : i < s.spaceSize sp)
    (hne : (sp', i') ≠ (sp, i)) : (s.writeElement sp i v).hostRead sp' i' = s.hostRead sp' i' := by
  by_cases hrgb : sp = .rgbin
  · subst hrgb
    by_cases hsp' : sp' = .rgbin
    · subst hsp'
      have hr := Memory.read_write_of_ne s.rgbin (v.setWidth 8) fun e : i = i' => hne (e ▸ rfl)
      rw [State.hostRead_rgbin_eq, State.hostRead_rgbin_eq]
      exact congrArg (fun b : U8 => if s.frameSize ≤ i' then 0 else b.setWidth 64) hr
    · exact s.hostRead_setRgbin_of_ne _ _ hsp'
  by_cases hhalf : sp' = .flt ∧ sp = .flt ∧ i' / 2 = i / 2
  · obtain ⟨rfl, rfl, hhalf⟩ := hhalf
    have hi' : i' < s.spaceSize .flt := by simp only [State.spaceSize] at hi ⊢; omega
    rw [State.hostRead_writeElement hb i v hsp hi', State.hostRead_eq_readElement hi' (.inl hb)]
    exact s.readElement_flt_other_half v hhalf fun e => hne (e ▸ rfl)
  · have hsp' : sp ∈ [Space.xreg, .freg, .flt, .lbuf, .zbuf, .yiq] := by simpa [hrgb] using hsp
    refine (s.writeElement_changesOnly i v hsp').hostRead fun hi' hs => ?_
    obtain ⟨rfl, rfl | hs⟩ := State.eq_of_shows_elementFootprint hi hi' hs
    · exact hne rfl
    · exact hhalf ⟨hs.1, hs⟩

/-- Settles O16: the written element and the frame of its write. -/
theorem writtenElementsReadBack : Obligations.WrittenElementsReadBack := by
  intro s sp i v h hb hsp hi
  have hctl : ¬ (sp = .ctl ∧ i = 1) := by rintro ⟨rfl, -⟩; simp at hsp
  have hw : s.hostWrite sp i v = s.writeElement sp i v := by rw [State.hostWrite_eq_writeElement hi hctl, hb]; rfl
  rw [hw]
  exact ⟨(State.hostRead_writeElement hb i v hsp hi).trans (h.readElement_writeElement_self i v hsp),
    fun sp' i' hne => State.hostRead_writeElement_of_ne hb v hsp hi hne⟩

/-! ## Idle reads -/

/-- The halves of the filter slots of context `c` stand at `16c` to `16c + 15` of `FLT` (10_state.md R36). -/
theorem State.hostRead_filter {s : State} (hb : s.status.busy = false) (c : Fin 3) (r : Fin 8) (half : Fin 2) :
    s.hostRead .flt (16 * c + 2 * r + half) = if half = 0 then s.ctx[c].flt[r].alpha else s.ctx[c].flt[r].prev := by
  have hlt : 16 * c.val + 2 * r + half < s.spaceSize .flt := by simp only [State.spaceSize]; omega
  have hc : ctxIndex ((16 * c.val + 2 * r + half) / 16) = c := Fin.ext (by simp only [ctxIndex]; omega)
  have hr : regIndex ((16 * c.val + 2 * r + half) % 16 / 2) = r := Fin.ext (by simp only [regIndex]; omega)
  have hh : (16 * c.val + 2 * r + half) % 2 = 0 ↔ half = 0 := by rw [Fin.ext_iff]; simp; omega
  rw [State.hostRead_eq_readElement hlt (.inl hb)]
  simp only [State.readElement, hc, hr, hh]

theorem part_lt {q k r n : Nat} (hq : q < k) (hr : r < n) : q * n + r < k * n :=
  calc q * n + r < q * n + n := Nat.add_lt_add_left hr _
    _ = (q + 1) * n := (Nat.succ_mul q n).symm
    _ ≤ k * n := Nat.mul_le_mul_right n hq

theorem part_div_mod {q r n : Nat} (hr : r < n) : (q * n + r) / n = q ∧ (q * n + r) % n = r := by
  rw [Nat.mul_comm, Nat.mul_add_div (by omega), Nat.mul_add_mod, Nat.div_eq_of_lt hr, Nat.mod_eq_of_lt hr]
  exact ⟨rfl, rfl⟩

/-- The elements of `L[c][b]` stand from `(4c + b)·LMAX` on in `LBUF` (10_state.md R37). -/
theorem State.hostRead_line {s : State} (hb : s.status.busy = false) (c : Fin 3) (b : Fin 4) {n : Nat}
    (hn : n < s.lineSize) : s.hostRead .lbuf ((4 * c + b) * s.lineSize + n) = s.lineAt c b n := by
  have hlt : (4 * c.val + b) * s.lineSize + n < s.spaceSize .lbuf := part_lt (by omega) hn
  obtain ⟨hd, hm⟩ := part_div_mod (q := 4 * c.val + b) hn
  have hc : ctxIndex ((4 * c.val + b) / 4) = c := Fin.ext (by simp only [ctxIndex]; omega)
  have hl : lineIndex ((4 * c.val + b) % 4) = b := Fin.ext (by simp only [lineIndex]; omega)
  rw [State.hostRead_eq_readElement hlt (.inl hb), State.lineAt, Memory.readIn_of_lt _ hn]
  simp only [State.readElement, hd, hm, hc, hl]

/-- The parts of the elements of `Z[c]` stand from `2·c·LMAX` on in `ZBUF` (10_state.md R38). -/
theorem State.hostRead_complex {s : State} (hb : s.status.busy = false) (c : Fin 3) {n : Nat} (hn : n < s.zSize) :
    s.hostRead .zbuf (c * s.zSize + n) = s.ctx[c].z.readIn s.zSize n := by
  have hlt : c.val * s.zSize + n < s.spaceSize .zbuf := part_lt c.isLt hn
  obtain ⟨hd, hm⟩ := part_div_mod (q := c.val) hn
  have hc : ctxIndex c.val = c := Fin.ext (Nat.mod_eq_of_lt c.isLt)
  rw [State.hostRead_eq_readElement hlt (.inl hb), Memory.readIn_of_lt _ hn]
  simp only [State.readElement, hd, hm, hc]

/-- While idle the locations of a context read their contents. -/
theorem State.contextReads {s : State} (hb : s.status.busy = false) (c : Fin 3) : s.ContextReads c where
  gen := by
    rw [List.map_congr_left fun i hi => State.hostRead_genWord hb c (List.mem_range.1 hi)]
    rfl
  alpha r := State.hostRead_filter hb c r 0
  prev r := State.hostRead_filter hb c r 1
  line b n hn := State.hostRead_line hb c b hn
  re n hn := by
    have hi : 2 * (c.val * s.hw.lmax.toNat + n) = c * s.zSize + 2 * n := by rw [State.zSize]; ring
    rw [hi]
    exact State.hostRead_complex hb c (by rw [State.zSize]; omega)
  im n hn := by
    have hi : 2 * (c.val * s.hw.lmax.toNat + n) + 1 = c * s.zSize + (2 * n + 1) := by rw [State.zSize]; ring
    rw [hi]
    exact State.hostRead_complex hb c (by rw [State.zSize]; omega)

/-- While idle the output and the planar buffer read their contents. -/
theorem State.Inv.frameReads {s : State} (h : s.Inv) (hb : s.status.busy = false) : s.FrameReads := by
  have rgbout (n : Nat) (hn : n < s.frameSize) : s.hostRead .rgbout n = (s.rgbout.read n).setWidth 64 :=
    State.hostRead_eq_readElement (sp := .rgbout) hn (.inl hb)
  have yiq (n : Nat) (hn : n < s.frameSize) : s.hostRead .yiq n = (s.yiq.read n).setWidth 64 :=
    State.hostRead_eq_readElement (sp := .yiq) hn (.inl hb)
  refine ⟨rgbout, yiq, fun y hy x hx ch hc => ?_, fun p hp y hy x hx => ?_⟩
  · have hlt := h.pixelIndex_lt hy hx hc
    rw [State.rgboutAt, Memory.readIn_of_lt _ hlt]
    exact rgbout _ hlt
  · rw [h.yiqAt_eq hp hy hx]
    exact yiq _ ((plane_row_bound hp hy hx).trans_le h.frame_le)

/-! ## Absent, reserved and read-only locations -/

theorem State.hostRead_of_outside {s : State} {sp : Space} {i : Nat} (hi : s.spaceSize sp ≤ i) :
    s.hostRead sp i = 0 := if_pos hi

theorem State.hostWrite_of_outside {s : State} {sp : Space} {i : Nat} (hi : s.spaceSize sp ≤ i) (v : PortWord) :
    s.hostWrite sp i v = s := if_pos hi

theorem State.readCtl_of_reserved (s : State) {i : Nat} (hi : (12 ≤ i ∧ i < 16) ∨ 34 ≤ i) : s.readCtl i = 0 := by
  unfold State.readCtl
  split
  case h_12 => exact if_neg (by omega)
  all_goals omega

/-- The sizes and the generator words are the control registers that keep a written word (R25). -/
theorem State.writeCtl_of_ignored (s : State) {i : Nat} (hi : ¬ (4 ≤ i ∧ i ≤ 6)) (hg : ¬ (16 ≤ i ∧ i < 34)) (v : U32) :
    s.writeCtl i v = s := by
  unfold State.writeCtl
  split
  case h_4 => exact if_neg hg
  all_goals omega

theorem State.hostRead_ctl_of_reserved (s : State) {i : Nat} (hi : (12 ≤ i ∧ i < 16) ∨ 34 ≤ i) :
    s.hostRead .ctl i = 0 := by
  by_cases hlt : i < 256
  · rw [s.hostRead_ctl hlt (by omega), s.readCtl_of_reserved hi]
    rfl
  · exact State.hostRead_of_outside (sp := .ctl) (Nat.not_lt.1 hlt)

theorem State.hostWrite_ctl_of_ignored (s : State) {i : Nat} (hs : i ≠ 1) (hi : ¬ (4 ≤ i ∧ i ≤ 6))
    (hg : ¬ (16 ≤ i ∧ i < 34)) (v : PortWord) : s.hostWrite .ctl i v = s := by
  by_cases hlt : i < 256
  · rw [s.hostWrite_ctl hlt hs, s.writeCtl_of_ignored hi hg, ite_self]
  · exact State.hostWrite_of_outside (sp := .ctl) (Nat.not_lt.1 hlt) v

theorem Cfg.writeField_reserved (c : Cfg) {i : Nat} (hi : 37 ≤ i) (v : PortWord) : c.writeField i v = c := by
  obtain ⟨k, rfl⟩ := Nat.exists_eq_add_of_le' hi
  rfl

theorem State.hostWrite_cfg_of_reserved (s : State) {i : Nat} (hi : 37 ≤ i) (v : PortWord) :
    s.hostWrite .cfg i v = s := by
  by_cases hlt : i < 64
  · rw [State.hostWrite_eq_writeElement (sp := .cfg) hlt nofun, State.writeElement, Cfg.writeField_reserved _ hi]
    exact ite_self s
  · exact State.hostWrite_of_outside (sp := .cfg) (Nat.not_lt.1 hlt) v

/-! ## The host's next event -/

theorem State.hostStep_of_nil {s : State} (h : s.inputs = []) : s.hostStep = .next s := by
  rw [State.hostStep, h]

theorem State.hostStep_of_cons {s : State} {op : HostOp} {rest : List HostOp} (h : s.inputs = op :: rest) :
    s.hostStep = { s with inputs := rest, tick := s.tick + 1 }.perform op := by
  rw [State.hostStep, h]

theorem step_of_idle {s : State} (hb : s.status.busy = false) : step s = s.hostStep := by
  rw [step, hb]
  rfl

/-- At the host's turn of a run the host moves as it does while idle. -/
theorem step_of_host_turn {s : State} {turns : List Agent} (hb : s.status.busy = true) (ht : s.turns = .host :: turns) :
    step s = { s with turns := turns }.hostStep := by
  rw [step, if_pos hb, State.busyStep, ht]
  rfl

/-- Settles O15: the host's events, the contents that the locations show, and the locations that show none. -/
theorem hostAccessesAndAbsentLocations : Obligations.HostAccessesAndAbsentLocations := by
  intro s
  refine ⟨?events, fun hb => ?idle, fun turns hb ht => ?hostTurn, fun h hb => ?contents, fun sp i v hi => ?outside,
    ?command, fun i v hi => ?reserved, fun i v hi => ?readOnly, fun i v hi => ?reservedField⟩
  case events => exact ⟨fun sp i => rfl, fun v => rfl, fun sp i v hc => if_neg hc⟩
  case idle =>
    rw [step_of_idle hb]
    exact ⟨State.hostStep_of_nil, fun op rest => State.hostStep_of_cons⟩
  case hostTurn =>
    rw [step_of_host_turn hb ht]
    exact ⟨State.hostStep_of_nil (s := { s with turns := turns }),
      fun op rest => State.hostStep_of_cons (s := { s with turns := turns })⟩
  case contents => exact ⟨h.sharedReads, State.contextReads hb, h.frameReads hb⟩
  case outside => exact ⟨State.hostRead_of_outside hi, State.hostWrite_of_outside hi v⟩
  case command => exact s.hostRead_ctl (by decide) (by decide)
  case reserved =>
    exact ⟨s.hostRead_ctl_of_reserved hi, s.hostWrite_ctl_of_ignored (by omega) (by omega) (by omega) v⟩
  case readOnly => exact s.hostWrite_ctl_of_ignored (by omega) (by omega) (by omega) v
  case reservedField =>
    refine ⟨?_, s.hostWrite_cfg_of_reserved hi v⟩
    rw [s.hostRead_cfg_eq, s.cfg.readField_reserved hi, ite_self]

end Sys2Proof.Machine
end

section
/-! PROOFS. The encoding (30_encoding.md R70 to R76). A word and its fields determine each other, so everything is
said of fields: decoding inverts encoding, O1 and O2; the words of a row of the opcode map are those that decode to a
command of that row, O3. -/

namespace Sys2Proof

/-! ## Field readers: each answers exactly the operand whose encoding the field holds -/

theorem ctxOf_eq_some_iff {b : BitVec 2} {c : CtxId} : ctxOf b = some c ↔ BitVec.ofNat 2 c = b :=
  ⟨ofNat_of_ctxOf, fun h => h ▸ ctxOf_ofNat c⟩

theorem lineOf_eq_some_iff {b : BitVec 3} {l : LineId} : lineOf b = some l ↔ BitVec.ofNat 3 l = b :=
  ⟨ofNat_of_lineOf, fun h => h ▸ lineOf_ofNat l⟩

theorem slotOf_eq_some_iff {b : BitVec 10} {s : SlotId} : slotOf b = some s ↔ BitVec.ofNat 10 s = b :=
  ⟨ofNat_of_slotOf, fun h => h ▸ slotOf_ofNat s⟩

theorem cascadeSlotOf_eq_some_iff {b : BitVec 10} {s : SlotId} :
    cascadeSlotOf b = some s ↔ s.startsCascade ∧ BitVec.ofNat 10 s = b :=
  ⟨fun h => (ofNat_of_cascadeSlotOf h).symm, fun ⟨hs, h⟩ => h ▸ cascadeSlotOf_ofNat s hs⟩

theorem planeOf_eq_some_iff {b : BitVec 10} {p : PlaneId} : planeOf b = some p ↔ BitVec.ofNat 10 p = b :=
  ⟨ofNat_of_planeOf, fun h => h ▸ planeOf_ofNat p⟩

theorem fieldOf_eq_some_iff {b : BitVec 10} {f : FieldId} : fieldOf b = some f ↔ BitVec.ofNat 10 f = b :=
  ⟨ofNat_of_fieldOf, fun h => h ▸ fieldOf_ofNat f⟩

theorem stageOf_eq_some_iff {b : BitVec 10} {q : FieldId × Fin 32} :
    stageOf b = some q ↔ stageNumberLegal q.2 ∧ BitVec.ofNat 10 (2 * q.2.val + q.1.val) = b :=
  ⟨fun h => (ofNat_of_stageOf h).symm, fun ⟨hk, h⟩ => h ▸ stageOf_ofNat q.1 q.2 hk⟩

theorem unused_eq_some_iff {n : Nat} {b : BitVec n} {u : Unit} : unused b = some u ↔ 0 = b :=
  ⟨fun h => (unused_eq_some h).symm, fun h => h ▸ unused_zero⟩

/-! ## Decoding inverts encoding -/

theorem decodeFields_encodeFields {i : Instr} (h : i.wellFormed = true) : decodeFields (encodeFields i) = some i := by
  cases i
  all_goals dsimp only [encodeFields, decodeFields, BitVec.reduceToNat]
  case iirInit3 | iirLp3 | iirLpa3 =>
    simp only [ctxOf_ofNat, regOf_ofNat, lineOf_ofNat, cascadeSlotOf_ofNat _ (of_decide_eq_true h), unused_zero,
      Option.bind_eq_bind, Option.bind_some]
  case pipeStage =>
    simp only [stageOf_ofNat _ _ (of_decide_eq_true h), unused_zero, Option.bind_eq_bind, Option.bind_some]
  all_goals
    simp only [ctxOf_ofNat, regOf_ofNat, lineOf_ofNat, slotOf_ofNat, planeOf_ofNat, fieldOf_ofNat, unused_zero,
      Option.bind_eq_bind, Option.bind_some]

/-- Every reader that answers determines its field, so an arm of the decoder that answers determines them all. -/
theorem encodeFields_of_decodeFields {f : Fields} {i : Instr} (h : decodeFields f = some i) :
    i.wellFormed = true ∧ encodeFields i = f := by
  obtain ⟨opc, ctx, rd, rs1, rs2, rs3, imm⟩ := f
  revert h
  unfold decodeFields
  split
  case h_29 => exact nofun
  all_goals
    next hopc =>
    simp only [Option.bind_eq_bind, Option.bind_eq_some_iff, ctxOf_eq_some_iff, lineOf_eq_some_iff,
      slotOf_eq_some_iff, cascadeSlotOf_eq_some_iff, planeOf_eq_some_iff, fieldOf_eq_some_iff,
      stageOf_eq_some_iff, unused_eq_some_iff, Option.some.injEq, exists_const, forall_exists_index, and_imp,
      Prod.forall]
    intros
    subst_vars
    simp only [Instr.wellFormed, encodeFields, ofNat_regOf, and_true, decide_eq_true_eq, true_and, Fields.mk.injEq]
    simp only [← BitVec.toNat_inj, true_and, *]
    rfl

theorem decode_encode {i : Instr} (h : i.wellFormed = true) : decode (encode i) = some i := by
  rw [decode, encode, fieldsOf_assemble, decodeFields_encodeFields h]

theorem wellFormed_of_decode {w : U32} {i : Instr} (h : decode w = some i) : i.wellFormed = true :=
  (encodeFields_of_decodeFields h).1

theorem encode_of_decode {w : U32} {i : Instr} (h : decode w = some i) : encode i = w := by
  rw [encode, (encodeFields_of_decodeFields h).2, assemble_fieldsOf]

theorem decode_of_encode {w : U32} {i : Instr} (h : i.wellFormed = true) (hw : encode i = w) : decode w = some i :=
  hw ▸ decode_encode h

/-- Settles O1: the readers of each row invert the encoding of its operands. -/
theorem decodeInvertsEncode : Obligations.DecodeInvertsEncode := fun _ h => decode_encode h

/-- Settles O2: each reader that answers determines its field, and the fields determine the word. -/
theorem encodeInvertsDecode : Obligations.EncodeInvertsDecode :=
  fun _ _ h => ⟨wellFormed_of_decode h, encode_of_decode h⟩

/-- Settles O5: each word is the encoding of its command. -/
theorem wordsOfTheSpecDecode : Obligations.WordsOfTheSpecDecode :=
  ⟨decode_of_encode rfl rfl, decode_of_encode rfl rfl, decode_of_encode rfl rfl, decode_of_encode rfl rfl,
    decode_of_encode rfl rfl, decode_of_encode rfl rfl, decode_of_encode rfl rfl, decode_of_encode rfl rfl⟩

/-! ## Masks and constraints on fields -/

/-- The bits of fields that a mask, cut into its fields, leaves. -/
def Fields.and (f m : Fields) : Fields where
  opc := f.opc &&& m.opc
  ctx := f.ctx &&& m.ctx
  rd := f.rd &&& m.rd
  rs1 := f.rs1 &&& m.rs1
  rs2 := f.rs2 &&& m.rs2
  rs3 := f.rs3 &&& m.rs3
  imm := f.imm &&& m.imm

theorem fieldsOf_and (w m : U32) : fieldsOf (w &&& m) = (fieldsOf w).and (fieldsOf m) := by
  simp only [fieldsOf, Fields.and, BitVec.extractLsb'_and]

theorem fieldsOf_inj {v w : U32} : fieldsOf v = fieldsOf w ↔ v = w :=
  ⟨fun h => by rw [← assemble_fieldsOf v, h, assemble_fieldsOf], fun h => h ▸ rfl⟩

/-- A value constraint of R75 as a bound on the field it looks at. -/
def Constraint.holdsOf (f : Fields) : Constraint → Prop
  | .ctx => f.ctx.toNat < 3
  | .slot => f.imm.toNat % 8 ≤ 5
  | .plane => f.imm.toNat % 4 < 3
  | .stage => f.imm.toNat / 2 % 32 ≤ 16

theorem Constraint.holds_iff (w : U32) (c : Constraint) : c.holds w = true ↔ c.holdsOf (fieldsOf w) := by
  cases c with
  | ctx | slot | plane | stage =>
    simp only [holds, decide_eq_true_eq, holdsOf, fieldsOf, BitVec.extractLsb'_toNat, Nat.shiftRight_eq_div_pow]
    omega

theorem OpcodeRow.spelledBy_assemble (r : OpcodeRow) (f : Fields) : r.spelledBy (assemble f) = true ↔
    f.and (fieldsOf r.mask) = fieldsOf r.pattern ∧ ∀ c ∈ r.constraints, c.holdsOf f := by
  rw [spelledBy, Bool.and_eq_true, decide_eq_true_eq, List.all_eq_true, ← fieldsOf_inj, fieldsOf_and]
  simp only [Constraint.holds_iff, fieldsOf_assemble]

/-- A mask of the high bits leaves nothing exactly of the numbers below it. -/
theorem and_shiftLeft_allOnes_eq_zero_iff {n : Nat} (b : BitVec n) (k : Nat) :
    b &&& BitVec.allOnes n <<< k = 0 ↔ b.toNat < 2 ^ k := by
  have hlt : b.toNat >>> k <<< k < 2 ^ n := by
    rw [Nat.shiftRight_eq_div_pow, Nat.shiftLeft_eq]
    exact lt_of_le_of_lt (Nat.div_mul_le_self _ _) b.isLt
  rw [← BitVec.shiftLeft_ushiftRight, ← BitVec.toNat_inj, BitVec.toNat_shiftLeft, BitVec.toNat_ushiftRight,
    Nat.mod_eq_of_lt hlt, Nat.shiftRight_eq_div_pow, Nat.shiftLeft_eq]
  simp

/-- The masks of the opcode map that fix a whole field. -/
theorem and_wholeFieldMask : (∀ b : BitVec 8, b &&& 0xFF#8 = b) ∧ (∀ b : BitVec 2, b &&& 3#2 = b) ∧
    (∀ b : BitVec 3, b &&& 7#3 = b) ∧ ∀ b : BitVec 10, b &&& 0x3FF#10 = b :=
  ⟨fun _ => BitVec.and_allOnes, fun _ => BitVec.and_allOnes, fun _ => BitVec.and_allOnes, fun _ => BitVec.and_allOnes⟩

/-- The masks of the opcode map that bound a field: line buffer, field, plane, slot and stage. -/
theorem and_boundMask : (∀ b : BitVec 3, b &&& 4#3 = 0#3 ↔ b.toNat < 4) ∧
    (∀ b : BitVec 10, b &&& 0x3FE#10 = 0#10 ↔ b.toNat < 2) ∧ (∀ b : BitVec 10, b &&& 0x3FC#10 = 0#10 ↔ b.toNat < 4) ∧
    (∀ b : BitVec 10, b &&& 0x3F8#10 = 0#10 ↔ b.toNat < 8) ∧ ∀ b : BitVec 10, b &&& 0x3C0#10 = 0#10 ↔ b.toNat < 64 :=
  ⟨fun b => and_shiftLeft_allOnes_eq_zero_iff b 2, fun b => and_shiftLeft_allOnes_eq_zero_iff b 1,
    fun b => and_shiftLeft_allOnes_eq_zero_iff b 2, fun b => and_shiftLeft_allOnes_eq_zero_iff b 3,
    fun b => and_shiftLeft_allOnes_eq_zero_iff b 6⟩

/-! ## Field readers below the bounds of the opcode map -/

theorem ctxOf_of_lt {b : BitVec 2} (h : b.toNat < 3) : ctxOf b = some ⟨b.toNat, h⟩ := dif_pos h

theorem lineOf_of_lt {b : BitVec 3} (h : b.toNat < 4) : lineOf b = some ⟨b.toNat, h⟩ := dif_pos h

theorem slotOf_of_lt {b : BitVec 10} (h : b.toNat < 8) : slotOf b = some ⟨b.toNat, h⟩ := dif_pos h

theorem cascadeSlotOf_of_lt {b : BitVec 10} (h : b.toNat < 8) (hs : b.toNat % 8 ≤ 5) :
    cascadeSlotOf b = some ⟨b.toNat, h⟩ := dif_pos (by omega)

theorem planeOf_of_lt {b : BitVec 10} (h : b.toNat < 4) (hp : b.toNat % 4 < 3) :
    planeOf b = some ⟨b.toNat, by omega⟩ := dif_pos _

theorem fieldOf_of_lt {b : BitVec 10} (h : b.toNat < 2) : fieldOf b = some ⟨b.toNat, h⟩ := dif_pos h

theorem stageOf_of_lt {b : BitVec 10} (h : b.toNat < 64) (hk : b.toNat / 2 % 32 ≤ 16) :
    stageOf b = some (⟨b.toNat % 2, by omega⟩, ⟨b.toNat / 2, by omega⟩) := dif_pos (by omega)

theorem unused_ofNat_zero (n : Nat) : unused 0#n = some () := unused_zero

theorem toNat_ofNat_fin_lt {n m : Nat} (k : Fin m) : (BitVec.ofNat n k).toNat < m :=
  lt_of_le_of_lt (BitVec.toNat_ofNat .. ▸ Nat.mod_le _ _) k.isLt

/-! ## Rows of the opcode map -/

/-- The mask, match and constraints of a row bound the fields as the readers of its command ask. -/
theorem decodeFields_of_spelledBy {j : Instr} {f : Fields} (h : j.opcodeRow.spelledBy (assemble f) = true) :
    ∃ i, decodeFields f = some i ∧ i.opcodeRow = j.opcodeRow := by
  rw [OpcodeRow.spelledBy_assemble] at h
  obtain ⟨opc, ctx, rd, rs1, rs2, rs3, imm⟩ := f
  cases j
  all_goals
    dsimp only [Instr.opcodeRow] at h
    simp only [Fields.and, fieldsOf, BitVec.reduceExtractLsb', Fields.mk.injEq, BitVec.and_zero, and_wholeFieldMask,
      and_boundMask, Constraint.holdsOf, List.forall_mem_cons, List.not_mem_nil, false_implies, implies_true,
      and_true, true_and] at h
    casesm* _ ∧ _
    subst_vars
    dsimp only [decodeFields, BitVec.reduceToNat]
    simp only [ctxOf_of_lt, lineOf_of_lt, slotOf_of_lt, cascadeSlotOf_of_lt, planeOf_of_lt, fieldOf_of_lt,
      stageOf_of_lt, unused_ofNat_zero, Option.bind_eq_bind, Option.bind_some, *]
    exact ⟨_, rfl, rfl⟩

/-- The word of a well-formed command meets its row's mask, match and constraints. -/
theorem spelledBy_encode {i : Instr} (h : i.wellFormed = true) : i.opcodeRow.spelledBy (encode i) = true := by
  rw [encode, OpcodeRow.spelledBy_assemble]
  cases i
  all_goals
    dsimp only [Instr.opcodeRow]
    simp only [encodeFields, BitVec.ofNat_eq_ofNat, Fields.and, fieldsOf, BitVec.reduceExtractLsb', Fields.mk.injEq,
      BitVec.and_zero, and_wholeFieldMask, and_boundMask, Constraint.holdsOf, List.forall_mem_cons, List.not_mem_nil,
      false_implies, implies_true, and_true, true_and, toNat_ofNat_fin_lt]
  case iirInit3 slot _ _ _ | iirLp3 slot _ _ | iirLpa3 slot _ _ =>
    have hs : slot.startsCascade := of_decide_eq_true h
    rw [BitVec.toNat_ofNat]
    omega
  case ldRow p _ | stRow p _ _ _ =>
    have hp := toNat_ofNat_fin_lt (n := 10) p
    omega
  case pipeStage fld k =>
    have hk : stageNumberLegal k := of_decide_eq_true h
    rw [BitVec.toNat_ofNat]
    omega

/-- The words of a row are those that decode to a command of the row. -/
theorem spelledBy_iff_decode (w : U32) (j : Instr) :
    j.opcodeRow.spelledBy w = true ↔ ∃ i, decode w = some i ∧ i.opcodeRow = j.opcodeRow := by
  constructor
  · intro h
    rw [← assemble_fieldsOf w] at h
    exact decodeFields_of_spelledBy h
  · rintro ⟨i, hi, hrow⟩
    rw [← hrow, ← encode_of_decode hi]
    exact spelledBy_encode (wellFormed_of_decode hi)

/-- Settles O3: a row's bounds let its readers answer, and the word of a command keeps to them. -/
theorem decodeFollowsOpcodeMap : Obligations.DecodeFollowsOpcodeMap := fun w j => (spelledBy_iff_decode w j).symm

theorem decode_eq_none_iff (w : U32) : decode w = none ↔ ∀ j : Instr, j.opcodeRow.spelledBy w = false := by
  constructor
  · intro h j
    refine Bool.eq_false_iff.2 fun hj => ?_
    obtain ⟨i, hi, -⟩ := (spelledBy_iff_decode w j).1 hj
    exact absurd (h.symm.trans hi) nofun
  · intro h
    refine Option.eq_none_iff_forall_ne_some.2 fun i hi => ?_
    exact absurd ((spelledBy_iff_decode w i).2 ⟨i, hi, rfl⟩) (Bool.eq_false_iff.1 (h i))

/-- Two rows that one word spells are both the row of the command it decodes to. -/
theorem opcodeRow_eq_of_spelledBy {w : U32} {j k : Instr} (hj : j.opcodeRow.spelledBy w = true)
    (hk : k.opcodeRow.spelledBy w = true) : j.opcodeRow = k.opcodeRow := by
  obtain ⟨i, hi, hij⟩ := (spelledBy_iff_decode w j).1 hj
  obtain ⟨i', hi', hik⟩ := (spelledBy_iff_decode w k).1 hk
  cases hi.symm.trans hi'
  exact hij.symm.trans hik

end Sys2Proof
end

section
/-! PROOFS. A word written to `CTL.CMD` (30_encoding.md R78): one rule for each check, in their order; a command whose
operand check fails is recorded and changes nothing else; the host's write of a word is the step that runs it. -/

namespace Sys2Proof.Machine

/-! ## The checks -/

theorem State.issue_of_busy {s : State} (hb : s.status.busy = true) (w : U32) : s.issue w = .next s.setOverrun :=
  if_pos hb

theorem State.issue_of_error {s : State} {w : U32} (hb : s.status.busy = false) (he : s.status.err = true)
    (hw : decode w ≠ some .nop) : s.issue w = .next s := by
  rw [State.issue, hb, if_neg Bool.false_ne_true, if_pos ⟨he, hw⟩]

/-- A word is looked at unless an error is recorded, and `NOP` even then. -/
theorem State.not_dropped {s : State} {w : U32} (he : s.status.err = false ∨ decode w = some .nop) :
    ¬ (s.status.err = true ∧ decode w ≠ some .nop) :=
  fun ⟨hs, hw⟩ => he.elim (fun he => absurd (hs.symm.trans he) nofun) hw

theorem State.issue_of_illegal {s : State} {w : U32} (hb : s.status.busy = false) (he : s.status.err = false)
    (hw : decode w = none) : s.issue w = .next (s.recorded .illegal w) := by
  rw [State.issue, hb, if_neg Bool.false_ne_true, if_neg (State.not_dropped (.inl he)), hw,
    ← s.raise_eq_recorded _ _ he]

theorem State.issue_of_decode {s : State} {w : U32} {i : Instr} (hb : s.status.busy = false)
    (hw : decode w = some i) (he : s.status.err = false ∨ i = .nop) : s.issue w = exec i s := by
  have hd : s.status.err = false ∨ decode w = some .nop := he.imp_right fun h : i = .nop => h ▸ hw
  rw [State.issue, hb, if_neg Bool.false_ne_true, if_neg (State.not_dropped hd), hw]

/-- Settles O4: the rows' words are the words that decode, and a word that decodes to nothing raises `ERR_ILLEGAL`. -/
theorem illegalWords : Obligations.IllegalWords := fun w =>
  ⟨decode_eq_none_iff w, fun _ _ => opcodeRow_eq_of_spelledBy, fun _ hb he hw => State.issue_of_illegal hb he hw⟩

/-! ## Operand checks -/

/-- A command with a cause of an error records it with its own word and changes nothing else (R221, R222). -/
theorem exec_of_cause {e : CommandError} {i : Instr} {s : State} (he : s.status.err = false) (hc : e.cause i s) :
    exec i s = .next (s.recorded e (encode i)) := by
  rw [← s.raise_eq_recorded _ _ he]
  cases i with
  | prngSeed c xS =>
    obtain ⟨rfl, hseed⟩ := hc
    exact if_pos hseed
  | iirInit3 c slot | iirLp3 c slot | iirLpa3 c slot =>
    obtain ⟨rfl, hslot⟩ := hc
    exact if_neg (Nat.not_le.2 hslot)
  | fftFwd c | fftInv c =>
    obtain ⟨rfl, hlen⟩ := hc
    exact if_neg (mt (isPow2_iff _).1 hlen)
  | ldRow c lD p xRow | stRow c p xRow xShift lS =>
    obtain ⟨rfl, hrange⟩ := hc
    exact if_pos hrange
  | pipeProcess =>
    obtain ⟨rfl, hframe, hlen⟩ := hc
    rw [exec, execPipeProcess, hframe, hlen]
    rfl
  | pipeStage fld k =>
    obtain ⟨rfl, hk⟩ | ⟨rfl, hk, hframe, hlen⟩ := hc
    · exact if_pos (Nat.not_le.2 hk)
    · have hlegal : ¬ ¬ stageNumberLegal k := not_not.2 (show k.val ≤ 16 by omega)
      rw [exec, execPipeStage, if_neg hlegal, hframe, if_neg Bool.false_ne_true, if_pos ⟨hk, hlen⟩]
  | _ => exact hc.elim

theorem State.issue_of_cause {s : State} {w : U32} {i : Instr} {e : CommandError} (hb : s.status.busy = false)
    (hw : decode w = some i) (he : s.status.err = false ∨ i = .nop) (hc : e.cause i s) :
    s.issue w = .next (s.recorded e w) := by
  obtain he' | rfl := he
  · rw [State.issue_of_decode hb hw (.inl he'), exec_of_cause he' hc, encode_of_decode hw]
  · exact hc.elim

/-- Settles O8: one rule for each check. -/
theorem orderOfChecks : Obligations.OrderOfChecks := fun _ w =>
  ⟨fun hb => State.issue_of_busy hb w, State.issue_of_error, State.issue_of_illegal,
    fun hb _ hw he => ⟨State.issue_of_decode hb hw he, fun _ => State.issue_of_cause hb hw he⟩⟩

/-! ## The step that writes a word to `CTL.CMD` -/

theorem step_of_command {s : State} {v : PortWord} {rest : List HostOp} {i : Instr} (hb : s.status.busy = false)
    (hin : s.inputs = .write .ctl 3 v :: rest) (hd : decode (v.setWidth 32) = some i)
    (he : s.status.err = false ∨ i = .nop) : step s = exec i { s with inputs := rest, tick := s.tick + 1 } := by
  rw [step_of_idle hb, State.hostStep_of_cons hin]
  exact State.issue_of_decode hb hd he

/-- Settles O6: an idle step performs the host's next event, and the write of a legal word issues its command. -/
theorem stepRunsTheDecodedCommand : Obligations.StepRunsTheDecodedCommand :=
  fun _ _ _ _ hb hin hd he => step_of_command hb hin hd he

theorem ofNat_mod_word (w : U32) : BitVec.ofNat 32 (w.toNat % 2 ^ 32) = w := by
  rw [Nat.mod_eq_of_lt w.isLt, BitVec.ofNat_toNat, BitVec.setWidth_eq]

theorem State.withFetchWord_word {s : State} (hb : s.status.busy = false) (w : U32) :
    s.withFetchWord 32 w.toNat = { s with inputs := .write .ctl 3 (w.setWidth 64) :: s.inputs } := by
  rw [State.withFetchWord, State.presentWord, ofNat_mod_word, hb]
  rfl

/-- Settles O7: the placed word is the host's next event, and it decodes to its command. -/
theorem fetchedWordRuns : Obligations.FetchedWordRuns := by
  intro s i hi hb he
  refine ⟨by rw [decodeTableWord, ofNat_mod_word, decode_encode hi], ?_⟩
  have hd : decode (((encode i).setWidth 64).setWidth 32) = some i := by
    rw [BitVec.setWidth_setWidth_of_le _ (by decide), BitVec.setWidth_eq, decode_encode hi]
  rw [State.withFetchWord_word hb]
  exact step_of_command (s := { s with inputs := _ :: s.inputs }) hb rfl hd he

end Sys2Proof.Machine
end

section
/-! PROOFS. The generator by itself (40_prng.md R91, R92; log 10): O23. -/

namespace Sys2Proof.Machine

/-- The counter rises by 362437 in a step, whatever the xorshift words are. -/
theorem next_d (g : Gen) : (next g).1.d = g.d + 362437 := rfl

theorem counter_succ (d : U32) (n : Nat) :
    d + BitVec.ofNat 32 (362437 * n) + 362437 = d + BitVec.ofNat 32 (362437 * (n + 1)) := by
  rw [Nat.mul_succ, BitVec.ofNat_add, BitVec.add_assoc]; rfl

theorem advance_d (n : Nat) (g : Gen) : (advance n g).d = g.d + BitVec.ofNat 32 (362437 * n) := by
  induction n with
  | zero => simp [advance]
  | succ n ih => rw [advance_succ, next_d, ih, counter_succ]

/-- With all five xorshift words zero the new word is zero too, so that the counter alone makes the draw. -/
theorem next_zeroWords (d : U32) :
    next ⟨0, 0, 0, 0, 0, d⟩ = (⟨0, 0, 0, 0, 0, d + 362437⟩, d + 362437) := by
  simp [next]

theorem advance_zeroWords (n : Nat) (d : U32) :
    advance n ⟨0, 0, 0, 0, 0, d⟩ = ⟨0, 0, 0, 0, 0, d + BitVec.ofNat 32 (362437 * n)⟩ := by
  induction n with
  | zero => simp [advance]
  | succ n ih => rw [advance_succ, ih, next_zeroWords, counter_succ]

/-- Settles O23: the step and the expansion as the model writes them, and the two laws by induction on the draws. -/
theorem xorwowInstance : Obligations.XorwowInstance := by
  refine ⟨fun g => ⟨rfl, rfl⟩, fun s => rfl, fun g n => advance_d n g, fun d n => ?_⟩
  rw [advance_zeroWords, next_zeroWords, counter_succ]

end Sys2Proof.Machine
end

section
/-! PROOFS. The uniform of a draw (40_prng.md R95): a quotient of two exact integers, and rounding keeps it between the
two ends because both are binary64 values. -/

namespace Sys2Proof.Machine

/-! ## Rounding is monotone against binary64 values -/

section
variable {x : ℝ} {out r : F64} (h : RoundsTo x out) (hx : |x| < 2 ^ 2098 - 2 ^ 2044)

include h hx

theorem RoundsTo.finite : isFinite out = true := (h.2.1 hx).1

theorem RoundsTo.funits_le (hr : isFinite r = true) (hle : x ≤ funits r) :
    (funits out : ℝ) ≤ funits r := by
  have near := (abs_le.1 ((h.2.1 hx).2 r hr).1).2
  rw [abs_of_nonneg (by linarith)] at near
  linarith

theorem RoundsTo.le_funits (hr : isFinite r = true) (hle : (funits r : ℝ) ≤ x) :
    (funits r : ℝ) ≤ funits out := by
  have near := (abs_le.1 ((h.2.1 hx).2 r hr).1).1
  rw [abs_of_nonpos (by linarith)] at near
  linarith

end

/-- A binary64 is its sign and its value: the value alone leaves the sign of a zero open. -/
theorem eq_of_funits_of_msb {a b : F64} (h : (funits a : ℝ) = funits b) (hs : a.msb = b.msb) : a = b := by
  rw [Int.cast_inj, funits_eq_iff, signedPattern_eq_iff] at h
  exact eq_iff_msb_pattern.2 ⟨hs, h.elim (fun ⟨ha, hb⟩ => ha.trans hb.symm) And.right⟩

/-- Rounding a value that is a binary64 gives it back, up to the sign of a zero. -/
theorem RoundsTo.eq_of_funits {x : ℝ} {out r : F64} (h : RoundsTo x out) (hx : |x| < 2 ^ 2098 - 2 ^ 2044)
    (hr : isFinite r = true) (hxr : x = funits r) (hs : out.msb = r.msb) : out = r :=
  eq_of_funits_of_msb (le_antisymm (h.funits_le hx hr hxr.le) (h.le_funits hx hr hxr.ge)) hs

/-! ## The two ends of the unit interval -/

theorem isFinite_zero : isFinite 0 = true := isFinite_fzero false

theorem funits_zero : (funits 0 : ℝ) = 0 := (isZero_iff_cast 0).1 (isZero_fzero false)

theorem isFinite_fone : isFinite fone = true := by decide

theorem funits_fone : (funits fone : ℝ) = 2 ^ 1074 := by
  have h : funits fone = 1 * 2 ^ 1074 :=
    (show fone = fofInt 1 by decide) ▸ (fofInt_eq_exact (n := 1) (by decide)).2
  rw [h, one_mul, Int.cast_pow, Int.cast_ofNat]

/-- 1.0 lies far below the largest finite value. -/
theorem two_pow_1074_lt : (2 : ℝ) ^ 1074 < 2 ^ 2098 - 2 ^ 2044 := by
  have hle : (2 : ℝ) ^ 1074 ≤ 2 ^ 2044 := pow_le_pow_right₀ one_le_two (by norm_num)
  have hpos : (0 : ℝ) < 2 ^ 2044 := by positivity
  rw [show (2 : ℝ) ^ 2098 = 2 ^ 2044 * 2 ^ 54 by rw [← pow_add]]
  generalize (2 : ℝ) ^ 2044 = c at *
  generalize (2 : ℝ) ^ 1074 = d at *
  linarith

/-! ## The uniform -/

theorem msb_fofInt_of_nonneg {n : Int} (h : 0 ≤ n) : (fofInt n).msb = false := by
  rw [fofInt, msb_roundPack, decide_eq_false (not_lt.2 h)]

/-- The uniform of a draw in exact arithmetic, in units of 2^-1074. -/
noncomputable def exactUniform (n : U32) : ℝ := (n.toNat : ℝ) / 4294967295 * 2 ^ 1074

theorem exactUniform_nonneg (n : U32) : 0 ≤ exactUniform n := by unfold exactUniform; positivity

theorem exactUniform_le (n : U32) : exactUniform n ≤ 2 ^ 1074 := by
  have hn : (n.toNat : ℝ) ≤ 4294967295 := by exact_mod_cast Nat.le_of_lt_succ n.isLt
  exact mul_le_of_le_one_left (by positivity) ((div_le_one (by norm_num)).2 hn)

theorem abs_exactUniform_lt (n : U32) : |exactUniform n| < 2 ^ 2098 - 2 ^ 2044 := by
  rw [abs_of_nonneg (exactUniform_nonneg n)]
  exact (exactUniform_le n).trans_lt two_pow_1074_lt

theorem uniformDivisor_eq_exact :
    isFinite uniformDivisor = true ∧ (funits uniformDivisor : ℝ) = 4294967295 * 2 ^ 1074 := by
  obtain ⟨hf, hu⟩ := fofInt_eq_exact (n := 4294967295) (by decide)
  refine ⟨hf, ?_⟩
  rw [uniformDivisor, hu, Int.cast_mul, Int.cast_pow, Int.cast_ofNat, Int.cast_ofNat]

/-- The uniform is the exact quotient, rounded once, and its sign bit is clear. -/
theorem uniform01_roundsTo (p : Path) (n : U32) :
    RoundsTo (exactUniform n) (uniform01 p n) ∧ (uniform01 p n).msb = false := by
  obtain ⟨hnf, hnu⟩ := fofU32_eq_exact n
  obtain ⟨hdf, hdu⟩ := uniformDivisor_eq_exact
  have hscale : (2 : ℝ) ^ 1074 ≠ 0 := by positivity
  have hnu' : (funits (fofU32 n) : ℝ) = n.toNat * 2 ^ 1074 := by
    rw [hnu, Int.cast_mul, Int.cast_pow, Int.cast_natCast, Int.cast_ofNat]
  obtain ⟨hround, hsign⟩ := (fdiv_finite p hnf hdf).1 (by rw [hdu]; positivity)
  rw [hnu', hdu, mul_div_mul_right _ _ hscale] at hround
  refine ⟨hround, hsign.trans ?_⟩
  rw [fofU32, uniformDivisor, msb_fofInt_of_nonneg (by omega), msb_fofInt_of_nonneg (by decide)]
  rfl

/-- The uniform is a number in [0.0, 1.0] (R95). -/
theorem uniform01_mem (p : Path) (n : U32) :
    isNaN (uniform01 p n) = false ∧ flt (uniform01 p n) 0 = false ∧ flt fone (uniform01 p n) = false := by
  have hround := (uniform01_roundsTo p n).1
  have hx := abs_exactUniform_lt n
  have hfin := hround.finite hx
  have hlo := hround.le_funits hx isFinite_zero (by rw [funits_zero]; exact exactUniform_nonneg n)
  have hhi := hround.funits_le hx isFinite_fone (by rw [funits_fone]; exact exactUniform_le n)
  refine ⟨isNaN_of_isFinite hfin, ?_, ?_⟩
  · rw [Bool.eq_false_iff, ne_eq, (compare_of_isFinite hfin isFinite_zero).1, not_lt]; exact hlo
  · rw [Bool.eq_false_iff, ne_eq, (compare_of_isFinite isFinite_fone hfin).1, not_lt]; exact hhi

theorem uniform01_zero (p : Path) : uniform01 p 0 = 0 := by
  obtain ⟨hround, hsign⟩ := uniform01_roundsTo p 0
  exact hround.eq_of_funits (abs_exactUniform_lt 0) isFinite_zero
    (by rw [funits_zero, exactUniform]; simp) hsign

theorem uniform01_max (p : Path) : uniform01 p 0xFFFFFFFF = fone := by
  obtain ⟨hround, hsign⟩ := uniform01_roundsTo p 0xFFFFFFFF
  refine hround.eq_of_funits (abs_exactUniform_lt _) isFinite_fone ?_ hsign
  rw [funits_fone, exactUniform, show (0xFFFFFFFF : U32).toNat = 4294967295 from rfl, Nat.cast_ofNat,
    div_self (by norm_num), one_mul]

end Sys2Proof.Machine
end

section
/-! PROOFS. The commands of the PRNG unit (40_prng.md R93 to R97): O21, O22, O24, O25. -/

namespace Sys2Proof.Machine

/-- A draw put into an integer register (R94). -/
theorem State.draw_setX (s : State) (c : CtxId) (xD : RegId) (v : U32) :
    ((s.draw c).1.setX xD v).x[xD] = v ∧ ((s.draw c).1.setX xD v).ctx[c].gen = (next s.ctx[c].gen).1 ∧
      ChangesOnly { x := (· = xD), gen := (· = c) } s ((s.draw c).1.setX xD v) :=
  ⟨by rw [State.setX_get, if_pos rfl], s.setGen_gen c _, (changesOnly_setGen _ rfl).trans (changesOnly_setX _ rfl)⟩

/-- A value made of a draw, put into a floating-point register (R95 to R97). -/
theorem State.draw_setF (s : State) (c : CtxId) (fD : RegId) (v : F64) :
    ((s.draw c).1.setF fD v).f[fD] = v ∧ ((s.draw c).1.setF fD v).ctx[c].gen = (next s.ctx[c].gen).1 ∧
      ChangesOnly { f := (· = fD), gen := (· = c) } s ((s.draw c).1.setF fD v) :=
  ⟨by rw [State.setF_get, if_pos rfl], s.setGen_gen c _, (changesOnly_setGen _ rfl).trans (changesOnly_setF _ rfl)⟩

/-- Settles O21: the check of the seed decides between the expansion and the error. -/
theorem prngSeed : Obligations.PrngSeed := fun c _ s =>
  ⟨fun hseed => ⟨_, if_neg hseed, s.setGen_gen c _, changesOnly_setGen _ rfl⟩,
    fun hseed he => exec_of_cause he ⟨rfl, hseed⟩⟩

/-- Settles O22: a draw put into an integer register. -/
theorem prngNext : Obligations.PrngNext := fun c xD s => ⟨_, rfl, s.draw_setX c xD _⟩

/-- Settles O24: the draw's uniform put into a floating-point register. -/
theorem prngU01 : Obligations.PrngU01 := by
  intro c fD s
  obtain ⟨hf, hgen, hframe⟩ := s.draw_setF c fD (uniform01 [s.tick] (s.draw c).2)
  refine ⟨_, [s.tick], rfl, hf, hgen, hframe, ?_⟩
  rw [hf]
  obtain ⟨hnum, hlo, hhi⟩ := uniform01_mem [s.tick] (s.draw c).2
  exact ⟨hnum, hlo, hhi, fun h => (congrArg _ h).trans (uniform01_zero _),
    fun h => (congrArg _ h).trans (uniform01_max _)⟩

/-- The paths of a draw's uniform and then of a formula's operations, in the order in which R96 and R97 write them;
from the fourth operation on the model numbers those of the branch taken from `branch`. -/
def formulaPaths (draw p : Path) (branch : Nat) : Nat → Path
  | 0 => draw
  | k + 1 => (if k < 3 then k else k - 3 + branch) :: p

/-- Settles O25: both formulas are the model's, with its paths. -/
theorem prngRangeAndTriangular : Obligations.PrngRangeAndTriangular := by
  intro c fD fLo fHi fMode s
  constructor
  · obtain ⟨hf, hgen, hframe⟩ := s.draw_setF c fD
      (uniformRange [1, s.tick] (uniform01 [0, s.tick] (s.draw c).2) s.f[fLo] s.f[fHi])
    exact ⟨_, formulaPaths [0, s.tick] [1, s.tick] 3, rfl, hf, hgen, hframe⟩
  · obtain ⟨hf, hgen, hframe⟩ := s.draw_setF c fD
      (triangular [1, s.tick] (uniform01 [0, s.tick] (s.draw c).2) s.f[fLo] s.f[fHi] s.f[fMode])
    by_cases below : flt (uniform01 [0, s.tick] (s.draw c).2) (fdiv [0, 1, s.tick]
        (fsub [1, 1, s.tick] s.f[fMode] s.f[fLo]) (fsub [2, 1, s.tick] s.f[fHi] s.f[fLo])) = true
    · exact ⟨_, formulaPaths [0, s.tick] [1, s.tick] 3, rfl,
        (iff_of_eq (if_pos below)).2 (hf.trans (if_pos below)), hgen, hframe⟩
    · exact ⟨_, formulaPaths [0, s.tick] [1, s.tick] 9, rfl,
        (iff_of_eq (if_neg below)).2 (hf.trans (if_neg below)), hgen, hframe⟩

end Sys2Proof.Machine
end

section
/-! PROOFS. Who changes a generator (40_prng.md R98): O26. -/

namespace Sys2Proof.Machine

open Host (Outcome)

/-! ## Updates that keep the generators -/

/-- The two states have the same three generators. -/
def SameGens (s t : State) : Prop := ∀ c : Fin 3, t.ctx[c].gen = s.ctx[c].gen

namespace SameGens

variable {s u : State}

theorem of_ctx (h : u.ctx = s.ctx) : SameGens s u := fun c => by rw [h]

theorem setCtx (h : SameGens s u) (c : Fin 3) {k : Context} (hk : k.gen = u.ctx[c].gen) :
    SameGens s (u.setCtx c k) := fun d => by
  rw [State.setCtx_get]
  split
  · next e => rw [hk, ← h d, e]
  · exact h d

theorem setFlt (h : SameGens s u) (c : Fin 3) (r : Fin 8) (v : Filter) : SameGens s (u.setFlt c r v) :=
  h.setCtx c rfl

theorem setCascade (h : SameGens s u) (c : CtxId) (slot : SlotId) (k : Cascade) :
    SameGens s (u.setCascade c slot k) :=
  ((h.setFlt _ _ _).setFlt _ _ _).setFlt _ _ _

theorem storeLine (h : SameGens s u) (c : Fin 3) (b : Fin 4) (vs : List F64) : SameGens s (u.storeLine c b vs) :=
  h.setCtx c rfl

theorem storeZ (h : SameGens s u) (c : Fin 3) (vs : List C64) : SameGens s (u.storeZ c vs) := h.setCtx c rfl

theorem loseScratch (h : SameGens s u) (c : Fin 3) : SameGens s (u.loseScratch c) := h.setCtx c rfl

end SameGens

theorem State.raise_ctx (s : State) (e : CommandError) (word : U32) : (s.raise e word).ctx = s.ctx := by
  unfold State.raise
  split <;> rfl

theorem State.rgb2yiq_ctx (s : State) : s.rgb2yiq.ctx = s.ctx := by
  obtain ⟨m, e⟩ := s.rgb2yiq_setYiq
  rw [e, State.setYiq_ctx]

theorem State.yiq2rgb_ctx (s : State) (t : Nat) : (s.yiq2rgb t).ctx = s.ctx := by
  obtain ⟨m, e⟩ := s.yiq2rgb_setRgbout t
  rw [e, State.setRgbout_ctx]

theorem State.storeField_ctx (s : State) (t : Nat) (f : FieldRows) : (s.storeField t f).ctx = s.ctx := by
  obtain ⟨m, e⟩ := s.storeField_setYiq t f
  rw [e, State.setYiq_ctx]

theorem State.fork_sameGens (s : State) : SameGens s s.fork :=
  have converted : SameGens s ((s.rgb2yiq.markForked.setSc 0 0).setSc 1 0) := .of_ctx s.rgb2yiq_ctx
  (converted.loseScratch 0).loseScratch 1

/-! ## Commands that keep the generators -/

/-- A next state, if the outcome is one, has the generators of `s`. -/
def KeepsGens (s : State) (o : Outcome State Fault Refusal) : Prop := ∀ t, o = .next t → SameGens s t

namespace KeepsGens

variable {s : State}

theorem next {t : State} (h : SameGens s t) : KeepsGens s (.next t) := fun _ e => Outcome.next.inj e ▸ h

theorem ite {P : Prop} [Decidable P] {a b : Outcome State Fault Refusal} (ha : KeepsGens s a)
    (hb : KeepsGens s b) : KeepsGens s (if P then a else b) := by
  split
  · exact ha
  · exact hb

theorem same : KeepsGens s (.next s) := next (.of_ctx rfl)

theorem raise (e : CommandError) (word : U32) : KeepsGens s (.next (s.raise e word)) :=
  next (.of_ctx (s.raise_ctx e word))

end KeepsGens

/-- The commands that may change a generator (R98). -/
def changesGenerator : Instr → Bool
  | .prngSeed .. | .prngNext .. | .prngU01 .. | .prngUrange .. | .prngTri .. | .pipeStage .. => true
  | _ => false

theorem keepsGens_exec {i : Instr} (hi : changesGenerator i = false) (s : State) : KeepsGens s (exec i s) := by
  have same : SameGens s s := .of_ctx rfl
  cases i with
  | nop => exact .same
  | prngSeed | prngNext | prngU01 | prngUrange | prngTri | pipeStage => cases hi
  | iirInit c slot fRate fCut fVal => exact .next (same.setFlt _ _ _)
  | iirLp c slot fD fS => exact .next (same.setFlt _ _ _)
  | iirHp c slot fD fS => exact .next (same.setFlt _ _ _)
  | iirLpa c slot lD lS => exact .next ((same.setFlt _ _ _).storeLine _ _ _)
  | iirHpa c slot lD lS => exact .next ((same.setFlt _ _ _).storeLine _ _ _)
  | iirInit3 c slot fRate fCut fVal => exact .ite (.next (same.setCascade _ _ _)) (.raise _ _)
  | iirLp3 c slot fD fS => exact .ite (.next (same.setCascade _ _ _)) (.raise _ _)
  | iirLpa3 c slot lD lS => exact .ite (.next ((same.setCascade _ _ _).storeLine _ _ _)) (.raise _ _)
  | fftFwd c => exact .ite (.next (same.storeZ _ _)) (.raise _ _)
  | fftInv c => exact .ite (.next (same.storeZ _ _)) (.raise _ _)
  | fftShift c => exact .next (same.storeZ _ _)
  | zLdre c lS => exact .next (same.storeZ _ _)
  | zStre c lD => exact .next (same.storeLine _ _ _)
  | zMulr c lS => exact .next (same.storeZ _ _)
  | cscRgb2yiq => exact .next (.of_ctx s.rgb2yiq_ctx)
  | cscYiq2rgb fld => exact .next (.of_ctx (s.yiq2rgb_ctx _))
  | muxEnc fld xAmp => exact .next (.of_ctx (s.storeField_ctx _ _))
  | muxDec fld xAmp => exact .next (.of_ctx (s.storeField_ctx _ _))
  | ldRow c lD p xRow => exact .ite (.raise _ _) (.next (same.storeLine _ _ _))
  | stRow c p xRow xShift lS => exact .ite (.raise _ _) (.next (.of_ctx rfl))
  | pipeProcess => exact .ite (.next (.of_ctx rfl)) (.ite (.raise _ _) (.next s.fork_sameGens))

/-! ## Commands that change a generator -/

/-- A replaced generator is in one context. -/
theorem State.setGen_gen_cases (s : State) (c d : Fin 3) (g : Gen) :
    (s.setGen c g).ctx[d].gen = s.ctx[d].gen ∨ c = d ∧ (s.setGen c g).ctx[d].gen = g := by
  by_cases e : c = d
  · exact .inr ⟨e, by rw [← e, State.setGen_gen]⟩
  · exact .inl (by rw [State.setGen, State.setCtx_get, if_neg e])

/-- The commands that take a draw from the generator of context `c` (R94 to R97). -/
def drawsFrom (i : Instr) (c : Fin 3) : Prop :=
  (∃ xD, i = .prngNext c xD) ∨ (∃ fD, i = .prngU01 c fD) ∨ (∃ fD fLo fHi, i = .prngUrange c fD fLo fHi) ∨
    ∃ fD fLo fHi fMode, i = .prngTri c fD fLo fHi fMode

theorem ctx_of_draw {i : Instr} {c : Fin 3} {s t : State} (hi : drawsFrom i c) (h : exec i s = .next t) :
    t.ctx = (s.draw c).1.ctx := by
  obtain ⟨_, rfl⟩ | ⟨_, rfl⟩ | ⟨_, _, _, rfl⟩ | ⟨_, _, _, _, rfl⟩ := hi <;> exact Outcome.next.inj h ▸ rfl

theorem gen_of_draw {i : Instr} {c : Fin 3} {s t : State} (hi : drawsFrom i c) (h : exec i s = .next t)
    (d : Fin 3) :
    t.ctx[d].gen = s.ctx[d].gen ∨ drawsFrom i d ∧ t.ctx[d].gen = (next s.ctx[d].gen).1 := by
  rw [ctx_of_draw hi h]
  obtain hg | ⟨rfl, hg⟩ := s.setGen_gen_cases c d (next s.ctx[c].gen).1
  · exact .inl hg
  · exact .inr ⟨hi, hg⟩

theorem gen_of_seed {c : CtxId} {xS : RegId} {s t : State} (h : exec (.prngSeed c xS) s = .next t) (d : Fin 3) :
    t.ctx[d].gen = s.ctx[d].gen ∨ c = d ∧ t.ctx[d].gen = seedExpand s.x[xS] := by
  rw [exec, execPrngSeed] at h
  split at h
  · exact .inl (KeepsGens.raise _ _ t h d)
  · cases h; exact s.setGen_gen_cases c d _

/-- A stage run alone takes some number of draws from its field's generator (45_stages.md R152). -/
theorem gen_of_stage {fld : FieldId} {k : Fin 32} {s t : State} (h : exec (.pipeStage fld k) s = .next t)
    (d : Fin 3) :
    t.ctx[d].gen = s.ctx[d].gen ∨ ∃ n, fld.castSucc = d ∧ t.ctx[d].gen = advance n s.ctx[d].gen := by
  rw [exec, execPipeStage] at h
  split at h
  · exact .inl (KeepsGens.raise _ _ t h d)
  split at h
  · exact .inl (KeepsGens.same t h d)
  split at h
  · exact .inl (KeepsGens.raise _ _ t h d)
  · cases h
    obtain ⟨m, m', n, e⟩ := s.stageStep_fields fld k
    rw [State.loseScratch_gen, e]
    obtain hg | ⟨rfl, hg⟩ :=
      State.setGen_gen_cases ((s.setYiq m).setRgbout m') fld.castSucc d (advance n s.ctx[fld.castSucc].gen)
    · exact .inl hg
    · exact .inr ⟨n, rfl, hg⟩

/-- Settles O26: the commands that own a generator one by one, and what all the others leave. -/
theorem generatorOwnership : Obligations.GeneratorOwnership := by
  intro i s t c h
  cases i with
  | prngSeed c' xS =>
    obtain hg | ⟨rfl, hg⟩ := gen_of_seed h c
    · exact .inl hg
    · exact .inr (.inl ⟨xS, rfl, hg⟩)
  | prngNext c' xD => exact (gen_of_draw (.inl ⟨xD, rfl⟩) h c).imp_right fun hd => .inr (.inl hd)
  | prngU01 c' fD => exact (gen_of_draw (.inr (.inl ⟨fD, rfl⟩)) h c).imp_right fun hd => .inr (.inl hd)
  | prngUrange c' fD fLo fHi =>
    exact (gen_of_draw (.inr (.inr (.inl ⟨fD, fLo, fHi, rfl⟩))) h c).imp_right fun hd => .inr (.inl hd)
  | prngTri c' fD fLo fHi fMode =>
    exact (gen_of_draw (.inr (.inr (.inr ⟨fD, fLo, fHi, fMode, rfl⟩))) h c).imp_right fun hd => .inr (.inl hd)
  | pipeStage fld k =>
    obtain hg | ⟨n, rfl, hg⟩ := gen_of_stage h c
    · exact .inl hg
    · exact .inr (.inr (.inr ⟨fld, k, n, rfl, rfl, hg⟩))
  | _ => exact .inl (keepsGens_exec rfl s t h c)

end Sys2Proof.Machine
end

section
/-! PROOFS. The corner cases of one lowpass update (41_iir.md R104, R105), of the order R101 writes: what is not finite
goes through every operation, and what is a binary64 in exact arithmetic is not rounded. -/

namespace Sys2Proof.Machine

/-! ## Operands that are not finite -/

theorem isNaN_or_isInf_of_not_isFinite {a : F64} (h : isFinite a = false) : isNaN a = true ∨ isInf a = true := by
  rw [isNaN_iff, isInf_iff]
  rw [Bool.eq_false_iff, ne_eq, isFinite_iff] at h
  omega

theorem not_isFinite_of_isNaN {a : F64} (h : isNaN a = true) : isFinite a = false :=
  Bool.eq_false_iff.2 fun hf => Bool.false_ne_true ((isNaN_of_isFinite hf).symm.trans h)

theorem not_isFinite_of_isInf {a : F64} (h : isInf a = true) : isFinite a = false :=
  Bool.eq_false_iff.2 fun hf => Bool.false_ne_true ((isInf_of_isFinite hf).symm.trans h)

theorem not_isFinite_fmul (p : Path) {a : F64} (h : isFinite a = false) (b : F64) : isFinite (fmul p a b) = false := by
  by_cases hb : isNaN b = true
  · exact not_isFinite_of_isNaN (isNaN_fmul (.inr hb))
  obtain ha | ha := isNaN_or_isInf_of_not_isFinite h
  · exact not_isFinite_of_isNaN (isNaN_fmul (.inl ha))
  · have hmul := fmul_of_isInf p ha (Bool.eq_false_iff.2 hb)
    split at hmul
    · exact not_isFinite_of_isNaN hmul.1
    · rw [hmul.1]; exact not_isFinite_of_isInf (isInf_finf _).1

theorem not_isFinite_fadd (p : Path) {a : F64} (h : isFinite a = false) (b : F64) : isFinite (fadd p a b) = false := by
  by_cases hb : isNaN b = true
  · exact not_isFinite_of_isNaN (isNaN_fadd (.inr hb))
  obtain ha | ha := isNaN_or_isInf_of_not_isFinite h
  · exact not_isFinite_of_isNaN (isNaN_fadd (.inl ha))
  · have hadd := fadd_of_isInf p ha (Bool.eq_false_iff.2 hb)
    split at hadd
    · exact not_isFinite_of_isNaN hadd.1
    · rw [hadd.1]; exact h

/-- A number that is neither a zero nor below zero has its sign bit clear. -/
theorem msb_eq_false_of_not_flt {a : F64} (hn : isNaN a = false) (hz : isZero a = false) (hlt : flt a 0 = false) :
    a.msb = false := by
  have hle : ¬ signedPattern a < signedPattern 0 := by
    rw [← flt_iff hn (by decide), hlt]; exact Bool.false_ne_true
  rw [show signedPattern 0 = 0 from rfl, signedPattern] at hle
  rw [Bool.eq_false_iff, ne_eq, isZero_iff] at hz
  by_contra hs
  rw [if_pos (by simpa using hs)] at hle
  omega

/-- An infinite or NaN `prev` makes `prev - prev*alpha` a NaN unless the coefficient is negative: `prev*alpha` is a NaN
or `prev` itself. -/
theorem isNaN_held (p q : Path) {prev alpha : F64} (hprev : isFinite prev = false) (hneg : flt alpha 0 = false) :
    isNaN (fsub p prev (fmul q prev alpha)) = true := by
  have of_nan {b : F64} (h : isNaN prev = true ∨ isNaN b = true) : isNaN (fsub p prev b) = true :=
    isNaN_fadd (by rwa [isNaN_fneg])
  obtain hp | hp := isNaN_or_isInf_of_not_isFinite hprev
  · exact of_nan (.inl hp)
  by_cases ha : isNaN alpha = true
  · exact of_nan (.inr (isNaN_fmul (.inr ha)))
  rw [Bool.not_eq_true] at ha
  have hmul := fmul_of_isInf q hp ha
  split at hmul
  · exact of_nan (.inr hmul.1)
  · next hz =>
    have hpos := msb_eq_false_of_not_flt ha (by simpa using hz) hneg
    obtain ⟨hinf, hsign⟩ := isInf_finf prev.msb
    have hsub := fsub_of_isInf p hp (isNaN_of_isInf hinf)
    rw [if_pos ⟨hinf, by rw [hsign, bne_self_eq_false]⟩] at hsub
    rw [hmul.1, hpos, Bool.bne_false]
    exact hsub.1

/-! ## Exact results -/

/-- A binary64 stays below the values that round to an infinity (R15). -/
theorem abs_funits_lt {r : F64} (hr : isFinite r = true) : |(funits r : ℝ)| < 2 ^ 2098 - 2 ^ 2044 := by
  have habs : |(funits r : ℝ)| = (fmant r : ℝ) * 2 ^ fexp r := by
    rw [funits_cast]
    cases r.msb <;> simp
  have hm : (fmant r : ℝ) ≤ 2 ^ 53 - 1 := by
    have h : ((fmant r + 1 : Nat) : ℝ) ≤ (2 ^ 53 : Nat) := Nat.cast_le.2 (fmant_lt r)
    push_cast at h
    linarith
  have he : (2 : ℝ) ^ fexp r ≤ 2 ^ 2045 := by
    refine pow_le_pow_right₀ one_le_two ?_
    rw [isFinite_iff] at hr
    rw [fexp, fexpField_eq]
    omega
  have hle := mul_le_mul hm he (by positivity) (by norm_num)
  have hpos : (0 : ℝ) < 2 ^ 2044 := by positivity
  rw [habs, show (2 : ℝ) ^ 2098 = 2 ^ 2044 * 2 ^ 54 by rw [← pow_add]]
  rw [show (2 : ℝ) ^ 2045 = 2 ^ 2044 * 2 by rw [← pow_succ]] at hle
  generalize (2 : ℝ) ^ 2044 = c at *
  linarith

/-- A number that is a binary64 is not rounded. -/
theorem RoundsTo.exact {x : ℝ} {out r : F64} (h : RoundsTo x out) (hr : isFinite r = true) (hx : x = funits r) :
    isFinite out = true ∧ (funits out : ℝ) = funits r := by
  have hb : |x| < 2 ^ 2098 - 2 ^ 2044 := by rw [hx]; exact abs_funits_lt hr
  exact ⟨h.finite hb, le_antisymm (h.funits_le hb hr hx.le) (h.le_funits hb hr hx.ge)⟩

/-- A zero coefficient leaves nothing of a finite factor. -/
theorem fmul_of_isZero (p : Path) {a b : F64} (ha : isFinite a = true) (hb : isZero b = true) :
    isFinite (fmul p a b) = true ∧ (funits (fmul p a b) : ℝ) = 0 := by
  obtain ⟨hbf, hb0⟩ := (isZero_iff_isFinite b).1 hb
  have h := (fmul_roundsTo p ha hbf).exact isFinite_zero (by rw [hb0, funits_zero, mul_zero, zero_div])
  rwa [funits_zero] at h

theorem fmul_fone (p : Path) {a : F64} (ha : isFinite a = true) :
    isFinite (fmul p a fone) = true ∧ (funits (fmul p a fone) : ℝ) = funits a :=
  (fmul_roundsTo p ha isFinite_fone).exact ha (by rw [funits_fone, mul_div_cancel_right₀ _ (by positivity)])

/-- With a zero coefficient the formula is `0 + (prev - 0)`. -/
theorem lowpass_holds (p₁ p₂ p₃ p₄ : Path) {alpha prev v : F64} (ha : isZero alpha = true)
    (hp : isFinite prev = true) (hv : isFinite v = true) :
    isFinite (fadd p₁ (fmul p₂ v alpha) (fsub p₃ prev (fmul p₄ prev alpha))) = true ∧
    (funits (fadd p₁ (fmul p₂ v alpha) (fsub p₃ prev (fmul p₄ prev alpha))) : ℝ) = funits prev := by
  obtain ⟨hf₂, h₂⟩ := fmul_of_isZero p₂ hv ha
  obtain ⟨hf₄, h₄⟩ := fmul_of_isZero p₄ hp ha
  obtain ⟨hf₃, h₃⟩ := (fsub_roundsTo p₃ hp hf₄).exact hp (by rw [h₄, sub_zero])
  exact (fadd_roundsTo p₁ hf₂ hf₃).exact hp (by rw [h₂, h₃, zero_add])

/-- With the coefficient 1.0 the formula is `v + (prev - prev)`. -/
theorem lowpass_passes (p₁ p₂ p₃ p₄ : Path) {prev v : F64} (hp : isFinite prev = true) (hv : isFinite v = true) :
    isFinite (fadd p₁ (fmul p₂ v fone) (fsub p₃ prev (fmul p₄ prev fone))) = true ∧
    (funits (fadd p₁ (fmul p₂ v fone) (fsub p₃ prev (fmul p₄ prev fone))) : ℝ) = funits v := by
  obtain ⟨hf₂, h₂⟩ := fmul_fone p₂ hv
  obtain ⟨hf₄, h₄⟩ := fmul_fone p₄ hp
  obtain ⟨hf₃, h₃⟩ := (fsub_roundsTo p₃ hp hf₄).exact isFinite_zero (by rw [h₄, sub_self, funits_zero])
  exact (fadd_roundsTo p₁ hf₂ hf₃).exact hv (by rw [h₂, h₃, funits_zero, add_zero])

/-- A slot never initialised since reset: the held part is +0.0, and so is its sum with a zero of either sign. -/
theorem lowpass_neverInitialised (p₁ p₂ p₃ p₄ : Path) {v : F64} (hv : isFinite v = true) :
    fadd p₁ (fmul p₂ v 0) (fsub p₃ 0 (fmul p₄ 0 0)) = 0 := by
  have hproduct : fmul p₄ 0 0 = 0 := (fmul_of_isFinite p₄ isFinite_zero isFinite_zero).trans (by decide)
  have hheld : fsub p₃ 0 0 = 0 := (fadd_of_isFinite p₃ isFinite_zero (by decide)).trans (by decide)
  obtain ⟨-, hval⟩ := lowpass_holds p₁ p₂ p₃ p₄ (alpha := 0) (prev := 0) (by decide) isFinite_zero hv
  obtain ⟨hf₂, h₂⟩ := fmul_of_isZero p₂ hv (b := 0) (by decide)
  refine eq_of_funits_of_msb hval ?_
  rw [hproduct, hheld, msb_fadd_of_eq_zero p₁ hf₂ isFinite_zero (by rw [Int.cast_eq_zero.1 h₂]; rfl)]
  simp

/-! ## The corner cases -/

theorem lowpassCorner_iff (alpha prev v : F64) : lowpassCorner alpha prev v = true ↔
    isFinite alpha = false ∨ isFinite prev = false ∨ isFinite v = false ∨ isZero alpha = true ∨ alpha = fone := by
  simp only [lowpassCorner, Bool.or_eq_true, Bool.not_eq_true', Bool.and_eq_false_iff, beq_iff_eq, or_assoc]

/-- In a corner case every order gives what the order R101 writes gives. -/
theorem LowpassOut.asWritten {hw : HwParams} {alpha prev v out : F64} (h : LowpassOut hw alpha prev v out)
    (hc : isFinite alpha = false ∨ isFinite prev = false ∨ isFinite v = false ∨ isZero alpha = true ∨ alpha = fone) :
    ∃ p₁ p₂ p₃ p₄, out = fadd p₁ (fmul p₂ v alpha) (fsub p₃ prev (fmul p₄ prev alpha)) := by
  rwa [LowpassOut, if_pos (.inr ((lowpassCorner_iff ..).2 hc))] at h

theorem LowpassOut.corners {hw : HwParams} {alpha prev v out : F64} (h : LowpassOut hw alpha prev v out) :
    LowpassCorners alpha prev v out where
  neverInitialised ha hp hv := by
    subst ha hp
    obtain ⟨p₁, p₂, p₃, p₄, rfl⟩ := h.asWritten (.inr (.inr (.inr (.inl (by decide)))))
    exact lowpass_neverInitialised p₁ p₂ p₃ p₄ hv
  enters hv := by
    obtain ⟨p₁, p₂, p₃, p₄, rfl⟩ := h.asWritten (.inr (.inr (.inl hv)))
    exact not_isFinite_fadd p₁ (not_isFinite_fmul p₂ hv alpha) _
  entersNaN hv := by
    obtain ⟨p₁, p₂, p₃, p₄, rfl⟩ := h.asWritten (.inr (.inr (.inl (not_isFinite_of_isNaN hv))))
    exact isNaN_fadd (.inl (isNaN_fmul (.inl hv)))
  stays hp hneg := by
    obtain ⟨p₁, p₂, p₃, p₄, rfl⟩ := h.asWritten (.inr (.inl hp))
    exact isNaN_fadd (.inr (isNaN_held p₃ p₄ hp hneg))
  holds ha hp hv := by
    obtain ⟨p₁, p₂, p₃, p₄, rfl⟩ := h.asWritten (.inr (.inr (.inr (.inl ha))))
    obtain ⟨hf, hval⟩ := lowpass_holds p₁ p₂ p₃ p₄ ha hp hv
    exact (compare_of_isFinite hf hp).2.2 hval
  passes ha hp hv := by
    subst ha
    obtain ⟨p₁, p₂, p₃, p₄, rfl⟩ := h.asWritten (.inr (.inr (.inr (.inr rfl))))
    obtain ⟨hf, hval⟩ := lowpass_passes p₁ p₂ p₃ p₄ hp hv
    exact (compare_of_isFinite hf hv).2.2 hval

end Sys2Proof.Machine
end

section
/-! PROOFS. The IIR unit (41_iir.md R100 to R111): a slot and a cascade in the state, one sample, a run of samples; then
the commands: O27, O28 and O29. -/

namespace Sys2Proof.Machine

/-! ## Slots and cascades in the state -/

theorem State.setFlt_flt (s : State) (c : CtxId) (i j : SlotId) (k : Filter) :
    (s.setFlt c i k).ctx[c].flt[j] = if i = j then k else s.ctx[c].flt[j] := by
  rw [State.setFlt, State.setCtx_get, if_pos rfl]
  exact vector_get_set _ _ _ _

/-- The three slots of a cascade are different ones, whatever the first is. -/
theorem slots_ne (slot : SlotId) : slot ≠ slot + 1 ∧ slot ≠ slot + 2 ∧ slot + 1 ≠ slot + 2 := by decide +revert

theorem State.cascade_setCascade (s : State) (c : CtxId) (slot : SlotId) (k : Cascade) :
    (s.setCascade c slot k).cascade c slot = k := by
  obtain ⟨h₁, h₂, h₁₂⟩ := slots_ne slot
  simp only [State.cascade, State.setCascade, State.setFlt_flt, if_true, if_neg h₁.symm, if_neg h₂.symm,
    if_neg h₁₂.symm]

/-- Below the last two slots a cascade takes consecutive ones (R109). -/
theorem val_slot_add {slot : SlotId} (h : slot.val + 2 < 8) :
    (slot + 1).val = slot.val + 1 ∧ (slot + 2).val = slot.val + 2 := by
  rw [Fin.val_add, Fin.val_add]
  exact ⟨Nat.mod_eq_of_lt (Nat.lt_of_succ_lt h), Nat.mod_eq_of_lt h⟩

theorem State.cascade_eq (s : State) (c : CtxId) {slot : SlotId} (h : slot.val + 2 < 8) :
    s.cascade c slot = (s.ctx[c].flt[slot], s.ctx[c].flt[slot.val + 1], s.ctx[c].flt[slot.val + 2]) := by
  obtain ⟨h₁, h₂⟩ := val_slot_add h
  simp only [State.cascade, Fin.getElem_fin, h₁, h₂]

/-- Slot by slot, what a known cascade says. -/
theorem State.flt_of_cascade {t : State} {c : CtxId} {slot : SlotId} {k : Cascade} (h : slot.val + 2 < 8)
    (hk : t.cascade c slot = k) :
    t.ctx[c].flt[slot] = k.1 ∧ t.ctx[c].flt[slot.val + 1] = k.2.1 ∧ t.ctx[c].flt[slot.val + 2] = k.2.2 := by
  rw [← hk, t.cascade_eq c h]
  exact ⟨rfl, rfl, rfl⟩

theorem changesOnly_setCascade {fp : Footprint} {s : State} {c : CtxId} {slot : SlotId} (k : Cascade)
    (h : slot.val + 2 < 8) (hfp : ∀ i : SlotId, slot.val ≤ i.val → i.val ≤ slot.val + 2 → fp.flt c i) :
    ChangesOnly fp s (s.setCascade c slot k) := by
  obtain ⟨h₁, h₂⟩ := val_slot_add h
  exact ((changesOnly_setFlt k.1 (hfp slot (by omega) (by omega))).trans
    (changesOnly_setFlt k.2.1 (hfp (slot + 1) (by omega) (by omega)))).trans
    (changesOnly_setFlt k.2.2 (hfp (slot + 2) (by omega) (by omega)))

theorem State.storeLine_flt (s : State) (c : CtxId) (b : LineId) (vs : List F64) :
    (s.storeLine c b vs).ctx[c].flt = s.ctx[c].flt := by
  rw [State.storeLine, State.setLine, State.setCtx_get, if_pos rfl]

theorem State.storeLine_cascade (s : State) (c : CtxId) (b : LineId) (vs : List F64) (slot : SlotId) :
    (s.storeLine c b vs).cascade c slot = s.cascade c slot := by
  simp only [State.cascade, State.storeLine_flt]

/-! ## One sample -/

/-- A filter slot with another previous output. -/
def Filter.withPrev (k : Filter) (q : F64) : Filter := { k with prev := q }

/-- A cascade with other previous outputs. -/
def Cascade.withPrev (k : Cascade) (q : F64 × F64 × F64) : Cascade :=
  (k.1.withPrev q.1, k.2.1.withPrev q.2.1, k.2.2.withPrev q.2.2)

/-- `y` are the outputs of the three filters of `k` on the input `v` from the previous outputs `x`: each output is the
next filter's input (R103). -/
def CascadeOut (hw : HwParams) (k : Cascade) (x : F64 × F64 × F64) (v : F64) (y : F64 × F64 × F64) : Prop :=
  LowpassOut hw k.1.alpha x.1 v y.1 ∧ LowpassOut hw k.2.1.alpha x.2.1 y.1 y.2.1 ∧
    LowpassOut hw k.2.2.alpha x.2.2 y.2.1 y.2.2

theorem lowpass_withPrev (hw : HwParams) (p : Path) (k : Filter) (x v : F64) :
    ∃ y, lowpass hw.lowpassOrder p (k.withPrev x) v = (k.withPrev y, y) ∧ LowpassOut hw k.alpha x v y :=
  lowpass_out hw p (k.withPrev x) v

theorem highpass_withPrev (hw : HwParams) (p : Path) (k : Filter) (x v : F64) :
    ∃ y, highpass hw.lowpassOrder p (k.withPrev x) v = (k.withPrev y, fsub (1 :: p) v y) ∧
      LowpassOut hw k.alpha x v y := by
  obtain ⟨y, hy, hout⟩ := lowpass_withPrev hw (0 :: p) k x v
  exact ⟨y, by rw [highpass, hy], hout⟩

theorem lowpass3_withPrev (hw : HwParams) (p : Path) (k : Cascade) (x : F64 × F64 × F64) (v : F64) :
    ∃ y, lowpass3 hw.lowpassOrder p (k.withPrev x) v = (k.withPrev y, y.2.2) ∧ CascadeOut hw k x v y := by
  obtain ⟨y₀, h₀, out₀⟩ := lowpass_withPrev hw (0 :: p) k.1 x.1 v
  obtain ⟨y₁, h₁, out₁⟩ := lowpass_withPrev hw (1 :: p) k.2.1 x.2.1 y₀
  obtain ⟨y₂, h₂, out₂⟩ := lowpass_withPrev hw (2 :: p) k.2.2 x.2.2 y₁
  refine ⟨(y₀, y₁, y₂), ?_, out₀, out₁, out₂⟩
  simp only [lowpass3, Cascade.withPrev, h₀, h₁, h₂]

/-! ## A run of samples -/

/-- A run with carried state follows the filter's step from sample to sample: `known` names the state by what a sample
changes of it, and the step answers `Out` before, sample, after and output. -/
theorem runFilter_trace {σ τ : Type} {f : Path → σ → F64 → σ × F64} {known : τ → σ}
    {Out : τ → F64 → τ → F64 → Prop}
    (step : ∀ p x v, ∃ y out, f p (known x) v = (known y, out) ∧ Out x v y out)
    (p : Path) (k : Nat) (x : τ) (vs : List F64) :
    ∃ (q : Nat → τ) (outs : List F64), q 0 = x ∧
      runFilter f p k (known x) vs = (known (q vs.length), outs) ∧ outs.length = vs.length ∧
      ∀ n < vs.length, Out (q n) (vs.getD n 0) (q (n + 1)) (outs.getD n 0) := by
  induction vs generalizing k x with
  | nil => exact ⟨fun _ => x, [], rfl, rfl, rfl, fun _ h => absurd h (Nat.not_lt_zero _)⟩
  | cons v vs ih =>
    obtain ⟨y, out, hf, hout⟩ := step (k :: p) x v
    obtain ⟨q, outs, rfl, hrun, hlen, houts⟩ := ih (k + 1) y
    refine ⟨fun | 0 => x | n + 1 => q n, out :: outs, rfl, ?_, by simp [hlen], ?_⟩
    · simp only [runFilter, hf, hrun, List.length_cons]
    · rintro (_ | n) hn
      · exact hout
      · exact houts n (Nat.lt_of_succ_lt_succ hn)

/-- A filter run over the first `VL` elements of a line buffer (R107), its outputs stored in a state `u` of the same
sizes. -/
theorem State.runFilter_storeLine (s : State) {σ τ : Type} {f : Path → σ → F64 → σ × F64}
    {known : τ → σ} {Out : τ → F64 → τ → F64 → Prop}
    (step : ∀ p x v, ∃ y out, f p (known x) v = (known y, out) ∧ Out x v y out)
    (c : CtxId) (lD lS : LineId) (x : τ) :
    ∃ (q : Nat → τ) (outs : List F64), q 0 = x ∧
      runFilter f [s.tick] 0 (known x) (s.lineSlice c lS s.vlen) = (known (q s.vlen), outs) ∧
      outs.length = s.vlen ∧ ∀ u : State, u.Inv → u.vlen = s.vlen → ∀ n < s.vlen,
        Out (q n) (s.lineAt c lS n) (q (n + 1)) ((u.storeLine c lD outs).lineAt c lD n) := by
  obtain ⟨q, outs, h0, hrun, hlen, houts⟩ := runFilter_trace step [s.tick] 0 x (s.lineSlice c lS s.vlen)
  rw [State.length_lineSlice] at hrun hlen houts
  refine ⟨q, outs, h0, hrun, hlen, fun u hu hvl n hn => ?_⟩
  have hsize : outs.length ≤ u.lineSize := hlen.trans_le (hvl.ge.trans hu.vl)
  rw [State.lineAt_storeLine u c lD outs ((hu.contexts c).lines lD).1 (by omega) hsize,
    ← s.getD_lineSlice c lS hn 0]
  exact houts n hn

/-- What a slot and a line buffer hold after a run of a one-slot filter (R107, R108). -/
theorem State.Inv.runFilter_oneSlot {s : State} (h : s.Inv) {c : CtxId} {slot : SlotId}
    {f : Path → Filter → F64 → Filter × F64} {Out : F64 → F64 → F64 → F64 → Prop}
    (step : ∀ p x v, ∃ y out,
      f p (s.ctx[c].flt[slot].withPrev x) v = (s.ctx[c].flt[slot].withPrev y, out) ∧ Out x v y out)
    (lD lS : LineId) :
    let r := runFilter f [s.tick] 0 s.ctx[c].flt[slot] (s.lineSlice c lS s.vlen)
    let t := (s.setFlt c slot r.1).storeLine c lD r.2
    ∃ q : Nat → F64, q 0 = s.ctx[c].flt[slot].prev ∧
      (∀ n < s.vlen, Out (q n) (s.lineAt c lS n) (q (n + 1)) (t.lineAt c lD n)) ∧
      t.ctx[c].flt[slot] = ⟨s.ctx[c].flt[slot].alpha, q s.vlen⟩ ∧
      ChangesOnly { flt := fun d i => d = c ∧ i = slot,
                    line := fun d b n => d = c ∧ b = lD ∧ n < s.vlen } s t := by
  obtain ⟨q, outs, h0, hrun, hlen, houts⟩ := s.runFilter_storeLine step c lD lS s.ctx[c].flt[slot].prev
  have hrun' : runFilter f [s.tick] 0 s.ctx[c].flt[slot] (s.lineSlice c lS s.vlen) =
    (s.ctx[c].flt[slot].withPrev (q s.vlen), outs) := hrun
  rw [hrun']
  refine ⟨q, h0, houts _ (h.setFlt _ _ _) rfl, ?_, .trans ?_ (changesOnly_storeLine fun n hn => ?_)⟩
  · rw [State.storeLine_flt, State.setFlt_flt, if_pos rfl]; rfl
  · exact changesOnly_setFlt _ ⟨rfl, rfl⟩
  · exact ⟨rfl, rfl, hn.trans_eq hlen⟩

/-- What a cascade's slots and a line buffer hold after a run of the cascade (R111). -/
theorem State.Inv.runFilter_cascade {s : State} (h : s.Inv) {c : CtxId} {slot : SlotId} (hslot : slot.val + 2 < 8)
    {k : Cascade} (hk : s.cascade c slot = k) (lD lS : LineId) :
    let r := runFilter (lowpass3 s.hw.lowpassOrder) [s.tick] 0 (s.cascade c slot) (s.lineSlice c lS s.vlen)
    let t := (s.setCascade c slot r.1).storeLine c lD r.2
    ∃ q : Nat → F64 × F64 × F64, q 0 = (k.1.prev, k.2.1.prev, k.2.2.prev) ∧
      (∀ n < s.vlen, CascadeOut s.hw k (q n) (s.lineAt c lS n) (q (n + 1)) ∧ t.lineAt c lD n = (q (n + 1)).2.2) ∧
      t.cascade c slot = k.withPrev (q s.vlen) ∧
      ChangesOnly { flt := fun d i => d = c ∧ slot.val ≤ i.val ∧ i.val ≤ slot.val + 2,
                    line := fun d b n => d = c ∧ b = lD ∧ n < s.vlen } s t := by
  obtain ⟨q, outs, h0, hrun, hlen, houts⟩ := s.runFilter_storeLine
    (Out := fun x v y out => CascadeOut s.hw k x v y ∧ out = y.2.2)
    (fun p x v => (lowpass3_withPrev s.hw p k x v).imp fun y hy => ⟨y.2.2, hy.1, hy.2, rfl⟩)
    c lD lS (k.1.prev, k.2.1.prev, k.2.2.prev)
  have hrun' : runFilter (lowpass3 s.hw.lowpassOrder) [s.tick] 0 k (s.lineSlice c lS s.vlen) =
    (k.withPrev (q s.vlen), outs) := hrun
  rw [hk, hrun']
  refine ⟨q, h0, houts _ (h.setCascade _ _ _) rfl, ?_, .trans ?_ (changesOnly_storeLine fun n hn => ?_)⟩
  · rw [State.storeLine_cascade, State.cascade_setCascade]
  · exact changesOnly_setCascade _ hslot fun i hlo hhi => ⟨rfl, hlo, hhi⟩
  · exact ⟨rfl, rfl, hn.trans_eq hlen⟩

/-! ## The commands -/

/-- Settles O27: the coefficient's operations are R100's, and each slot is set to the same filter. -/
theorem filterInit : Obligations.FilterInit := by
  intro c slot fRate fCut fVal s
  have hcoeff : CoeffOut s.f[fRate] s.f[fCut] (coeff [s.tick] s.f[fRate] s.f[fCut]) :=
    ⟨_, _, _, _, _, _, _, _, rfl, rfl, rfl⟩
  refine ⟨⟨_, _, rfl, hcoeff, ?_, changesOnly_setFlt _ ⟨rfl, rfl⟩⟩, fun hs => ?_⟩
  · rw [State.setFlt_flt, if_pos rfl]
  · have hslot : slot.val + 2 < 8 := by omega
    refine ⟨_, _, if_pos hs, hcoeff, fun i hlo hhi => ?_, ?_⟩
    · obtain ⟨h₀, h₁, h₂⟩ := State.flt_of_cascade hslot (s.cascade_setCascade c slot _)
      obtain hi | hi | hi : i.val = slot.val ∨ i.val = slot.val + 1 ∨ i.val = slot.val + 2 := by omega
      · simpa only [Fin.getElem_fin, hi] using h₀
      · simpa only [Fin.getElem_fin, hi] using h₁
      · simpa only [Fin.getElem_fin, hi] using h₂
    · exact changesOnly_setCascade _ hslot fun i hlo hhi => ⟨rfl, hlo, hhi⟩

/-- What the slot and the register hold after one sample, answered by `r` (R105, R106). -/
theorem State.oneSample_stored (s : State) (c : CtxId) (slot : SlotId) (fD : RegId) {r : Filter × F64} {k : Filter}
    {out : F64} (hr : r = (k, out)) :
    let t := (s.setFlt c slot r.1).setF fD r.2
    t.f[fD] = out ∧ t.ctx[c].flt[slot] = k ∧
      ChangesOnly { f := (· = fD), flt := fun d i => d = c ∧ i = slot } s t := by
  subst hr
  refine ⟨by rw [State.setF_get, if_pos rfl], ?_, .trans ?_ (changesOnly_setF _ rfl)⟩
  · rw [State.setF_ctx, State.setFlt_flt, if_pos rfl]
  · exact changesOnly_setFlt _ ⟨rfl, rfl⟩

/-- What the slots and the register hold after one sample through a cascade, answered by `r` (R110). -/
theorem State.oneSample3_stored (s : State) (c : CtxId) {slot : SlotId} (h : slot.val + 2 < 8) (fD : RegId)
    {r : Cascade × F64} {k : Cascade} {out : F64} (hr : r = (k, out)) :
    let t := (s.setCascade c slot r.1).setF fD r.2
    t.f[fD] = out ∧ t.cascade c slot = k ∧
      ChangesOnly { f := (· = fD), flt := fun d i => d = c ∧ slot.val ≤ i.val ∧ i.val ≤ slot.val + 2 } s t := by
  subst hr
  refine ⟨by rw [State.setF_get, if_pos rfl], s.cascade_setCascade c slot k, .trans ?_ (changesOnly_setF _ rfl)⟩
  exact changesOnly_setCascade _ h fun i hlo hhi => ⟨rfl, hlo, hhi⟩

/-- Settles O28: each command is one step of its filter; the exact order and the corner cases are those of one update. -/
theorem filterOneSample : Obligations.FilterOneSample := by
  intro c slot fD fS s filter
  refine ⟨fun hlegal _ _ _ => ?_, fun _ _ _ _ h => h.corners, ?_, ?_, fun hslot => ?_⟩
  · simp only [HwParams.legal, Bool.and_eq_true] at hlegal
    exact LowpassExpr.exact_of_isLowpass hlegal.2
  · obtain ⟨y, hy, hout⟩ := lowpass_withPrev s.hw [s.tick] filter filter.prev s.f[fS]
    obtain ⟨hf, hflt, hframe⟩ := s.oneSample_stored c slot fD hy
    exact ⟨_, y, rfl, hout, hf, hflt, hframe⟩
  · obtain ⟨y, hy, hout⟩ := highpass_withPrev s.hw [s.tick] filter filter.prev s.f[fS]
    obtain ⟨hf, hflt, hframe⟩ := s.oneSample_stored c slot fD hy
    exact ⟨_, y, _, rfl, hout, hf, hflt, hframe⟩
  · obtain ⟨y, hy, out₀, out₁, out₂⟩ := lowpass3_withPrev s.hw [s.tick]
      (s.ctx[c].flt[slot], s.ctx[c].flt[slot.val + 1], s.ctx[c].flt[slot.val + 2])
      (filter.prev, s.ctx[c].flt[slot.val + 1].prev, s.ctx[c].flt[slot.val + 2].prev) s.f[fS]
    have hr := (congrArg (lowpass3 s.hw.lowpassOrder [s.tick] · s.f[fS]) (s.cascade_eq c hslot)).trans hy
    obtain ⟨hf, hcascade, hframe⟩ := s.oneSample3_stored c hslot fD hr
    obtain ⟨h₀, h₁, h₂⟩ := State.flt_of_cascade hslot hcascade
    exact ⟨_, ![y.1, y.2.1, y.2.2], if_pos (show slot.val ≤ 5 by omega), out₀, out₁, out₂, hf, h₀, h₁, h₂, hframe⟩

/-- Settles O29: each array variant is a run of its filter over the source, and each step of the run is one update. -/
theorem filterArrays : Obligations.FilterArrays := by
  intro c slot lD lS s h filter
  refine ⟨?_, ?_, fun hslot => ?_⟩
  · obtain ⟨q, h0, hq, hflt, hframe⟩ := h.runFilter_oneSlot (slot := slot)
      (Out := fun x v y out => LowpassOut s.hw filter.alpha x v y ∧ out = y)
      (fun p x v => (lowpass_withPrev s.hw p filter x v).imp fun y hy => ⟨y, hy.1, hy.2, rfl⟩) lD lS
    exact ⟨_, q, rfl, h0, hq, hflt, hframe⟩
  · obtain ⟨q, h0, hq, hflt, hframe⟩ := h.runFilter_oneSlot (slot := slot)
      (Out := fun x v y out => LowpassOut s.hw filter.alpha x v y ∧ ∃ p, out = fsub p v y)
      (fun p x v => (highpass_withPrev s.hw p filter x v).imp fun y hy => ⟨_, hy.1, hy.2, _, rfl⟩) lD lS
    exact ⟨_, q, rfl, h0, hq, hflt, hframe⟩
  · obtain ⟨q, h0, hq, hcascade, hframe⟩ := h.runFilter_cascade hslot (s.cascade_eq c hslot) lD lS
    obtain ⟨h₀, h₁, h₂⟩ := State.flt_of_cascade hslot hcascade
    refine ⟨_, fun n => (q n).1, fun n => (q n).2.1, fun n => (q n).2.2, if_pos (show slot.val ≤ 5 by omega),
      congrArg Prod.fst h0, congrArg (·.2.1) h0, congrArg (·.2.2) h0, fun n hn => ?_, h₀, h₁, h₂, hframe⟩
    obtain ⟨⟨out₀, out₁, out₂⟩, hline⟩ := hq n hn
    exact ⟨out₀, out₁, out₂, hline⟩

end Sys2Proof.Machine
end

section
/-! PROOFS. The FFT unit and the complex buffer (42_fft.md R115 to R124): the transform on lists satisfies the recursion
on functions of the index; what a store of `VL` elements leaves; then the commands: O30 to O33. -/

namespace Sys2Proof.Machine

/-! ## Sequences read by their index -/

/-- No bound on `n`: an index beyond one sequence is beyond the other. -/
theorem getD_evens {α : Type} (a : List α) (n : Nat) (d : α) : (evens a).getD n d = a.getD (2 * n) d := by
  induction a using evens.induct generalizing n with
  | case1 => rfl
  | case2 a => cases n <;> rfl
  | case3 a b rest ih =>
    cases n with
    | zero => rfl
    | succ n => exact ih n

theorem getD_odds {α : Type} (a : List α) (n : Nat) (d : α) : (odds a).getD n d = a.getD (2 * n + 1) d := by
  induction a using odds.induct generalizing n with
  | case1 => rfl
  | case2 a => rfl
  | case3 a b rest ih =>
    cases n with
    | zero => rfl
    | succ n => exact ih n

theorem getD_map_range {α : Type} (f : Nat → α) {n k : Nat} (h : k < n) (d : α) :
    ((List.range n).map f).getD k d = f k := by
  simp [h]

theorem getD_mapIdx {α β : Type} (f : Nat → α → β) {a : List α} {n : Nat} (h : n < a.length) (d : α) (d' : β) :
    (a.mapIdx f).getD n d' = f n (a.getD n d) := by
  simp [h]

/-- Two sequences of `n` elements, one after the other, read at the same place in each. -/
theorem getD_halves {α : Type} (f g : Nat → α) {n k : Nat} (h : k < n) (d : α) :
    ((List.range n).map f ++ (List.range n).map g).getD k d = f k ∧
    ((List.range n).map f ++ (List.range n).map g).getD (k + n) d = g k := by
  have hlen : ((List.range n).map f).length = n := by simp
  constructor
  · rw [List.getD_append _ _ _ _ (by omega), getD_map_range f h]
  · rw [List.getD_append_right _ _ _ _ (by omega), hlen, Nat.add_sub_cancel, getD_map_range g h]

/-! ## The transforms -/

/-- Both halves of the transform are butterflies of the transforms of the even and the odd elements (R116). -/
theorem fft_butterfly (p : Path) (inverse : Bool) (levels : Nat) (l : List C64) {k : Nat} (hk : k < 2 ^ levels) :
    ButterflyOut (if inverse then fone else fneg fone) (2 ^ (levels + 1)) k
      ((fft (0 :: p) inverse levels (evens l)).getD k (0, 0)) ((fft (1 :: p) inverse levels (odds l)).getD k (0, 0))
      ((fft p inverse (levels + 1) l).getD k (0, 0))
      ((fft p inverse (levels + 1) l).getD (k + 2 ^ levels) (0, 0)) := by
  have hhalf : 2 ^ (levels + 1) / 2 = 2 ^ levels := by omega
  simp only [fft, hhalf]
  exact ⟨fun i => i :: k :: 2 :: p, _, _, _, rfl, rfl, rfl, (getD_halves _ _ hk _).1, (getD_halves _ _ hk _).2⟩

/-- The transform of a list is R116's recursion on the function `a` of the index that the list holds. -/
theorem fftOut_fft (p : Path) (inverse : Bool) {levels : Nat} {l : List C64} {a : Nat → C64}
    (h : ∀ n < 2 ^ levels, l.getD n (0, 0) = a n) :
    FftOut (if inverse then fone else fneg fone) levels a (fun n => (fft p inverse levels l).getD n (0, 0)) := by
  induction levels generalizing p l a with
  | zero => exact h 0 Nat.one_pos
  | succ levels ih =>
    refine ⟨_, _, ih (0 :: p) (l := evens l) fun n hn => ?_, ih (1 :: p) (l := odds l) fun n hn => ?_,
      fun k hk => fft_butterfly p inverse levels l hk⟩
    · rw [getD_evens]; exact h _ (by omega)
    · rw [getD_odds]; exact h _ (by omega)

theorem inverseTransform_getD (p : Path) {levels n : Nat} {a : List C64} (h : a.length = 2 ^ levels)
    (hn : n < a.length) : ∃ p₁ p₂, (inverseTransform p a).getD n (0, 0) =
      (fdiv p₁ ((fft (0 :: p) true levels a).getD n (0, 0)).1 (fofInt a.length),
       fdiv p₂ ((fft (0 :: p) true levels a).getD n (0, 0)).2 (fofInt a.length)) := by
  have hlen : n < (fft (0 :: p) true levels a).length := by rwa [length_fft _ true h, ← h]
  rw [inverseTransform, h, Nat.log2_two_pow, getD_mapIdx _ hlen (0, 0), ← h]
  exact ⟨_, _, rfl⟩

/-! ## Stores of `VL` elements -/

/-- A sequence of `VL` complex values stored into `Z` is there, and nothing else changes. -/
theorem State.Inv.storeZ_stored {s : State} (h : s.Inv) (c : CtxId) {vs : List C64} (hlen : vs.length = s.vlen) :
    (∀ n < s.vlen, (s.storeZ c vs).zAt c n = vs.getD n (0, 0)) ∧
      ChangesOnly { z := fun d n => d = c ∧ n < 2 * s.vlen } s (s.storeZ c vs) := by
  have hsize : vs.length ≤ s.lineSize := hlen.trans_le h.vl
  exact ⟨fun n hn => s.zAt_storeZ c vs (h.contexts c).complex.1 (by omega) hsize,
    changesOnly_storeZ fun n hn => ⟨rfl, by omega⟩⟩

/-- A sequence of `VL` values stored into a line buffer is there, and nothing else changes. -/
theorem State.Inv.storeLine_stored {s : State} (h : s.Inv) (c : CtxId) (b : LineId) {vs : List F64}
    (hlen : vs.length = s.vlen) :
    (∀ n < s.vlen, (s.storeLine c b vs).lineAt c b n = vs.getD n 0) ∧
      ChangesOnly { line := fun d b' n => d = c ∧ b' = b ∧ n < s.vlen } s (s.storeLine c b vs) := by
  have hsize : vs.length ≤ s.lineSize := hlen.trans_le h.vl
  exact ⟨fun n hn => s.lineAt_storeLine c b vs ((h.contexts c).lines b).1 (by omega) hsize,
    changesOnly_storeLine fun n hn => ⟨rfl, rfl, by omega⟩⟩

/-! ## The commands -/

/-- Settles O30: the check is `isPow2_iff`, and a length without a power of two is the transforms' cause of an error. -/
theorem fftLengthCheck : Obligations.FftLengthCheck :=
  ⟨isPow2_iff, fun _ _ he hlen => ⟨exec_of_cause he ⟨rfl, hlen⟩, exec_of_cause he ⟨rfl, hlen⟩⟩⟩

/-- Settles O31: the stored list is the transform of the slice, and `fftOut_fft` reads it by its index. -/
theorem fftTransforms : Obligations.FftTransforms := by
  intro c levels s h hvl
  have hpow : isPow2 s.vlen = true := (isPow2_iff _).2 ⟨levels, hvl⟩
  have hlen : (s.zSlice c s.vlen).length = 2 ^ levels := (s.length_zSlice c _).trans hvl
  have hread : ∀ n < 2 ^ levels, (s.zSlice c s.vlen).getD n (0, 0) = s.zAt c n :=
    fun n hn => s.getD_zSlice c (hn.trans_eq hvl.symm) _
  constructor
  · obtain ⟨hz, hframe⟩ := h.storeZ_stored c
      ((length_forwardTransform [s.tick] hlen).trans (s.length_zSlice c _))
    refine ⟨_, _, if_pos hpow, fftOut_fft [s.tick] false hread, fun n hn => ?_, hframe⟩
    rw [hz n hn, forwardTransform, hlen, Nat.log2_two_pow]
  · obtain ⟨hz, hframe⟩ := h.storeZ_stored c
      ((length_inverseTransform [s.tick] hlen).trans (s.length_zSlice c _))
    refine ⟨_, _, if_pos hpow, fftOut_fft [0, s.tick] true hread, fun n hn => ?_, hframe⟩
    obtain ⟨p₁, p₂, hdiv⟩ := inverseTransform_getD [s.tick] hlen (n := n) (by rwa [s.length_zSlice])
    rw [s.length_zSlice] at hdiv
    exact ⟨p₁, p₂, (hz n hn).trans hdiv⟩

/-- One shift: element `i` becomes the one half the length further (R121). -/
theorem exec_fftShift {s : State} (h : s.Inv) (c : CtxId) :
    ∃ t, exec (.fftShift c) s = .next t ∧ t.Inv ∧
      (∀ i < s.vlen, t.zAt c i = s.zAt c ((i + s.vlen / 2) % s.vlen)) ∧
      ChangesOnly { z := fun d n => d = c ∧ n < 2 * s.vlen } s t := by
  obtain ⟨hz, hframe⟩ := h.storeZ_stored c (vs := spectrumShift (s.zSlice c s.vlen)) (by simp [spectrumShift])
  refine ⟨_, rfl, h.storeZ c _, fun i hi => ?_, hframe⟩
  rw [hz i hi, spectrumShift, s.length_zSlice, getD_map_range _ hi,
    s.getD_zSlice c (Nat.mod_lt _ (Nat.zero_lt_of_lt hi))]

/-- Settles O32: two shifts rotate by twice the half, which is the length if it is even and one less if it is odd. (The
name `spectrumShift` is the model's function.) -/
theorem spectrumShift_holds : Obligations.SpectrumShift := by
  intro c s h
  obtain ⟨t, ht, htInv, hst, hframe⟩ := exec_fftShift h c
  obtain ⟨u, hu, -, htu, -⟩ := exec_fftShift htInv c
  have hvl : t.vlen = s.vlen := congrArg BitVec.toNat hframe.vl
  rw [hvl] at htu
  have htwice : ∀ i < s.vlen, u.zAt c i = s.zAt c ((i + (s.vlen / 2 + s.vlen / 2)) % s.vlen) := fun i hi => by
    rw [htu i hi, hst _ (Nat.mod_lt _ (Nat.zero_lt_of_lt hi)), Nat.mod_add_mod, Nat.add_assoc]
  refine ⟨t, u, ht, hu, hst, hframe, fun heven i hi => ?_, fun hodd i hi => ?_⟩
  · obtain heven | hone := heven
    · rw [htwice i hi, show s.vlen / 2 + s.vlen / 2 = s.vlen by omega, Nat.add_mod_right, Nat.mod_eq_of_lt hi]
    · rw [htwice i hi, show s.vlen / 2 + s.vlen / 2 = 0 by omega, Nat.add_zero, Nat.mod_eq_of_lt hi]
  · rw [htwice i hi, show s.vlen / 2 + s.vlen / 2 = s.vlen - 1 by omega]

/-- Settles O33: each command stores an elementwise image of the slices it reads. -/
theorem complexBufferTransfers : Obligations.ComplexBufferTransfers := by
  intro c l s h
  refine ⟨?_, ?_, ?_⟩
  · obtain ⟨hz, hframe⟩ := h.storeZ_stored c (vs := (s.lineSlice c l s.vlen).map fun v => (v, 0)) (by simp)
    refine ⟨_, rfl, fun n hn => (hz n hn).trans ?_, hframe⟩
    exact (List.getD_map (d := 0) _ fun v => (v, 0)).trans (congrArg (·, 0) (s.getD_lineSlice c l hn 0))
  · obtain ⟨hl, hframe⟩ := h.storeLine_stored c l (vs := (s.zSlice c s.vlen).map fun v => v.1) (by simp)
    refine ⟨_, rfl, fun n hn => (hl n hn).trans ?_, hframe⟩
    exact (List.getD_map (d := (0, 0)) _ fun v => v.1).trans (congrArg Prod.fst (s.getD_zSlice c hn (0, 0)))
  · obtain ⟨hz, hframe⟩ := h.storeZ_stored c
      (vs := maskSpectrum [s.tick] (s.zSlice c s.vlen) (s.lineSlice c l s.vlen)) (by simp [maskSpectrum])
    refine ⟨_, rfl, fun n hn => ?_, hframe⟩
    rw [hz n hn, maskSpectrum, getD_mapIdx _ (by rwa [s.length_zSlice]) (0, 0), s.getD_zSlice c hn,
      s.getD_lineSlice c l hn]
    exact ⟨_, _, rfl⟩

end Sys2Proof.Machine
end

section
/-! PROOFS. The colour-space transcoder (43_csc.md R130 to R136): its formulas on the integers that the words stand for,
the bounds of R131 and R136 on those integers, then the commands: O34 to O36. -/

namespace Sys2Proof.Machine

/-! ## The integer laws (00_scope.md R11 to R14) -/

/-- A shift right by 8 divides by 256 and rounds down (R12). -/
theorem toInt_asr_eight (a : I32) : (asr a 8).toInt = a.toInt / 256 := by
  rw [asr, BitVec.toInt_sshiftRight]
  exact Int.shiftRight_eq_div_pow _ _

theorem toInt_byteI32 (b : U8) : (byteI32 b).toInt = b.toNat := by
  have hb := b.isLt
  rw [byteI32, BitVec.toInt_eq_toNat_of_lt] <;> rw [BitVec.toNat_setWidth] <;> omega

theorem toNat_clamp255 (v : I32) : ((clamp255 v).toNat : Int) = max 0 (min 255 v.toInt) := by
  unfold clamp255
  split_ifs with hneg hbig
  · rw [min_eq_right (by omega), max_eq_left (by omega)]; rfl
  · rw [min_eq_left (by omega)]; rfl
  · rw [min_eq_right (by omega), max_eq_right (by omega), BitVec.toNat_setWidth]
    have hv := BitVec.toInt_eq_toNat_cond v
    split_ifs at hv <;> omega

theorem clamp255_byteI32 (b : U8) : clamp255 (byteI32 b) = b := by
  have hb := b.isLt
  have hclamp := toNat_clamp255 (byteI32 b)
  rw [toInt_byteI32] at hclamp
  exact BitVec.eq_of_toNat_eq (by omega)

theorem toInt_mul_add_mul (a x b y : I32) :
    (a * x + b * y).toInt = (a.toInt * x.toInt + b.toInt * y.toInt).bmod (2 ^ 32) := by
  rw [BitVec.toInt_add, BitVec.toInt_mul, BitVec.toInt_mul, Int.bmod_add_bmod, Int.add_bmod_bmod]

/-- A value in the range of an `i32` does not wrap (R11). -/
theorem bmod_eq_self {n : Int} (hmin : -2 ^ 31 ≤ n) (hmax : n < 2 ^ 31) : n.bmod (2 ^ 32) = n :=
  Int.bmod_eq_of_le (by omega) (by omega)

/-- Clamping to a range takes a value no farther from a point of the range. -/
theorem natAbs_clamp_sub_le {n c : Int} (hc : 0 ≤ c ∧ c ≤ 255) :
    (max 0 (min 255 n) - c).natAbs ≤ (n - c).natAbs := by omega

/-! ## `YiqToRgb` by channel (R132) -/

theorem toNat_yiqToRgb_red (y i q : I32) : ((yiqToRgb y i q).1.toNat : Int) =
    max 0 (min 255 ((y.toInt + (245 * i.toInt + 159 * q.toInt).bmod (2 ^ 32) / 256).bmod (2 ^ 32))) := by
  rw [yiqToRgb, toNat_clamp255, BitVec.toInt_add, toInt_asr_eight, toInt_mul_add_mul]; rfl

theorem toNat_yiqToRgb_green (y i q : I32) : ((yiqToRgb y i q).2.1.toNat : Int) =
    max 0 (min 255 ((y.toInt - (70 * i.toInt + 166 * q.toInt).bmod (2 ^ 32) / 256).bmod (2 ^ 32))) := by
  rw [yiqToRgb, toNat_clamp255, BitVec.toInt_sub, toInt_asr_eight, toInt_mul_add_mul]; rfl

theorem toNat_yiqToRgb_blue (y i q : I32) : ((yiqToRgb y i q).2.2.toNat : Int) =
    max 0 (min 255 ((y.toInt + (-283 * i.toInt + 436 * q.toInt).bmod (2 ^ 32) / 256).bmod (2 ^ 32))) := by
  rw [yiqToRgb, toNat_clamp255, BitVec.toInt_add, toInt_asr_eight, toInt_mul_add_mul]; rfl

/-- A sample without chroma gives a grey pixel. -/
theorem yiqToRgb_zero_chroma (y : I32) : yiqToRgb y 0 0 = (clamp255 y, clamp255 y, clamp255 y) := by
  have hzero : asr 0 8 = 0 := rfl
  simp only [yiqToRgb, mul_zero, add_zero, sub_zero, hzero]

/-! ## The samples of a pixel (R131) -/

/-- The integers `y`, `i`, `q` are the samples of the pixel `r`, `g`, `b` by the formulas of R131. -/
structure IsYiq (r g b y i q : Int) : Prop where
  red : 0 ≤ r ∧ r ≤ 255
  green : 0 ≤ g ∧ g ≤ 255
  blue : 0 ≤ b ∧ b ≤ 255
  luma : y = (77 * r + 151 * g + 28 * b) / 256
  inPhase : i = (189 * (r - y) - 69 * (b - y)) / 256
  quadrature : q = (123 * (r - y) + 105 * (b - y)) / 256

theorem toInt_luma (r g b : U8) :
    (rgbToYiq r g b).1.toInt = (77 * r.toNat + 151 * g.toNat + 28 * b.toNat) / 256 := by
  have hr := r.isLt
  have hg := g.isLt
  have hb := b.isLt
  rw [rgbToYiq, toInt_asr_eight, BitVec.toInt_add, toInt_mul_add_mul, BitVec.toInt_mul, Int.bmod_add_bmod,
    Int.add_bmod_bmod, toInt_byteI32, toInt_byteI32, toInt_byteI32]
  exact congrArg (· / 256)
    (bmod_eq_self (n := 77 * r.toNat + 151 * g.toNat + 28 * b.toNat) (by omega) (by omega))

section
variable {y : I32} (hy : 0 ≤ y.toInt ∧ y.toInt ≤ 255)
include hy

theorem toInt_byteI32_sub (c : U8) : (byteI32 c - y).toInt = c.toNat - y.toInt := by
  have hc := c.isLt
  rw [BitVec.toInt_sub, toInt_byteI32]
  exact bmod_eq_self (by omega) (by omega)

theorem toInt_inPhase (r b : U8) : (asr (189 * (byteI32 r - y) - 69 * (byteI32 b - y)) 8).toInt =
    (189 * (r.toNat - y.toInt) - 69 * (b.toNat - y.toInt)) / 256 := by
  have hr := r.isLt
  have hb := b.isLt
  rw [toInt_asr_eight, BitVec.toInt_sub, BitVec.toInt_mul, BitVec.toInt_mul, Int.bmod_sub_bmod, Int.sub_bmod_bmod,
    toInt_byteI32_sub hy, toInt_byteI32_sub hy]
  exact congrArg (· / 256)
    (bmod_eq_self (n := 189 * (r.toNat - y.toInt) - 69 * (b.toNat - y.toInt)) (by omega) (by omega))

theorem toInt_quadrature (r b : U8) : (asr (123 * (byteI32 r - y) + 105 * (byteI32 b - y)) 8).toInt =
    (123 * (r.toNat - y.toInt) + 105 * (b.toNat - y.toInt)) / 256 := by
  have hr := r.isLt
  have hb := b.isLt
  rw [toInt_asr_eight, toInt_mul_add_mul, toInt_byteI32_sub hy, toInt_byteI32_sub hy]
  exact congrArg (· / 256)
    (bmod_eq_self (n := 123 * (r.toNat - y.toInt) + 105 * (b.toNat - y.toInt)) (by omega) (by omega))

end

/-- No sum or product of `RgbToYiq` wraps. -/
theorem isYiq_rgbToYiq (r g b : U8) : IsYiq r.toNat g.toNat b.toNat (rgbToYiq r g b).1.toInt
    (rgbToYiq r g b).2.1.toInt (rgbToYiq r g b).2.2.toInt := by
  have hr := r.isLt
  have hg := g.isLt
  have hb := b.isLt
  have hluma := toInt_luma r g b
  have hrange : 0 ≤ (rgbToYiq r g b).1.toInt ∧ (rgbToYiq r g b).1.toInt ≤ 255 := by omega
  exact ⟨by omega, by omega, by omega, hluma, toInt_inPhase hrange r b, toInt_quadrature hrange r b⟩

namespace IsYiq
variable {r g b y i q : Int}

/-! ## The range of the samples (R131) -/

theorem luma_range (h : IsYiq r g b y i q) : 0 ≤ y ∧ y ≤ 255 := by
  obtain ⟨hr, hg, hb, hy, -, -⟩ := h
  omega

/-- The luma counts towards `i` with the weight -120, and its own weights of red, green and blue bound it. -/
theorem inPhase_range (h : IsYiq r g b y i q) : -153 ≤ i ∧ i ≤ 152 := by
  obtain ⟨hr, hg, hb, hy, hi, -⟩ := h
  omega

theorem quadrature_range (h : IsYiq r g b y i q) : -134 ≤ q ∧ q ≤ 134 := by
  obtain ⟨hr, hg, hb, hy, -, hq⟩ := h
  omega

/-! ## Back to the pixel (R136). The products of the coefficients of R131 and R132 nearly cancel; the rest of each
channel's difference is what the four divisions cut off. -/

theorem red_back (h : IsYiq r g b y i q) :
    ((y + (245 * i + 159 * q).bmod (2 ^ 32) / 256).bmod (2 ^ 32) - r).natAbs ≤ 3 := by
  have hyr := h.luma_range
  have hir := h.inPhase_range
  have hqr := h.quadrature_range
  rw [bmod_eq_self (n := 245 * i + 159 * q) (by omega) (by omega), bmod_eq_self (by omega) (by omega)]
  obtain ⟨hr, hg, hb, hy, hi, hq⟩ := h
  omega

theorem green_back (h : IsYiq r g b y i q) :
    ((y - (70 * i + 166 * q).bmod (2 ^ 32) / 256).bmod (2 ^ 32) - g).natAbs ≤ 3 := by
  have hyr := h.luma_range
  have hir := h.inPhase_range
  have hqr := h.quadrature_range
  rw [bmod_eq_self (n := 70 * i + 166 * q) (by omega) (by omega), bmod_eq_self (by omega) (by omega)]
  obtain ⟨hr, hg, hb, hy, hi, hq⟩ := h
  omega

theorem blue_back (h : IsYiq r g b y i q) :
    ((y + (-283 * i + 436 * q).bmod (2 ^ 32) / 256).bmod (2 ^ 32) - b).natAbs ≤ 3 := by
  have hyr := h.luma_range
  have hir := h.inPhase_range
  have hqr := h.quadrature_range
  rw [bmod_eq_self (n := -283 * i + 436 * q) (by omega) (by omega), bmod_eq_self (by omega) (by omega)]
  obtain ⟨hr, hg, hb, hy, hi, hq⟩ := h
  omega

/-- The luma's weights sum to 256, so a grey pixel is its own luma and has no chroma. -/
theorem of_grey (h : IsYiq r r r y i q) : y = r ∧ i = 0 ∧ q = 0 := by
  obtain ⟨-, -, -, hy, hi, hq⟩ := h
  have hluma : y = r := by omega
  exact ⟨hluma, by omega, by omega⟩

end IsYiq

theorem rgbToYiq_grey (c : U8) : rgbToYiq c c c = (byteI32 c, 0, 0) := by
  obtain ⟨hy, hi, hq⟩ := (isYiq_rgbToYiq c c c).of_grey
  exact Prod.ext (BitVec.eq_of_toInt_eq (hy.trans (toInt_byteI32 c).symm))
    (Prod.ext (BitVec.eq_of_toInt_eq hi) (BitVec.eq_of_toInt_eq hq))

/-! ## The buffers after a conversion -/

theorem State.Inv.yiqAt_rgb2yiq {s : State} (h : s.Inv) {p y x : Nat} (hp : p < 3) (hy : y < s.frameH)
    (hx : x < s.frameW) : s.rgb2yiq.yiqAt p y x =
      yiqComponent (rgbToYiq (s.rgbinAt y x 0) (s.rgbinAt y x 1) (s.rgbinAt y x 2)) p := by
  obtain ⟨m, e, hconv⟩ := s.rgb2yiq_eq h.frame_le h.yiq.wf
  rw [e]
  exact (Memory.readIn_of_lt m (Nat.lt_of_lt_of_le (plane_row_bound hp hy hx) h.frame_le)).trans
    (hconv.sample p hp y hy x hx)

theorem State.Inv.changesOnly_rgb2yiq {s : State} (h : s.Inv) :
    ChangesOnly { yiq := (· < 3 * s.frameW * s.frameH) } s s.rgb2yiq := by
  obtain ⟨m, e, hconv⟩ := s.rgb2yiq_eq h.frame_le h.yiq.wf
  rw [e]
  exact changesOnly_setYiq fun n hn => hconv.outside n (Nat.le_of_not_lt hn)

theorem State.Inv.rgboutAt_yiq2rgb {s : State} (h : s.Inv) (t : Fin 2) {y x ch : Nat} (hy : y < s.frameH)
    (ht : y % 2 = t) (hx : x < s.frameW) (hch : ch < 3) : (s.yiq2rgb t).rgboutAt y x ch =
      rgbComponent (yiqToRgb (s.yiqAt 0 y x) (s.yiqAt 1 y x) (s.yiqAt 2 y x)) ch := by
  obtain ⟨m, e, hconv⟩ := s.yiq2rgb_eq t t.isLt h.frame_le h.rgbout.wf
  rw [e]
  exact (Memory.readIn_of_lt m (h.pixelIndex_lt hy hx hch)).trans (hconv.byte y hy ht x hx ch hch)

theorem State.Inv.changesOnly_yiq2rgb {s : State} (h : s.Inv) (t : Fin 2) :
    ChangesOnly { rgbout := s.ownByte t } s (s.yiq2rgb t) := by
  obtain ⟨m, e, hconv⟩ := s.yiq2rgb_eq t t.isLt h.frame_le h.rgbout.wf
  rw [e]
  exact changesOnly_setRgbout hconv.outside

/-! ## The commands -/

/-- Settles O34: each sample of the frame is the converted pixel's, and no step of the conversion wraps. -/
theorem rgbToYiqFrame : Obligations.RgbToYiqFrame := by
  intro s h
  refine ⟨_, rfl, fun y hy x hx => ?_, h.changesOnly_rgb2yiq⟩
  have hpix := isYiq_rgbToYiq (s.rgbinAt y x 0) (s.rgbinAt y x 1) (s.rgbinAt y x 2)
  intro r g b luma
  have hluma : _ = luma := hpix.luma
  rw [h.yiqAt_rgb2yiq (by decide) hy hx, h.yiqAt_rgb2yiq (by decide) hy hx, h.yiqAt_rgb2yiq (by decide) hy hx,
    ← hluma]
  obtain ⟨hy₀, hy₁⟩ := hpix.luma_range
  obtain ⟨hi₀, hi₁⟩ := hpix.inPhase_range
  obtain ⟨hq₀, hq₁⟩ := hpix.quadrature_range
  exact ⟨rfl, hy₀, hy₁, hpix.inPhase, hi₀, hi₁, hpix.quadrature, hq₀, hq₁⟩

/-- Settles O35: before the clamp each channel is within 3 of the pixel's (R136), and the clamp takes it no farther. -/
theorem transcoderRoundTrip : Obligations.TranscoderRoundTrip := by
  intro r g b
  have hpix := isYiq_rgbToYiq r g b
  refine ⟨?_, ?_, ?_, ?_⟩
  · rw [toNat_yiqToRgb_red]
    exact (natAbs_clamp_sub_le hpix.red).trans hpix.red_back
  · rw [toNat_yiqToRgb_green]
    exact (natAbs_clamp_sub_le hpix.green).trans hpix.green_back
  · rw [toNat_yiqToRgb_blue]
    exact (natAbs_clamp_sub_le hpix.blue).trans hpix.blue_back
  · rintro rfl rfl
    rw [rgbToYiq_grey, yiqToRgb_zero_chroma, clamp255_byteI32]

/-- Settles O36: each byte of the field's rows is the converted sample's channel. -/
theorem yiqToRgbField : Obligations.YiqToRgbField := by
  intro fld s h
  refine ⟨_, rfl, fun y hy hfld x hx => ?_, h.changesOnly_yiq2rgb fld⟩
  rw [h.rgboutAt_yiq2rgb fld hy hfld hx (by decide), h.rgboutAt_yiq2rgb fld hy hfld hx (by decide),
    h.rgboutAt_yiq2rgb fld hy hfld hx (by decide)]
  exact ⟨toNat_yiqToRgb_red .., toNat_yiqToRgb_green .., toNat_yiqToRgb_blue ..⟩

end Sys2Proof.Machine
end

section
/-! PROOFS. The composite multiplex (44_mux.md R140 to R145): the phase index, what the encode and the decode leave in a
sample, and the decode of an encoded constant row: O37 to O40. -/

namespace Sys2Proof.Machine

/-! ## Integer laws (00_scope.md R11 to R13) -/

theorem tdiv_eq_ofInt (a b : I32) : tdiv a b = BitVec.ofInt 32 (a.toInt.tdiv b.toInt) := by
  refine BitVec.eq_of_toInt_eq ?_
  rw [tdiv, BitVec.toInt_sdiv, BitVec.toInt_ofInt]

/-- A product that does not wrap is divided exactly by its factor. -/
theorem tdiv_mul_self {a b : I32} (hb : b.toInt ≠ 0) (h : (a.toInt * b.toInt).natAbs < 2 ^ 31) :
    tdiv (a * b) b = a := by
  rw [tdiv_eq_ofInt, BitVec.toInt_mul, bmod_eq_self (by omega) (by omega), Int.mul_tdiv_cancel _ hb,
    BitVec.ofInt_toInt]

theorem toInt_asr_one (a : I32) : (asr a 1).toInt = a.toInt / 2 := by
  rw [asr, BitVec.toInt_sshiftRight]
  exact Int.shiftRight_eq_div_pow _ _

/-- A sum of two equal values that does not wrap is halved exactly. -/
theorem asr_add_self {a : I32} (h : a.toInt.natAbs < 2 ^ 30) : asr (a + a) 1 = a := by
  refine BitVec.eq_of_toInt_eq ?_
  rw [toInt_asr_one, BitVec.toInt_add, bmod_eq_self (by omega) (by omega)]
  omega

/-- `a & 3` is the residue modulo 4 (R13). -/
theorem low2_eq (a : I32) : (low2 a : Int) = a.toInt % 4 := by
  have hand : low2 a = a.toNat % 4 := by
    rw [low2, BitVec.toNat_and]
    exact Nat.and_two_pow_sub_one_eq_mod a.toNat 2
  have hcond := BitVec.toInt_eq_toNat_cond a
  split_ifs at hcond <;> omega

theorem low2_lt (a : I32) : low2 a < 4 := by
  have hres := low2_eq a
  omega

/-- The wrap of a sum is a multiple of 4. -/
theorem toInt_add_emod_four (a b : I32) : (a + b).toInt % 4 = (a.toInt + b.toInt) % 4 := by
  rw [BitVec.toInt_add, Int.bmod_def]
  split_ifs <;> omega

theorem toInt_ofNat_emod_four (n : Nat) : (BitVec.ofNat 32 n).toInt % 4 = n % 4 := by
  rw [BitVec.toInt_ofNat', Int.bmod_def]
  split_ifs <;> omega

theorem toInt_and_two (a : I32) : (a &&& 2).toInt = if a.toInt % 4 < 2 then 0 else 2 := by
  have hbit : a &&& 2 = if (a &&& 3).toNat < 2 then 0 else 2 := by
    have hmask : a &&& 2 = (a &&& 3) &&& 2 := by rw [BitVec.and_assoc]; rfl
    have hlt : (a &&& 3).toNat < 4 := low2_lt a
    rw [hmask]
    generalize a &&& 3 = b at hlt ⊢
    obtain rfl | rfl | rfl | rfl : b = 0 ∨ b = 1 ∨ b = 2 ∨ b = 3 := by bv_omega
    all_goals rfl
  have hres := low2_eq a
  rw [low2] at hres
  rw [hbit, ← hres]
  by_cases hlow : (a &&& 3).toNat < 2
  · rw [if_pos hlow, if_pos (by omega)]; rfl
  · rw [if_neg hlow, if_neg (by omega)]; rfl

/-! ## The phase index (R141) -/

theorem xi_lt (mode : BitVec 2) (t y : Nat) (offset : I32) : xi mode t y offset < 4 := by
  unfold xi
  split_ifs <;> exact low2_lt _

theorem rowPhase_lt (hw : HwParams) (cfg : Cfg) (t y : Nat) : rowPhase hw cfg t y < 4 := by
  unfold rowPhase
  split_ifs
  · exact xi_lt ..
  · exact Nat.mod_lt _ (by decide)

theorem xi_mode_zero (t y : Nat) (offset : I32) : (xi 0 t y offset : Int) = offset.toInt % 4 := low2_eq offset

/-- The row number is an `i32`: from 2^31 on it is negative, and its half is off by 2^31, a multiple of 4. -/
theorem xi_mode_one (t : Nat) {y : Nat} (hy : y < 2 ^ 32) (offset : I32) :
    (xi 1 t y offset : Int) = (t + offset.toInt + y / 2) % 4 := by
  have hxi : (xi 1 t y offset : Int) =
      (BitVec.ofNat 32 t + offset + asr (BitVec.ofNat 32 y) 1).toInt % 4 := low2_eq _
  have hrow : (BitVec.ofNat 32 y).toInt / 2 % 4 = y / 2 % 4 := by
    rw [BitVec.toInt_ofNat', Int.bmod_def]
    split_ifs <;> omega
  have hfield := toInt_ofNat_emod_four t
  have hsum := toInt_add_emod_four (BitVec.ofNat 32 t) offset
  rw [hxi, toInt_add_emod_four, toInt_asr_one]
  omega

theorem xi_mode_two (t y : Nat) (offset : I32) :
    (xi 2 t y offset : Int) = ((if (t + y) % 4 < 2 then 0 else 2) + offset.toInt) % 4 := by
  have hxi : (xi 2 t y offset : Int) =
      (((BitVec.ofNat 32 t + BitVec.ofNat 32 y) &&& 2) + offset).toInt % 4 := low2_eq _
  have hsum : (BitVec.ofNat 32 t + BitVec.ofNat 32 y).toInt % 4 = ((t + y : Nat) : Int) % 4 := by
    rw [← BitVec.ofNat_add]
    exact toInt_ofNat_emod_four (t + y)
  rw [hxi, toInt_add_emod_four, toInt_and_two, hsum]
  split_ifs <;> omega

theorem xi_mode_three (t y : Nat) (offset : I32) : (xi 3 t y offset : Int) = (t + offset.toInt) % 4 := by
  have hxi : (xi 3 t y offset : Int) = (BitVec.ofNat 32 t + offset).toInt % 4 := low2_eq _
  have hfield := toInt_ofNat_emod_four t
  rw [hxi, toInt_add_emod_four]
  omega

/-- Settles O37: `xi` mode by mode. -/
theorem phaseIndex : Obligations.PhaseIndex := by
  intro hw cfg t y _ hy
  refine ⟨rowPhase_lt .., fun hw' cfg' hinst hmode hoff => ?_, fun hinst => ?_⟩
  · unfold rowPhase
    rw [hinst, hmode, hoff]
  · have hxi : rowPhase hw cfg t y = xi cfg.scanlinePhaseShift t y cfg.scanlinePhaseShiftOffset := if_pos hinst
    rw [hxi]
    refine ⟨?_, ?_, ?_, ?_⟩ <;> intro hmode <;> rw [hmode]
    · exact xi_mode_zero ..
    · exact xi_mode_one t hy _
    · exact xi_mode_two ..
    · exact xi_mode_three ..

/-! ## Rows of a field, loaded and stored -/

theorem PlaneRows.at_map_range (f : Nat → List I32) {n r : Nat} (h : r < n) (x : Nat) :
    PlaneRows.at ((List.range n).map f) r x = (f r).getD x 0 :=
  congrArg (List.getD · x 0) (getD_map_range f h [])

theorem State.getD_loadPlane (s : State) (p : Nat) {t y : Nat} (hy : y < s.frameH) (hyt : y % 2 = t) :
    (s.loadPlane t p).getD (y / 2) [] = s.planeRow p y := by
  have hrow : t + 2 * (y / 2) = y := by omega
  rw [State.loadPlane, ownRows, List.map_map, getD_map_range _ (lt_ownRowCount hy hyt), Function.comp_apply, hrow]

/-- A row as the decode reads it: zero outside the frame. -/
theorem State.tap_planeRow (s : State) (p y : Nat) (j : Int) :
    tap (s.planeRow p y) j = if 0 ≤ j ∧ j < s.frameW then s.yiqAt p y j.toNat else 0 := by
  unfold tap
  by_cases h0 : 0 ≤ j
  · by_cases hw : j < s.frameW
    · rw [if_pos h0, if_pos ⟨h0, hw⟩, s.getD_planeRow p y (by omega)]
    · rw [if_pos h0, if_neg fun h => hw h.2]
      exact List.getD_eq_default _ _ (by rw [State.length_planeRow]; omega)
  · rw [if_neg h0, if_neg fun h => h0 h.1]

theorem State.Inv.yiqAt_storeField {s : State} (h : s.Inv) (t : Fin 2) (f : FieldRows) {p y x : Nat} (hp : p < 3)
    (hy : y < s.frameH) (hyt : y % 2 = t) (hx : x < s.frameW) :
    (s.storeField t f).yiqAt p y x = (f.plane p).at (y / 2) x := by
  obtain ⟨m, e, -, hm, -⟩ := h.framesOk.storeField t f
  rw [e]
  exact (Memory.readIn_of_lt m (Nat.lt_of_lt_of_le (plane_row_bound hp hy hx) h.frame_le)).trans
    (hm p hp y hy hyt x hx)

theorem State.Inv.changesOnly_storeField {s : State} (h : s.Inv) (t : Fin 2) (f : FieldRows) :
    ChangesOnly { yiq := s.ownSample t } s (s.storeField t f) := by
  obtain ⟨m, e, -, -, hout⟩ := h.framesOk.storeField t f
  rw [e]
  exact changesOnly_setYiq hout

/-! ## The encode (R142) -/

/-- The luma that the encode leaves in a sample, from the sample and its phase. -/
def encodeSample (norm amp : I32) (p : Nat) (luma i q : I32) : I32 :=
  luma + tdiv (i * amp * phaseU p + q * amp * phaseV p) norm

section

variable {s : State} (h : s.Inv) (t : Fin 2) (amp : I32) {y x : Nat} (hy : y < s.frameH) (hyt : y % 2 = t)
  (hx : x < s.frameW)

include h hy hyt hx

theorem State.Inv.yiqAt_muxEncode_luma : (s.muxEncode t amp).yiqAt 0 y x =
    encodeSample s.hw.subcarrierNorm amp ((rowPhase s.hw s.cfg t y + x) % 4) (s.yiqAt 0 y x) (s.yiqAt 1 y x)
      (s.yiqAt 2 y x) := by
  have hrow : t + 2 * (y / 2) = y := by omega
  rw [State.muxEncode, h.yiqAt_storeField t _ (by decide) hy hyt hx]
  refine (PlaneRows.at_map_range _ (lt_ownRowCount hy hyt) x).trans ?_
  rw [hrow, encodeRow, getD_map_range _ hx]
  simp only [State.loadField, s.getD_loadPlane _ hy hyt, s.getD_planeRow _ _ hx]
  rfl

theorem State.Inv.yiqAt_muxEncode_chroma {p : Nat} (hp : p = 1 ∨ p = 2) : (s.muxEncode t amp).yiqAt p y x = 0 := by
  have hzero : (zeroRow s.frameW).getD x 0 = 0 := List.getD_replicate _ hx
  rw [State.muxEncode, h.yiqAt_storeField t _ (by omega) hy hyt hx]
  obtain rfl | rfl := hp <;> exact (PlaneRows.at_map_range _ (lt_ownRowCount hy hyt) x).trans hzero

end

/-- The multipliers of R140 as a table. -/
theorem phaseU_eq_getD (p : Nat) : phaseU p = ([1, 0, -1, 0] : List I32).getD (p % 4) 0 := by
  have hp : p % 4 < 4 := Nat.mod_lt _ (by decide)
  unfold phaseU
  interval_cases p % 4 <;> rfl

theorem phaseV_eq_getD (p : Nat) : phaseV p = ([0, 1, 0, -1] : List I32).getD (p % 4) 0 := by
  have hp : p % 4 < 4 := Nat.mod_lt _ (by decide)
  unfold phaseV
  interval_cases p % 4 <;> rfl

/-- Settles O38: each own sample takes its encoded luma and no chroma. -/
theorem muxEncode : Obligations.MuxEncode := by
  intro fld xAmp s h
  refine ⟨_, rfl, fun y hy hfld x hx => ?_, h.changesOnly_storeField fld _⟩
  intro p u v chroma
  refine ⟨?_, h.yiqAt_muxEncode_chroma fld _ hy hfld hx (.inl rfl),
    h.yiqAt_muxEncode_chroma fld _ hy hfld hx (.inr rfl)⟩
  rw [h.yiqAt_muxEncode_luma fld _ hy hfld hx, encodeSample, phaseU_eq_getD, phaseV_eq_getD, Nat.mod_mod,
    tdiv_eq_ofInt]

end Sys2Proof.Machine
end

section
/-! PROOFS. The composite demultiplex (44_mux.md R143 to R145): what each step of the decode leaves in a column, O39,
and the decode of an encoded constant row, O40. -/

namespace Sys2Proof.Machine

open Host (Outcome)

/-! ## The residue row (R144, steps 2 to 4) -/

theorem getD_combResidue {w j : Nat} (yo : List I32) (hj : j < w) :
    (combResidue w yo).getD j 0 = tap yo (j + 2) - combLuma yo j := getD_map_range _ hj 0

theorem getD_negateAt {c : List I32} {x j : Nat} (hx : x < c.length) :
    (negateAt c x).getD j 0 = if j = x then -(c.getD j 0) else c.getD j 0 := by
  simp only [negateAt, List.getD_eq_getElem?_getD, List.getElem?_set, hx, if_true, @eq_comm _ x j]
  split_ifs with heq
  · rw [heq]; rfl
  · rfl

/-- Column `j` stands in a pair that the loop of R144's step 3 negates, from `start` on in a row of `w` columns. -/
abbrev InNegatedRun (w start j : Nat) : Prop :=
  start ≤ j ∧ 2 ≤ (j - start) % 4 ∧ start + 4 * ((j - start) / 4) + 3 < w

/-- The first round of the loop negates the third and fourth column; the rounds after it start four columns on. -/
theorem inNegatedRun_iff {w start : Nat} (h : start + 3 < w) (j : Nat) :
    InNegatedRun w start j ↔ j = start + 2 ∨ j = start + 3 ∨ InNegatedRun w (start + 4) j := by
  unfold InNegatedRun
  omega

@[simp] theorem length_negateAt (c : List I32) (x : Nat) : (negateAt c x).length = c.length := List.length_set

/-- The loop with a bound that lets it reach the end of the row. -/
theorem getD_negateRuns (n : Nat) {w start : Nat} {c : List I32} (hc : c.length = w) (hn : w ≤ start + 4 * n + 3)
    (j : Nat) : (negateRuns w n start c).getD j 0 =
      if InNegatedRun w start j then -(c.getD j 0) else c.getD j 0 := by
  induction n generalizing start c with
  | zero => rw [negateRuns, if_neg fun h => by unfold InNegatedRun at h; omega]
  | succ n ih =>
    rw [negateRuns]
    split_ifs with hw hrun hrun
    · rw [ih (by simpa using hc) (by omega), getD_negateAt (by simp; omega), getD_negateAt (by omega)]
      obtain rfl | rfl | hrest := (inNegatedRun_iff hw j).1 hrun
      · rw [if_neg (by unfold InNegatedRun; omega), if_neg (by omega), if_pos rfl]
      · rw [if_neg (by unfold InNegatedRun; omega), if_pos rfl, if_neg (by omega)]
      · rw [if_pos hrest, if_neg (by unfold InNegatedRun at hrest; omega),
          if_neg (by unfold InNegatedRun at hrest; omega)]
    · rw [inNegatedRun_iff hw, not_or, not_or] at hrun
      obtain ⟨hthird, hfourth, hrest⟩ := hrun
      rw [ih (by simpa using hc) (by omega), getD_negateAt (by simp; omega), getD_negateAt (by omega),
        if_neg hrest, if_neg hfourth, if_neg hthird]
    · unfold InNegatedRun at hrun; omega
    · rfl

/-- A column of the residue row after the runs of two are negated, before the scaling. -/
def signedResidue (ph w : Nat) (yo : List I32) (j : Nat) : I32 :=
  if InNegatedRun w ((4 - ph) % 4) j then -(tap yo (j + 2) - combLuma yo j) else tap yo (j + 2) - combLuma yo j

theorem getD_decodeResidue (norm amp : I32) (ph : Nat) {w j : Nat} (yo : List I32) (hj : j < w) :
    (decodeResidue norm amp ph w yo).getD j 0 = unscale norm amp (signedResidue ph w yo j) := by
  have hzero : (0 : I32) = unscale norm amp 0 := by
    unfold unscale tdiv
    split_ifs <;> simp
  have hlen : (combResidue w yo).length = w := by simp [combResidue]
  rw [decodeResidue, hzero, List.getD_map, getD_negateRuns w hlen (by omega), getD_combResidue yo hj, signedResidue]

theorem unscale_eq (norm amp c : I32) : unscale norm amp c =
    if amp = 0 then 0 else BitVec.ofInt 32 ((c * norm).toInt.tdiv amp.toInt) := by
  rw [unscale, tdiv_eq_ofInt]

/-- An even column reads a column of the row wherever its guard holds. -/
theorem decodeEven_eq {ph w off : Nat} (hoff : off < 2) {row : List I32} {c : Nat → I32}
    (hc : ∀ j < w, row.getD j 0 = c j) (x : Nat) :
    decodeEven ph w off row x = if x + ph + 1 < w then -c (x + ph + off) else 0 := by
  unfold decodeEven
  split_ifs
  · rw [hc _ (by omega)]
  · rfl

/-! ## The decode of a field (R144) -/

section

variable {s : State} (h : s.Inv) (t : Fin 2) (amp : I32) {y x : Nat} (hy : y < s.frameH) (hyt : y % 2 = t)
  (hx : x < s.frameW)

include h hy hyt hx

theorem State.Inv.yiqAt_muxDecode_luma : (s.muxDecode t amp).yiqAt 0 y x = combLuma (s.planeRow 0 y) x := by
  rw [State.muxDecode, h.yiqAt_storeField t _ (by decide) hy hyt hx]
  refine (PlaneRows.at_map_range _ (lt_ownRowCount hy hyt) x).trans ?_
  rw [getD_map_range _ hx]
  exact congrArg (combLuma · x) (s.getD_loadPlane 0 hy hyt)

/-- Plane 1 takes the chroma of offset 0, plane 2 that of offset 1. -/
theorem State.Inv.yiqAt_muxDecode_chroma {off : Nat} (hoff : off < 2) : (s.muxDecode t amp).yiqAt (off + 1) y x =
    decodeChroma (rowPhase s.hw s.cfg t y) s.frameW off
      (decodeResidue s.hw.subcarrierNorm amp (rowPhase s.hw s.cfg t y) s.frameW (s.planeRow 0 y)) x := by
  have hrow : t + 2 * (y / 2) = y := by omega
  have hplane : (decodeField s.hw s.cfg amp s.frameW t (ownRowCount s.frameH t) (s.loadField t)).plane (off + 1) =
      (List.range (ownRowCount s.frameH t)).map fun r =>
        (List.range s.frameW).map (decodeChroma (rowPhase s.hw s.cfg t (t + 2 * r)) s.frameW off
          (decodeResidue s.hw.subcarrierNorm amp (rowPhase s.hw s.cfg t (t + 2 * r)) s.frameW
            ((s.loadPlane t 0).getD r []))) := by
    interval_cases off <;> rfl
  rw [State.muxDecode, h.yiqAt_storeField t _ (by omega) hy hyt hx, hplane,
    PlaneRows.at_map_range _ (lt_ownRowCount hy hyt), getD_map_range _ hx, hrow, s.getD_loadPlane 0 hy hyt]

end

/-- Settles O39: the taps of the old row, then each step of the decode on them. -/
theorem muxDecode : Obligations.MuxDecode := by
  intro fld xAmp s h
  refine ⟨_, rfl, fun y hy hfld => ?_, h.changesOnly_storeField fld _⟩
  intro w amp ph start old average residue signed c even chroma x hx
  have hold : ∀ j, tap (s.planeRow 0 y) j = old j := s.tap_planeRow 0 y
  have haverage : ∀ j, combLuma (s.planeRow 0 y) j = average j := fun j => by
    rw [combLuma, tdiv_eq_ofInt, hold, hold, hold, hold]; rfl
  have hsigned : ∀ j, signedResidue ph w (s.planeRow 0 y) j = signed j := fun j => by
    rw [signedResidue, hold, haverage]
  have hc : ∀ j < w, (decodeResidue s.hw.subcarrierNorm amp ph w (s.planeRow 0 y)).getD j 0 = c j := fun j hj => by
    rw [getD_decodeResidue _ _ _ _ hj, hsigned, unscale_eq]
  have hchroma : ∀ off < 2, (s.muxDecode fld amp).yiqAt (off + 1) y x = chroma off x := fun off hoff => by
    rw [h.yiqAt_muxDecode_chroma fld amp hy hfld hx hoff, decodeChroma, decodeEven_eq hoff hc,
      decodeEven_eq hoff hc, decodeEven_eq hoff hc]
    rfl
  exact ⟨(h.yiqAt_muxDecode_luma fld amp hy hfld hx).trans (haverage x), hchroma 0 (by decide),
    hchroma 1 (by decide)⟩

/-! ## The decode of an encoded constant row (R145) -/

/-- What the encode adds to the luma of a constant row at a phase: `i`, `q`, `-i`, `-q` by turns. -/
def carrier (i q : I32) (p : Nat) : I32 := i * phaseU p + q * phaseV p

theorem carrier_eq (i q : I32) (p : Nat) : carrier i q p =
    if p % 4 = 0 then i else if p % 4 = 1 then q else if p % 4 = 2 then -i else -q := by
  have hp : p % 4 < 4 := Nat.mod_lt _ (by decide)
  unfold carrier phaseU phaseV
  interval_cases p % 4
  · show i * 1 + q * 0 = i; ring
  · show i * 0 + q * 1 = q; ring
  · show i * -1 + q * 0 = -i; ring
  · show i * 0 + q * -1 = -q; ring

theorem carrier_mod_four (i q : I32) (p : Nat) : carrier i q (p % 4) = carrier i q p := by
  rw [carrier_eq, carrier_eq, Nat.mod_mod]

/-- Two columns on, the carrier has the other sign: four taps in a row cancel it. -/
theorem carrier_add_two (i q : I32) (p : Nat) : carrier i q (p + 2) = -carrier i q p := by
  have hp : p % 4 < 4 := Nat.mod_lt _ (by decide)
  rw [carrier_eq, carrier_eq, Nat.add_mod]
  interval_cases p % 4 <;> simp

/-- The product of a sample and the subcarrier norm stays far from wrapping (the bound of O40). -/
def Scales (norm v : I32) : Prop := (v.toInt * norm.toInt).natAbs < 2 ^ 28

section

variable {norm v : I32} (hn : 0 < norm.toInt)

include hn

theorem scales_of_toNat (h : v.toInt.natAbs * norm.toNat < 2 ^ 28) : Scales norm v := by
  have hnorm : norm.toInt.natAbs = norm.toNat := by
    have hcond := BitVec.toInt_eq_toNat_cond norm
    have hlt := norm.isLt
    split_ifs at hcond <;> omega
  rw [Scales, Int.natAbs_mul, hnorm]
  exact h

theorem Scales.small (h : Scales norm v) : v.toInt.natAbs < 2 ^ 28 := by
  rw [Scales, Int.natAbs_mul] at h
  exact (Nat.le_mul_of_pos_right _ (by omega)).trans_lt h

theorem Scales.neg (h : Scales norm v) : Scales norm (-v) := by
  have hsmall := h.small hn
  have hneg : (-v).toInt = -v.toInt := by
    rw [BitVec.toInt_neg]
    exact bmod_eq_self (by omega) (by omega)
  rwa [Scales, hneg, Int.neg_mul, Int.natAbs_neg]

/-- The amplitude and the norm cancel in either direction. -/
theorem Scales.tdiv_mul (h : Scales norm v) : tdiv (v * norm) norm = v :=
  tdiv_mul_self (by omega) (h.trans (by decide))

theorem Scales.unscale (h : Scales norm v) : unscale norm norm v = v := by
  have hne : norm ≠ 0 := by rintro rfl; exact absurd hn (by decide)
  rw [Machine.unscale, if_neg hne, h.tdiv_mul hn]

theorem Scales.carrier {i q : I32} (hi : Scales norm i) (hq : Scales norm q) (p : Nat) :
    Scales norm (carrier i q p) := by
  rw [carrier_eq]
  split_ifs
  · exact hi
  · exact hq
  · exact hi.neg hn
  · exact hq.neg hn

theorem encodeSample_eq_add_carrier {i q : I32} (hi : Scales norm i) (hq : Scales norm q) (luma : I32) (p : Nat) :
    encodeSample norm norm p luma i q = luma + carrier i q p := by
  have hfactor : i * norm * phaseU p + q * norm * phaseV p = carrier i q p * norm := by
    unfold Machine.carrier
    ring
  rw [encodeSample, hfactor, (hi.carrier hn hq p).tdiv_mul hn]

end

/-- A luma row that the encode of a constant row leaves, with the bounds of O40. -/
structure EncodedRow (norm luma i q : I32) (ph w : Nat) (row : List I32) : Prop where
  norm_pos : 0 < norm.toInt
  luma_small : luma.toInt.natAbs < 2 ^ 28
  inPhase : Scales norm i
  quadrature : Scales norm q
  phase : ph < 4
  sample : ∀ x < w, row.getD x 0 = luma + carrier i q (ph + x)

namespace EncodedRow

variable {norm luma i q : I32} {ph w : Nat} {row : List I32} (h : EncodedRow norm luma i q ph w row)

include h

theorem tap {x : Nat} (hx : x < w) : tap row x = luma + carrier i q (ph + x) := by
  rw [Machine.tap, if_pos (Int.natCast_nonneg x), Int.toNat_natCast, h.sample x hx]

/-- Where the window lies in the row, the carrier cancels and the average is the luma. -/
theorem combLuma {x : Nat} (hmin : 1 ≤ x) (hmax : x + 3 ≤ w) : combLuma row x = luma := by
  obtain ⟨k, rfl⟩ : ∃ k, x = k + 1 := ⟨x - 1, by omega⟩
  have h₀ := h.tap (x := k) (by omega)
  have h₁ := h.tap (x := k + 1) (by omega)
  have h₂ : Machine.tap row (k + 2 : Nat) = luma - carrier i q (ph + k) := by
    rw [h.tap (by omega), ← Nat.add_assoc, carrier_add_two, sub_eq_add_neg]
  have h₃ : Machine.tap row (k + 3 : Nat) = luma - carrier i q (ph + (k + 1)) := by
    rw [h.tap (by omega), show ph + (k + 3) = ph + (k + 1) + 2 by omega, carrier_add_two, sub_eq_add_neg]
  have hwindow : Machine.tap row ((k + 1 : Nat) - 1) + Machine.tap row (k + 1 : Nat) +
      Machine.tap row ((k + 1 : Nat) + 1) + Machine.tap row ((k + 1 : Nat) + 2) = luma * 4 := by
    rw [show ((k + 1 : Nat) : Int) - 1 = k by omega, show ((k + 1 : Nat) : Int) + 1 = (k + 2 : Nat) by omega,
      show ((k + 1 : Nat) : Int) + 2 = (k + 3 : Nat) by omega, h₀, h₁, h₂, h₃]
    ring
  have hluma := h.luma_small
  have hfour : (4 : I32).toInt = 4 := rfl
  rw [Machine.combLuma, hwindow]
  exact tdiv_mul_self (by decide) (by rw [hfour]; omega)

/-- The runs of two are the columns of phase 2 and 3: with them negated, the residue of an even phase is `-i` and of
an odd one `-q`. -/
theorem signedResidue {j : Nat} (hstart : (4 - ph) % 4 ≤ j) (hmin : 1 ≤ j) (hmax : j + 3 ≤ w) :
    signedResidue ph w row j = if (ph + j) % 2 = 0 then -i else -q := by
  have hrun : InNegatedRun w ((4 - ph) % 4) j ↔ 2 ≤ (ph + j) % 4 := by
    have hph := h.phase
    unfold InNegatedRun
    omega
  have htap : Machine.tap row (j + 2) = luma + carrier i q (ph + (j + 2)) :=
    h.tap (x := j + 2) (by omega)
  have hresidue : Machine.tap row (j + 2) - Machine.combLuma row j = -carrier i q (ph + j) := by
    rw [htap, h.combLuma hmin hmax, ← Nat.add_assoc, carrier_add_two, add_sub_cancel_left]
  have hcases : (ph + j) % 4 = 0 ∨ (ph + j) % 4 = 1 ∨ (ph + j) % 4 = 2 ∨ (ph + j) % 4 = 3 := by omega
  have hparity : (ph + j) % 2 = (ph + j) % 4 % 2 := by omega
  rw [Machine.signedResidue, hresidue, neg_neg, carrier_eq, hparity]
  simp only [hrun]
  obtain hp | hp | hp | hp := hcases <;> simp [hp]

theorem getD_decodeResidue {j : Nat} (hstart : (4 - ph) % 4 ≤ j) (hmin : 1 ≤ j) (hmax : j + 3 ≤ w) :
    (decodeResidue norm norm ph w row).getD j 0 = if (ph + j) % 2 = 0 then -i else -q := by
  rw [Machine.getD_decodeResidue _ _ _ _ (by omega), h.signedResidue hstart hmin hmax]
  split_ifs
  · exact (h.inPhase.neg h.norm_pos).unscale h.norm_pos
  · exact (h.quadrature.neg h.norm_pos).unscale h.norm_pos

/-- From column 2 on, an even column of plane I reads an even phase and one of plane Q an odd phase. -/
theorem decodeEven {x off : Nat} (heven : x % 2 = 0) (hmin : 2 ≤ x) (hoff : off < 2) (hmax : x + ph + 3 < w) :
    decodeEven ph w off (decodeResidue norm norm ph w row) x = if off = 0 then i else q := by
  have hph := h.phase
  have hparity : (ph + (x + ph + off)) % 2 = off := by omega
  rw [Machine.decodeEven, if_pos (by omega), h.getD_decodeResidue (by omega) (by omega) (by omega), hparity]
  split_ifs <;> exact neg_neg _

theorem decodeChroma {x off : Nat} (hmin : 2 ≤ x) (hoff : off < 2) (hmax : x + ph + 4 < w) :
    decodeChroma ph w off (decodeResidue norm norm ph w row) x = if off = 0 then i else q := by
  have htail : ¬ decodeTail w ≤ x := by unfold decodeTail; omega
  rw [Machine.decodeChroma, if_neg htail]
  by_cases heven : x % 2 = 0
  · rw [if_pos heven]
    exact h.decodeEven heven hmin hoff (by omega)
  · have hsmall : (if off = 0 then i else q).toInt.natAbs < 2 ^ 28 := by
      split_ifs
      · exact h.inPhase.small h.norm_pos
      · exact h.quadrature.small h.norm_pos
    rw [if_neg heven, h.decodeEven (by omega) (by omega) hoff (by omega),
      h.decodeEven (by omega) (by omega) hoff (by omega)]
    exact asr_add_self (hsmall.trans (by decide))

end EncodedRow

theorem State.Inv.subcarrierNorm_pos {s : State} (h : s.Inv) : 0 < s.hw.subcarrierNorm.toInt := by
  have hlegal := h.params
  simp only [HwParams.legal, Bool.and_eq_true, decide_eq_true_eq] at hlegal
  obtain ⟨⟨-, hnorm⟩, -⟩ := hlegal
  exact hnorm

/-- The encode of a constant own row, with the norm as amplitude. -/
theorem State.Inv.encodedRow_muxEncode {s : State} (h : s.Inv) (t : Fin 2) {y : Nat} {luma i q : I32}
    (hy : y < s.frameH) (hyt : y % 2 = t)
    (hconst : ∀ x < s.frameW, s.yiqAt 0 y x = luma ∧ s.yiqAt 1 y x = i ∧ s.yiqAt 2 y x = q)
    (hluma : luma.toInt.natAbs < 2 ^ 28) (hi : Scales s.hw.subcarrierNorm i) (hq : Scales s.hw.subcarrierNorm q) :
    EncodedRow s.hw.subcarrierNorm luma i q (rowPhase s.hw s.cfg t y) s.frameW
      ((s.muxEncode t s.hw.subcarrierNorm).planeRow 0 y) where
  norm_pos := h.subcarrierNorm_pos
  luma_small := hluma
  inPhase := hi
  quadrature := hq
  phase := rowPhase_lt ..
  sample x hx := by
    obtain ⟨hY, hI, hQ⟩ := hconst x hx
    have hwidth : (s.muxEncode t s.hw.subcarrierNorm).frameW = s.frameW :=
      congrArg BitVec.toNat (h.changesOnly_storeField t _).width
    rw [State.getD_planeRow _ _ _ (hwidth ▸ hx), h.yiqAt_muxEncode_luma t _ hy hyt hx, hY, hI, hQ,
      encodeSample_eq_add_carrier h.subcarrierNorm_pos hi hq, carrier_mod_four]

/-- Settles O40: the decode of the encoded row, column by column. -/
theorem decodeInvertsEncodeOnConstantRows : Obligations.DecodeInvertsEncodeOnConstantRows := by
  intro fld xAmp s t u y luma i q h hamp hy hfld hconst hluma hi hq henc hdec
  have hpos := h.subcarrierNorm_pos
  have hrow := h.encodedRow_muxEncode fld hy hfld hconst hluma (scales_of_toNat hpos hi) (scales_of_toNat hpos hq)
  have ht : s.muxEncode fld s.hw.subcarrierNorm = t := hamp ▸ Outcome.next.inj henc
  have hframe : ChangesOnly { yiq := s.ownSample fld } s (s.muxEncode fld s.hw.subcarrierNorm) :=
    h.changesOnly_storeField fld _
  have htinv : (s.muxEncode fld s.hw.subcarrierNorm).Inv := h.storeField fld _
  rw [ht] at hrow hframe htinv
  have hwidth : t.frameW = s.frameW := congrArg BitVec.toNat hframe.width
  have hheight : t.frameH = s.frameH := congrArg BitVec.toNat hframe.height
  have htamp : t.x[xAmp] = s.hw.subcarrierNorm := (hframe.x xAmp not_false).trans hamp
  have hu : t.muxDecode fld s.hw.subcarrierNorm = u := htamp ▸ Outcome.next.inj hdec
  have hyt : y < t.frameH := hheight ▸ hy
  subst hu
  refine ⟨fun x hmin hmax => ?_, fun x hmin hmax => ?_⟩
  · rw [htinv.yiqAt_muxDecode_luma fld _ hyt hfld (by omega)]
    exact hrow.combLuma hmin hmax
  · have hchroma : ∀ off < 2, (t.muxDecode fld s.hw.subcarrierNorm).yiqAt (off + 1) y x = if off = 0 then i else q :=
      fun off hoff => by
        rw [htinv.yiqAt_muxDecode_chroma fld _ hyt hfld (by omega) hoff, hframe.hw, hframe.cfg, hwidth]
        exact hrow.decodeChroma hmin hoff hmax
    exact ⟨hchroma 0 (by decide), hchroma 1 (by decide)⟩

end Sys2Proof.Machine
end

section
/-! PROOFS. What `PIPE.STAGE` leaves of a stage whose predicate holds (45_stages.md R150, R151): the own samples and the
field's generator, from the body of the stage. -/

namespace Sys2Proof.Machine

open Host (Outcome)

/-- `PIPE.STAGE` with number `k` passes its checks and runs stage `st`. -/
structure State.StageRuns (s : State) (k : Fin 32) (st : Stage) : Prop where
  listed : stageList[k.val]? = some st
  pixels : s.frameEmpty = false
  rowLength : ¬ (k.val = 3 ∧ s.badRingLength = true)
  pred : stagePred s.cfg st = true

/-- What the body of a stage makes of the own rows and the generator. -/
def State.stageResult (s : State) (t : Fin 2) (k : Nat) (st : Stage) : FieldRows × Gen :=
  stageBody (s.stageEnv t k) (s.loadField t) s.ctx[t.castSucc].gen st

section

variable (s : State) (t : Fin 2) (k : Nat)

@[simp] theorem State.stageEnv_cfg : (s.stageEnv t k).cfg = s.cfg := rfl
@[simp] theorem State.stageEnv_hw : (s.stageEnv t k).hw = s.hw := rfl
@[simp] theorem State.stageEnv_w : (s.stageEnv t k).w = s.frameW := rfl
@[simp] theorem State.stageEnv_h : (s.stageEnv t k).h = s.frameH := rfl
@[simp] theorem State.stageEnv_t : (s.stageEnv t k).t = t := rfl
@[simp] theorem State.stageEnv_rowCount : (s.stageEnv t k).rowCount = ownRowCount s.frameH t := rfl

end

theorem State.plane_loadField (s : State) (t : Nat) {p : Nat} (hp : p < 3) :
    (s.loadField t).plane p = s.loadPlane t p := by
  interval_cases p <;> rfl

theorem StageEnv.at_mapRows (e : StageEnv) (op : Nat → List I32 → List I32) (rows : PlaneRows) {r : Nat}
    (hr : r < e.rowCount) (x : Nat) : (e.mapRows op rows).at r x = (op r (rows.getD r [])).getD x 0 :=
  PlaneRows.at_map_range _ hr x

theorem State.at_loadPlane (s : State) (p : Nat) {t y x : Nat} (hy : y < s.frameH) (hyt : y % 2 = t)
    (hx : x < s.frameW) : (s.loadPlane t p).at (y / 2) x = s.yiqAt p y x := by
  rw [PlaneRows.at, s.getD_loadPlane p hy hyt, s.getD_planeRow p y hx]

namespace State.StageRuns

variable {s : State} {k : Fin 32} {st : Stage} (hr : s.StageRuns k st)

include hr

theorem legal : stageNumberLegal k := by
  obtain ⟨hk, -⟩ := List.getElem?_eq_some_iff.1 hr.listed
  exact Nat.le_of_lt_succ hk

theorem exec_pipeStage (fld : FieldId) :
    exec (.pipeStage fld k) s = .next ((s.runStage fld k st).loseScratch fld.castSucc) := by
  rw [exec, execPipeStage, if_neg (not_not_intro hr.legal), hr.pixels, if_neg Bool.false_ne_true, if_neg hr.rowLength,
    State.stageStep, hr.listed]
  simp only [hr.pred, if_true]

/-- Every stage but the last stores its result (R151). -/
theorem exec_eq_store (hst : st ≠ .toRgb) (fld : FieldId) :
    exec (.pipeStage fld k) s = .next (((s.storeField fld (s.stageResult fld k st).1).setGen fld.castSucc
      (s.stageResult fld k st).2).loseScratch fld.castSucc) := by
  rw [hr.exec_pipeStage, State.runStage, if_neg hst]
  rfl

section

variable (h : s.Inv) (hst : st ≠ .toRgb) {fld : FieldId} {t : State} (ht : exec (.pipeStage fld k) s = .next t)

include hst ht

theorem gen_eq : t.ctx[fld.castSucc].gen = (s.stageResult fld k st).2 := by
  obtain rfl := Outcome.next.inj ((hr.exec_eq_store hst fld).symm.trans ht)
  rw [State.loseScratch_gen, State.setGen, State.setCtx_get, if_pos rfl]

include h

variable {p y x : Nat} (hp : p < 3) (hy : y < s.frameH) (hfld : y % 2 = fld.val) (hx : x < s.frameW)

include hp hy hfld hx

theorem yiqAt_eq : t.yiqAt p y x = ((s.stageResult fld k st).1.plane p).at (y / 2) x := by
  obtain rfl := Outcome.next.inj ((hr.exec_eq_store hst fld).symm.trans ht)
  exact h.yiqAt_storeField fld _ hp hy hfld hx

theorem yiqAt_of_plane_eq (hplane : (s.stageResult fld k st).1.plane p = s.loadPlane fld p) :
    t.yiqAt p y x = s.yiqAt p y x := by
  rw [hr.yiqAt_eq h hst ht hp hy hfld hx, hplane, s.at_loadPlane p hy hfld hx]

/-- A stage that works on a plane row by row. -/
theorem yiqAt_of_mapRows {op : Nat → List I32 → List I32}
    (hplane : (s.stageResult fld k st).1.plane p = (s.stageEnv fld k).mapRows op (s.loadPlane fld p)) :
    t.yiqAt p y x = (op (y / 2) (s.planeRow p y)).getD x 0 := by
  rw [hr.yiqAt_eq h hst ht hp hy hfld hx, hplane, StageEnv.at_mapRows _ _ _ (lt_ownRowCount hy hfld),
    s.getD_loadPlane p hy hfld]

end

end State.StageRuns

/-! ## Stages 4, 8 and 16 (R172) -/

/-- Settles O60: the bodies of the stages are those of the commands, and the loss of scratch leaves the frame. -/
theorem stagesMatchCommands : Obligations.StagesMatchCommands := by
  intro fld xAmp s h hframe
  refine ⟨fun hcolor hamp => ?_, fun hcolor hamp => ?_, ?_⟩
  · have hr : s.StageRuns 4 .encode := ⟨rfl, hframe, by simp, by simp [stagePred, hcolor]⟩
    refine ⟨_, _, hr.exec_eq_store nofun fld, rfl, fun n => ?_⟩
    rw [hamp]
    rfl
  · have hr : s.StageRuns 8 .decode := ⟨rfl, hframe, by simp, by simp [stagePred, hcolor]⟩
    refine ⟨_, _, hr.exec_eq_store nofun fld, rfl, fun n => ?_⟩
    rw [hamp]
    rfl
  · have hr : s.StageRuns 16 .toRgb := ⟨rfl, hframe, by simp, rfl⟩
    exact ⟨_, _, hr.exec_pipeStage fld, rfl, fun _ => rfl⟩

end Sys2Proof.Machine
end

section
/-! PROOFS. The stages on chroma samples (45_stages.md R154, R170, R171): colour bleed and chroma blur, O56, and the
dropout of rows, O59. -/

namespace Sys2Proof.Machine

/-! ## Colour bleed, stages 1 and 14 (R154) -/

theorem plane_colorBleed (e : StageEnv) (f : FieldRows) {p : Nat} (hp : p = 1 ∨ p = 2) :
    (colorBleed e f).plane p = bleedPlane e (f.plane p) := by
  obtain rfl | rfl := hp <;> rfl

theorem at_bleedPlane (e : StageEnv) (rows : PlaneRows) {r x : Nat} (hr : r < e.rowCount) (hx : x < e.w) :
    (bleedPlane e rows).at r x = bleedSample e rows r x :=
  (PlaneRows.at_map_range _ hr x).trans (getD_map_range _ hx 0)

/-- The source row of the bleed belongs to the same field, two rows being one row of the field. -/
theorem State.bleedSample_eq (s : State) (t : Fin 2) (k p : Nat) {y x : Nat} (hy : y < s.frameH)
    (hyt : y % 2 = t) (hx : x < s.frameW) :
    let sy := (y : Int) - 2 * s.cfg.colorBleedVert.toInt
    let sx := (x : Int) - s.cfg.colorBleedHoriz.toInt
    bleedSample (s.stageEnv t k) (s.loadPlane t p) (y / 2) x =
      if 0 ≤ sy ∧ sy < s.frameH ∧ 0 ≤ sx ∧ sx < s.frameW then s.yiqAt p sy.toNat sx.toNat else s.yiqAt p y x := by
  intro sy sx
  have hrow : t + 2 * (y / 2) = y := by omega
  have hsample : bleedSample (s.stageEnv t k) (s.loadPlane t p) (y / 2) x =
      if 0 ≤ sy ∧ sy < s.frameH ∧ 0 ≤ sx ∧ sx < s.frameW then
        (s.loadPlane t p).at ((sy.toNat - t) / 2) sx.toNat
      else (s.loadPlane t p).at (y / 2) x := by
    simp only [bleedSample, State.stageEnv_cfg, State.stageEnv_w, State.stageEnv_h, State.stageEnv_t, hrow, sy,
      sx]
  rw [hsample]
  split_ifs with hsource
  · obtain ⟨hsy, hsyH, hsx, hsxW⟩ := hsource
    have hfield : sy.toNat % 2 = t := by omega
    have hhalf : (sy.toNat - t) / 2 = sy.toNat / 2 := by omega
    rw [hhalf, s.at_loadPlane p (by omega) hfield (by omega)]
  · exact s.at_loadPlane p hy hyt hx

/-! ## Chroma blur, stage 15 (R171) -/

theorem plane_blurField (e : StageEnv) (f : FieldRows) {p : Nat} (hp : p = 1 ∨ p = 2) :
    (blurField e f).plane p = e.mapRows (fun _ row => blurRow e.w row) (f.plane p) := by
  obtain rfl | rfl := hp <;> rfl

theorem State.getD_blurRow (s : State) (p y : Nat) {x : Nat} (hx : x < s.frameW) :
    let left := if x = 0 then 0 else s.yiqAt p y (x - 1)
    let right := if x + 1 = s.frameW then 0 else s.yiqAt p y (x + 1)
    (blurRow s.frameW (s.planeRow p y)).getD x 0 =
      BitVec.ofInt 32 ((left + 2 * s.yiqAt p y x + right).toInt.tdiv 4) := by
  intro left right
  have hleft : tap (s.planeRow p y) ((x : Int) - 1) = left := by
    rw [s.tap_planeRow]
    by_cases h0 : x = 0
    · rw [if_neg (by omega), show left = 0 from if_pos h0]
    · rw [if_pos (by omega), show left = _ from if_neg h0, show ((x : Int) - 1).toNat = x - 1 by omega]
  have hright : tap (s.planeRow p y) ((x : Int) + 1) = right := by
    rw [s.tap_planeRow]
    by_cases hlast : x + 1 = s.frameW
    · rw [if_neg (by omega), show right = 0 from if_pos hlast]
    · rw [if_pos (by omega), show right = _ from if_neg hlast]
      rfl
  have hcentre : tap (s.planeRow p y) x = s.yiqAt p y x := by
    rw [s.tap_planeRow, if_pos (by omega), Int.toNat_natCast]
  rw [blurRow, getD_map_range _ hx, tdiv_eq_ofInt, hleft, hcentre, hright]
  rfl

/-- Settles O56: the sample that the bleed copies, and the taps of the blur. -/
theorem bleedAndBlur : Obligations.BleedAndBlur := by
  intro fld k s t p h hframe ht hp y hy hfld x hx
  have hp3 : p < 3 := by omega
  refine ⟨fun hoffset hk => ?_, fun hk hblur => ?_⟩
  · obtain ⟨st, hr, hst, hbody⟩ : ∃ st, s.StageRuns k st ∧ st ≠ .toRgb ∧
        (s.stageResult fld k st).1 = colorBleed (s.stageEnv fld k) (s.loadField fld) := by
      obtain ⟨hk, hbefore⟩ | ⟨hk, hbefore⟩ := hk
      · have hpred : stagePred s.cfg .bleedBefore = true := by simpa [stagePred, hbefore] using hoffset
        exact ⟨.bleedBefore, ⟨by rw [hk]; rfl, hframe, by omega, hpred⟩, nofun, rfl⟩
      · have hpred : stagePred s.cfg .bleedAfter = true := by simpa [stagePred, hbefore] using hoffset
        exact ⟨.bleedAfter, ⟨by rw [hk]; rfl, hframe, by omega, hpred⟩, nofun, rfl⟩
    rw [hr.yiqAt_eq h hst ht hp3 hy hfld hx, hbody, plane_colorBleed _ _ hp, s.plane_loadField _ hp3,
      at_bleedPlane _ _ (lt_ownRowCount hy hfld) hx]
    exact s.bleedSample_eq fld k p hy hfld hx
  · have hr : s.StageRuns k .chromaBlur := ⟨by rw [hk]; rfl, hframe, by omega, hblur⟩
    rw [hr.yiqAt_of_mapRows h nofun ht hp3 hy hfld hx
      ((plane_blurField _ _ hp).trans (congrArg _ (s.plane_loadField _ hp3)))]
    exact s.getD_blurRow p y hx

/-! ## Chroma dropout, stage 12 (R170) -/

/-- Both sides of the comparison are integers that binary64 holds exactly. -/
theorem dropped_iff (loss : I32) (n : U32) :
    dropped loss n = true ↔ ((n.toNat % 100000 : Nat) : Int) < loss.toInt := by
  obtain ⟨hdraw, hdrawUnits⟩ := fofInt_eq_exact (n := ((n.toNat % 100000 : Nat) : Int)) (by omega)
  obtain ⟨hloss, hlossUnits⟩ := fofI32_eq_exact loss
  rw [dropped, (compare_of_isFinite hdraw hloss).1, Int.cast_lt, hdrawUnits, hlossUnits]
  exact Int.mul_lt_mul_right (by positivity)

theorem plane_dropoutField (e : StageEnv) (f : FieldRows) (g : Gen) {p : Nat} (hp : p = 1 ∨ p = 2) :
    (dropoutField e f g).1.plane p =
      dropPlane e (dropDecisions e.cfg.videoChromaLoss e.rowCount g).2 (f.plane p) := by
  obtain rfl | rfl := hp <;> rfl

/-- A chroma sample after the dropout, from the draw of its row. -/
theorem State.StageRuns.yiqAt_dropout {s : State} {k : Fin 32} (hr : s.StageRuns k .dropout) (h : s.Inv)
    {fld : FieldId} {t : State} (ht : exec (.pipeStage fld k) s = .next t) {p y x : Nat} (hp : p = 1 ∨ p = 2)
    (hy : y < s.frameH) (hfld : y % 2 = fld.val) (hx : x < s.frameW) :
    t.yiqAt p y x =
      if dropped s.cfg.videoChromaLoss (Machine.next (advance (y / 2) s.ctx[fld.castSucc].gen)).2 then 0
      else s.yiqAt p y x := by
  have hp3 : p < 3 := by omega
  rw [hr.yiqAt_of_mapRows h nofun ht hp3 hy hfld hx
    ((plane_dropoutField _ _ _ hp).trans (congrArg _ (s.plane_loadField _ hp3))),
    State.stageEnv_cfg, State.stageEnv_rowCount, getD_dropDecisions _ _ _ (lt_ownRowCount hy hfld)]
  split_ifs
  · exact List.getD_replicate _ hx
  · exact s.getD_planeRow p y hx 0

/-- Settles O59: a row's decision comes from its own draw, and its comparison is that of the integers. -/
theorem chromaDropout : Obligations.ChromaDropout := by
  intro fld s t h hframe hloss ht
  have hr : s.StageRuns 12 .dropout := ⟨rfl, hframe, by simp, by simpa [stagePred] using hloss⟩
  refine ⟨fun y hy hfld x hx => ?_, (hr.gen_eq nofun ht).trans (dropDecisions_gen _ _ _)⟩
  intro n drop
  have hdrop : dropped s.cfg.videoChromaLoss n = true ↔ drop := dropped_iff _ n
  have hI := hr.yiqAt_dropout h ht (.inl rfl) hy hfld hx
  have hQ := hr.yiqAt_dropout h ht (.inr rfl) hy hfld hx
  refine ⟨hr.yiqAt_of_plane_eq h nofun ht (by decide) hy hfld hx rfl, fun hd => ?_, fun hd => ?_⟩
  · exact ⟨hI.trans (if_pos (hdrop.2 hd)), hQ.trans (if_pos (hdrop.2 hd))⟩
  · exact ⟨hI.trans (if_neg (mt hdrop.1 hd)), hQ.trans (if_neg (mt hdrop.1 hd))⟩

end Sys2Proof.Machine
end

section
/-! PROOFS. The composite lowpass on chroma rows (45_stages.md R155 to R157): O57. -/

namespace Sys2Proof.Machine

/-- The cascade that a row is filtered with: three lowpasses restarted at 0 (R156). -/
def restartedCascade (alpha : F64) : Cascade := (⟨alpha, 0⟩, ⟨alpha, 0⟩, ⟨alpha, 0⟩)

/-- A row through the cascade: each step is one update, and a column takes the output `delay` columns on. -/
theorem compositeRow_trace (hw : HwParams) (p : Path) (alpha : F64) (delay w : Nat) (row : List I32) :
    ∃ q : Nat → F64 × F64 × F64, q 0 = (0, 0, 0) ∧ ∀ x < w,
      CascadeOut hw (restartedCascade alpha) (q x) (fofI32 (row.getD x 0)) (q (x + 1)) ∧
      (compositeRow hw.lowpassOrder p alpha delay w row).getD x 0 =
        if x + delay < w then ftoI32 (q (x + delay + 1)).2.2 else row.getD x 0 := by
  obtain ⟨q, outs, h0, hrun, -, houts⟩ := runFilter_trace
    (Out := fun x v y out => CascadeOut hw (restartedCascade alpha) x v y ∧ out = y.2.2)
    (fun p x v => (lowpass3_withPrev hw p (restartedCascade alpha) x v).imp fun y hy => ⟨y.2.2, hy.1, hy.2, rfl⟩)
    p 0 (0, 0, 0) ((List.range w).map fun x => fofI32 (row.getD x 0))
  have hrun' : (runFilter (lowpass3 hw.lowpassOrder) p 0 (restartedCascade alpha)
      ((List.range w).map fun x => fofI32 (row.getD x 0))).2 = outs := congrArg Prod.snd hrun
  have hstep : ∀ x < w, CascadeOut hw (restartedCascade alpha) (q x) (fofI32 (row.getD x 0)) (q (x + 1)) ∧
      outs.getD x 0 = (q (x + 1)).2.2 := fun x hx => by
    have hout := houts x (by simpa using hx)
    rwa [getD_map_range _ hx] at hout
  refine ⟨q, h0, fun x hx => ⟨(hstep x hx).1, ?_⟩⟩
  rw [restartedCascade] at hrun'
  rw [compositeRow, hrun', getD_map_range _ hx]
  split_ifs with hlast
  · rw [(hstep _ hlast).2]
  · rfl

theorem plane_lowpassStandard (e : StageEnv) (f : FieldRows) :
    (lowpassStandard e f).plane 1 = compositePlane e (1 :: e.path) 1300000 e.hw.delayI (f.plane 1) ∧
    (lowpassStandard e f).plane 2 = compositePlane e (2 :: e.path) 600000 e.hw.delayQ (f.plane 2) := ⟨rfl, rfl⟩

theorem plane_lowpassTV (e : StageEnv) (f : FieldRows) {p : Nat} (hp : p = 1 ∨ p = 2) :
    (lowpassTV e f).plane p = compositePlane e (p :: e.path) 2600000 e.hw.delayTV (f.plane p) := by
  obtain rfl | rfl := hp <;> rfl

/-- Settles O57: the profile picks the cutoff and the delay of a plane, whose rows are then filtered one by one. -/
theorem compositeLowpassStages : Obligations.CompositeLowpassStages := by
  intro fld k s t h hframe ht hk tv p cutoff delay hprofile
  obtain ⟨st, hr, hst, hTV, hstandard⟩ : ∃ st, s.StageRuns k st ∧ st ≠ .toRgb ∧
      (tv → (s.stageResult fld k st).1 = lowpassTV (s.stageEnv fld k) (s.loadField fld)) ∧
      (¬ tv → (s.stageResult fld k st).1 = lowpassStandard (s.stageEnv fld k) (s.loadField fld)) := by
    obtain ⟨hk, hin⟩ | ⟨hk, hout⟩ := hk
    · exact ⟨.inputLowpass, ⟨by rw [hk]; rfl, hframe, by omega, hin⟩, nofun,
        fun htv => absurd htv.1 (by omega), fun _ => rfl⟩
    · exact ⟨.outputLowpass, ⟨by rw [hk]; rfl, hframe, by omega, hout⟩, nofun,
        fun htv => if_pos htv.2, fun htv => if_neg fun h => htv ⟨hk, h⟩⟩
  obtain ⟨hp, path, hz, rfl, hplane⟩ : p < 3 ∧ ∃ path, ∃ hz : Nat, hz = cutoff ∧
      (s.stageResult fld k st).1.plane p =
        compositePlane (s.stageEnv fld k) path hz delay (s.loadPlane fld p) := by
    obtain ⟨htv, rfl, rfl, rfl⟩ | ⟨htv, rfl, rfl, rfl⟩ | ⟨htv, hp, rfl, rfl⟩ := hprofile
    · refine ⟨by decide, 1 :: (s.stageEnv fld k).path, 1300000, rfl, ?_⟩
      rw [hstandard htv, (plane_lowpassStandard _ _).1, s.plane_loadField _ (by decide), State.stageEnv_hw]
    · refine ⟨by decide, 2 :: (s.stageEnv fld k).path, 600000, rfl, ?_⟩
      rw [hstandard htv, (plane_lowpassStandard _ _).2, s.plane_loadField _ (by decide), State.stageEnv_hw]
    · have hp3 : p < 3 := by omega
      refine ⟨hp3, p :: (s.stageEnv fld k).path, 2600000, rfl, ?_⟩
      rw [hTV htv, plane_lowpassTV _ _ hp, s.plane_loadField _ hp3, State.stageEnv_hw]
  refine ⟨coeff (0 :: path) s.hw.sampleRateHz (fofInt hz), ⟨_, _, _, _, _, _, _, _, rfl, rfl, rfl⟩,
    fun y hy hfld => ?_⟩
  obtain ⟨q, h0, hq⟩ := compositeRow_trace s.hw (y / 2 :: 1 :: path)
    (coeff (0 :: path) s.hw.sampleRateHz (fofInt hz)) delay s.frameW (s.planeRow p y)
  refine ⟨fun n => (q n).1, fun n => (q n).2.1, fun n => (q n).2.2, congrArg Prod.fst h0, congrArg (·.2.1) h0,
    congrArg (·.2.2) h0, fun x hx => ?_⟩
  obtain ⟨⟨out₀, out₁, out₂⟩, hcolumn⟩ := hq x hx
  rw [s.getD_planeRow p y hx] at out₀ hcolumn
  exact ⟨out₀, out₁, out₂, (hr.yiqAt_of_mapRows h hst ht hp hy hfld hx hplane).trans hcolumn⟩

end Sys2Proof.Machine
end

section
/-! PROOFS. The ringing stage (45_stages.md R158 to R161): which planes it works on, the two variants on a row, O58. -/

namespace Sys2Proof.Machine

/-! ## The planes (R158) -/

/-- Plane `p` is in the set. -/
abbrev PlaneSet.Has (r : PlaneSet) (p : Nat) : Prop :=
  p = 0 ∧ r.y = true ∨ p = 1 ∧ r.i = true ∨ p = 2 ∧ r.q = true

theorem PlaneSet.Has.nonempty {r : PlaneSet} {p : Nat} (h : r.Has p) : r.nonempty = true := by
  obtain ⟨-, h⟩ | ⟨-, h⟩ | ⟨-, h⟩ := h <;> simp [PlaneSet.nonempty, h]

theorem plane_ringField (e : StageEnv) (f : FieldRows) {p : Nat} (hp : p < 3) : (ringField e f).plane p =
    if e.hw.ringPlanes.Has p then ringPlane e (p :: e.path) (f.plane p) else f.plane p := by
  interval_cases p <;> simp [PlaneSet.Has, ringField, FieldRows.plane]

/-! ## The simple variant (R159) -/

theorem getD_ringSimpleRow (p : Path) (gain : F64) {w x : Nat} (row : List I32) (hx : x < w) :
    (x = 0 ∨ x + 1 = w → (ringSimpleRow p gain w row).getD x 0 = row.getD x 0) ∧
    (1 ≤ x → x + 2 ≤ w → ∃ p₁ p₂ p₃, (ringSimpleRow p gain w row).getD x 0 = row.getD x 0 +
      ftoI32 (fmul p₁ (fmul p₂ (fofI32 (row.getD (x + 1) 0 - row.getD (x - 1) 0)) (fsub p₃ gain fone))
        ftenth)) := by
  rw [ringSimpleRow, getD_map_range _ hx]
  exact ⟨fun hend => if_neg (by omega), fun hlo hhi => ⟨_, _, _, if_pos ⟨hlo, hhi⟩⟩⟩

/-! ## The power-law variant (R160) -/

@[simp] theorem length_spectrumShift (a : List C64) : (spectrumShift a).length = a.length := by
  simp [spectrumShift]

@[simp] theorem length_maskSpectrum (p : Path) (a : List C64) (m : List F64) :
    (maskSpectrum p a m).length = a.length := by
  simp [maskSpectrum]

theorem getD_spectrumShift {a : List C64} {w i : Nat} (hw : a.length = w) (hi : i < w) :
    (spectrumShift a).getD i (0, 0) = a.getD ((i + w / 2) % w) (0, 0) := by
  rw [spectrumShift, hw, getD_map_range _ hi]

theorem getD_map_of_lt {α β : Type} (f : α → β) {a : List α} {n : Nat} (h : n < a.length) (d : α) (d' : β) :
    (a.map f).getD n d' = f (a.getD n d) := by
  simp [h]

/-- The transform of a row. -/
def rowSpectrum (p : Path) (w : Nat) (row : List I32) : List C64 :=
  forwardTransform (0 :: p) ((List.range w).map fun x => (fofI32 (row.getD x 0), 0))

/-- The shifted transform of a row times the mask. -/
def shapedSpectrum (p : Path) (mask : List F64) (w : Nat) (row : List I32) : List C64 :=
  maskSpectrum (1 :: p) (spectrumShift (rowSpectrum p w row)) mask

theorem ringPowerRow_eq (p : Path) (mask : List F64) (w : Nat) (row : List I32) : ringPowerRow p mask w row =
    (inverseTransform (2 :: p) (spectrumShift (shapedSpectrum p mask w row))).map fun v => ftoI32 v.1 := rfl

section

variable (p : Path) {levels w : Nat} (hw : w = 2 ^ levels) (row : List I32)

include hw

theorem rowSpectrum_eq : rowSpectrum p w row =
    fft (0 :: p) false levels ((List.range w).map fun x => (fofI32 (row.getD x 0), 0)) := by
  rw [rowSpectrum, forwardTransform, List.length_map, List.length_range, hw, Nat.log2_two_pow]

theorem length_rowSpectrum : (rowSpectrum p w row).length = w := by
  rw [rowSpectrum_eq p hw, length_fft _ _ (by simp [hw]), hw]

theorem length_shapedSpectrum (mask : List F64) : (shapedSpectrum p mask w row).length = w := by
  rw [shapedSpectrum, length_maskSpectrum, length_spectrumShift, length_rowSpectrum p hw]

theorem getD_shapedSpectrum (mask : List F64) {x : Nat} (hx : x < w) : ∃ p₁ p₂,
    (shapedSpectrum p mask w row).getD x (0, 0) =
      (fmul p₁ ((rowSpectrum p w row).getD ((x + w / 2) % w) (0, 0)).1 (mask.getD x 0),
       fmul p₂ ((rowSpectrum p w row).getD ((x + w / 2) % w) (0, 0)).2 (mask.getD x 0)) := by
  have hlen := length_rowSpectrum p hw row
  have hbound : x < (spectrumShift (rowSpectrum p w row)).length := by rwa [length_spectrumShift, hlen]
  rw [shapedSpectrum, maskSpectrum, getD_mapIdx _ hbound (0, 0), getD_spectrumShift hlen hx]
  exact ⟨_, _, rfl⟩

theorem getD_ringPowerRow (mask : List F64) {x : Nat} (hx : x < w) : ∃ p₁,
    (ringPowerRow p mask w row).getD x 0 = ftoI32 (fdiv p₁
      ((fft (0 :: 2 :: p) true levels (spectrumShift (shapedSpectrum p mask w row))).getD x (0, 0)).1
      (fofInt w)) := by
  have hlen : (spectrumShift (shapedSpectrum p mask w row)).length = w := by
    rw [length_spectrumShift, length_shapedSpectrum p hw]
  have hbound : x < (inverseTransform (2 :: p) (spectrumShift (shapedSpectrum p mask w row))).length := by
    rwa [length_inverseTransform _ (hlen.trans hw), hlen]
  obtain ⟨p₁, p₂, hdiv⟩ := inverseTransform_getD (2 :: p) (hlen.trans hw) (n := x) (by rwa [hlen])
  rw [ringPowerRow_eq, getD_map_of_lt _ hbound (0, 0), hdiv, hlen]
  exact ⟨_, rfl⟩

/-- The row's transform is shifted, masked, shifted back and inverted; the real parts are truncated. -/
theorem ringPowerRow_out (cfg : Cfg) {sample : Nat → I32} (hsample : ∀ x < w, row.getD x 0 = sample x) :
    ∃ spectrum masked result : Nat → C64,
      FftOut (fneg fone) levels (fun x => (fofI32 (sample x), 0)) spectrum ∧
      (∀ x < w, ∃ p₁ p₂, masked x =
        (fmul p₁ (spectrum ((x + w / 2) % w)).1 (Config.ringMask cfg w x),
         fmul p₂ (spectrum ((x + w / 2) % w)).2 (Config.ringMask cfg w x))) ∧
      FftOut fone levels (fun x => masked ((x + w / 2) % w)) result ∧
      ∀ x < w, ∃ p₁, (ringPowerRow p (ringMaskRow cfg w) w row).getD x 0 =
        ftoI32 (fdiv p₁ (result x).1 (fofInt w)) := by
  refine ⟨fun x => (rowSpectrum p w row).getD x (0, 0),
    fun x => (shapedSpectrum p (ringMaskRow cfg w) w row).getD x (0, 0), _, ?_, fun x hx => ?_,
    fftOut_fft (0 :: 2 :: p) true fun n hn =>
      getD_spectrumShift (length_shapedSpectrum p hw row _) (hn.trans_eq hw.symm),
    fun x hx => getD_ringPowerRow p hw row _ hx⟩
  · rw [rowSpectrum_eq p hw]
    refine fftOut_fft (0 :: p) false fun n hn => ?_
    rw [← hw] at hn
    rw [getD_map_range _ hn, hsample n hn]
  · have hmask : (ringMaskRow cfg w).getD x 0 = Config.ringMask cfg w x := getD_map_range _ hx 0
    rw [← hmask]
    exact getD_shapedSpectrum p hw row _ hx

end

/-! ## The stage -/

/-- The power-law variant passes the check of the row length only if that is a power of two (R200). -/
theorem State.exists_levels_of_ringed {s : State} {p : Nat} (hp : s.hw.ringPlanes.Has p)
    (hpred : stagePred s.cfg .ringing = true) (hpower : s.cfg.enableRinging2 = true)
    (hlength : s.badRingLength = false) : ∃ levels, s.frameW = 2 ^ levels := by
  refine (isPow2_iff _).1 ?_
  simpa [State.badRingLength, hpred, hpower, hp.nonempty] using hlength

/-- Settles O58: the planes outside `RING_PLANES` are stored as loaded, the others row by row in either variant. -/
theorem ringingStage : Obligations.RingingStage := by
  intro fld s t p h hframe hring hlength ht hp ringed y hy hfld
  have hpred : stagePred s.cfg .ringing = true := by simp [stagePred, fne, hring]
  have hr : s.StageRuns 3 .ringing := ⟨rfl, hframe, by simp [hlength], hpred⟩
  have hplane : (s.stageResult fld (3 : Fin 32) .ringing).1.plane p =
      if ringed then ringPlane (s.stageEnv fld 3) (p :: (s.stageEnv fld 3).path) (s.loadPlane fld p)
      else s.loadPlane fld p := by
    rw [← s.plane_loadField fld hp]
    exact plane_ringField _ _ hp
  refine ⟨fun hout x hx => ?_, fun hin hsimple x hx => ?_, fun hin hpower => ?_⟩
  · rw [if_neg hout] at hplane
    exact hr.yiqAt_of_plane_eq h nofun ht hp hy hfld hx hplane
  · rw [if_pos hin, ringPlane, State.stageEnv_cfg, if_neg (ne_true_of_eq_false hsimple)] at hplane
    rw [hr.yiqAt_of_mapRows h nofun ht hp hy hfld hx hplane]
    obtain ⟨hends, hinterior⟩ := getD_ringSimpleRow (y / 2 :: p :: (s.stageEnv fld 3).path) s.cfg.ringing
      (s.planeRow p y) hx
    rw [s.getD_planeRow p y hx] at hends hinterior
    refine ⟨hends, fun hlo hhi => ?_⟩
    rw [← s.getD_planeRow p y (x := x + 1) (by omega) 0, ← s.getD_planeRow p y (x := x - 1) (by omega) 0]
    exact hinterior hlo hhi
  · rw [if_pos hin, ringPlane, State.stageEnv_cfg, if_pos hpower] at hplane
    obtain ⟨levels, hlevels⟩ := State.exists_levels_of_ringed hin hpred hpower hlength
    obtain ⟨spectrum, masked, result, hspectrum, hmasked, hresult, hrow⟩ :=
      ringPowerRow_out (y / 2 :: p :: (s.stageEnv fld 3).path) hlevels (s.planeRow p y) s.cfg
        fun x hx => s.getD_planeRow p y hx 0
    refine ⟨levels, spectrum, masked, result, hlevels, hspectrum, hmasked, hresult, fun x hx => ?_⟩
    rw [hr.yiqAt_of_mapRows h nofun ht hp hy hfld hx hplane]
    exact hrow x hx

end Sys2Proof.Machine
end

section
/-! PROOFS. The commands of the dispatcher (46_dispatcher.md R192, R193): what `PIPE.PROCESS` checks, O45, and what the
fork leaves, O46. -/

namespace Sys2Proof.Machine

open Host (Outcome)

/-! ## The pre-checks (R192) -/

theorem State.frameEmpty_iff (s : State) : s.frameEmpty = true ↔ s.width = 0 ∨ s.height = 0 := by
  rw [State.frameEmpty, Bool.or_eq_true, beq_iff_eq, beq_iff_eq, State.frameW, State.frameH, BitVec.toNat_eq,
    BitVec.toNat_eq]
  rfl

theorem State.frameEmpty_eq_false {s : State} (hw : s.width ≠ 0) (hh : s.height ≠ 0) : s.frameEmpty = false := by
  rw [Bool.eq_false_iff, ne_eq, s.frameEmpty_iff]
  exact not_or_intro hw hh

theorem PlaneSet.nonempty_iff (r : PlaneSet) : r.nonempty = true ↔ r.y = true ∨ r.i = true ∨ r.q = true := by
  rw [PlaneSet.nonempty, Bool.or_eq_true, Bool.or_eq_true, or_assoc]

theorem stagePred_ringing_iff (cfg : Cfg) : stagePred cfg .ringing = true ↔ feq cfg.ringing fone = false := by
  rw [stagePred, fne, Bool.not_eq_true']

theorem State.badRingLength_iff (s : State) : s.badRingLength = true ↔
    feq s.cfg.ringing fone = false ∧ s.cfg.enableRinging2 = true ∧
      (s.hw.ringPlanes.y = true ∨ s.hw.ringPlanes.i = true ∨ s.hw.ringPlanes.q = true) ∧
      ¬ ∃ k, s.frameW = 2 ^ k := by
  rw [State.badRingLength, Bool.and_eq_true, Bool.and_eq_true, Bool.and_eq_true, stagePred_ringing_iff,
    PlaneSet.nonempty_iff, Bool.not_eq_true', ← Bool.not_eq_true (isPow2 _), isPow2_iff, and_assoc, and_assoc]

/-- Settles O45: the first check that fails decides. -/
theorem processPrechecks : Obligations.ProcessPrechecks := by
  refine fun s => ⟨fun hsize => if_pos (s.frameEmpty_iff.2 hsize), fun hw hh he hbad => ?_⟩
  have hempty := State.frameEmpty_eq_false hw hh
  have hword : encode .pipeProcess = 0x70000000 := by decide
  rw [exec, execPipeProcess, if_neg (Bool.eq_false_iff.1 hempty), if_pos (s.badRingLength_iff.2 hbad),
    s.raise_eq_recorded _ _ he, hword]

/-! ## The fork (R193) -/

theorem State.fork_status (s : State) : s.fork.status = { s.status with busy := true, done := false } := by
  obtain ⟨m, e⟩ := s.rgb2yiq_setYiq
  rw [State.fork, e]
  rfl

theorem State.fork_sc (s : State) (t : Fin 2) : s.fork.sc[t] = 0 := by
  rw [State.fork, State.loseScratch_sc, State.loseScratch_sc, State.setSc_get, State.setSc_get]
  fin_cases t <;> rfl

theorem State.fork_yiq (s : State) : s.fork.yiq = s.rgb2yiq.yiq := rfl

/-- What the fork changes besides the status and the counters: the samples of the frame, and the scratch of the tasks'
contexts (10_state.md R40). -/
def State.forkFootprint (s : State) : Footprint where
  flt c _ := c ≠ 2
  line c _ _ := c ≠ 2
  z c _ := c ≠ 2
  yiq n := n < 3 * s.frameW * s.frameH

theorem State.Inv.changesOnly_fork {s : State} (h : s.Inv) :
    ChangesOnly s.forkFootprint s { s.fork with status := s.status, sc := s.sc } := by
  obtain ⟨m, hm, e⟩ := h.framesOk.fork
  have converted : ChangesOnly s.forkFootprint s (s.setYiq m) :=
    changesOnly_setYiq fun n hn => hm.outside n (Nat.le_of_not_lt hn)
  have lost (u : State) {c : Fin 3} (hc : c ≠ 2) : ChangesOnly s.forkFootprint u (u.loseScratch c) :=
    changesOnly_loseScratch (fun _ => hc) (fun _ _ => hc) fun _ => hc
  rw [e]
  exact (converted.trans (lost _ (c := 0) (by decide))).trans (lost _ (c := 1) (by decide))

/-- Settles O46: the fork and the command convert the frame alike. -/
theorem processForks : Obligations.ProcessForks := fun s h hw hh hring =>
  ⟨_, _, exec_pipeProcess_of_accepted ⟨State.frameEmpty_eq_false hw hh, hring⟩, rfl, s.fork_status, s.fork_sc 0,
    s.fork_sc 1, fun _ => rfl, h.changesOnly_fork⟩

end Sys2Proof.Machine
end

section
/-! PROOFS. `PIPE.STAGE` (46_dispatcher.md R196, R200; 45_stages.md R151, R152): what it leaves when the predicate is
false, O54, and what every stage keeps, O55. -/

namespace Sys2Proof.Machine

open Host (Outcome)

/-- `PIPE.STAGE` past its checks runs its stage and leaves the scratch of the field's context open (R200). -/
theorem exec_pipeStage_of_accepted {s : State} {k : Fin 32} (t : Fin 2) (hk : stageNumberLegal k)
    (hframe : s.frameEmpty = false) (hring : ¬ (k.val = 3 ∧ s.badRingLength = true)) :
    exec (.pipeStage t k) s = .next ((s.stageStep t k).loseScratch t.castSucc) := by
  rw [exec, execPipeStage, if_neg (not_not_intro hk), hframe, if_neg Bool.false_ne_true, if_neg hring]

/-! ## A stage whose predicate is false (R196) -/

theorem State.stageStep_of_not_pred {s : State} {k : Nat} {st : Stage} (hst : stageList[k]? = some st)
    (hpred : stagePred s.cfg st = false) (t : Fin 2) : s.stageStep t k = s := by
  simp only [State.stageStep, hst, hpred, Bool.false_eq_true, if_false]

theorem State.stageStep_of_pred {s : State} {k : Nat} {st : Stage} (hst : stageList[k]? = some st)
    (hpred : stagePred s.cfg st = true) (t : Fin 2) : s.stageStep t k = s.runStage t k st := by
  simp only [State.stageStep, hst, hpred, if_true]

/-- The ringing length check belongs to a stage that would run. -/
theorem State.badRingLength_of_not_pred {s : State} (hpred : stagePred s.cfg .ringing = false) :
    s.badRingLength = false := by
  rw [State.badRingLength, hpred]
  rfl

theorem State.taskStep_of_le {s : State} {t : Fin 2} (h : s.sc[t] ≤ 16) :
    s.taskStep t = (s.stageStep t s.sc[t]).setSc t (s.sc[t] + 1) := if_pos h

/-- Settles O54: the table of R196 is the model's, row by row, and the step of a stage that does not run is empty. -/
theorem skippedStages : Obligations.SkippedStages := by
  intro fld k s hk hfalse
  obtain ⟨st, hst, hpred⟩ : ∃ st, stageList[k.val]? = some st ∧ stagePred s.cfg st = false := by
    obtain ⟨k, hk32⟩ := k
    dsimp only at hk hfalse
    have hk15 : k ≤ 15 := by
      by_contra hlast
      obtain rfl : k = 16 := by omega
      exact hfalse trivial
    interval_cases k <;> exact ⟨_, rfl, by simpa [stagePred, fne] using hfalse⟩
  have hskip := State.stageStep_of_not_pred hst hpred fld
  refine ⟨?_, fun hsc => ?_⟩
  · by_cases hframe : s.frameEmpty = true
    · refine ⟨s, ?_, .refl _ s⟩
      rw [exec, execPipeStage, if_neg (not_not_intro hk), if_pos hframe]
    · have hring : ¬ (k.val = 3 ∧ s.badRingLength = true) := by
        rintro ⟨h3, hbad⟩
        rw [h3] at hst
        obtain rfl : Stage.ringing = st := Option.some.inj hst
        exact Bool.false_ne_true ((State.badRingLength_of_not_pred hpred).symm.trans hbad)
      refine ⟨_, exec_pipeStage_of_accepted fld hk (Bool.eq_false_iff.2 hframe) hring, ?_⟩
      rw [hskip]
      exact changesOnly_loseScratch (fun _ => rfl) (fun _ _ => rfl) fun _ => rfl
  · rw [State.taskStep_of_le (hsc.trans_le hk), hsc, hskip]
    rfl

/-! ## What a stage leaves, whether its predicate holds or not -/

theorem State.runStage_toRgb (s : State) (t : Fin 2) (k : Nat) : s.runStage t k .toRgb = s.yiq2rgb t := if_pos rfl

theorem State.runStage_of_ne (s : State) (t : Fin 2) (k : Nat) {st : Stage} (hne : st ≠ .toRgb) :
    s.runStage t k st =
      (s.storeField t (s.stageResult t k st).1).setGen t.castSucc (s.stageResult t k st).2 := if_neg hne

section

variable {s : State} {k : Nat} {st : Stage} (hst : stageList[k]? = some st) (t : Fin 2)

include hst

/-- Only the last stage writes `RGBOUT`, and it writes nothing else (R172). -/
theorem State.stageStep_rgbout (hne : st ≠ .toRgb) : (s.stageStep t k).rgbout = s.rgbout := by
  cases hpred : stagePred s.cfg st
  · rw [State.stageStep_of_not_pred hst hpred]
  · obtain ⟨m, e⟩ := s.storeField_setYiq t (s.stageResult t k st).1
    rw [State.stageStep_of_pred hst hpred, s.runStage_of_ne t k hne, e]
    rfl

theorem State.stageStep_yiq_of_toRgb (heq : st = .toRgb) : (s.stageStep t k).yiq = s.yiq := by
  subst heq
  obtain ⟨m, e⟩ := s.yiq2rgb_setRgbout t
  rw [State.stageStep_of_pred hst rfl, State.runStage_toRgb, e]
  rfl

theorem State.stageStep_gen : (s.stageStep t k).ctx[t.castSucc].gen =
    if stagePred s.cfg st then (s.stageResult t k st).2 else s.ctx[t.castSucc].gen := by
  cases hpred : stagePred s.cfg st
  · rw [State.stageStep_of_not_pred hst hpred]
    rfl
  · rw [State.stageStep_of_pred hst hpred, if_pos rfl]
    by_cases heq : st = .toRgb
    · subst heq
      obtain ⟨m, e⟩ := s.yiq2rgb_setRgbout t
      rw [State.runStage_toRgb, e]
      rfl
    · rw [s.runStage_of_ne t k heq, State.setGen_gen]

theorem State.Inv.yiqAt_stageStep (h : s.Inv) {p y x : Nat} (hp : p < 3) (hy : y < s.frameH) (hyt : y % 2 = t)
    (hx : x < s.frameW) : (s.stageStep t k).yiqAt p y x =
      if stagePred s.cfg st then ((s.stageResult t k st).1.plane p).at (y / 2) x else s.yiqAt p y x := by
  cases hpred : stagePred s.cfg st
  · rw [State.stageStep_of_not_pred hst hpred]
    rfl
  · rw [State.stageStep_of_pred hst hpred, if_pos rfl]
    by_cases heq : st = .toRgb
    · subst heq
      obtain ⟨m, e⟩ := s.yiq2rgb_setRgbout t
      rw [State.runStage_toRgb, e]
      exact ((congrArg (PlaneRows.at · _ _) (s.plane_loadField t hp)).trans (s.at_loadPlane p hy hyt hx)).symm
    · rw [s.runStage_of_ne t k heq]
      exact h.yiqAt_storeField t _ hp hy hyt hx

/-- A plane that the body of a stage keeps. -/
theorem State.Inv.yiqAt_stageStep_of_plane_eq (h : s.Inv) {p y x : Nat} (hp : p < 3)
    (hplane : ∀ e f g, (stageBody e f g st).1.plane p = f.plane p) (hy : y < s.frameH) (hyt : y % 2 = t)
    (hx : x < s.frameW) : (s.stageStep t k).yiqAt p y x = s.yiqAt p y x := by
  rw [h.yiqAt_stageStep hst t hp hy hyt hx, State.stageResult, hplane, s.plane_loadField t hp,
    s.at_loadPlane p hy hyt hx, ite_self]

end

/-! ## What the stages keep, by number -/

theorem stage_eq_toRgb_iff {k : Nat} {st : Stage} (hst : stageList[k]? = some st) : st = .toRgb ↔ k = 16 := by
  have distinct : stageList.Nodup := by decide
  have last : 16 < stageList.length := by decide
  obtain ⟨hlt, rfl⟩ := List.getElem?_eq_some_iff.1 hst
  exact distinct.getElem_inj_iff (hi := hlt) (hj := last)

section

variable {k : Nat} {st : Stage} (hst : stageList[k]? = some st) (e : StageEnv) (f : FieldRows) (g : Gen)

include hst

/-- The stages without randomness (R150). -/
theorem stageBody_gen_of_no_draw (hk : k ≤ 4 ∧ 1 ≤ k ∨ k = 8 ∨ 13 ≤ k) : (stageBody e f g st).2 = g := by
  obtain ⟨hlt, rfl⟩ := List.getElem?_eq_some_iff.1 hst
  obtain ⟨hmax, hmin⟩ | rfl | hmin := hk
  · interval_cases k <;> rfl
  · rfl
  · have hmax : k < 17 := hlt
    interval_cases k <;> rfl

/-- The stages on chroma alone (R154 to R157, R163, R165, R166, R170, R171). -/
theorem stageBody_luma (hk : k ∈ [1, 2, 9, 10, 12, 13, 14, 15]) : (stageBody e f g st).1.plane 0 = f.plane 0 := by
  obtain ⟨hlt, rfl⟩ := List.getElem?_eq_some_iff.1 hst
  by_cases h13 : k = 13
  · subst h13
    show (if e.cfg.outputChromaLowpassTV then lowpassTV e f else lowpassStandard e f).plane 0 = _
    split <;> rfl
  · have hk : k ∈ [1, 2, 9, 10, 12, 14, 15] := by
      simp only [List.mem_cons, List.not_mem_nil, or_false] at hk ⊢
      omega
    fin_cases hk <;> rfl

/-- The stages on luma alone (R163, R164). -/
theorem stageBody_chroma (hk : k ∈ [6, 7]) {p : Nat} (hp : p = 1 ∨ p = 2) :
    (stageBody e f g st).1.plane p = f.plane p := by
  obtain ⟨hlt, rfl⟩ := List.getElem?_eq_some_iff.1 hst
  fin_cases hk <;> obtain rfl | rfl := hp <;> rfl

end

theorem ChangesOnly.stage_of_task {s u v : State} {t : Fin 2} (h : ChangesOnly (s.taskFootprint t) u v) :
    ChangesOnly (s.stageFootprint t) u v :=
  h.mono (fun _ => id) (fun _ => id) (fun _ => id) (fun _ _ => False.elim) (fun _ _ _ => False.elim)
    (fun _ _ => False.elim) (fun _ => id) fun _ => id

/-- The loss of scratch is in the footprint of a stage run alone. -/
theorem State.Inv.changesOnly_pipeStage {s : State} (h : s.Inv) (t : Fin 2) (k : Nat) :
    ChangesOnly (s.stageFootprint t) s ((s.stageStep t k).loseScratch t.castSucc) :=
  (h.framesOk.stageStep t k).2.stage_of_task.trans
    (changesOnly_loseScratch (fun _ => rfl) (fun _ _ => rfl) fun _ => rfl)

theorem State.stageStep_draws (s : State) (t : Fin 2) (k : Nat) :
    ∃ n, (s.stageStep t k).ctx[t.castSucc].gen = advance n s.ctx[t.castSucc].gen := by
  obtain ⟨m, m', n, e⟩ := s.stageStep_fields t k
  exact ⟨n, by rw [e, State.setGen_gen]⟩

/-- Settles O55: the loss of scratch leaves what the stage left in the frame buffers and the generator. -/
theorem stageContract : Obligations.StageContract := by
  intro fld k s h hk hframe hring
  obtain ⟨st, hst⟩ : ∃ st, stageList[k.val]? = some st :=
    ⟨_, List.getElem?_eq_getElem (Nat.lt_succ_of_le hk)⟩
  refine ⟨_, exec_pipeStage_of_accepted fld hk hframe hring, h.changesOnly_pipeStage fld k, ?_⟩
  rw [State.loseScratch_gen]
  have hgen := State.stageStep_gen (s := s) hst fld
  have kept {p y x : Nat} (hp : p < 3) (hplane : ∀ e f g, (stageBody e f g st).1.plane p = f.plane p) :=
    h.yiqAt_stageStep_of_plane_eq (y := y) (x := x) hst fld hp hplane
  refine ⟨s.stageStep_draws fld k, fun hnone => ?_, fun hk16 n => ?_, fun hk16 n => ?_,
    fun y hy hyt x hx => ⟨fun hluma => ?_, fun hchroma => ⟨?_, ?_⟩, fun h6 hnoise => ?_⟩⟩
  · rw [hgen, State.stageResult, stageBody_gen_of_no_draw hst _ _ _ hnone, ite_self]
  · rw [State.loseScratch_rgbout, State.stageStep_rgbout hst fld (mt (stage_eq_toRgb_iff hst).1 hk16)]
  · rw [State.loseScratch_yiq, State.stageStep_yiq_of_toRgb hst fld ((stage_eq_toRgb_iff hst).2 hk16)]
  · exact kept (by decide) (fun e f g => stageBody_luma hst e f g hluma) hy hyt hx
  · exact kept (by decide) (fun e f g => stageBody_chroma hst e f g hchroma (.inl rfl)) hy hyt hx
  · exact kept (by decide) (fun e f g => stageBody_chroma hst e f g hchroma (.inr rfl)) hy hyt hx
  · rw [h6] at hst
    obtain rfl : Stage.videoNoise = st := Option.some.inj hst
    have hpred : stagePred s.cfg .videoNoise = true := bne_iff_ne.2 hnoise
    rw [hgen, if_pos hpred]
    rfl

end Sys2Proof.Machine
end

section
/-! PROOFS. The steps of a run (46_dispatcher.md R194, R195, R198): what an agent's turn does, O47, and that every run
reaches its join, O49. -/

namespace Sys2Proof.Machine

open Host (Outcome)

/-! ## An agent's turn -/

theorem step_of_turn {s : State} {a : Agent} {rest : List Agent} (hb : s.status.busy = true)
    (ht : s.turns = a :: rest) : step s = State.agentStep { s with turns := rest } a := by
  simp only [step, hb, if_true, State.busyStep, ht]

theorem step_of_no_turns {s : State} (hb : s.status.busy = true) (ht : s.turns = []) :
    step s = s.agentStep s.defaultAgent := by
  simp only [step, hb, if_true, State.busyStep, ht]

theorem State.taskStep_of_finished {s : State} {t : Fin 2} (h : s.sc[t] = 17) : s.taskStep t = s :=
  if_neg (by omega)

theorem State.taskStep_sc_of_le {s : State} {t : Fin 2} (h : s.sc[t] ≤ 16) :
    (s.taskStep t).sc[t] = s.sc[t] + 1 := by
  rw [State.taskStep_of_le h, State.setSc_get, if_pos rfl]

theorem State.joinReady_iff (s : State) : s.joinReady = true ↔ s.sc[0] = 17 ∧ s.sc[1] = 17 := by
  simp only [State.joinReady, Bool.and_eq_true, beq_iff_eq]

theorem State.joinStep_of_ready {s : State} (h : s.sc[0] = 17 ∧ s.sc[1] = 17) : s.joinStep = s.markJoined :=
  if_pos (s.joinReady_iff.2 h)

theorem State.joinStep_of_not_ready {s : State} (h : ¬ (s.sc[0] = 17 ∧ s.sc[1] = 17)) : s.joinStep = s :=
  if_neg (mt s.joinReady_iff.1 h)

/-- Settles O47: in a run the frame has passed the pre-checks, so `PIPE.STAGE` runs the stage that the task runs. -/
theorem stepsOfARun : Obligations.StepsOfARun := by
  intro s rest h hb s₀
  have ok : s₀.FramesOk := (h.setModel s.inputs rest s.tick s.hostData).framesOk
  obtain ⟨-, hframe, hring⟩ := h.run hb
  refine ⟨fun t ht => ⟨fun hsc => ?_, fun k hk hsc => ?_⟩, fun ht => ⟨fun hready => ?_, fun hready => ?_⟩⟩
  · rw [step_of_turn hb ht]
    exact congrArg Outcome.next (State.taskStep_of_finished (s := s₀) hsc)
  · have hsc₀ : s₀.sc[t] = k.val := hsc
    have hstep : s₀.taskStep t = (s₀.stageStep t k).setSc t (k + 1) := by
      rw [State.taskStep_of_le (hsc₀.trans_le hk), hsc₀]
    have hexec := exec_pipeStage_of_accepted (s := s₀) t hk hframe fun hbad =>
      Bool.false_ne_true (hring.symm.trans hbad.2)
    refine ⟨_, _, step_of_turn hb ht, hexec, ?_, fun t' hne => ok.taskStep_sc_of_ne hne, ?_, ?_, fun c => ?_,
      (ok.taskStep_changesOnly t).stage_of_task⟩
    · rw [hstep, State.setSc_get, if_pos rfl]
    · rw [hstep]
      exact fun _ => rfl
    · rw [hstep]
      exact fun _ => rfl
    · rw [hstep, State.loseScratch_gen]
      rfl
  · rw [step_of_turn hb ht]
    exact congrArg Outcome.next (State.joinStep_of_ready (s := s₀) hready)
  · rw [step_of_turn hb ht]
    exact congrArg Outcome.next (State.joinStep_of_not_ready (s := s₀) hready)

/-! ## The way to the join (R195) -/

/-- The run has ended in its join (R198). -/
structure State.Joined (s : State) : Prop where
  busy : s.status.busy = false
  done : s.status.done = true
  counters : s.sc[0] = 17 ∧ s.sc[1] = 17

/-- The run is active and its schedule gives the host no turn. -/
structure State.Running (s : State) : Prop where
  inv : s.Inv
  busy : s.status.busy = true
  noHost : ∀ a ∈ s.turns, a ≠ .host

/-- How many turns and stages are left before the default agent is the join. -/
def State.stepsLeft (s : State) : Nat := s.turns.length + (17 - s.sc[0]) + (17 - s.sc[1])

theorem State.markJoined_joined {s : State} (h : s.sc[0] = 17 ∧ s.sc[1] = 17) : s.markJoined.Joined :=
  ⟨rfl, rfl, h⟩

namespace State.Running

variable {s : State} (h : s.Running)

include h

theorem taskStep (t : Fin 2) : (s.taskStep t).Running := by
  have fp := h.inv.framesOk.taskStep_changesOnly t
  have hstatus : (s.taskStep t).status = s.status := fp.status
  have hturns : (s.taskStep t).turns = s.turns := fp.turns
  exact ⟨h.inv.taskStep t, hstatus ▸ h.busy, hturns ▸ h.noHost⟩

theorem dropTurn {a : Agent} {rest : List Agent} (ht : s.turns = a :: rest) : ({ s with turns := rest }).Running :=
  ⟨h.inv.setModel s.inputs rest s.tick s.hostData, h.busy,
    fun b hb => h.noHost b (ht ▸ List.mem_cons_of_mem a hb)⟩

theorem stepsLeft_taskStep_lt {t : Fin 2} (ht : s.sc[t] ≤ 16) : (s.taskStep t).stepsLeft < s.stepsLeft := by
  have hturns : (s.taskStep t).turns = s.turns := (h.inv.framesOk.taskStep_changesOnly t).turns
  have hown := State.taskStep_sc_of_le ht
  have hother {t' : Fin 2} (hne : t' ≠ t) : (s.taskStep t).sc[t'] = s.sc[t'] := h.inv.framesOk.taskStep_sc_of_ne hne
  unfold State.stepsLeft
  rw [hturns]
  fin_cases t
  · have h0 : (s.taskStep 0).sc[0] = s.sc[0] + 1 := hown
    have h1 : (s.taskStep 0).sc[1] = s.sc[1] := hother (t' := 1) (by decide)
    have hle : s.sc[0] ≤ 16 := ht
    show _ + (17 - (s.taskStep 0).sc[0]) + (17 - (s.taskStep 0).sc[1]) < _
    omega
  · have h0 : (s.taskStep 1).sc[0] = s.sc[0] := hother (t' := 0) (by decide)
    have h1 : (s.taskStep 1).sc[1] = s.sc[1] + 1 := hown
    have hle : s.sc[1] ≤ 16 := ht
    show _ + (17 - (s.taskStep 1).sc[0]) + (17 - (s.taskStep 1).sc[1]) < _
    omega

theorem stepsLeft_taskStep_le (t : Fin 2) : (s.taskStep t).stepsLeft ≤ s.stepsLeft := by
  by_cases ht : s.sc[t] ≤ 16
  · exact Nat.le_of_lt (h.stepsLeft_taskStep_lt ht)
  · rw [State.taskStep, if_neg ht]

theorem defaultAgent_progress : ∃ u, s.agentStep s.defaultAgent = .next u ∧
    (u.Joined ∨ u.Running ∧ u.stepsLeft < s.stepsLeft) := by
  unfold State.defaultAgent
  split
  · next h0 => exact ⟨_, rfl, .inr ⟨h.taskStep 0, h.stepsLeft_taskStep_lt h0⟩⟩
  next h0 =>
    split
    · next h1 => exact ⟨_, rfl, .inr ⟨h.taskStep 1, h.stepsLeft_taskStep_lt h1⟩⟩
    next h1 =>
      have hmax0 : s.sc[0] ≤ 17 := h.inv.counters 0
      have hmax1 : s.sc[1] ≤ 17 := h.inv.counters 1
      have hready : s.sc[0] = 17 ∧ s.sc[1] = 17 := ⟨by omega, by omega⟩
      exact ⟨_, congrArg Outcome.next (State.joinStep_of_ready hready), .inl (State.markJoined_joined hready)⟩

theorem scheduled_progress {a : Agent} (ha : a ≠ .host) :
    ∃ u, s.agentStep a = .next u ∧ (u.Joined ∨ u.Running ∧ u.stepsLeft ≤ s.stepsLeft) := by
  cases a with
  | host => exact absurd rfl ha
  | task t => exact ⟨_, rfl, .inr ⟨h.taskStep t, h.stepsLeft_taskStep_le t⟩⟩
  | join =>
    by_cases hready : s.sc[0] = 17 ∧ s.sc[1] = 17
    · exact ⟨_, congrArg Outcome.next (State.joinStep_of_ready hready), .inl (State.markJoined_joined hready)⟩
    · exact ⟨_, congrArg Outcome.next (State.joinStep_of_not_ready hready), .inr ⟨h, Nat.le_refl _⟩⟩

/-- A step ends the run or brings its end nearer. -/
theorem progress : ∃ u, step s = .next u ∧ (u.Joined ∨ u.Running ∧ u.stepsLeft < s.stepsLeft) := by
  cases ht : s.turns with
  | nil =>
    rw [step_of_no_turns h.busy ht]
    exact h.defaultAgent_progress
  | cons a rest =>
    have hshorter : ({ s with turns := rest }).stepsLeft < s.stepsLeft := by
      simp only [State.stepsLeft, ht, List.length_cons]
      omega
    rw [step_of_turn h.busy ht]
    obtain ⟨u, hu, hjoined | ⟨hrunning, hle⟩⟩ :=
      (h.dropTurn ht).scheduled_progress (h.noHost a (ht ▸ List.mem_cons_self))
    · exact ⟨u, hu, .inl hjoined⟩
    · exact ⟨u, hu, .inr ⟨hrunning, hle.trans_lt hshorter⟩⟩

end State.Running

theorem core_run_succ {s u : State} (h : step s = .next u) (k : Nat) : core.run (k + 1) s = core.run k u := by
  have hcore : core.step s = .next u := h
  simp only [Host.Core.run, hcore]

theorem State.Running.reaches_join {s : State} (h : s.Running) {n : Nat} (hn : s.stepsLeft ≤ n) :
    ∃ k ≤ n + 1, ∃ t : State, core.run k s = .next t ∧ t.Joined := by
  induction n generalizing s with
  | zero =>
    obtain ⟨u, hu, hjoined | ⟨-, hless⟩⟩ := h.progress
    · exact ⟨1, Nat.le_refl _, u, core_run_succ hu 0, hjoined⟩
    · omega
  | succ n ih =>
    obtain ⟨u, hu, hjoined | ⟨hrunning, hless⟩⟩ := h.progress
    · exact ⟨1, by omega, u, core_run_succ hu 0, hjoined⟩
    · obtain ⟨k, hk, t, ht, hjoined⟩ := ih hrunning (by omega)
      exact ⟨k + 1, by omega, t, (core_run_succ hu k).trans ht, hjoined⟩

/-- Settles O49: each turn and each stage is one step, and the join is one more. -/
theorem everyRunReachesItsJoin : Obligations.EveryRunReachesItsJoin := by
  intro s h hb hhost
  have running : s.Running := ⟨h, hb, hhost⟩
  have bound : s.stepsLeft ≤ s.turns.length + 34 := by unfold State.stepsLeft; omega
  obtain ⟨k, hk, t, ht, hjoined⟩ := running.reaches_join bound
  exact ⟨k, hk, t, ht, hjoined.busy, hjoined.done, hjoined.counters⟩

end Sys2Proof.Machine
end

section
/-! PROOFS. Schedules (46_dispatcher.md R197, R199, R200): when both tasks have finished the state is the same whatever
the interleaving, O50, and the frame is what the stages issued one by one leave, O53. -/

namespace Sys2Proof.Machine

open Host (Outcome)

/-! ## States that the stages do not tell apart -/

/-- The two states agree on all that a stage of either field reads or writes, and on the host's generator. They may
differ in the status, the counters, the scratch and the operand registers. -/
structure SameFrame (s u : State) : Prop where
  cfg : u.cfg = s.cfg
  hw : u.hw = s.hw
  width : u.width = s.width
  height : u.height = s.height
  tick : u.tick = s.tick
  gen : ∀ c : Fin 3, u.ctx[c].gen = s.ctx[c].gen
  yiq : ∀ n, u.yiq.read n = s.yiq.read n
  rgbout : ∀ n, u.rgbout.read n = s.rgbout.read n

/-- The state with other stage counters. -/
def State.setCounters (s : State) (v : Vector Nat 2) : State := { s with sc := v }

namespace SameFrame

variable {s u v : State}

theorem refl (s : State) : SameFrame s s :=
  ⟨rfl, rfl, rfl, rfl, rfl, fun _ => rfl, fun _ => rfl, fun _ => rfl⟩

theorem symm (h : SameFrame s u) : SameFrame u s where
  cfg := h.cfg.symm
  hw := h.hw.symm
  width := h.width.symm
  height := h.height.symm
  tick := h.tick.symm
  gen c := (h.gen c).symm
  yiq n := (h.yiq n).symm
  rgbout n := (h.rgbout n).symm

theorem trans (h : SameFrame s u) (h' : SameFrame u v) : SameFrame s v where
  cfg := h'.cfg.trans h.cfg
  hw := h'.hw.trans h.hw
  width := h'.width.trans h.width
  height := h'.height.trans h.height
  tick := h'.tick.trans h.tick
  gen c := (h'.gen c).trans (h.gen c)
  yiq n := (h'.yiq n).trans (h.yiq n)
  rgbout n := (h'.rgbout n).trans (h.rgbout n)

theorem loseScratch (h : SameFrame s u) (c : Fin 3) : SameFrame s (u.loseScratch c) :=
  { h with gen := fun d => (u.loseScratch_gen c d).trans (h.gen d) }

theorem setSc (h : SameFrame s u) (t : Fin 2) (k : Nat) : SameFrame s (u.setSc t k) :=
  ⟨h.cfg, h.hw, h.width, h.height, h.tick, h.gen, h.yiq, h.rgbout⟩

theorem markForked (h : SameFrame s u) : SameFrame s u.markForked :=
  ⟨h.cfg, h.hw, h.width, h.height, h.tick, h.gen, h.yiq, h.rgbout⟩

/-- With equal counters the task of either field reads the same. -/
theorem sameField (h : SameFrame s u) (t : Fin 2) : SameField t s (u.setCounters s.sc) :=
  ⟨h.cfg, h.hw, h.width, h.height, h.tick, rfl, h.gen t.castSucc, fun n _ => h.yiq n, fun n _ => h.rgbout n⟩

/-- Two states that changed within one footprint, alike, are the same frame again. -/
theorem of_changesOnly {s' u' : State} {fp : Footprint} (h : SameFrame s u) (hs : ChangesOnly fp s s')
    (hu : ChangesOnly fp u u') (gen : ∀ c : Fin 3, fp.gen c → u'.ctx[c].gen = s'.ctx[c].gen)
    (yiq : ∀ n, fp.yiq n → u'.yiq.read n = s'.yiq.read n)
    (rgbout : ∀ n, fp.rgbout n → u'.rgbout.read n = s'.rgbout.read n) : SameFrame s' u' where
  cfg := hu.cfg.trans (h.cfg.trans hs.cfg.symm)
  hw := hu.hw.trans (h.hw.trans hs.hw.symm)
  width := hu.width.trans (h.width.trans hs.width.symm)
  height := hu.height.trans (h.height.trans hs.height.symm)
  tick := hu.tick.trans (h.tick.trans hs.tick.symm)
  gen c := by
    by_cases hc : fp.gen c
    · exact gen c hc
    · exact (hu.gen c hc).trans ((h.gen c).trans (hs.gen c hc).symm)
  yiq n := by
    by_cases hn : fp.yiq n
    · exact yiq n hn
    · exact (hu.yiq n hn).trans ((h.yiq n).trans (hs.yiq n hn).symm)
  rgbout n := by
    by_cases hn : fp.rgbout n
    · exact rgbout n hn
    · exact (hu.rgbout n hn).trans ((h.rgbout n).trans (hs.rgbout n hn).symm)

end SameFrame

/-! ## A stage does not look at the counters -/

section

variable (s : State) (v : Vector Nat 2)

theorem State.storePlane_setCounters (t p : Nat) (rows : PlaneRows) :
    (s.setCounters v).storePlane t p rows = (s.storePlane t p rows).setCounters v :=
  List.foldl_hom (State.setCounters · v) fun _ _ => rfl

theorem State.storeField_setCounters (t : Nat) (f : FieldRows) :
    (s.setCounters v).storeField t f = (s.storeField t f).setCounters v := by
  simp only [State.storeField, State.storePlane_setCounters]

theorem State.yiq2rgb_setCounters (t : Nat) : (s.setCounters v).yiq2rgb t = (s.yiq2rgb t).setCounters v :=
  List.foldl_hom (State.setCounters · v) fun _ _ => rfl

theorem State.stageStep_setCounters (t : Fin 2) (k : Nat) :
    (s.setCounters v).stageStep t k = (s.stageStep t k).setCounters v := by
  unfold State.stageStep
  split
  · next st _ =>
    show (if stagePred s.cfg st then _ else _) = _
    split
    · by_cases hlast : st = .toRgb
      · rw [hlast, State.runStage_toRgb, State.runStage_toRgb, State.yiq2rgb_setCounters]
      · rw [State.runStage_of_ne _ _ _ hlast, State.runStage_of_ne _ _ _ hlast, State.storeField_setCounters]
        rfl
    · rfl
  · rfl

end

theorem State.taskFootprint_congr {s u : State} (hw : u.width = s.width) (hh : u.height = s.height) (t : Fin 2) :
    u.taskFootprint t = s.taskFootprint t := by
  have byte : u.ownByte t = s.ownByte t := funext fun n => propext (State.ownByte_congr hw hh t n)
  have sample : u.ownSample t = s.ownSample t := funext fun n => propext (State.ownSample_congr hw hh t n)
  rw [State.taskFootprint, State.taskFootprint, byte, sample]

theorem SameFrame.stageStep {s u : State} (h : SameFrame s u) (hs : s.FramesOk) (hu : u.FramesOk) (t : Fin 2)
    (k : Nat) : SameFrame (s.stageStep t k) (u.stageStep t k) := by
  have hu' : (u.setCounters s.sc).FramesOk := ⟨hu.fits, hu.yiq, hu.rgbout⟩
  have field := (h.sameField t).stageStep hs hu' k
  have left := (hs.stageStep t k).2
  have right := (hu.stageStep t k).2
  rw [State.stageStep_setCounters] at field
  rw [State.taskFootprint_congr h.width h.height] at right
  refine h.of_changesOnly left right (fun c hc => ?_) (fun n hn => ?_) fun n hn => ?_
  · obtain rfl : c = t.castSucc := hc
    exact field.gen
  · exact field.yiq n ((State.ownSample_congr left.width left.height t n).2 hn)
  · exact field.rgbout n ((State.ownByte_congr left.width left.height t n).2 hn)

/-! ## Two schedules (R199) -/

theorem ctx_eq_two_or_field (c : Fin 3) : c = 2 ∨ ∃ t : Fin 2, c = t.castSucc := by
  fin_cases c
  · exact .inr ⟨0, rfl⟩
  · exact .inr ⟨1, rfl⟩
  · exact .inl rfl

/-- What the tasks of both fields may write. -/
def State.runFootprint (s : State) : Footprint where
  gen c := c ≠ 2
  rgbout n := ∃ t : Fin 2, s.ownByte t n
  yiq n := ∃ t : Fin 2, s.ownSample t n

theorem State.runFootprint_congr {s u : State} (hw : u.width = s.width) (hh : u.height = s.height) :
    u.runFootprint = s.runFootprint := by
  simp only [State.runFootprint, State.ownByte_congr hw hh, State.ownSample_congr hw hh]

theorem State.FramesOk.taskStep_changesOnly_run {s : State} (h : s.FramesOk) (t : Fin 2) :
    ChangesOnly s.runFootprint s { s.taskStep t with sc := s.sc } :=
  (h.taskStep_changesOnly t).mono (fun _ => id) (fun _ => id)
    (fun c (hc : c = t.castSucc) => by rw [hc]; exact Fin.castSucc_ne_last t) (fun _ _ => id) (fun _ _ _ => id)
    (fun _ _ => id) (fun _ hn => ⟨t, hn⟩) fun _ hn => ⟨t, hn⟩

theorem State.FramesOk.runTasks_changesOnly {s : State} (h : s.FramesOk) (l : List (Fin 2)) :
    ChangesOnly s.runFootprint s { s.runTasks l with sc := s.sc } := by
  induction l generalizing s with
  | nil => exact .refl _ s
  | cons t l ih =>
    have first := h.taskStep_changesOnly_run t
    have later := ih (h.taskStep t)
    have sizes : (s.taskStep t).runFootprint = s.runFootprint := State.runFootprint_congr first.width first.height
    rw [sizes] at later
    exact first.trans { later with sc := rfl }

/-- Whatever their interleaving, the finished tasks leave the same frame and the same generators. -/
theorem State.FramesOk.runTasks_sameFrame {s : State} (h : s.FramesOk) {l l' : List (Fin 2)}
    (hl : (s.runTasks l).joinReady = true) (hl' : (s.runTasks l').joinReady = true) :
    SameFrame (s.runTasks l) (s.runTasks l') := by
  have left := h.runTasks_changesOnly l
  have right := h.runTasks_changesOnly l'
  have field (t : Fin 2) := (SameField.refl t s).runTasks_of_finished h h (State.sc_of_joinReady hl t)
    (State.sc_of_joinReady hl' t)
  have same := (SameFrame.refl s).of_changesOnly left right (fun c hc => ?_) (fun n hn => ?_) fun n hn => ?_
  · exact ⟨same.cfg, same.hw, same.width, same.height, same.tick, same.gen, same.yiq, same.rgbout⟩
  · obtain rfl | ⟨t, rfl⟩ := ctx_eq_two_or_field c
    · exact absurd rfl hc
    · exact (field t).gen
  · obtain ⟨t, hn⟩ := hn
    exact (field t).yiq n ((State.ownSample_congr left.width left.height t n).2 hn)
  · obtain ⟨t, hn⟩ := hn
    exact (field t).rgbout n ((State.ownByte_congr left.width left.height t n).2 hn)

/-- The two states differ in the counters, the planar and the output buffer and the generators alone; the scratch of the
contexts is equal (log 23). -/
structure KeepsScratch (s u : State) : Prop where
  rest : u = { s with sc := u.sc, ctx := u.ctx, yiq := u.yiq, rgbout := u.rgbout }
  ctx : ∀ c : Fin 3, u.ctx[c] = { s.ctx[c] with gen := u.ctx[c].gen }

theorem KeepsScratch.trans {s u v : State} (h : KeepsScratch s u) (h' : KeepsScratch u v) : KeepsScratch s v where
  rest := h'.rest.trans (congrArg
    (fun w : State => { w with sc := v.sc, ctx := v.ctx, yiq := v.yiq, rgbout := v.rgbout }) h.rest)
  ctx c := (h'.ctx c).trans (congrArg (fun k : Context => { k with gen := v.ctx[c].gen }) (h.ctx c))

theorem KeepsScratch.ext {s u v : State} (hu : KeepsScratch s u) (hv : KeepsScratch s v) (hsc : u.sc = v.sc)
    (hyiq : u.yiq = v.yiq) (hrgbout : u.rgbout = v.rgbout) (hgen : ∀ c : Fin 3, u.ctx[c].gen = v.ctx[c].gen) :
    u = v := by
  have hctx : u.ctx = v.ctx := Vector.ext fun c hc => by
    have hleft := hu.ctx ⟨c, hc⟩
    rw [hgen] at hleft
    exact hleft.trans (hv.ctx ⟨c, hc⟩).symm
  calc u = { s with sc := u.sc, ctx := u.ctx, yiq := u.yiq, rgbout := u.rgbout } := hu.rest
    _ = { s with sc := v.sc, ctx := v.ctx, yiq := v.yiq, rgbout := v.rgbout } := by rw [hsc, hctx, hyiq, hrgbout]
    _ = v := hv.rest.symm

theorem State.keepsScratch_setGen (s : State) (c : Fin 3) (g : Gen) : KeepsScratch s (s.setGen c g) := by
  refine ⟨rfl, fun d => ?_⟩
  rw [State.setGen, State.setCtx_get]
  split
  · next e => rw [e]
  · rfl

theorem State.keepsScratch_taskStep (s : State) (t : Fin 2) : KeepsScratch s (s.taskStep t) := by
  unfold State.taskStep
  split
  · obtain ⟨m, m', n, e⟩ := s.stageStep_fields t s.sc[t]
    have frames : KeepsScratch s ((s.setYiq m).setRgbout m') := ⟨rfl, fun _ => rfl⟩
    rw [e]
    exact (frames.trans (State.keepsScratch_setGen _ _ _)).trans ⟨rfl, fun _ => rfl⟩
  · exact ⟨rfl, fun _ => rfl⟩

theorem State.keepsScratch_runTasks (s : State) (l : List (Fin 2)) : KeepsScratch s (s.runTasks l) := by
  induction l generalizing s with
  | nil => exact ⟨rfl, fun _ => rfl⟩
  | cons t l ih => exact (s.keepsScratch_taskStep t).trans (ih (s.taskStep t))

theorem State.Inv.runTasks {s : State} (h : s.Inv) (l : List (Fin 2)) : (s.runTasks l).Inv := by
  induction l generalizing s with
  | nil => exact h
  | cons t l ih => exact ih (h.taskStep t)

/-- Canonical frame buffers over a zero fill that read alike are equal. -/
theorem Memory.FrameOk.ext {w size : Nat} {a b : Memory w} (ha : a.FrameOk size) (hb : b.FrameOk size)
    (h : ∀ n, a.read n = b.read n) : a = b :=
  Memory.eq_of_read_eq ha.wf hb.wf ha.zeroFill hb.zeroFill h

/-- Settles O50: what the schedules leave reads alike, and in canonical form that is equality. -/
theorem scheduleIndependence : Obligations.ScheduleIndependence := by
  intro s l l' hs hl hl'
  have same := hs.framesOk.runTasks_sameFrame hl hl'
  have size : (s.runTasks l').frameSize = (s.runTasks l).frameSize := by
    rw [State.frameSize, State.frameSize, same.hw]
  have inv := hs.runTasks l
  have inv' := hs.runTasks l'
  have finished (t : Fin 2) := (State.sc_of_joinReady hl t).trans (State.sc_of_joinReady hl' t).symm
  exact (s.keepsScratch_runTasks l).ext (s.keepsScratch_runTasks l') (Vector.ext fun t ht => finished ⟨t, ht⟩)
    (inv.yiq.ext (size ▸ inv'.yiq) fun n => (same.yiq n).symm)
    (inv.rgbout.ext (size ▸ inv'.rgbout) fun n => (same.rgbout n).symm) fun c => (same.gen c).symm

/-! ## A field's stages in a row -/

theorem State.aloneSteps_succ_last (s : State) (t : Fin 2) (n : Nat) :
    s.aloneSteps t (n + 1) = (s.aloneSteps t n).taskStep t := Function.iterate_succ_apply' ..

theorem State.runTasks_replicate (s : State) (t : Fin 2) (n : Nat) :
    s.runTasks (List.replicate n t) = s.aloneSteps t n := by
  induction n generalizing s with
  | zero => rfl
  | succ n ih => exact ih (s.taskStep t)

theorem State.runTasks_append (s : State) (l l' : List (Fin 2)) :
    s.runTasks (l ++ l') = (s.runTasks l).runTasks l' := List.foldl_append

theorem State.FramesOk.aloneSteps {s : State} (h : s.FramesOk) (t : Fin 2) (n : Nat) :
    (s.aloneSteps t n).FramesOk := by
  induction n generalizing s with
  | zero => exact h
  | succ n ih => exact ih (h.taskStep t)

theorem State.FramesOk.aloneSteps_sc_of_ne {s : State} (h : s.FramesOk) {t t' : Fin 2} (ht : t' ≠ t) (n : Nat) :
    (s.aloneSteps t n).sc[t'] = s.sc[t'] := by
  induction n generalizing s with
  | zero => rfl
  | succ n ih => exact (ih (h.taskStep t)).trans (h.taskStep_sc_of_ne ht)

/-- A task that has not begun runs its stages one by one. -/
theorem State.aloneSteps_sc {s : State} {t : Fin 2} (h : s.sc[t] = 0) {n : Nat} (hn : n ≤ 17) :
    (s.aloneSteps t n).sc[t] = n := by
  induction n with
  | zero => exact h
  | succ n ih =>
    have hsc := ih (by omega)
    rw [s.aloneSteps_succ_last, State.taskStep_sc_of_le (by omega), hsc]

/-- The stages with the given numbers issued one after the other for a field, each leaving its scratch open (R200). -/
def State.issueStages (s : State) (t : Fin 2) (ks : List Nat) : State :=
  ks.foldl (fun u k => (u.stageStep t k).loseScratch t.castSucc) s

theorem State.FramesOk.issueStages {s : State} (h : s.FramesOk) (t : Fin 2) (ks : List Nat) :
    (s.issueStages t ks).FramesOk := by
  induction ks generalizing s with
  | nil => exact h
  | cons k ks ih =>
    obtain ⟨fits, yiq, rgbout⟩ := (h.stageStep t k).1
    exact ih ⟨fits, yiq, rgbout⟩

/-- A task's steps leave what its stages issued one by one leave. -/
theorem SameFrame.issueStages {s u : State} (h : SameFrame s u) (hs : s.FramesOk) (hu : u.FramesOk) {t : Fin 2}
    (hsc : u.sc[t] = 0) {n : Nat} (hn : n ≤ 17) :
    SameFrame (s.issueStages t (List.range n)) (u.aloneSteps t n) := by
  induction n with
  | zero => exact h
  | succ n ih =>
    have hn' : (u.aloneSteps t n).sc[t] = n := State.aloneSteps_sc hsc (by omega)
    have stage := (ih (by omega)).stageStep (hs.issueStages t _) (hu.aloneSteps t n) t n
    rw [u.aloneSteps_succ_last, State.taskStep_of_le (by omega), hn', State.issueStages, List.range_succ,
      List.foldl_append]
    exact ((stage.setSc t (n + 1)).symm.loseScratch t.castSucc).symm

/-! ## The commands of R200 -/

theorem execAll_cons_of_next {i : Instr} {s u : State} (h : exec i s = .next u) (l : List Instr) :
    execAll (i :: l) s = execAll l u := by
  rw [execAll, h]

/-- The checks of `PIPE.STAGE` look at nothing that a stage writes. -/
theorem State.stageStep_checks (s : State) (t : Fin 2) (k : Nat) :
    (s.stageStep t k).frameEmpty = s.frameEmpty ∧ (s.stageStep t k).badRingLength = s.badRingLength := by
  obtain ⟨m, m', n, e⟩ := s.stageStep_fields t k
  rw [e]
  exact ⟨rfl, rfl⟩

theorem execAll_pipeStages {s : State} (t : Fin 2) (hframe : s.frameEmpty = false) (hring : s.badRingLength = false)
    (ks : List (Fin 17)) (l : List Instr) :
    execAll ((ks.map fun k => Instr.pipeStage t (k.castLE (by decide))) ++ l) s =
      execAll l (s.issueStages t (ks.map Fin.val)) := by
  induction ks generalizing s with
  | nil => rfl
  | cons k ks ih =>
    obtain ⟨hframe', hring'⟩ := s.stageStep_checks t k
    have hexec := exec_pipeStage_of_accepted (k := k.castLE (by decide)) t (Nat.le_of_lt_succ k.isLt) hframe
      fun hbad => Bool.false_ne_true (hring.symm.trans hbad.2)
    exact (execAll_cons_of_next hexec _).trans (ih (hframe'.trans hframe) (hring'.trans hring))

theorem State.issueStages_checks (s : State) (t : Fin 2) (ks : List Nat) :
    (s.issueStages t ks).frameEmpty = s.frameEmpty ∧ (s.issueStages t ks).badRingLength = s.badRingLength := by
  induction ks generalizing s with
  | nil => exact ⟨rfl, rfl⟩
  | cons k ks ih =>
    obtain ⟨hframe, hring⟩ := ih ((s.stageStep t k).loseScratch t.castSucc)
    obtain ⟨hframe', hring'⟩ := s.stageStep_checks t k
    exact ⟨hframe.trans hframe', hring.trans hring'⟩

theorem execAll_stageByStage {s : State} (hframe : s.frameEmpty = false) (hring : s.badRingLength = false) :
    execAll stageByStage s =
      .next ((s.rgb2yiq.issueStages 0 (List.range 17)).issueStages 1 (List.range 17)) := by
  have hnumbers : (List.finRange 17).map Fin.val = List.range 17 := List.map_coe_finRange_eq_range
  obtain ⟨m, e⟩ := s.rgb2yiq_setYiq
  have hframe₀ : s.rgb2yiq.frameEmpty = false := by rw [e]; exact hframe
  have hring₀ : s.rgb2yiq.badRingLength = false := by rw [e]; exact hring
  obtain ⟨hframe₁, hring₁⟩ := s.rgb2yiq.issueStages_checks 0 ((List.finRange 17).map Fin.val)
  rw [stageByStage, List.cons_append, execAll_cons_of_next rfl, execAll_pipeStages 0 hframe₀ hring₀,
    ← List.append_nil (List.map _ _), execAll_pipeStages 1 (hframe₁.trans hframe₀) (hring₁.trans hring₀),
    hnumbers]
  rfl

/-- The fork leaves the converted frame. -/
theorem State.sameFrame_fork (s : State) : SameFrame s.rgb2yiq s.fork :=
  (((((SameFrame.refl s.rgb2yiq).markForked).setSc 0 0).setSc 1 0).loseScratch 0).loseScratch 1

/-- A whole run of task 0 and then a whole run of task 1. -/
def fieldByField : List (Fin 2) := List.replicate 17 0 ++ List.replicate 17 1

theorem State.runTasks_fieldByField (s : State) : s.runTasks fieldByField = (s.aloneSteps 0 17).aloneSteps 1 17 := by
  rw [fieldByField, State.runTasks_append, State.runTasks_replicate, State.runTasks_replicate]

/-- Settles O53: the stages one by one are a run field by field, and every schedule leaves what that one leaves. -/
theorem stagesOneByOneMatchARun : Obligations.StagesOneByOneMatchARun := by
  intro s a l hs ha hb hl
  obtain ⟨hframe, hring⟩ := accepted_of_exec_pipeProcess hs ha hb
  obtain rfl : s.fork = a := Outcome.next.inj ((exec_pipeProcess_of_accepted ⟨hframe, hring⟩).symm.trans ha)
  have ok := hs.rgb2yiq.framesOk
  have ok' := hs.framesOk.framesOk_fork
  have hsc₁ : (s.fork.aloneSteps 0 17).sc[1] = 0 :=
    (ok'.aloneSteps_sc_of_ne (t' := 1) (by decide) 17).trans (s.fork_sc 1)
  have field₀ := s.sameFrame_fork.issueStages ok ok' (s.fork_sc 0) (Nat.le_refl 17)
  have fields := field₀.issueStages (ok.issueStages 0 _) (ok'.aloneSteps 0 17) (t := 1) hsc₁ (Nat.le_refl 17)
  rw [← State.runTasks_fieldByField] at fields
  have finished : (s.fork.runTasks fieldByField).joinReady = true := by
    rw [State.runTasks_fieldByField, State.joinReady_iff]
    exact ⟨((ok'.aloneSteps 0 17).aloneSteps_sc_of_ne (t' := 0) (by decide) 17).trans
      (State.aloneSteps_sc (s.fork_sc 0) (Nat.le_refl 17)), State.aloneSteps_sc (t := 1) hsc₁ (Nat.le_refl 17)⟩
  have same := (fields.trans (ok'.runTasks_sameFrame finished hl)).symm
  exact ⟨_, execAll_stageByStage hframe hring, same.yiq, same.rgbout, same.gen⟩

end Sys2Proof.Machine
end

section
/-! PROOFS. The identity configuration with the subcarrier disabled (46_dispatcher.md R202, 93_implementation_defined.md
U9): every stage but the last is skipped, so a run converts the frame there and back, O52. -/

namespace Sys2Proof.Machine

open Host (Outcome)

/-! ## A run that skips every stage but the last -/

/-- Only the conversion to bytes runs. -/
def Cfg.SkipsToRgb (cfg : Cfg) : Prop := ∀ st, st ≠ .toRgb → stagePred cfg st = false

/-- The configuration of R202 with the subcarrier disabled. -/
theorem skipsToRgb_identity (norm : I32) : Cfg.SkipsToRgb
    { Cfg.zero with ringing := fone, noColorSubcarrier := true, subcarrierAmplitude := norm,
                    subcarrierAmplitudeBack := norm } := by
  have hgain : fne fone fone = false := by decide
  have hzero : fne 0 0 = false := by decide
  intro st hst
  cases st
  case toRgb => exact absurd rfl hst
  case ringing => exact hgain
  case preemphasis => exact hzero
  all_goals rfl

theorem State.sameFrame_aloneSteps_of_skips {s : State} (hcfg : s.cfg.SkipsToRgb) {t : Fin 2} (hsc : s.sc[t] = 0)
    {n : Nat} (hn : n ≤ 16) : SameFrame s (s.aloneSteps t n) := by
  induction n with
  | zero => exact .refl s
  | succ n ih =>
    have before := ih (by omega)
    have hn' : (s.aloneSteps t n).sc[t] = n := State.aloneSteps_sc hsc (by omega)
    obtain ⟨st, hst⟩ : ∃ st, stageList[n]? = some st :=
      ⟨_, List.getElem?_eq_getElem (Nat.lt_of_lt_of_le hn (by decide))⟩
    have hpred : stagePred (s.aloneSteps t n).cfg st = false := by
      rw [before.cfg]
      exact hcfg st (mt (stage_eq_toRgb_iff hst).1 (by omega))
    rw [s.aloneSteps_succ_last, State.taskStep_of_le (by omega), hn', State.stageStep_of_not_pred hst hpred]
    exact before.setSc t (n + 1)

theorem State.stageStep_last (s : State) (t : Fin 2) : s.stageStep t 16 = s.yiq2rgb t := by
  rw [State.stageStep_of_pred (st := .toRgb) rfl rfl, State.runStage_toRgb]

/-- The whole of a task converts its field. -/
theorem State.FramesOk.sameFrame_aloneSteps_of_skips {s : State} (h : s.FramesOk) (hcfg : s.cfg.SkipsToRgb)
    {t : Fin 2} (hsc : s.sc[t] = 0) : SameFrame (s.yiq2rgb t) (s.aloneSteps t 17) := by
  have before := State.sameFrame_aloneSteps_of_skips hcfg hsc (Nat.le_refl 16)
  have hlast : (s.aloneSteps t 16).sc[t] = 16 := State.aloneSteps_sc hsc (by omega)
  rw [s.aloneSteps_succ_last, State.taskStep_of_le (by omega), hlast, ← State.stageStep_last]
  exact (before.stageStep h (h.aloneSteps t 16) t 16).setSc t 17

/-! ## The bytes of a run -/

/-- A finished task has taken its seventeen steps, whatever the schedule. -/
theorem State.FramesOk.runTasks_field {s : State} (h : s.FramesOk) {t : Fin 2} (hsc : s.sc[t] = 0)
    {l : List (Fin 2)} (hl : (s.runTasks l).sc[t] = 17) : SameField t (s.aloneSteps t 17) (s.runTasks l) := by
  have alone := (SameField.refl t s).runTasks h h l
  have hcount : 17 ≤ l.count t := by
    by_contra hless
    have := State.aloneSteps_sc hsc (n := l.count t) (by omega)
    have := alone.sc
    omega
  rwa [State.aloneSteps_eq_of_finished hcount (State.aloneSteps_sc hsc (Nat.le_refl 17))] at alone

theorem SameField.rgboutAt {t : Fin 2} {s u : State} (h : SameField t s u) {y x ch : Nat} (hy : y < s.frameH)
    (hyt : y % 2 = t) (hx : x < s.frameW) (hch : ch < 3) : u.rgboutAt y x ch = s.rgboutAt y x ch := by
  have size : u.frameSize = s.frameSize := by rw [State.frameSize, State.frameSize, h.hw]
  rw [State.rgboutAt, State.rgboutAt, Memory.readIn, Memory.readIn, size, h.pixelIndex,
    h.rgbout _ ⟨y, x, ch, hy, hyt, hx, hch, rfl⟩]

theorem SameFrame.frameW {s u : State} (h : SameFrame s u) : u.frameW = s.frameW := congrArg BitVec.toNat h.width

theorem SameFrame.frameH {s u : State} (h : SameFrame s u) : u.frameH = s.frameH := congrArg BitVec.toNat h.height

theorem SameFrame.rgboutAt {s u : State} (h : SameFrame s u) {y x ch : Nat} (hy : y < s.frameH) (hx : x < s.frameW)
    (hch : ch < 3) : u.rgboutAt y x ch = s.rgboutAt y x ch :=
  (h.sameField ⟨y % 2, by omega⟩).rgboutAt hy rfl hx hch

/-- The pixel converted there and back. -/
def roundTrip (r g b : U8) : U8 × U8 × U8 :=
  yiqToRgb (rgbToYiq r g b).1 (rgbToYiq r g b).2.1 (rgbToYiq r g b).2.2

theorem State.Inv.rgboutAt_run_of_skips {s : State} (h : s.Inv) (hcfg : s.cfg.SkipsToRgb) {l : List (Fin 2)}
    (hl : (s.fork.runTasks l).joinReady = true) {y x ch : Nat} (hy : y < s.frameH) (hx : x < s.frameW)
    (hch : ch < 3) : (s.fork.runTasks l).rgboutAt y x ch =
      rgbComponent (roundTrip (s.rgbinAt y x 0) (s.rgbinAt y x 1) (s.rgbinAt y x 2)) ch := by
  obtain ⟨t, hyt⟩ : ∃ t : Fin 2, y % 2 = t := ⟨⟨y % 2, by omega⟩, rfl⟩
  have ok := h.rgb2yiq.framesOk
  have okFork := h.framesOk.framesOk_fork
  have converted := h.changesOnly_rgb2yiq
  have hW : s.rgb2yiq.frameW = s.frameW := congrArg BitVec.toNat converted.width
  have hH : s.rgb2yiq.frameH = s.frameH := congrArg BitVec.toNat converted.height
  have hskips : s.fork.cfg.SkipsToRgb := by
    rw [s.sameFrame_fork.cfg, converted.cfg]
    exact hcfg
  have conversion := s.sameFrame_fork.stageStep ok okFork t 16
  rw [State.stageStep_last, State.stageStep_last] at conversion
  have task : SameFrame (s.rgb2yiq.yiq2rgb t) (s.fork.aloneSteps t 17) :=
    conversion.trans (okFork.sameFrame_aloneSteps_of_skips hskips (s.fork_sc t))
  have field := okFork.runTasks_field (s.fork_sc t) (State.sc_of_joinReady hl t)
  have bytes := h.rgb2yiq.changesOnly_yiq2rgb t
  have hWbytes : (s.rgb2yiq.yiq2rgb t).frameW = s.frameW := (congrArg BitVec.toNat bytes.width).trans hW
  have hHbytes : (s.rgb2yiq.yiq2rgb t).frameH = s.frameH := (congrArg BitVec.toNat bytes.height).trans hH
  have hx' := hx.trans_eq hWbytes.symm
  have hy' := hy.trans_eq hHbytes.symm
  calc (s.fork.runTasks l).rgboutAt y x ch
      = (s.fork.aloneSteps t 17).rgboutAt y x ch :=
      field.rgboutAt (hy'.trans_eq task.frameH.symm) hyt (hx'.trans_eq task.frameW.symm) hch
    _ = (s.rgb2yiq.yiq2rgb t).rgboutAt y x ch := task.rgboutAt hy' hx' hch
    _ = rgbComponent (yiqToRgb (s.rgb2yiq.yiqAt 0 y x) (s.rgb2yiq.yiqAt 1 y x) (s.rgb2yiq.yiqAt 2 y x)) ch :=
      h.rgb2yiq.rgboutAt_yiq2rgb t (hH ▸ hy) hyt (hW ▸ hx) hch
    _ = rgbComponent (roundTrip (s.rgbinAt y x 0) (s.rgbinAt y x 1) (s.rgbinAt y x 2)) ch := by
      rw [h.yiqAt_rgb2yiq (by decide) hy hx, h.yiqAt_rgb2yiq (by decide) hy hx, h.yiqAt_rgb2yiq (by decide) hy hx]
      rfl

/-- Settles O52: the transcoder's round trip (R136) bounds each channel. -/
theorem identityRun : Obligations.IdentityRun := by
  intro s a h _ hw hh hcfg ha
  have hskips : s.cfg.SkipsToRgb := by
    rw [hcfg]
    exact skipsToRgb_identity _
  have hring := State.badRingLength_of_not_pred (hskips .ringing nofun)
  obtain rfl : s.fork = a :=
    Outcome.next.inj ((exec_pipeProcess_of_accepted ⟨State.frameEmpty_eq_false hw hh, hring⟩).symm.trans ha)
  refine ⟨by rw [s.fork_status], s.fork_sc 0, s.fork_sc 1, fun l hl y hy x hx ch hch => ?_⟩
  obtain ⟨hred, hgreen, hblue, -⟩ := transcoderRoundTrip (s.rgbinAt y x 0) (s.rgbinAt y x 1) (s.rgbinAt y x 2)
  rw [h.rgboutAt_run_of_skips hskips hl hy hx hch]
  interval_cases ch
  · exact hred
  · exact hgreen
  · exact hblue

end Sys2Proof.Machine
end

section
/-! PROOFS. Errors (60_exceptions.md R221, R222, R224): raising one, O9; a command without a cause leaves `STATUS.ERR`
as it is, so that errors are precise, O10; and what a recorded error does until the host clears it, O11. -/

namespace Sys2Proof.Machine

open Host (Outcome)

theorem State.raise_of_error {s : State} (he : s.status.err = true) (e : CommandError) (word : U32) :
    s.raise e word = s :=
  if_pos he

/-- Settles O9: the two branches of `raise`. -/
theorem raiseRecordsTheFirstError : Obligations.RaiseRecordsTheFirstError := fun s e word =>
  ⟨s.raise_eq_recorded e word, fun he => State.raise_of_error he e word⟩

/-! ## Conversions leave the status register -/

theorem State.rgb2yiq_status (s : State) : s.rgb2yiq.status = s.status := by
  obtain ⟨m, e⟩ := s.rgb2yiq_setYiq
  rw [e, State.setYiq_status]

theorem State.yiq2rgb_status (s : State) (t : Nat) : (s.yiq2rgb t).status = s.status := by
  obtain ⟨m, e⟩ := s.yiq2rgb_setRgbout t
  rw [e, State.setRgbout_status]

theorem State.storeField_status (s : State) (t : Nat) (f : FieldRows) : (s.storeField t f).status = s.status := by
  obtain ⟨m, e⟩ := s.storeField_setYiq t f
  rw [e, State.setYiq_status]

/-! ## Commands without a cause -/

/-- The outcome is a next state with the `STATUS.ERR` of `s`. -/
def KeepsErr (s : State) (o : Outcome State Fault Refusal) : Prop :=
  ∃ t, o = .next t ∧ t.status.err = s.status.err

namespace KeepsErr

variable {s : State}

theorem next {t : State} (h : t.status.err = s.status.err) : KeepsErr s (.next t) := ⟨t, rfl, h⟩

theorem of_status {t : State} (h : t.status = s.status) : KeepsErr s (.next t) := next (congrArg Status.err h)

theorem ite {P : Prop} [Decidable P] {a b : Outcome State Fault Refusal} (ha : P → KeepsErr s a)
    (hb : ¬ P → KeepsErr s b) : KeepsErr s (if P then a else b) := by
  split
  · exact ha ‹_›
  · exact hb ‹_›

/-- A check whose failure would be the cause of an error is passed. -/
theorem check {P : Prop} [Decidable P] {a b : Outcome State Fault Refusal} (hP : ¬ P) (hb : KeepsErr s b) :
    KeepsErr s (if P then a else b) :=
  ite (fun h => absurd h hP) fun _ => hb

end KeepsErr

/-- Each operand check asks for the negation of a listed cause (R221), and no other part of a command raises. -/
theorem keepsErr_exec {i : Instr} {s : State} (hc : ∀ e : CommandError, ¬ e.cause i s) : KeepsErr s (exec i s) := by
  cases i with
  | prngSeed c xS => exact .check (fun hx => hc .seed0 ⟨rfl, hx⟩) (.next rfl)
  | iirInit3 c slot | iirLp3 c slot | iirLpa3 c slot =>
    exact .ite (fun _ => .next rfl) fun hslot => absurd ⟨rfl, Nat.not_le.1 hslot⟩ (hc .illegal)
  | fftFwd c | fftInv c =>
    exact .ite (fun _ => .next rfl) fun hlen => absurd ⟨rfl, mt (isPow2_iff _).2 hlen⟩ (hc .fftLen)
  | ldRow c lD p xRow | stRow c p xRow xShift lS => exact .check (fun hr => hc .range ⟨rfl, hr⟩) (.next rfl)
  | cscRgb2yiq => exact .of_status s.rgb2yiq_status
  | cscYiq2rgb fld => exact .of_status (s.yiq2rgb_status _)
  | muxEnc fld xAmp | muxDec fld xAmp => exact .of_status (s.storeField_status _ _)
  | pipeProcess =>
    refine .ite (fun _ => .next rfl) fun hframe => .check (fun hlen => ?_) (.next ?_)
    · exact hc .fftLen ⟨rfl, Bool.eq_false_of_not_eq_true hframe, hlen⟩
    · rw [s.fork_status]
  | pipeStage fld k =>
    refine .check (fun hk => hc .illegal (.inl ⟨rfl, Nat.not_le.1 hk⟩)) ?_
    refine .ite (fun _ => .next rfl) fun hframe => .check (fun ⟨hk, hlen⟩ => ?_) (.of_status ?_)
    · exact hc .fftLen (.inr ⟨rfl, hk, Bool.eq_false_of_not_eq_true hframe, hlen⟩)
    · rw [State.loseScratch_status, State.stageStep_status]
  | _ => exact .next rfl

/-- Settles O10: a cause decides the next state (`exec_of_cause`); without one `STATUS.ERR` stays 0. -/
theorem errorsArePrecise : Obligations.ErrorsArePrecise := by
  refine ⟨⟨rfl, rfl, rfl, rfl⟩, fun i s he => ?_⟩
  by_cases hc : ∃ e : CommandError, e.cause i s
  · obtain ⟨e, hcause⟩ := hc
    have hexec := exec_of_cause he hcause
    exact ⟨_, hexec, iff_of_true rfl ⟨e, hcause⟩,
      fun e' hcause' => Outcome.next.inj (hexec.symm.trans (exec_of_cause he hcause'))⟩
  · obtain ⟨t, ht, herr⟩ := keepsErr_exec (not_exists.1 hc)
    exact ⟨t, ht, iff_of_false (by rw [herr, he]; exact Bool.false_ne_true) hc,
      fun e hcause => absurd ⟨e, hcause⟩ hc⟩

/-! ## A recorded error -/

/-- `NOP` changes nothing (R210) and every other word is dropped. -/
theorem State.issue_of_recorded {s : State} (hb : s.status.busy = false) (he : s.status.err = true) (w : U32) :
    s.issue w = .next s := by
  by_cases hw : decode w = some .nop
  · exact State.issue_of_decode hb hw (.inr rfl)
  · exact State.issue_of_error hb he hw

/-- The host's write of 1 to `STATUS.ERR` while the block is idle (R224). -/
theorem State.hostWrite_clearsError {s : State} (hb : s.status.busy = false) {v : PortWord} (hv : v.getLsbD 2 = true) :
    let t := s.hostWrite .ctl 1 v
    t.status.busy = false ∧ t.status.err = false ∧ t.status.errcode = 0 ∧ t.errinfo = 0 := by
  have hbit : (v.setWidth 32).getLsbD 2 = true := by rw [BitVec.getLsbD_setWidth, hv]; rfl
  have hwrite : s.hostWrite .ctl 1 v = s.writeStatus (v.setWidth 32) := rfl
  rw [hwrite, State.writeStatus_eq, hb, hbit]
  exact ⟨rfl, Bool.and_false _, rfl, rfl⟩

/-- Settles O11: after the clear the block is idle without an error, so no word is dropped. -/
theorem stickyErrorAndRecovery : Obligations.StickyErrorAndRecovery := by
  refine ⟨fun _ => rfl, fun s hb he => ⟨State.issue_of_recorded hb he, fun v hv => ?_⟩⟩
  obtain ⟨hbusy, herr, hcode, hinfo⟩ := State.hostWrite_clearsError hb hv
  exact ⟨herr, hcode, hinfo, fun w i hw => State.issue_of_decode hbusy hw (.inl herr)⟩

end Sys2Proof.Machine
end

section
/-! PROOFS. Row transfers (47_mem_sys.md R211, R212): a row of a plane into a line buffer, O41, and back, O42. -/

namespace Sys2Proof.Machine

/-! ## Lists read by their index -/

theorem getD_drop {α : Type} (l : List α) (k n : Nat) (d : α) : (l.drop k).getD n d = l.getD (k + n) d := by
  simp [List.getD_eq_getElem?_getD]

/-! ## A row of the planar buffer -/

/-- A list stored into the first columns of an in-frame row is read back. -/
theorem State.Inv.yiqAt_storePlaneRow {s : State} (h : s.Inv) {p y n : Nat} (hp : p < 3) (hy : y < s.frameH)
    {vs : List I32} (hvs : vs.length ≤ s.frameW) (hn : n < vs.length) :
    (s.storePlaneRow p y vs).yiqAt p y n = vs.getD n 0 := by
  have hin : s.yiqIndex p y n < s.frameSize := (plane_row_bound hp hy (hn.trans_le hvs)).trans_le h.frame_le
  have hread : (s.storePlaneRow p y vs).yiqAt p y n = (s.storePlaneRow p y vs).yiq.read (s.yiqIndex p y n) :=
    (h.storePlaneRow p y vs).yiqAt_eq hp hy (hn.trans_le hvs)
  have hcol := s.yiqIndex_add p y n
  rw [hread, State.storePlaneRow_yiq, Memory.read_writeFrom _ _ _ _ _ h.yiq.wf, if_pos (by omega), ← hcol,
    Nat.add_sub_cancel_left]

/-- Storing a line buffer's elements from `d` on into an in-frame row: column `n - d` takes element `n`, and no other
column changes. -/
theorem State.Inv.storePlaneRow_drop {s : State} (h : s.Inv) (c : CtxId) (lS : LineId) {p y : Nat} (hp : p < 3)
    (hy : y < s.frameH) (d : Nat) :
    let t := s.storePlaneRow p y (((s.lineSlice c lS s.frameW).drop d).map ftoI32)
    (∀ n, d ≤ n → n < s.frameW → t.yiqAt p y (n - d) = ftoI32 (s.lineAt c lS n)) ∧
      ChangesOnly { yiq := fun i => ∃ n, d ≤ n ∧ n < s.frameW ∧ i = s.yiqIndex p y (n - d) } s t := by
  have hdrop : ((s.lineSlice c lS s.frameW).drop d).length = s.frameW - d := by simp
  have hlen := (List.length_map ftoI32).trans hdrop
  refine ⟨fun n hdn hn => ?_, changesOnly_storePlaneRow fun x hx => ⟨d + x, Nat.le_add_right d x, by omega, ?_⟩⟩
  · rw [h.yiqAt_storePlaneRow hp hy (by omega) (by omega), getD_map_of_lt ftoI32 (by omega), getD_drop,
      Nat.add_sub_cancel' hdn, s.getD_lineSlice c lS hn 0]
  · rw [Nat.add_sub_cancel_left, s.yiqIndex_add]

/-! ## The commands -/

/-- Settles O41: the stored list is the row converted; a check that fails is the command's cause of an error. -/
theorem loadRow : Obligations.LoadRow := by
  intro c lD p xRow s h
  refine ⟨fun hy hw => ?_, fun hr he => exec_of_cause he ⟨rfl, hr⟩⟩
  have hlen : ((s.planeRow p s.x[xRow].toNat).map fofI32).length = s.frameW := by simp
  have hok : ¬ (s.frameH ≤ s.x[xRow].toNat ∨ s.lineSize < s.frameW) :=
    not_or.2 ⟨Nat.not_le.2 hy, Nat.not_lt.2 hw⟩
  refine ⟨_, if_neg hok, fun n hn => ?_, changesOnly_storeLine fun n hn => ⟨rfl, rfl, hlen ▸ hn⟩⟩
  rw [s.lineAt_storeLine c lD _ ((h.contexts c).lines lD).1 (hlen.symm ▸ hn) (hlen.trans_le hw),
    getD_map_of_lt fofI32 (by simpa) 0, s.getD_planeRow p _ hn]

/-- Settles O42: the stored list is the slice without its first `d` elements, so column `n - d` takes element `n`. -/
theorem storeRow : Obligations.StoreRow := by
  intro c p xRow xShift lS s h y d
  refine ⟨fun hy hw hd => ?_, fun hr he => exec_of_cause he ⟨rfl, hr⟩⟩
  have hok : ¬ (s.frameH ≤ y ∨ s.lineSize < s.frameW ∨ s.frameW < d) :=
    not_or.2 ⟨Nat.not_le.2 hy, not_or.2 ⟨Nat.not_lt.2 hw, Nat.not_lt.2 hd⟩⟩
  exact ⟨_, if_neg hok, h.storePlaneRow_drop c lS p.isLt hy d⟩

end Sys2Proof.Machine
end
